-- ==== Sys2Proof/Word.lean ====
section
/-! DEFINITION. The words of the Colust: widths of registers, bytes and addresses (R3, R76). -/

namespace Sys2Proof

/-- A 32-bit register value (Table WORD-1). -/
abbrev Word := BitVec 32

/-- A byte of memory. -/
abbrev Byte := BitVec 8

/-- A 64-bit value: an instruction word, a register pair, an address (R77, R87). -/
abbrev DWord := BitVec 64

end Sys2Proof
end

