-- ==== Sys2Proof/Machine/Sparse.lean ====
section
/-! DEFINITION. Finite maps held as plain data: lists of number-and-value pairs with keys strictly rising. A sparse map
also never lists its default, so that equal maps are equal lists. -/

namespace Sys2Proof.Machine

/-- A finite map from numbers. -/
abbrev Tab (α : Type) := List (Nat × α)

/-- The value listed for a key. -/
def tabFind {α : Type} : Tab α → Nat → Option α
  | [], _ => none
  | (k', v) :: rest, k => if k = k' then some v else tabFind rest k

/-- Lists a value for a key. -/
def tabPut {α : Type} : Tab α → Nat → α → Tab α
  | [], k, v => [(k, v)]
  | (k', v') :: rest, k, v =>
    if k < k' then (k, v) :: (k', v') :: rest
    else if k = k' then (k, v) :: rest
    else (k', v') :: tabPut rest k v

/-- Unlists a key. -/
def tabDel {α : Type} : Tab α → Nat → Tab α
  | [], _ => []
  | (k', v') :: rest, k => if k = k' then tabDel rest k else (k', v') :: tabDel rest k

/-- Changes the value listed for a key, if any. -/
def tabMod {α : Type} (t : Tab α) (k : Nat) (f : α → α) : Tab α :=
  match tabFind t k with
  | some v => tabPut t k (f v)
  | none => t

/-- Changes every value. -/
def tabMap {α : Type} (t : Tab α) (f : Nat → α → α) : Tab α := t.map fun (k, v) => (k, f k v)

/-- The values in order of their keys. -/
def tabVals {α : Type} (t : Tab α) : List α := t.map (·.2)

/-- The keys in rising order. -/
def tabKeys {α : Type} (t : Tab α) : List Nat := t.map (·.1)

/-- Reads a sparse map with default `d`. -/
def spGet {α : Type} (d : α) (t : Tab α) (k : Nat) : α := (tabFind t k).getD d

/-- Writes a sparse map with default `d`: writing the default unlists the key. -/
def spSet {α : Type} [DecidableEq α] (d : α) (t : Tab α) (k : Nat) (v : α) : Tab α :=
  if v = d then tabDel t k else tabPut t k v

/-- Keys strictly rise. -/
def keysRise {α : Type} : Tab α → Bool
  | [] => true
  | [_] => true
  | (a, _) :: (b, v) :: rest => a < b && keysRise ((b, v) :: rest)

/-- The canonical form of a sparse map: keys strictly rise and no entry equals the default. -/
def spWf {α : Type} [DecidableEq α] (d : α) (t : Tab α) : Bool := keysRise t && t.all fun (_, v) => v != d

/-- Inserts a number into a strictly rising list. -/
def setIns : List Nat → Nat → List Nat
  | [], k => [k]
  | a :: rest, k => if k < a then k :: a :: rest else if k = a then a :: rest else a :: setIns rest k

/-- Removes a number from a list. -/
def setDel (l : List Nat) (k : Nat) : List Nat := l.filter (· != k)

/-- Reads `n` keys from `k` on. -/
def spRange {α : Type} (d : α) (t : Tab α) (k n : Nat) : List α := (List.range n).map fun i => spGet d t (k + i)

/-- Writes values to successive keys. -/
def spPutList {α : Type} [DecidableEq α] (d : α) : Tab α → Nat → List α → Tab α
  | t, _, [] => t
  | t, k, v :: vs => spPutList d (spSet d t k v) (k + 1) vs

/-- A little-endian number out of bytes (R3). -/
def natOfBytes : List Byte → Nat
  | [] => 0
  | b :: bs => b.toNat + 256 * natOfBytes bs

/-- The little-endian bytes of a number. -/
def bytesOfNat : Nat → Nat → List Byte
  | 0, _ => []
  | n + 1, v => BitVec.ofNat 8 v :: bytesOfNat n (v / 256)

/-- The lowest of a list of numbers satisfying a test, in list order. -/
def firstWith (l : List Nat) (p : Nat → Bool) : Option Nat := l.find? p

/-- The two's-complement reading of the low `w` bits of a number. -/
def toSigned (w v : Nat) : Int :=
  let x := v % 2 ^ w
  if x < 2 ^ (w - 1) then (x : Int) else (x : Int) - 2 ^ w

/-- The low `w` bits of an integer. -/
def ofInt (w : Nat) (v : Int) : Nat := (v % (2 ^ w : Int)).toNat

/-- A number rounded up to a multiple. -/
def roundUp (v m : Nat) : Nat := (v + m - 1) / m * m

/-- The larger of two numbers or of a list. -/
def maxList (l : List Nat) : Nat := l.foldl max 0

end Sys2Proof.Machine
end

