-- ==== Sys2Proof/Syntax.lean ====
section
/-! DEFINITION. The instruction words of the Colust (03_words.md, 12 to 14) and the events of its other units: one
constructor of `Instr` for each row of spec/opcode_table.json. A word's fields are decoded here into names; an event
carries the identifiers of what it acts on and whatever the world outside the device supplies to it. -/

namespace Sys2Proof

/-- A v register, predicate or mask number as it stands in a word's 8-bit field. -/
abbrev Reg := BitVec 8

/-- A register operand of Form T, I, L or M: `s` is its S bit (R80, R88). -/
structure Opnd where
  s : Bool
  n : Reg
  deriving DecidableEq, Repr

/-- The header of a full word (Table WORD-7) without OPC. -/
structure Hdr where
  stall : BitVec 3
  setc : BitVec 3
  waitm : BitVec 6
  ge : Bool
  gp : BitVec 4
  gs : Bool
  deriving DecidableEq, Repr

/-- Rounding codes 0 to 4 (R105, R116). -/
inductive RM where
  | rne | rz | ru | rd | dyn
  deriving DecidableEq, Repr

/-- MOD-F (Table WORD-14). -/
structure FMod where
  absB : Bool
  absA : Bool
  negB : Bool
  negA : Bool
  ftz : Bool
  rm : RM
  deriving DecidableEq, Repr

/-- MOD-P (Table WORD-14). -/
structure PMod where
  negB : Bool
  negA : Bool
  ftz : Bool
  rm : RM
  deriving DecidableEq, Repr

/-- MOD-F (fma) and MOD-P (fma) (Table WORD-14). -/
structure FmaMod where
  negC : Bool
  negP : Bool
  ftz : Bool
  rm : RM
  deriving DecidableEq, Repr

/-- Comparison codes of MOD-C (Table WORD-14). -/
inductive Cond where
  | eq | ne | lt | le | gt | ge | ord | uno
  deriving DecidableEq, Repr

/-- The destination of ISET and FSET: a predicate (VD = 0) or a register (VD = 1) (R355). -/
inductive SetDst where
  | pred (p : BitVec 4)
  | reg (d : Opnd)
  deriving DecidableEq, Repr

/-- REDL and SCANL operations (R105). -/
inductive LaneOp where
  | add | min | max | umin | umax | and | or | xor | fadd | fmin | fmax
  deriving DecidableEq, Repr

/-- ATOM and RED operations (R105, Table ORD-5). -/
inductive AtomOp where
  | add | sub | min | max | umin | umax | and | or | xor | xchg | fadd
  deriving DecidableEq, Repr

/-- What an atomic of a peer does (R305): an operation of Table ORD-5, or ATOMCAS against a comparison value. -/
inductive InboundOp where
  | op (o : AtomOp)
  | cas (cmp : DWord)
  deriving DecidableEq, Repr

/-- Memory spaces (Table MEM-1). -/
inductive Space where
  | gl | sp | rs | cb
  deriving DecidableEq, Repr

/-- Access sizes of Form M (R88). -/
inductive Size where
  | b8 | b16 | b32 | b64 | b128
  deriving DecidableEq, Repr

/-- Order codes (Table ORD-4). -/
inductive Order where
  | rlx | acq | rel | ar
  deriving DecidableEq, Repr

/-- Fence scopes (Table ORD-2). -/
inductive Scope where
  | gang | crew | core | die | dev | sys
  deriving DecidableEq, Repr

/-- SHFL modes (R397). -/
inductive ShflMode where
  | idx | up | down | xor
  deriving DecidableEq, Repr

/-- VOTE modes (R408). -/
inductive VoteMode where
  | mask | every | some | same | count
  deriving DecidableEq, Repr

/-- Conversion type codes 0 to 12 (Table WORD-15). -/
inductive CvtType where
  | fp32 | fp16 | bf16 | e4m3b8 | e5m2b16 | s8 | s16 | s32 | s64 | un8 | un16 | un32 | un64
  deriving DecidableEq, Repr

/-- COPY kinds 0 to 5 (Table TENS-6). -/
inductive CopyKind where
  | plain | t8 | t16 | gath | mc | rel
  deriving DecidableEq, Repr

/-- COPYW kinds 0, 5, 6 and 7 (R216). -/
inductive CopywKind where
  | plain | rel | glb | glbRel
  deriving DecidableEq, Repr

/-- Layout tags 0 to 4 (Table TENS-2). -/
inductive LayoutTag where
  | row | col | tile | ztile | kpack
  deriving DecidableEq, Repr

/-- The three forms of BARARV (R224). The plain form does not read A, which Table TENS-9 does not require to be 0. -/
inductive BarForm where
  | plain (d a : Opnd)
  | x (d : Opnd) (a : Opnd)
  | r (a : Opnd)
  deriving DecidableEq, Repr

/-- QSCR formats (R246). -/
inductive QFmt where
  | e4m3b8 | e5m2b16 | bf16
  deriving DecidableEq, Repr

/-- Texture filters (R269). -/
inductive Filter where
  | nearest | bilin | trilin
  deriving DecidableEq, Repr

/-- The memory operand of Form M (R88). -/
structure MAddr where
  space : Space
  size : Size
  a : Opnd
  off : BitVec 11
  deriving DecidableEq, Repr

/-- The fields of Form B (R88). -/
structure BForm where
  greg : Reg
  gbit : BitVec 5
  gsense : Bool
  gen : Bool
  off : BitVec 20
  deriving DecidableEq, Repr

/-- Pair codes (Table WORD-10). -/
inductive PairOp where
  | iadd | isub | imin | imax | mov | and | or | xor | shl | shr | sar | not
  | fadd | fsub | fmul | fmin | fmax | hadd2 | hmul2 | badd2 | bmul2
  deriving DecidableEq, Repr

/-- One slot of a pair word (Table WORD-9); `neg` and `abs` are M2 bits 0 and 1 of an F code. -/
structure Slot where
  op : PairOp
  d : Reg
  a : Reg
  ge : Bool
  gp : BitVec 4
  gs : Bool
  neg : Bool
  abs : Bool
  deriving DecidableEq, Repr

/-- What a trap writes (R280): cause, SR.TADDRHI:SR.TADDRLO, SR.TINFO; `next` marks the return point after the word. -/
structure TrapInfo where
  cause : BitVec 8
  addr : DWord
  info : Word
  next : Bool
  deriving DecidableEq, Repr

/-- What a column-bank transfer meets on its bus and in the array (R155, R156): `fails` failed tries, the first at beat `beat`;
where it is made by deep retry, `deep` names the beats that fail, each with the attempt at which it passes (none: it never
does); `cell` is a cell error in one of the transfer's sectors, counted from its first, with its syndrome, `true` for a
double-bit error. -/
structure BusFate where
  fails : Nat
  beat : Nat
  deep : List (Nat × Option Nat)
  cell : Option (Nat × Nat × Bool)
  deriving DecidableEq, Repr

/-- A resource that the device may power-gate (R160). -/
inductive GateRes where
  | l1Way (core way : Nat)
  | llcWay (pos way : Nat)
  | spTile (core tile : Nat)
  | regSram (core : Nat)
  | accTiles (core slice : Nat)
  deriving DecidableEq, Repr

/-- What a CXL.cache request of the host does to a line of the host-line cache (R197): recalls it, or changes the bytes
of the line to the host's. -/
inductive SnoopKind where
  | recall
  | change (bytes : List Byte)
  deriving DecidableEq, Repr

/-- A requester of inbound traffic (R194). -/
inductive Requester where
  | pcie (rid : Nat)
  | cxlMem
  | peer (port : Nat)
  deriving DecidableEq, Repr

/-- The manifest (R22): does its signature verify; the product code and the binding to the device identity; by position, the
expected die kind (Table PKG-4), the lowest accepted revisions, the disable masks in the layouts of CFG.HEALTH and CFG.CHAN and
the default slope; by 16 × position + core, those in the layouts of CFG.CORE and CFG.TEX; the temperatures; the links that must
train, as position and side. -/
structure Manifest where
  sig : List Byte
  product : List Byte
  binding : List Byte
  kinds : List (Nat × BitVec 2)
  minDie : List (Nat × BitVec 8)
  minBase : List (Nat × BitVec 8)
  offHealth : List (Nat × BitVec 32)
  offChan : List (Nat × BitVec 24)
  offCore : List (Nat × Word)
  offTex : List (Nat × BitVec 6)
  slope : List (Nat × BitVec 8)
  throttle : Nat
  trip : Nat
  links : List (Nat × Nat)
  deriving DecidableEq, Repr

/-- A firmware image in the flash: its bytes and its Ed25519 signature (R25, R310). -/
structure Image where
  body : List Byte
  sig : List Byte
  deriving DecidableEq, Repr

/-- What the operator installs through the root of trust in refuge mode (R30): images in load order, or a manifest. -/
inductive Install where
  | images (is : List Image)
  | manifest (m : Manifest)
  deriving DecidableEq, Repr

/-- One constructor for each row of spec/opcode_table.json. -/
inductive Instr where
  -- the package, its bring-up and its clocks (01_package.md)
  | powerOn
  | failedStart (cause : BitVec 8) (detail : Nat)
  | cfgBootokWrite (v : Word)
  | cfgBootctlWrite (v : Word)
  | cfgSlopeWrite (pos : Nat) (v : Word)
  | cfgRegisterWrite (addr v : Word)
  | startGovernorGrant (pos : Nat)
  | canaryWarning (pos core : Nat)
  | canaryDecay (pos core : Nat)
  | stackLevelEvaluation (pos temp below : Nat)
  | dieThermalTrip (pos temp : Nat)
  | dieReturnToService (pos temp : Nat)
  | powerSampleTick (mw : List (Nat × Nat × Nat))
  | linkRetirement (pos side : Nat)
  -- issue, traps (02_execution.md, 10_traps.md)
  | bundleRegroup (pos core slice : Nat)
  | bundleIssue (pos core slice : Nat)
  | trapEntry (gang lane : Nat) (t : TrapInfo)
  | lateTrapDelivery (gang lane : Nat)
  | crewHalt (crew : Nat)
  -- the scheduler (02_execution.md)
  | dependenceWordCheck (shift : Nat)
  | startdtReached (shift : Nat)
  | deviceQueueTake (part queue : Nat)
  | crewDispatch (shift : Nat)
  | prologueBinding (crew : Nat)
  | gangStart (crew : Nat)
  | attachingGangStart (crew : Nat)
  | gangAttach (crew : Nat)
  | shrinkRequest (crew n : Nat)
  | crewRetirement (crew : Nat)
  | shiftCompletion (shift : Nat)
  | timeSliceExpiry (pos pair : Nat)
  | hotDieMigration (crew : Nat)
  | tileWaitTimeout (gang : Nat)
  | preemptionHalt (crew : Nat)
  | contextSave (crew : Nat)
  | contextRestore (crew pos core : Nat)
  -- memory events (05_memory.md, 06_ordering.md)
  | loadDataReturn (acc : Nat)
  | storeAppliedAtHome (acc : Nat)
  | readLeaseExpiry (core line : Nat)
  | exclusiveLeaseGrant (core line : Nat)
  | exclusiveLeaseRecall (line : Nat)
  | exclusiveLeaseExpiry (line : Nat)
  | monitorWake (mon : Nat)
  | monitorTimeout (mon : Nat)
  | copyPartLand (copy part : Nat)
  | copyFault (copy part : Nat)
  | relayoutTileConversion (pos : Nat)
  | engineOperationRetire (pos core slice : Nat)
  | cbTransfer (pos core addr : Nat) (fate : BusFate)
  | backfillBegin (pos core : Nat)
  | backfillUnitMove (pos core : Nat) (lost : List Nat)
  | powerGatedWake (r : GateRes)
  | cfgFattrWrite (v : Word)
  | cfgXinvcmdWrite (v : Word)
  -- rendering (09_rendering.md)
  | passOpen (v : Word)
  | passClose (v : Word)
  | regionFlushGo (v : Word)
  | claimEntryWrite (word : Nat) (v : Word)
  | packetDelivery (pkt pos : Nat)
  | packetRelease (region : Nat)
  | microTriangleEnqueue (pos queue : Nat)
  | fragmentBlend (x y : Nat)
  | regionCacheEviction (line : Nat)
  | tracefCompletion (copy part : Nat)
  -- the host, partitions, peers, time (11_outside.md)
  | sqtailDoorbell (fn : Nat) (v : Word)
  | queuePairEnable (fn : Nat)
  | queuePairDisable (fn : Nat)
  | completionEntryPost (fn : Nat)
  | inboundWrite (req : Requester) (pa : Nat) (bytes : List (Option Byte))
  | inboundRead (req : Requester) (pa n : Nat)
  | bar2ConfigAccess (write : Bool) (off size : Nat) (v : Word)
  | hostStoreAcknowledge (acc : Nat)
  | peerPortFailure (port : Nat)
  | timeFlit (port : Nat) (dt : DWord)
  | ptpMessage (sec : Nat)
  | ownershipWrite (addr v : Word)
  | partitionEnable (part : Nat)
  | partitionDisable (part : Nat)
  | partitionSuspend (part : Nat)
  | partitionResume (part : Nat)
  | vfMapWrite (vf : Nat) (v : Word)
  | policyInstall (part : Nat)
  | attestationRequest (fn part : Nat)
  | debugStopCommand (fn : Nat)
  | debugResumeCommand (fn : Nat)
  | debugStepCommand (fn bar : Nat)
  | debugArmCommand (fn : Nat)
  | debugDisarmCommand (fn : Nat)
  | debugStopRecord (fn : Nat)
  -- releases of held fibres
  | waitkRelease (gang k : Nat)
  | barwaitRelease (gang lane : Nat)
  | bararvCredit (crew bar : Nat)
  | ldcFill (crew granule : Nat)
  | fenceRelease (gang lane : Nat)
  | hinvCompletion (gang lane : Nat)
  | detachCompletion (gang : Nat)
  | sleepExpiry (gang lane : Nat)
  | rsTargetRestored (acc : Nat)
  -- the pair word (R90 to R92)
  | pairWord (stall : BitVec 3) (s0 s1 : Slot)
  -- full words, in the table's order (12 to 14)
  | atom (h : Hdr) (op : AtomOp) (d : Reg) (a : Opnd) (sp : Space) (wide : Bool) (ord : Order)
  | atomcas (h : Hdr) (d : Reg) (a b : Opnd) (sp : Space) (wide : Bool) (ord : Order)
  | attach (h : Hdr) (d : Opnd)
  | badd2 (h : Hdr) (m : PMod) (d a b : Opnd)
  | bmul2 (h : Hdr) (m : PMod) (d a b : Opnd)
  | bfma2 (h : Hdr) (m : FmaMod) (d a b : Opnd)
  | bararv (h : Hdr) (f : BarForm) (bar : BitVec 5)
  | barinit (h : Hdr) (a : Opnd) (member : Bool) (bar : BitVec 5)
  | bartst (h : Hdr) (p : BitVec 4) (a : Opnd) (bar : BitVec 5)
  | barwait (h : Hdr) (a : Opnd) (bar : BitVec 5)
  | bcast (h : Hdr) (d a : Reg) (b : Opnd)
  | bfx (h : Hdr) (signed : Bool) (d a b : Opnd)
  | bfi (h : Hdr) (d a b : Opnd)
  | bkpt (h : Hdr) (code : BitVec 8)
  | br (h : Hdr) (f : BForm)
  | brev (h : Hdr) (d a : Opnd)
  | brx (h : Hdr) (a : Opnd)
  | call (h : Hdr) (f : BForm)
  | cbld (h : Hdr) (a : Opnd) (slot : BitVec 8)
  | cfgrd (h : Hdr) (d a : Opnd)
  | cfgwr (h : Hdr) (a b : Opnd)
  | clz (h : Hdr) (d a : Opnd)
  | compress (h : Hdr) (d : Reg) (a : Opnd) (p : BitVec 4)
  | copy (h : Hdr) (k : CopyKind) (d a : Opnd) (b : Reg) (bar : BitVec 5)
  | copyb (h : Hdr) (d a b : Opnd) (out spSide rel : Bool) (bar : BitVec 5)
  | copyw (h : Hdr) (k : CopywKind) (d a b : Opnd) (bar : BitVec 5)
  | cvt (h : Hdr) (src dst : CvtType) (rm : RM) (ftz : Bool) (d a : Reg)
  | detach (h : Hdr)
  | elect (h : Hdr) (p : BitVec 4)
  | emitf (h : Hdr) (a : Reg) (tgt : BitVec 3) (n : BitVec 3)
  | emitm (h : Hdr) (a b : Reg)
  | endFibre (h : Hdr)
  | eret (h : Hdr)
  | expand (h : Hdr) (d : Reg) (a : Opnd) (p : BitVec 4)
  | fadd (h : Hdr) (m : FMod) (d a b : Opnd)
  | fmul (h : Hdr) (m : FMod) (d a b : Opnd)
  | fsub (h : Hdr) (m : FMod) (d a b : Opnd)
  | frcp (h : Hdr) (ftz : Bool) (d a : Opnd)
  | frsq (h : Hdr) (ftz : Bool) (d a : Opnd)
  | fsqrt (h : Hdr) (ftz : Bool) (d a : Opnd)
  | fex2 (h : Hdr) (ftz : Bool) (d a : Opnd)
  | flg2 (h : Hdr) (ftz : Bool) (d a : Opnd)
  | fsin (h : Hdr) (ftz : Bool) (d a : Opnd)
  | fcos (h : Hdr) (ftz : Bool) (d a : Opnd)
  | fence (h : Hdr) (scope : Scope)
  | ffma (h : Hdr) (m : FmaMod) (d a b : Opnd)
  | fmax (h : Hdr) (m : FMod) (d a b : Opnd)
  | fmin (h : Hdr) (m : FMod) (d a b : Opnd)
  | fork (h : Hdr) (d : Reg) (a : Opnd) (imm : BitVec 17)
  | frnd (h : Hdr) (absA negA ftz : Bool) (rm : RM) (d a : Opnd)
  | fset (h : Hdr) (c : Cond) (d : SetDst) (a b : Opnd)
  | hadd2 (h : Hdr) (m : PMod) (d a b : Opnd)
  | hfma2 (h : Hdr) (m : FmaMod) (d a b : Opnd)
  | hmul2 (h : Hdr) (m : PMod) (d a b : Opnd)
  | hinv (h : Hdr) (a : Opnd)
  | hstat (h : Hdr) (acq : Bool) (d a : Opnd)
  | iabs (h : Hdr) (d a : Opnd)
  | iadd (h : Hdr) (d a b : Opnd)
  | iaddi (h : Hdr) (d a : Opnd) (imm : BitVec 17)
  | isub (h : Hdr) (d a b : Opnd)
  | iadd64 (h : Hdr) (d a b : Opnd)
  | iadd64i (h : Hdr) (d a : Opnd) (imm : BitVec 17)
  | imad (h : Hdr) (d a b : Opnd)
  | imul (h : Hdr) (d a b : Opnd)
  | imulh (h : Hdr) (u : Bool) (d a b : Opnd)
  | imax (h : Hdr) (u : Bool) (d a b : Opnd)
  | imin (h : Hdr) (u : Bool) (d a b : Opnd)
  | ipa (h : Hdr) (flat : Bool) (c : BitVec 2) (d : Reg) (a : Opnd)
  | iset (h : Hdr) (c : Cond) (u : Bool) (d : SetDst) (a b : Opnd)
  | iseti (h : Hdr) (c : Cond) (u : Bool) (p : BitVec 4) (a : Opnd) (imm : BitVec 17)
  | joinMask (h : Hdr) (k : BitVec 4)
  | leaveMask (h : Hdr) (k : BitVec 4)
  | kmovToScalar (h : Hdr) (hi : Bool) (d : Reg) (k : BitVec 4)
  | kmovToMask (h : Hdr) (hi : Bool) (a : Reg) (k : BitVec 4)
  | ld (h : Hdr) (d : Reg) (m : MAddr) (ord : Order)
  | ldc (h : Hdr) (d : Reg) (m : MAddr) (clr : Bool)
  | ldt (h : Hdr) (d : Reg) (a : Opnd) (col rs : Bool)
  | matchLanes (h : Hdr) (hi : Bool) (d a : Opnd)
  | mma (h : Hdr) (tile : BitVec 4) (reuse : Bool) (a : Reg) (b : Reg) (f : Reg)
  | mmaz (h : Hdr) (tile : BitVec 4)
  | mov (h : Hdr) (d a : Opnd)
  | movhi (h : Hdr) (d a : Opnd) (imm : BitVec 16)
  | movi (h : Hdr) (d : Opnd) (imm : BitVec 26)
  | mwait (h : Hdr) (wide : Bool) (d : Reg) (a b : Opnd)
  | nop (h : Hdr)
  | and (h : Hdr) (d a b : Opnd)
  | andi (h : Hdr) (d a : Opnd) (imm : BitVec 17)
  | or (h : Hdr) (d a b : Opnd)
  | ori (h : Hdr) (d a : Opnd) (imm : BitVec 17)
  | xor (h : Hdr) (d a b : Opnd)
  | xori (h : Hdr) (d a : Opnd) (imm : BitVec 17)
  | not (h : Hdr) (d a : Opnd)
  | pack (h : Hdr) (t : CvtType) (s32 hi : Bool) (d a b : Reg)
  | plop (h : Hdr) (d a b : BitVec 4) (table : BitVec 4)
  | pmov (h : Hdr) (d : Opnd)
  | pmovTop (h : Hdr) (a : Opnd)
  | popc (h : Hdr) (d a : Opnd)
  | pref (h : Hdr) (llc : Bool) (a : Opnd) (off : BitVec 11)
  | qld (h : Hdr) (d : Reg) (a : Opnd) (tile : BitVec 4) (lg : BitVec 2)
  | qst (h : Hdr) (d : Reg) (a : Opnd) (tile : BitVec 4) (lg : BitVec 2)
  | qscr (h : Hdr) (d : Reg) (tile : BitVec 4) (f : QFmt)
  | rdsr (h : Hdr) (d : Opnd) (num : BitVec 8)
  | rdx (h : Hdr) (d : Reg) (n : BitVec 1) (imm : BitVec 17)
  | wrx (h : Hdr) (n : BitVec 1) (a : Opnd) (imm : BitVec 17)
  | setix (h : Hdr) (n : BitVec 1) (a : Opnd) (imm : BitVec 17)
  | red (h : Hdr) (op : AtomOp) (d : Reg) (a : Opnd) (sp : Space) (wide : Bool) (ord : Order)
  | redl (h : Hdr) (op : LaneOp) (d : Opnd) (a : Reg)
  | scanl (h : Hdr) (op : LaneOp) (excl : Bool) (d a : Reg)
  | relayout (h : Hdr) (a b : Opnd) (tag : LayoutTag)
  | ret (h : Hdr)
  | sample (h : Hdr) (f : Filter) (lod : Bool) (d : Reg) (a : Opnd) (b : Reg)
  | sar (h : Hdr) (d a b : Opnd)
  | sari (h : Hdr) (d a : Opnd) (imm : BitVec 17)
  | shl (h : Hdr) (d a b : Opnd)
  | shli (h : Hdr) (d a : Opnd) (imm : BitVec 17)
  | shr (h : Hdr) (d a b : Opnd)
  | shri (h : Hdr) (d a : Opnd) (imm : BitVec 17)
  | sel (h : Hdr) (d a b : Opnd) (p : BitVec 4) (sense : Bool)
  | shfl (h : Hdr) (mode : ShflMode) (d a : Reg) (b : Opnd)
  | sleep (h : Hdr) (a : Opnd)
  | slideup (h : Hdr) (d a : Reg) (b : Opnd)
  | slidedn (h : Hdr) (d a : Reg) (b : Opnd)
  | st (h : Hdr) (d : Reg) (m : MAddr) (ord : Order)
  | stf (h : Hdr) (d : Reg) (m : MAddr) (ord : Order)
  | stt (h : Hdr) (d : Reg) (a : Opnd) (col rs : Bool)
  | tld (h : Hdr) (d : Reg) (a b : Opnd) (n : BitVec 3)
  | tst (h : Hdr) (d : Reg) (a b : Opnd) (n : BitVec 3)
  | trace (h : Hdr) (any : Bool) (d a : Reg) (b : Opnd)
  | tracef (h : Hdr) (d : Opnd) (a b : Reg) (bar : BitVec 5)
  | trap (h : Hdr) (code : BitVec 26)
  | vote (h : Hdr) (mode : VoteMode) (hi : Bool) (d : Opnd) (p : BitVec 4)
  | waitk (h : Hdr) (k : BitVec 4)
  | wrsr (h : Hdr) (a : Opnd) (num : BitVec 8)
  | yieldFibre (h : Hdr)
  -- the table's last rows
  | resourcePowerGating (r : GateRes)
  | memoryScrub (sector : Nat)
  | cxlCacheSnoop (line : Nat) (k : SnoopKind)
  | inboundAtomic (port pa : Nat) (op : InboundOp) (wide : Bool) (v : DWord)
  | peerPortTrained (port : Nat)
  | timingInputLoss (pps ptp : Bool)
  | cqheadWrite (fn : Nat) (v : Word)
  | functionRegisterWrite (fn off : Nat) (v : Word)
  | partitionScrubCompletion (part : Nat)
  | ownershipChangeEffect (addr : Word)
  | firmwareImageInstall (x : Install)
  -- events with no argument, gathered here because a compiled constructor numbered above 244 can hold none
  | bootWatchdogExpiry
  | shiftAdmission
  | passCloseCompletion
  | regionFlushCompletion
  | invalidationCompletion
  | ppsEdge
  | surveyTick
  | frameAttributeChangeDone
  deriving DecidableEq, Repr

end Sys2Proof
end

