-- ==== Sys2Proof/Machine/Flags.lean ====
section
/-! DEFINITION. The floating-point formats, the one rounding of an exact result, and the flags it raises (R115 to R120,
R125, R126). An exact value is a sign, a natural mantissa and a power of two. -/

namespace Sys2Proof.Machine

/-- The flags of SR.FFLAGS: NV, OF, UF, NX in bits 3 to 0 (Table WORD-4). -/
abbrev Flags := BitVec 4

/-- Invalid operation. -/
def flagNV : Flags := 8#4
/-- Overflow. -/
def flagOF : Flags := 4#4
/-- Underflow. -/
def flagUF : Flags := 2#4
/-- Inexact. -/
def flagNX : Flags := 1#4

/-- A binary format (Table NUM-1, Table NUM-3): exponent and fraction widths and bias. `eight` marks the 8-bit formats,
which have no infinity and one NaN. -/
structure Fmt where
  eb : Nat
  fb : Nat
  bias : Nat
  eight : Bool
  deriving DecidableEq, Repr

/-- FP32 (Table NUM-1). -/
def fmtFP32 : Fmt := { eb := 8, fb := 23, bias := 127, eight := false }
/-- FP16. -/
def fmtFP16 : Fmt := { eb := 5, fb := 10, bias := 15, eight := false }
/-- BF16. -/
def fmtBF16 : Fmt := { eb := 8, fb := 7, bias := 127, eight := false }
/-- E4M3B8 (Table NUM-3). -/
def fmtE4M3 : Fmt := { eb := 4, fb := 3, bias := 8, eight := true }
/-- E5M2B16 (Table NUM-3). -/
def fmtE5M2 : Fmt := { eb := 5, fb := 2, bias := 16, eight := true }

/-- The value of a format's code: NaN, an infinity, or (−1)^neg × m × 2^e. -/
inductive FV where
  | nan
  | inf (neg : Bool)
  | fin (neg : Bool) (m : Nat) (e : Int)
  deriving DecidableEq, Repr

/-- The sign bit of a code. -/
def Fmt.signOf (f : Fmt) (x : Nat) : Bool := x / 2 ^ (f.eb + f.fb) % 2 == 1

/-- The width of a format. -/
def Fmt.width (f : Fmt) : Nat := 1 + f.eb + f.fb

/-- The code of a signed zero. -/
def Fmt.zero (f : Fmt) (neg : Bool) : Nat := if neg && !f.eight then 2 ^ (f.eb + f.fb) else 0

/-- The canonical NaN (Table NUM-1, Table NUM-3). -/
def Fmt.nan (f : Fmt) : Nat :=
  if f.eight then 0x80 else (2 ^ f.eb - 1) * 2 ^ f.fb + 2 ^ (f.fb - 1)

/-- The code of an infinity. -/
def Fmt.inf (f : Fmt) (neg : Bool) : Nat := (if neg then 2 ^ (f.eb + f.fb) else 0) + (2 ^ f.eb - 1) * 2 ^ f.fb

/-- The code of the largest finite value. -/
def Fmt.big (f : Fmt) (neg : Bool) : Nat :=
  (if neg then 2 ^ (f.eb + f.fb) else 0) + (if f.eight then 2 ^ (f.eb + f.fb) - 1 else (2 ^ f.eb - 1) * 2 ^ f.fb - 1)

/-- The exponent of the smallest normal. -/
def Fmt.emin (f : Fmt) : Int := 1 - (f.bias : Int)

/-- The exponent of the largest finite value. -/
def Fmt.emax (f : Fmt) : Int := (2 ^ f.eb : Int) - (if f.eight then 1 else 2) - f.bias

/-- The value of a code (R115, R125). -/
def Fmt.value (f : Fmt) (x : Nat) : FV :=
  let neg := f.signOf x
  let e := x / 2 ^ f.fb % 2 ^ f.eb
  let m := x % 2 ^ f.fb
  if f.eight then
    if x % 256 = 0x80 then .nan
    else if e = 0 then .fin neg m (1 - (f.bias : Int) - f.fb)
    else .fin neg (2 ^ f.fb + m) ((e : Int) - f.bias - f.fb)
  else if e = 2 ^ f.eb - 1 then (if m = 0 then .inf neg else .nan)
  else if e = 0 then .fin neg m (1 - (f.bias : Int) - f.fb)
  else .fin neg (2 ^ f.fb + m) ((e : Int) - f.bias - f.fb)

/-- A code whose value is a non-zero subnormal. -/
def Fmt.isSub (f : Fmt) (x : Nat) : Bool := x / 2 ^ f.fb % 2 ^ f.eb == 0 && x % 2 ^ f.fb != 0

/-- The code with a subnormal replaced by a zero of its sign (R119). -/
def Fmt.flush (f : Fmt) (ftz : Bool) (x : Nat) : Nat := if ftz && f.isSub x then f.zero (f.signOf x) else x

/-- The rounding of a code: 4 (DYN) takes CR.FMODE (R105, R116). -/
def resolveRM (rm : RM) (fmode : BitVec 2) : RM :=
  match rm with
  | .dyn => match fmode.toNat with
    | 0 => .rne
    | 1 => .rz
    | 2 => .ru
    | _ => .rd
  | r => r

/-- m × 2^e rounded to a multiple of 2^q: the multiple, and whether the rounding was inexact. -/
def roundAt (rm : RM) (neg : Bool) (m : Nat) (e q : Int) : Nat × Bool :=
  if q ≤ e then (m * 2 ^ (e - q).toNat, false)
  else
    let d := 2 ^ (q - e).toNat
    let n := m / d
    let r := m % d
    let up := match rm with
      | .rne | .dyn => 2 * r > d || (2 * r == d && n % 2 == 1)
      | .rz => false
      | .ru => r != 0 && !neg
      | .rd => r != 0 && neg
    (if up then n + 1 else n, r != 0)

/-- The exponent of the leading bit of m × 2^e. -/
def leadExp (m : Nat) (e : Int) : Int := (Nat.log2 m : Int) + e

/-- Does an overflow round to the infinity (Table NUM-2)? -/
def overflowInf (rm : RM) (neg : Bool) : Bool :=
  match rm with
  | .rne | .dyn => true
  | .rz => false
  | .ru => !neg
  | .rd => neg

/-- The one rounding of a non-zero exact value into a format, and its flags (R116, R119, R120, R126). -/
def roundFin (f : Fmt) (rm : RM) (ftz : Bool) (neg : Bool) (m : Nat) (e : Int) : Nat × Flags :=
  let q := max (leadExp m e - f.fb) (f.emin - f.fb)
  let r := roundAt rm neg m e q
  let n := r.1
  let nx : Flags := if r.2 then flagNX else 0
  let sign := if neg then 2 ^ (f.eb + f.fb) else 0
  if n != 0 && leadExp n q > f.emax then
    (if f.eight then f.big neg else if overflowInf rm neg then f.inf neg else f.big neg, flagOF ||| flagNX)
  else if n < 2 ^ f.fb then
    if ftz && !f.eight then (f.zero neg, flagUF ||| flagNX)
    else if n = 0 then (f.zero neg, nx ||| (if r.2 then flagUF else 0))
    else (sign + n, nx ||| (if r.2 then flagUF else 0))
  else
    -- n may be 2^(fb+1) after a carry
    let n' := if n ≥ 2 ^ (f.fb + 1) then n / 2 else n
    let q' := if n ≥ 2 ^ (f.fb + 1) then q + 1 else q
    (sign + (q' + f.fb + f.bias).toNat * 2 ^ f.fb + (n' - 2 ^ f.fb), nx)

/-- The code of a value in a format: zeros and infinities as they are (an 8-bit format saturates an infinity, R126). -/
def Fmt.ofValue (f : Fmt) (rm : RM) (ftz : Bool) (v : FV) : Nat × Flags :=
  match v with
  | .nan => (f.nan, 0)
  | .inf neg => if f.eight then (f.big neg, flagOF ||| flagNX) else (f.inf neg, 0)
  | .fin neg 0 _ => (f.zero neg, 0)
  | .fin neg m e => roundFin f rm ftz neg m e

end Sys2Proof.Machine
end

