-- ==== Sys2Proof/WellFormed.lean ====
section
/-! DEFINITION. Which terms of `Instr` are instruction words: the limits that the entries of 12 to 14 and Tables WORD-8,
WORD-13, EXEC-1, TENS-9, MTX-2, REND-8 and TRAP-3 put on fields that the syntax leaves wider. A word outside them is no
instruction and traps with cause 0x01 at decode (R89, R104), or 0x04 for a pair word (R92). An event is always well
formed. -/

namespace Sys2Proof

/-- An s register number is 0 to 63 (R80). -/
def Opnd.ok (o : Opnd) : Bool := !o.s || o.n < 64#8

/-- An operand of `k` registers from the one named: none is an s register above s63 (R80). -/
def Opnd.spanOk (o : Opnd) (k : Nat) : Bool := !o.s || o.n.toNat + k ≤ 64

/-- The first register of a 64-bit pair is even (R77). -/
def Reg.pairOk (n : Reg) : Bool := n.extractLsb' 0 1 == 0#1

/-- The first register of a 128-bit quad is a multiple of 4 (R77). -/
def Reg.quadOk (n : Reg) : Bool := n.extractLsb' 0 2 == 0#2

/-- A pair operand. -/
def Opnd.pairOk (o : Opnd) : Bool := o.ok && Reg.pairOk o.n

/-- A scalar register number. -/
def Reg.sOk (n : Reg) : Bool := n < 64#8

/-- Masks are k0 to k11 (R50). -/
def maskOk (k : BitVec 4) : Bool := k < 12#4

/-- SETC 6 is illegal (Table WORD-7). -/
def Hdr.ok (h : Hdr) : Bool := h.setc != 6#3

/-- Form B words and ATTACH carry no guard (R88, R322). -/
def Hdr.unguarded (h : Hdr) : Bool := h.ok && !h.ge && h.gp == 0#4 && !h.gs

/-- The address operand: a pair for GL, one register otherwise (R88). -/
def addrOk (sp : Space) (a : Opnd) : Bool := if sp = .gl then a.pairOk else a.ok

/-- Data registers of an access: a pair for SIZE 3, a quad for SIZE 4 (R77). -/
def dataOk (z : Size) (d : Reg) : Bool :=
  match z with
  | .b64 => Reg.pairOk d
  | .b128 => Reg.quadOk d
  | _ => true

/-- Form M of the loads and stores. -/
def MAddr.ok (m : MAddr) (d : Reg) : Bool := addrOk m.space m.a && dataOk m.size d

/-- SPACE 1 or 2 of LDC and STF (R370, R402). -/
def Space.granular (sp : Space) : Bool := sp == .sp || sp == .rs

/-- Form B: an unconditional branch names no guard bit (R329). -/
def BForm.ok (f : BForm) : Bool := f.gen || (f.greg == 0#8 && f.gbit == 0#5 && !f.gsense)

/-- FP8 types. -/
def CvtType.isFp8 : CvtType → Bool
  | .e4m3b8 | .e5m2b16 => true
  | _ => false

/-- Types that occupy a register pair (R106). -/
def CvtType.is64 : CvtType → Bool
  | .s64 | .un64 => true
  | _ => false

/-- Element types of PACK: codes 1 to 6, 9 and 10 (R131). -/
def CvtType.packable : CvtType → Bool
  | .fp16 | .bf16 | .e4m3b8 | .e5m2b16 | .s8 | .s16 | .un8 | .un16 => true
  | _ => false

/-- The 8-bit types of PACK. -/
def CvtType.is8 : CvtType → Bool
  | .e4m3b8 | .e5m2b16 | .s8 | .un8 => true
  | _ => false

/-- The destination of ISET and FSET. -/
def SetDst.ok : SetDst → Bool
  | .pred _ => true
  | .reg d => d.ok

/-- Comparisons of ISET and ISETI (R365). -/
def Cond.intOk : Cond → Bool
  | .ord | .uno => false
  | _ => true

/-- F-class pair codes (Table WORD-10). -/
def PairOp.isF : PairOp → Bool
  | .fadd | .fsub | .fmul | .fmin | .fmax | .hadd2 | .hmul2 | .badd2 | .bmul2 => true
  | _ => false

/-- An I-class slot has M2 zero (R92). -/
def Slot.ok (s : Slot) : Bool := s.op.isF || (!s.neg && !s.abs)

/-- The static rules of R92 that two slots meet together: not both of the F class, and neither destination is a register
of the other slot. -/
def slotsF (a b : Slot) : Bool := !(a.op.isF && b.op.isF)

/-- D of slot 0 is neither D nor A of slot 1, and D of slot 1 is not A of slot 0 (R92). -/
def slotsApart (a b : Slot) : Bool := a.d != b.d && a.d != b.a && b.d != a.a

/-- Is the term an instruction word (or an event)? -/
def Instr.wellFormed : Instr → Bool
  | .pairWord _ a b => a.ok && b.ok && slotsF a b && slotsApart a b
  | .atom h op d a sp wide _ | .red h op d a sp wide _ =>
      h.ok && sp != .cb && addrOk sp a && (!wide || (Reg.pairOk d && op != .fadd))
  | .atomcas h d a b sp wide _ =>
      h.ok && sp != .cb && addrOk sp a && b.ok && (!wide || (Reg.pairOk d && b.pairOk))
  | .attach h d => h.unguarded && d.ok
  | .badd2 h _ d a b | .bmul2 h _ d a b | .hadd2 h _ d a b | .hmul2 h _ d a b => h.ok && d.ok && a.ok && b.ok
  | .bfma2 h _ d a b | .hfma2 h _ d a b | .ffma h _ d a b => h.ok && d.ok && a.ok && b.ok
  | .bararv h f _ =>
      h.ok && (match f with
        | .plain d a => d.ok && a.ok
        | .x d a => d.ok && a.ok
        | .r a => a.ok)
  | .barinit h a _ _ | .bartst h _ a _ | .barwait h a _ => h.ok && a.ok
  | .bcast h _ _ b | .slideup h _ _ b | .slidedn h _ _ b | .shfl h _ _ _ b => h.ok && b.ok
  | .bfx h _ d a b | .bfi h d a b => h.ok && d.ok && a.ok && b.ok
  | .bkpt h _ => h.ok
  | .br h f | .call h f => h.unguarded && f.ok
  | .brev h d a | .clz h d a | .iabs h d a | .mov h d a | .not h d a | .popc h d a | .matchLanes h _ d a =>
      h.ok && d.ok && a.ok
  | .brx h a => h.ok && a.pairOk
  | .cbld h a _ => h.ok && a.pairOk
  | .cfgrd h d a => h.ok && d.ok && a.ok
  | .cfgwr h a b => h.ok && a.ok && b.ok
  | .compress h _ a _ | .expand h _ a _ => h.ok && a.ok
  | .copy h k d a _ _ => h.ok && (if k = .gath ∨ k = .mc then d.pairOk else d.ok) && a.ok
  | .copyb h d a b _ spSide _ _ => h.ok && d.ok && (if spSide then a.ok else a.pairOk) && b.ok
  | .copyw h k d a b _ => h.ok && d.ok && (if k = .glb ∨ k = .glbRel then a.pairOk && b.ok else a.ok && b.spanOk 5)
  | .cvt h src dst rm _ d a =>
      h.ok && (!dst.isFp8 || rm == .rne) && (!dst.is64 || Reg.pairOk d) && (!src.is64 || Reg.pairOk a)
  | .detach h | .endFibre h | .eret h | .nop h | .ret h | .yieldFibre h => h.ok
  | .elect h _ => h.ok
  | .emitf h _ _ n => h.ok && n < 4#3
  | .emitm h a b => h.ok && Reg.sOk a && Reg.sOk b
  | .fadd h _ d a b | .fmul h _ d a b | .fsub h _ d a b => h.ok && d.ok && a.ok && b.ok
  | .fmax h m d a b | .fmin h m d a b => h.ok && m.rm == .rne && d.ok && a.ok && b.ok
  | .frcp h _ d a | .frsq h _ d a | .fsqrt h _ d a | .fex2 h _ d a | .flg2 h _ d a | .fsin h _ d a | .fcos h _ d a =>
      h.ok && d.ok && a.ok
  | .fence h _ => h.ok
  | .fork h _ a _ => h.ok && a.ok
  | .frnd h _ _ _ _ d a => h.ok && d.ok && a.ok
  | .fset h _ d a b => h.ok && d.ok && a.ok && b.ok
  | .hinv h a => h.ok && a.ok
  | .hstat h _ d a => h.ok && d.ok && a.ok
  | .iadd h d a b | .isub h d a b | .imad h d a b | .imul h d a b => h.ok && d.ok && a.ok && b.ok
  | .iaddi h d a _ | .andi h d a _ | .ori h d a _ | .xori h d a _ | .sari h d a _ | .shli h d a _ | .shri h d a _ =>
      h.ok && d.ok && a.ok
  | .iadd64 h d a b => h.ok && d.pairOk && a.pairOk && b.pairOk
  | .iadd64i h d a _ => h.ok && d.pairOk && a.pairOk
  | .imulh h _ d a b | .imax h _ d a b | .imin h _ d a b => h.ok && d.ok && a.ok && b.ok
  | .ipa h _ _ _ a => h.ok && a.ok
  | .iset h c _ d a b => h.ok && c.intOk && d.ok && a.ok && b.ok
  | .iseti h c _ _ a _ => h.ok && c.intOk && a.ok
  | .joinMask h k | .leaveMask h k | .waitk h k => h.ok && maskOk k
  | .kmovToScalar h _ d k => h.ok && Reg.sOk d && maskOk k
  | .kmovToMask h _ a k => h.ok && Reg.sOk a && maskOk k
  | .ld h d m ord => h.ok && m.ok d && ord != .rel
  | .ldc h d m _ => h.ok && m.ok d && m.space.granular
  | .ldt h _ a _ _ | .stt h _ a _ _ => h.ok && a.ok
  | .mma h _ _ a b _ => h.ok && Reg.quadOk a && Reg.sOk b
  | .mmaz h _ => h.ok
  | .movhi h d a _ => h.ok && d.ok && a.ok
  | .movi h d _ => h.ok && d.ok
  | .mwait h wide d a b => h.ok && (!wide || Reg.pairOk d) && a.pairOk && b.ok
  | .and h d a b | .or h d a b | .xor h d a b | .sar h d a b | .shl h d a b | .shr h d a b =>
      h.ok && d.ok && a.ok && b.ok
  | .pack h t _ hi _ _ _ => h.ok && t.packable && (!hi || t.is8)
  | .plop h _ _ _ _ => h.ok
  | .pmov h d => h.ok && d.ok
  | .pmovTop h a => h.ok && a.ok
  | .pref h _ a _ => h.ok && a.pairOk
  | .qld h _ a _ _ | .qst h _ a _ _ => h.ok && a.ok
  | .qscr h d _ _ => h.ok && Reg.sOk d
  | .rdsr h d _ => h.ok && d.ok
  | .rdx h _ _ _ => h.ok
  | .wrx h _ a _ | .setix h _ a _ => h.ok && a.ok
  | .redl h _ d _ => h.ok && d.ok
  | .scanl h _ _ _ _ => h.ok
  | .relayout h a b _ => h.ok && a.ok && b.pairOk
  | .sample h _ _ d a _ => h.ok && Reg.quadOk d && a.ok
  | .sel h d a b _ _ => h.ok && d.ok && a.ok && b.ok
  | .sleep h a => h.ok && a.ok
  | .st h d m ord => h.ok && m.ok d && (ord == .rlx || ord == .rel)
  | .stf h d m ord => h.ok && m.ok d && m.space.granular && (ord == .rlx || ord == .rel)
  | .tld h _ a b n | .tst h _ a b n => h.ok && a.ok && b.spanOk (n.toNat + 1) && n < 5#3
  | .trace h _ d a b => h.ok && Reg.quadOk d && Reg.quadOk a && b.pairOk
  | .tracef h d a b _ => h.ok && d.pairOk && Reg.quadOk a && Reg.pairOk b
  | .trap h _ => h.ok
  | .vote h mode hi d _ => h.ok && (!hi || mode == .mask) && d.ok
  | .wrsr h a _ => h.ok && a.ok
  | .powerOn | .bootWatchdogExpiry | .failedStart .. | .cfgBootokWrite .. | .cfgBootctlWrite .. | .cfgSlopeWrite .. => true
  | .cfgRegisterWrite .. | .startGovernorGrant .. | .canaryWarning .. | .canaryDecay .. | .stackLevelEvaluation .. => true
  | .dieThermalTrip .. | .dieReturnToService .. | .powerSampleTick .. | .linkRetirement .. | .bundleRegroup .. => true
  | .bundleIssue .. | .trapEntry .. | .lateTrapDelivery .. | .crewHalt .. | .shiftAdmission | .dependenceWordCheck .. => true
  | .startdtReached .. | .deviceQueueTake .. | .crewDispatch .. | .prologueBinding .. | .gangStart .. => true
  | .attachingGangStart .. | .gangAttach .. | .shrinkRequest .. | .crewRetirement .. | .shiftCompletion .. => true
  | .timeSliceExpiry .. | .hotDieMigration .. | .tileWaitTimeout .. | .preemptionHalt .. | .contextSave .. => true
  | .contextRestore .. | .loadDataReturn .. | .storeAppliedAtHome .. | .readLeaseExpiry .. | .exclusiveLeaseGrant .. => true
  | .exclusiveLeaseRecall .. | .exclusiveLeaseExpiry .. | .monitorWake .. | .monitorTimeout .. | .copyPartLand .. => true
  | .copyFault .. | .relayoutTileConversion .. | .engineOperationRetire .. | .cbTransfer .. | .backfillBegin .. => true
  | .backfillUnitMove .. | .powerGatedWake .. | .cfgFattrWrite .. | .cfgXinvcmdWrite .. | .invalidationCompletion => true
  | .passOpen .. | .passClose .. | .passCloseCompletion | .regionFlushGo .. | .regionFlushCompletion => true
  | .claimEntryWrite .. | .packetDelivery .. | .packetRelease .. | .microTriangleEnqueue .. | .fragmentBlend .. => true
  | .regionCacheEviction .. | .tracefCompletion .. | .sqtailDoorbell .. | .queuePairEnable .. | .queuePairDisable .. => true
  | .completionEntryPost .. | .inboundWrite .. | .inboundRead .. | .bar2ConfigAccess .. | .hostStoreAcknowledge .. => true
  | .peerPortFailure .. | .timeFlit .. | .ppsEdge | .ptpMessage .. | .ownershipWrite .. | .partitionEnable .. => true
  | .partitionDisable .. | .partitionSuspend .. | .partitionResume .. | .vfMapWrite .. | .policyInstall .. => true
  | .attestationRequest .. | .surveyTick | .debugStopCommand .. | .debugResumeCommand .. | .debugStepCommand .. => true
  | .debugArmCommand .. | .debugDisarmCommand .. | .debugStopRecord .. | .waitkRelease .. | .barwaitRelease .. => true
  | .bararvCredit .. | .ldcFill .. | .fenceRelease .. | .hinvCompletion .. | .detachCompletion .. | .sleepExpiry .. => true
  | .rsTargetRestored .. | .resourcePowerGating .. | .memoryScrub .. | .cxlCacheSnoop .. | .inboundAtomic .. => true
  | .peerPortTrained .. | .timingInputLoss .. | .cqheadWrite .. | .functionRegisterWrite .. => true
  | .partitionScrubCompletion .. | .ownershipChangeEffect .. | .frameAttributeChangeDone | .firmwareImageInstall .. => true

end Sys2Proof
end

