-- ==== Sys2Proof/Machine/Float.lean ====
section
/-! DEFINITION. The floating-point operations on values and codes: sums, products and fused sums rounded once (R116 to
R119), minimum and maximum (R122), comparisons (R122), rounding to an integer (R123), conversions (R126 to R131), and the
special functions (R132, Table NUM-7). -/

namespace Sys2Proof.Machine

/-- An exact result, with the flag it raises before rounding (R120). -/
abbrev Exact := FV × Flags

/-- The sign of a value. -/
def FV.neg : FV → Bool
  | .nan => false
  | .inf n => n
  | .fin n _ _ => n

/-- The value with its sign changed. -/
def FV.negate : FV → FV
  | .nan => .nan
  | .inf n => .inf (!n)
  | .fin n m e => .fin (!n) m e

/-- A signed exact sum m₁ × 2^e₁ + m₂ × 2^e₂ of finite values: an integer and its exponent. -/
def sumInt (n1 : Bool) (m1 : Nat) (e1 : Int) (n2 : Bool) (m2 : Nat) (e2 : Int) : Int × Int :=
  let e := min e1 e2
  let a : Int := m1 * 2 ^ (e1 - e).toNat
  let b : Int := m2 * 2 ^ (e2 - e).toNat
  ((if n1 then -a else a) + (if n2 then -b else b), e)

/-- The exact sum of two values; a sum that cancels exactly takes the sign of R118. -/
def addV (rm : RM) (x y : FV) : Exact :=
  match x, y with
  | .nan, _ => (.nan, 0)
  | _, .nan => (.nan, 0)
  | .inf a, .inf b => if a = b then (.inf a, 0) else (.nan, flagNV)
  | .inf a, .fin .. => (.inf a, 0)
  | .fin .., .inf b => (.inf b, 0)
  | .fin n1 m1 e1, .fin n2 m2 e2 =>
    let s := sumInt n1 m1 e1 n2 m2 e2
    if s.1 = 0 then
      (.fin (if m1 = 0 ∧ m2 = 0 ∧ n1 = n2 then n1 else rm == .rd) 0 0, 0)
    else (.fin (s.1 < 0) s.1.natAbs s.2, 0)

/-- The exact product of two values. -/
def mulV (x y : FV) : Exact :=
  match x, y with
  | .nan, _ => (.nan, 0)
  | _, .nan => (.nan, 0)
  | .inf a, .inf b => (.inf (a != b), 0)
  | .inf a, .fin b m _ => if m = 0 then (.nan, flagNV) else (.inf (a != b), 0)
  | .fin a m _, .inf b => if m = 0 then (.nan, flagNV) else (.inf (a != b), 0)
  | .fin a m1 e1, .fin b m2 e2 => (.fin (a != b) (m1 * m2) (e1 + e2), 0)

/-- The exact fused sum x × y + z (R351): a NaN input raises nothing. -/
def fmaV (rm : RM) (x y z : FV) : Exact :=
  if x = .nan ∨ y = .nan ∨ z = .nan then (.nan, 0)
  else
    let p := mulV x y
    if p.1 = .nan then p else addV rm p.1 z

/-- Rounds an exact result into a format and joins its flags. -/
def roundV (f : Fmt) (rm : RM) (ftz : Bool) (r : Exact) : Nat × Flags :=
  let o := f.ofValue rm ftz r.1
  (o.1, o.2 ||| r.2)

/-- A source code after |·|, negation and FTZ (R117, R119, R348). -/
def srcCode (f : Fmt) (abs neg ftz : Bool) (x : Nat) : Nat :=
  let sign := 2 ^ (f.eb + f.fb)
  let x := x % (2 * sign)
  let x := if abs then x % sign else x
  let x := if neg then (if x ≥ sign then x - sign else x + sign) else x
  f.flush ftz x

/-- FADD of codes in a format (R348). -/
def addF (f : Fmt) (rm : RM) (ftz : Bool) (a b : Nat) : Nat × Flags := roundV f rm ftz (addV rm (f.value a) (f.value b))

/-- FSUB of codes. -/
def subF (f : Fmt) (rm : RM) (ftz : Bool) (a b : Nat) : Nat × Flags :=
  roundV f rm ftz (addV rm (f.value a) (f.value b).negate)

/-- FMUL of codes. -/
def mulF (f : Fmt) (rm : RM) (ftz : Bool) (a b : Nat) : Nat × Flags := roundV f rm ftz (mulV (f.value a) (f.value b))

/-- (−1)^negP × a × b + (−1)^negC × c, rounded once (R351, R356). -/
def fmaF (f : Fmt) (rm : RM) (ftz negP negC : Bool) (a b c : Nat) : Nat × Flags :=
  let x := f.value a
  let z := f.value c
  roundV f rm ftz (fmaV rm (if negP then x.negate else x) (f.value b) (if negC then z.negate else z))

/-- The order of two values that are not NaN; zeros are equal. -/
def ltV (x y : FV) : Bool :=
  match x, y with
  | .nan, _ => false
  | _, .nan => false
  | .inf a, .inf b => a && !b
  | .inf a, .fin .. => a
  | .fin .., .inf b => !b
  | .fin n1 m1 e1, .fin n2 m2 e2 => (sumInt n1 m1 e1 (!n2) m2 e2).1 < 0

/-- Equality of values; zeros are equal. -/
def eqV (x y : FV) : Bool :=
  match x, y with
  | .inf a, .inf b => a == b
  | .fin n1 m1 e1, .fin n2 m2 e2 => (sumInt n1 m1 e1 (!n2) m2 e2).1 == 0
  | _, _ => false

/-- minimumNumber or maximumNumber of codes (R122, R352): −0 orders below +0, a NaN gives way, two NaNs give the
canonical one. -/
def minmaxF (f : Fmt) (isMax : Bool) (a b : Nat) : Nat :=
  let x := f.value a
  let y := f.value b
  match x, y with
  | .nan, .nan => f.nan
  | .nan, _ => b
  | _, .nan => a
  | _, _ =>
    let below := ltV x y || (eqV x y && x.neg && !y.neg)
    if below then (if isMax then b else a) else (if isMax then a else b)

/-- The comparison of FSET (R122, R355). -/
def compareF (c : Cond) (a b : Nat) : Bool :=
  let x := fmtFP32.value a
  let y := fmtFP32.value b
  let un := x == .nan || y == .nan
  match c with
  | .eq => !un && eqV x y
  | .ne => un || !eqV x y
  | .lt => !un && ltV x y
  | .le => !un && (ltV x y || eqV x y)
  | .gt => !un && ltV y x
  | .ge => !un && (ltV y x || eqV x y)
  | .ord => !un
  | .uno => un

/-- A finite value rounded to an integer by a rounding code: the magnitude, and whether inexact. -/
def toIntegral (rm : RM) (neg : Bool) (m : Nat) (e : Int) : Nat × Bool := roundAt rm neg m e 0

/-- FRND (R123, R354). -/
def frndF (rm : RM) (a : Nat) : Nat :=
  match fmtFP32.value a with
  | .nan => fmtFP32.nan
  | .inf n => fmtFP32.inf n
  | .fin n m e =>
    let r := (toIntegral rm n m e).1
    if r = 0 then fmtFP32.zero n else (roundFin fmtFP32 .rne false n r 0).1

/-! ### Packed operations (R124) -/

/-- One operation on both 16-bit elements of its sources; each flag is the OR of both elements' flags. -/
def packed (op : Nat → Nat → Nat → Nat × Flags) (a b d : Word) : Word × Flags :=
  let lo := op (a.toNat % 65536) (b.toNat % 65536) (d.toNat % 65536)
  let hi := op (a.toNat / 65536) (b.toNat / 65536) (d.toNat / 65536)
  (BitVec.ofNat 32 (hi.1 * 65536 + lo.1), lo.2 ||| hi.2)

/-! ### Conversions (R126 to R131) -/

/-- The floating format of a type code, if it is one. -/
def fmtOf : CvtType → Option Fmt
  | .fp32 => some fmtFP32
  | .fp16 => some fmtFP16
  | .bf16 => some fmtBF16
  | .e4m3b8 => some fmtE4M3
  | .e5m2b16 => some fmtE5M2
  | _ => none

/-- The width and signedness of an integer type code. -/
def intOf : CvtType → Option (Nat × Bool)
  | .s8 => some (8, true)
  | .s16 => some (16, true)
  | .s32 => some (32, true)
  | .s64 => some (64, true)
  | .un8 => some (8, false)
  | .un16 => some (16, false)
  | .un32 => some (32, false)
  | .un64 => some (64, false)
  | _ => none

/-- The value of a source of a type, read from the low bits (R128). -/
def cvtSource (t : CvtType) (x : Nat) : FV :=
  match fmtOf t, intOf t with
  | some f, _ => f.value (x % 2 ^ f.width)
  | none, some (w, true) => let v := toSigned w x; .fin (v < 0) v.natAbs 0
  | none, some (w, false) => .fin false (x % 2 ^ w) 0
  | none, none => .nan

/-- An integer saturated to a destination type, as its low bits. -/
def saturate (w : Nat) (signed : Bool) (v : Int) : Nat × Bool :=
  let hi : Int := if signed then 2 ^ (w - 1) - 1 else 2 ^ w - 1
  let lo : Int := if signed then -(2 ^ (w - 1)) else 0
  if v > hi then (ofInt w hi, true) else if v < lo then (ofInt w lo, true) else (ofInt w v, false)

/-- Conversion of a floating value into an integer type (Table NUM-6). -/
def toInt (w : Nat) (signed : Bool) (rm : RM) (x : FV) : Nat × Flags :=
  match x with
  | .nan => (0, flagNV)
  | .inf n => ((saturate w signed (if n then -(2 ^ 200) else 2 ^ 200)).1, flagNV)
  | .fin n m e =>
    let r := toIntegral rm n m e
    let s := saturate w signed (if n then -(r.1 : Int) else r.1)
    if s.2 then (s.1, flagNV) else (s.1, if r.2 then flagNX else 0)

/-- CVT of one value (R128, R129). -/
def cvtF (src dst : CvtType) (rm : RM) (ftz : Bool) (x : Nat) : Nat × Flags :=
  let v := cvtSource src x
  let v := match fmtOf src, v with
    | some f, .fin n m e =>
      if ftz && !f.eight && !dst.isFp8 && f.isSub (x % 2 ^ f.width) then FV.fin n 0 e else .fin n m e
    | _, v => v
  match fmtOf dst, intOf dst with
  | some f, _ =>
    -- a value out of an 8-bit format is exact and never flushed (R127)
    f.ofValue (if f.eight then .rne else rm) (ftz && !src.isFp8) v
  | none, some (w, signed) =>
    match intOf src, v with
    | some _, .fin n m _ => ((saturate w signed (if n then -(m : Int) else m)).1, 0)
    | _, v => toInt w signed rm v
  | none, none => (0, 0)

/-- PACK of two sources into D (R131). -/
def packWord (t : CvtType) (s32 hi : Bool) (a b d : Word) : Word × Flags :=
  let src := if s32 then CvtType.s32 else .fp32
  let ea := cvtF src t .rne false a.toNat
  let eb := cvtF src t .rne false b.toNat
  let v :=
    if t.is8 then
      let h := eb.1 * 256 + ea.1
      if hi then h * 65536 + d.toNat % 65536 else d.toNat / 65536 * 65536 + h
    else eb.1 * 65536 + ea.1
  (BitVec.ofNat 32 v, ea.2 ||| eb.2)

/-! ### Special functions (R132, R349, Table NUM-7)

FRCP, FRSQ and FSQRT are computed exactly, with a sticky bit below the digits kept. FEX2, FLG2, FSIN and FCOS are
evaluated by series with 192 fraction bits; the operands with exact results are decided first, and every other result is
irrational, so its low bit is made sticky (notes/assumptions/12.md). -/

/-- Fraction bits of the series. -/
def fxBits : Nat := 192

/-- π × 2^192, truncated. -/
def piFx : Nat := 19720096697726538562396133364228268891463450865190089732560

/-- ln 2 × 2^192, truncated. -/
def ln2Fx : Nat := 4350955369971217654477563090224794165364344896676135745069

/-- The integer square root, by bits from 2^k down: `n` is the target and `r` the root so far. -/
def isqrtAux (n : Nat) : Nat → Nat → Nat
  | 0, r => r
  | k + 1, r => if (r + 2 ^ k) * (r + 2 ^ k) ≤ n then isqrtAux n k (r + 2 ^ k) else isqrtAux n k r

/-- The integer square root. -/
def isqrt (n : Nat) : Nat := isqrtAux n (Nat.log2 n / 2 + 1) 0

/-- m × 2^e with a sticky bit appended. -/
def withSticky (neg : Bool) (m : Nat) (e : Int) (sticky : Bool) : FV := .fin neg (2 * m + if sticky then 1 else 0) (e - 1)

/-- 1 / (m × 2^e) with at least 40 digits. -/
def recipV (neg : Bool) (m : Nat) (e : Int) : FV :=
  let k := Nat.log2 m + 40
  withSticky neg (2 ^ k / m) (-(k : Int) - e) (2 ^ k % m != 0)

/-- The square root of m × 2^e. -/
def sqrtV (m : Nat) (e : Int) : FV :=
  let odd := e % 2 != 0
  let m := if odd then 2 * m else m
  let e := if odd then e - 1 else e
  let n := m * 2 ^ 80
  let r := isqrt n
  withSticky false r (e / 2 - 40) (r * r != n)

/-- The reciprocal square root of m × 2^e. -/
def rsqrtV (m : Nat) (e : Int) : FV :=
  let odd := e % 2 != 0
  let m := if odd then 2 * m else m
  let e := if odd then e - 1 else e
  let r := isqrt (2 ^ 160 / m)
  withSticky false r (-80 - e / 2) (r * r * m != 2 ^ 160)

/-- Σ t^n / n! from the n-th term on, in fixed point. -/
def expSeries (t : Nat) : Nat → Nat → Nat → Nat → Nat
  | 0, _, _, acc => acc
  | fuel + 1, n, term, acc => expSeries t fuel (n + 1) (term * t / 2 ^ fxBits / (n + 1)) (acc + term)

/-- Σ r^(2n+1) / (2n+1) from the n-th term on, in fixed point: atanh r. -/
def atanhSeries (r2 : Nat) : Nat → Nat → Nat → Nat → Nat
  | 0, _, _, acc => acc
  | fuel + 1, n, pow, acc => atanhSeries r2 fuel (n + 1) (pow * r2 / 2 ^ fxBits) (acc + pow / (2 * n + 1))

/-- Σ (−1)^n z^(2n) / (2n+1)! from the n-th term on, in fixed point: (sin z) / z. -/
def sincSeries (z2 : Nat) : Nat → Nat → Nat → Int → Int
  | 0, _, _, acc => acc
  | fuel + 1, n, term, acc =>
    sincSeries z2 fuel (n + 1) (term * z2 / 2 ^ fxBits / ((2 * n + 2) * (2 * n + 3)))
      (if n % 2 = 0 then acc + term else acc - term)

/-- 2^(k + f) for an integer k and a fraction f in (0, 1) with `fxBits` digits. -/
def exp2V (k : Int) (f : Nat) : FV :=
  let t := f * ln2Fx / 2 ^ fxBits
  withSticky false (expSeries t 60 0 (2 ^ fxBits) 0) (k - fxBits) true

/-- log2 of m × 2^e, not a power of two. -/
def log2V (m : Nat) (e : Int) : FV :=
  let l := Nat.log2 m
  -- y = m / 2^l in (1, 2); r = (y - 1) / (y + 1)
  let r := (m - 2 ^ l) * 2 ^ fxBits / (m + 2 ^ l)
  let ln := 2 * atanhSeries (r * r / 2 ^ fxBits) 70 0 r 0
  let frac : Int := (ln * 2 ^ fxBits / ln2Fx : Nat)
  let v : Int := ((l : Int) + e) * 2 ^ fxBits + frac
  withSticky (v < 0) v.natAbs (-(fxBits : Int)) true

/-- sin(π w) for w = m × 2^e in (0, 1/2). -/
def sinPiV (neg : Bool) (m : Nat) (e : Int) : FV :=
  let z2 := if e + Nat.log2 m < -100 then 0 else
    let z := if e ≥ -192 then piFx * m * 2 ^ (e + 192).toNat / 2 ^ fxBits else 0
    z * z / 2 ^ fxBits
  let s := sincSeries z2 50 0 (2 ^ fxBits) 0
  withSticky neg (piFx * m * s.toNat) (e - 2 * fxBits) true

/-- The seven special functions. -/
inductive Special where
  | rcp | rsq | sqrt | ex2 | lg2 | sin | cos
  deriving DecidableEq, Repr

/-- x mod 2 of m × 2^e as a numerator over 2^d, d = max 0 (−e). -/
def mod2 (m : Nat) (e : Int) : Nat × Nat :=
  if e ≥ 0 then (m * 2 ^ e.toNat % 2, 0) else (m % 2 ^ ((-e).toNat + 1), (-e).toNat)

/-- sin(π t) for t = n / 2^d in [0, 2), with the sign of the zeros of FSIN given; exact cases first. -/
def sinPi (neg : Bool) (n d : Nat) : FV :=
  let one := 2 ^ d
  let flip := n ≥ one
  let t := n % one
  let sgn := if flip then !neg else neg
  if t = 0 then .fin neg 0 0
  else if 2 * t = one then .fin sgn 1 0
  else if 2 * t < one then sinPiV sgn t (-(d : Int)) else sinPiV sgn (one - t) (-(d : Int))

/-- The exact value of a special function with the flag of an invalid operand (Table NUM-7). -/
def specialV (op : Special) (x : FV) : Exact :=
  match op, x with
  | _, .nan => (.nan, 0)
  | .rcp, .inf n => (.fin n 0 0, 0)
  | .rcp, .fin n m e => if m = 0 then (.inf n, 0) else (recipV n m e, 0)
  | .rsq, .inf n => if n then (.nan, flagNV) else (.fin false 0 0, 0)
  | .rsq, .fin n m e => if m = 0 then (.inf n, 0) else if n then (.nan, flagNV) else (rsqrtV m e, 0)
  | .sqrt, .inf n => if n then (.nan, flagNV) else (.inf false, 0)
  | .sqrt, .fin n m e => if m = 0 then (.fin n 0 0, 0) else if n then (.nan, flagNV) else (sqrtV m e, 0)
  | .ex2, .inf n => if n then (.fin false 0 0, 0) else (.inf false, 0)
  | .ex2, .fin n m e =>
    if m = 0 then (.fin false 1 0, 0)
    else if leadExp m e ≥ 8 then
      -- |x| is 256 or more
      (if n then .fin false 1 (-300) else .fin false 1 300, 0)
    else
      -- the integer part toward minus infinity and the fraction
      let num : Nat := if e ≥ 0 then m * 2 ^ (e.toNat + fxBits) else m * 2 ^ fxBits / 2 ^ (-e).toNat
      let v : Int := if n then -(num : Int) else num
      let k := v / (2 ^ fxBits : Int)
      let f := (v % (2 ^ fxBits : Int)).toNat
      if f = 0 then (.fin false 1 k, 0) else (exp2V k f, 0)
  | .lg2, .inf n => if n then (.nan, flagNV) else (.inf false, 0)
  | .lg2, .fin n m e =>
    if m = 0 then (.inf true, 0) else if n then (.nan, flagNV)
    else if m = 2 ^ Nat.log2 m then
      let k := leadExp m e
      (.fin (k < 0) k.natAbs 0, 0)
    else (log2V m e, 0)
  | .sin, .inf _ => (.nan, flagNV)
  | .sin, .fin n m e => if m = 0 then (.fin n 0 0, 0) else let t := mod2 m e; (sinPi n t.1 t.2, 0)
  | .cos, .inf _ => (.nan, flagNV)
  | .cos, .fin _ m e =>
    -- cos(π x) = sin(π (x + 1/2)); a zero result is +0
    let t := mod2 m e
    let d := max t.2 1
    let n := t.1 * 2 ^ (d - t.2)
    (sinPi false ((n + 2 ^ d / 2) % (2 * 2 ^ d)) d, 0)

/-- A special function of an FP32 code, rounded RNE once (R132, R349). -/
def specialF (op : Special) (ftz : Bool) (x : Nat) : Nat × Flags :=
  roundV fmtFP32 .rne ftz (specialV op (fmtFP32.value (fmtFP32.flush ftz x)))

end Sys2Proof.Machine
end

