-- ==== Sys2Proof/Config.lean ====
section
/-! DEFINITION. What an implementation fixes and the spec leaves open: the free values. Each is a constant without a body,
so nothing can be proved of its value; a step applies it to the counter `free` of the state (notes/assumptions/5.md) or to
the operands it depends on. -/

namespace Sys2Proof.Config

/-- Free values of 64 bits, one for each count: the model never knows which value it takes. -/
opaque freeBits : Nat → DWord

/-- A free choice. -/
def freeBool (n : Nat) : Bool := (freeBits n).getLsbD 0

/-- A free number below `bound` (0 if `bound` is 0). -/
def freeNat (n bound : Nat) : Nat := (freeBits n).toNat % bound

/-- A free 32-bit value. -/
def freeWord (n : Nat) : Word := (freeBits n).truncate 32

/-- Is the 64-byte line of host memory with this number reached through CXL.cache (R197), rather than by PCIe? -/
opaque cxlLine : Nat → Bool

/-- The home hash (R148): which of the LLC slices of a list is home to the line with this number. It shows only in what is lost
with a slice (R35), in the leases that its directory has dropped (R168) and in the monitors that it has free (R187). -/
opaque homeHash : List Nat → Nat → Nat

/-- SHA-512 of a list of bytes, as 64 bytes (R22, R311): uninterpreted. -/
opaque sha512 : List Byte → List Byte

/-- The Ed25519 signature of a message under the key that the root of trust derives from the manifest's SHA-512, as 64 bytes (R310,
R311): uninterpreted. -/
opaque sign : List Byte → List Byte → List Byte

/-- Does an Ed25519 signature verify over a message, under a key? Uninterpreted (R312). -/
opaque verify : List Byte → List Byte → List Byte → Bool

/-- The bytes of the manifest in the flash, out of the numbers this model keeps of it (R22): uninterpreted. -/
opaque manifestImage : List Nat → List Byte

/-- The Gelsis public key in the ROM of base tile 0 (R310). -/
opaque romKey : List Byte

/-- The public key that the root of trust derives from the physical unclonable function and the manifest's SHA-512 (R310). -/
opaque identity : List Byte → List Byte

end Sys2Proof.Config
end

