-- ==== Sys2Proof/Decode.lean ====
section
/-! DEFINITION. The bits of the instruction words (R87 to R92, Tables WORD-7 to WORD-10 and WORD-13 to WORD-15, and the
entries of 12 to 14): a decoder total on 64-bit words, which rejects by cause, and the encoder. Fields that an entry does
not name are to be 0 (R104): the decoder reads the fields an entry names, and a word is legal only if it is the encoding
of the well-formed instruction so read. -/

namespace Sys2Proof

/-- Why a word is no instruction: cause 0x01 (R89), or cause 0x04 with the number of the rule of R92. -/
inductive DecodeErr where
  | illegal
  | pairRule (n : Nat)
  deriving DecidableEq, Repr

/-! ### Field groups -/

/-- Form T (Table WORD-8). -/
structure FormT where
  d : BitVec 8
  a : BitVec 8
  b : BitVec 8
  sd : Bool
  sa : Bool
  sb : Bool
  mod : BitVec 8
  deriving DecidableEq, Repr

/-- Form I. -/
structure FormI where
  d : BitVec 8
  a : BitVec 8
  sd : Bool
  sa : Bool
  imm : BitVec 17
  deriving DecidableEq, Repr

/-- Form L. -/
structure FormL where
  d : BitVec 8
  sd : Bool
  imm : BitVec 26
  deriving DecidableEq, Repr

/-- Form M. -/
structure FormM where
  d : BitVec 8
  a : BitVec 8
  off : BitVec 11
  space : BitVec 2
  size : BitVec 3
  order : BitVec 2
  sa : Bool
  deriving DecidableEq, Repr

/-- The 35 operand bits of Form T. -/
def FormT.bits (f : FormT) : BitVec 35 :=
  f.d ++ f.a ++ f.b ++ BitVec.ofBool f.sd ++ BitVec.ofBool f.sa ++ BitVec.ofBool f.sb ++ f.mod

/-- Form T out of its bits. -/
def FormT.of (x : BitVec 35) : FormT :=
  { d := x.extractLsb' 27 8, a := x.extractLsb' 19 8, b := x.extractLsb' 11 8, sd := x.getLsbD 10, sa := x.getLsbD 9,
    sb := x.getLsbD 8, mod := x.extractLsb' 0 8 }

/-- The 35 operand bits of Form I. -/
def FormI.bits (f : FormI) : BitVec 35 :=
  f.d ++ f.a ++ BitVec.ofBool f.sd ++ BitVec.ofBool f.sa ++ f.imm

/-- Form I out of its bits. -/
def FormI.of (x : BitVec 35) : FormI :=
  { d := x.extractLsb' 27 8, a := x.extractLsb' 19 8, sd := x.getLsbD 18, sa := x.getLsbD 17, imm := x.extractLsb' 0 17 }

/-- The 35 operand bits of Form L. -/
def FormL.bits (f : FormL) : BitVec 35 := f.d ++ BitVec.ofBool f.sd ++ f.imm

/-- Form L out of its bits. -/
def FormL.of (x : BitVec 35) : FormL :=
  { d := x.extractLsb' 27 8, sd := x.getLsbD 26, imm := x.extractLsb' 0 26 }

/-- The 35 operand bits of Form M. -/
def FormM.bits (f : FormM) : BitVec 35 :=
  f.d ++ f.a ++ f.off ++ f.space ++ f.size ++ f.order ++ BitVec.ofBool f.sa

/-- Form M out of its bits. -/
def FormM.of (x : BitVec 35) : FormM :=
  { d := x.extractLsb' 27 8, a := x.extractLsb' 19 8, off := x.extractLsb' 8 11, space := x.extractLsb' 6 2,
    size := x.extractLsb' 3 3, order := x.extractLsb' 1 2, sa := x.getLsbD 0 }

/-- The 35 operand bits of Form B. -/
def BForm.bits (f : BForm) : BitVec 35 :=
  f.greg ++ f.gbit ++ BitVec.ofBool f.gsense ++ BitVec.ofBool f.gen ++ f.off

/-- Form B out of its bits. -/
def BForm.of (x : BitVec 35) : BForm :=
  { greg := x.extractLsb' 27 8, gbit := x.extractLsb' 22 5, gsense := x.getLsbD 21, gen := x.getLsbD 20,
    off := x.extractLsb' 0 20 }

/-- A full word from its header, OPC and operand bits (Table WORD-7). -/
def fullWord (h : Hdr) (opc : BitVec 10) (x : BitVec 35) : DWord :=
  0#1 ++ h.stall ++ h.setc ++ h.waitm ++ BitVec.ofBool h.ge ++ h.gp ++ BitVec.ofBool h.gs ++ opc ++ x

/-- The header of a full word. -/
def Hdr.of (w : DWord) : Hdr :=
  { stall := w.extractLsb' 60 3, setc := w.extractLsb' 57 3, waitm := w.extractLsb' 51 6, ge := w.getLsbD 50,
    gp := w.extractLsb' 46 4, gs := w.getLsbD 45 }

/-! ### Codes -/

/-- The rounding codes (Table WORD-14). -/
def RM.code : RM → BitVec 3
  | .rne => 0
  | .rz => 1
  | .ru => 2
  | .rd => 3
  | .dyn => 4

/-- The inverse of the rounding codes (Table WORD-14); none for a code outside them. -/
def RM.ofCode (c : BitVec 3) : Option RM :=
  match c.toNat with
  | 0 => some .rne
  | 1 => some .rz
  | 2 => some .ru
  | 3 => some .rd
  | 4 => some .dyn
  | _ => none

/-- The comparison codes (Table WORD-14). -/
def Cond.code : Cond → BitVec 3
  | .eq => 0
  | .ne => 1
  | .lt => 2
  | .le => 3
  | .gt => 4
  | .ge => 5
  | .ord => 6
  | .uno => 7

/-- The inverse of the comparison codes (Table WORD-14); none for a code outside them. -/
def Cond.ofCode (c : BitVec 3) : Option Cond :=
  match c.toNat with
  | 0 => some .eq
  | 1 => some .ne
  | 2 => some .lt
  | 3 => some .le
  | 4 => some .gt
  | 5 => some .ge
  | 6 => some .ord
  | 7 => some .uno
  | _ => none

/-- The REDL and SCANL codes (R105). -/
def LaneOp.code : LaneOp → BitVec 4
  | .add => 0
  | .min => 1
  | .max => 2
  | .umin => 3
  | .umax => 4
  | .and => 5
  | .or => 6
  | .xor => 7
  | .fadd => 8
  | .fmin => 9
  | .fmax => 10

/-- The inverse of the REDL and SCANL codes (R105); none for a code outside them. -/
def LaneOp.ofCode (c : BitVec 4) : Option LaneOp :=
  match c.toNat with
  | 0 => some .add
  | 1 => some .min
  | 2 => some .max
  | 3 => some .umin
  | 4 => some .umax
  | 5 => some .and
  | 6 => some .or
  | 7 => some .xor
  | 8 => some .fadd
  | 9 => some .fmin
  | 10 => some .fmax
  | _ => none

/-- The ATOM and RED codes (R105). -/
def AtomOp.code : AtomOp → BitVec 4
  | .add => 0
  | .sub => 1
  | .min => 2
  | .max => 3
  | .umin => 4
  | .umax => 5
  | .and => 6
  | .or => 7
  | .xor => 8
  | .xchg => 9
  | .fadd => 10

/-- The inverse of the ATOM and RED codes (R105); none for a code outside them. -/
def AtomOp.ofCode (c : BitVec 4) : Option AtomOp :=
  match c.toNat with
  | 0 => some .add
  | 1 => some .sub
  | 2 => some .min
  | 3 => some .max
  | 4 => some .umin
  | 5 => some .umax
  | 6 => some .and
  | 7 => some .or
  | 8 => some .xor
  | 9 => some .xchg
  | 10 => some .fadd
  | _ => none

/-- The SPACE codes (R88). -/
def Space.code : Space → BitVec 2
  | .gl => 0
  | .sp => 1
  | .rs => 2
  | .cb => 3

/-- The inverse of the SPACE codes (R88); none for a code outside them. -/
def Space.ofCode (c : BitVec 2) : Option Space :=
  match c.toNat with
  | 0 => some .gl
  | 1 => some .sp
  | 2 => some .rs
  | 3 => some .cb
  | _ => none

/-- The SIZE codes (R88). -/
def Size.code : Size → BitVec 3
  | .b8 => 0
  | .b16 => 1
  | .b32 => 2
  | .b64 => 3
  | .b128 => 4

/-- The inverse of the SIZE codes (R88); none for a code outside them. -/
def Size.ofCode (c : BitVec 3) : Option Size :=
  match c.toNat with
  | 0 => some .b8
  | 1 => some .b16
  | 2 => some .b32
  | 3 => some .b64
  | 4 => some .b128
  | _ => none

/-- The ORDER codes (R88). -/
def Order.code : Order → BitVec 2
  | .rlx => 0
  | .acq => 1
  | .rel => 2
  | .ar => 3

/-- The inverse of the ORDER codes (R88); none for a code outside them. -/
def Order.ofCode (c : BitVec 2) : Option Order :=
  match c.toNat with
  | 0 => some .rlx
  | 1 => some .acq
  | 2 => some .rel
  | 3 => some .ar
  | _ => none

/-- The FENCE scopes (Table WORD-13). -/
def Scope.code : Scope → BitVec 3
  | .gang => 0
  | .crew => 1
  | .core => 2
  | .die => 3
  | .dev => 4
  | .sys => 5

/-- The inverse of the FENCE scopes (Table WORD-13); none for a code outside them. -/
def Scope.ofCode (c : BitVec 3) : Option Scope :=
  match c.toNat with
  | 0 => some .gang
  | 1 => some .crew
  | 2 => some .core
  | 3 => some .die
  | 4 => some .dev
  | 5 => some .sys
  | _ => none

/-- The SHFL modes (R397). -/
def ShflMode.code : ShflMode → BitVec 2
  | .idx => 0
  | .up => 1
  | .down => 2
  | .xor => 3

/-- The inverse of the SHFL modes (R397); none for a code outside them. -/
def ShflMode.ofCode (c : BitVec 2) : Option ShflMode :=
  match c.toNat with
  | 0 => some .idx
  | 1 => some .up
  | 2 => some .down
  | 3 => some .xor
  | _ => none

/-- The VOTE modes (R408). -/
def VoteMode.code : VoteMode → BitVec 3
  | .mask => 0
  | .every => 1
  | .some => 2
  | .same => 3
  | .count => 4

/-- The inverse of the VOTE modes (R408); none for a code outside them. -/
def VoteMode.ofCode (c : BitVec 3) : Option VoteMode :=
  match c.toNat with
  | 0 => Option.some .mask
  | 1 => Option.some .every
  | 2 => Option.some .some
  | 3 => Option.some .same
  | 4 => Option.some .count
  | _ => none

/-- The type codes (Table WORD-15). -/
def CvtType.code : CvtType → BitVec 4
  | .fp32 => 0
  | .fp16 => 1
  | .bf16 => 2
  | .e4m3b8 => 3
  | .e5m2b16 => 4
  | .s8 => 5
  | .s16 => 6
  | .s32 => 7
  | .s64 => 8
  | .un8 => 9
  | .un16 => 10
  | .un32 => 11
  | .un64 => 12

/-- The inverse of the type codes (Table WORD-15); none for a code outside them. -/
def CvtType.ofCode (c : BitVec 4) : Option CvtType :=
  match c.toNat with
  | 0 => some .fp32
  | 1 => some .fp16
  | 2 => some .bf16
  | 3 => some .e4m3b8
  | 4 => some .e5m2b16
  | 5 => some .s8
  | 6 => some .s16
  | 7 => some .s32
  | 8 => some .s64
  | 9 => some .un8
  | 10 => some .un16
  | 11 => some .un32
  | 12 => some .un64
  | _ => none

/-- The COPY kinds (R105). -/
def CopyKind.code : CopyKind → BitVec 3
  | .plain => 0
  | .t8 => 1
  | .t16 => 2
  | .gath => 3
  | .mc => 4
  | .rel => 5

/-- The inverse of the COPY kinds (R105); none for a code outside them. -/
def CopyKind.ofCode (c : BitVec 3) : Option CopyKind :=
  match c.toNat with
  | 0 => some .plain
  | 1 => some .t8
  | 2 => some .t16
  | 3 => some .gath
  | 4 => some .mc
  | 5 => some .rel
  | _ => none

/-- The COPYW kinds (R105). -/
def CopywKind.code : CopywKind → BitVec 3
  | .plain => 0
  | .rel => 5
  | .glb => 6
  | .glbRel => 7

/-- The inverse of the COPYW kinds (R105); none for a code outside them. -/
def CopywKind.ofCode (c : BitVec 3) : Option CopywKind :=
  match c.toNat with
  | 0 => some .plain
  | 5 => some .rel
  | 6 => some .glb
  | 7 => some .glbRel
  | _ => none

/-- The RELAYOUT tags (R392). -/
def LayoutTag.code : LayoutTag → BitVec 8
  | .row => 0
  | .col => 1
  | .tile => 2
  | .ztile => 3
  | .kpack => 4

/-- The inverse of the RELAYOUT tags (R392); none for a code outside them. -/
def LayoutTag.ofCode (c : BitVec 8) : Option LayoutTag :=
  match c.toNat with
  | 0 => some .row
  | 1 => some .col
  | 2 => some .tile
  | 3 => some .ztile
  | 4 => some .kpack
  | _ => none

/-- The QSCR formats (Table MTX-2). -/
def QFmt.code : QFmt → BitVec 2
  | .e4m3b8 => 0
  | .e5m2b16 => 1
  | .bf16 => 2

/-- The inverse of the QSCR formats (Table MTX-2); none for a code outside them. -/
def QFmt.ofCode (c : BitVec 2) : Option QFmt :=
  match c.toNat with
  | 0 => some .e4m3b8
  | 1 => some .e5m2b16
  | 2 => some .bf16
  | _ => none

/-- The SAMPLE filters (Table REND-8). -/
def Filter.code : Filter → BitVec 2
  | .nearest => 0
  | .bilin => 1
  | .trilin => 2

/-- The inverse of the SAMPLE filters (Table REND-8); none for a code outside them. -/
def Filter.ofCode (c : BitVec 2) : Option Filter :=
  match c.toNat with
  | 0 => some .nearest
  | 1 => some .bilin
  | 2 => some .trilin
  | _ => none

/-- The pair codes (Table WORD-10). -/
def PairOp.code : PairOp → BitVec 6
  | .iadd => 0
  | .isub => 1
  | .imin => 2
  | .imax => 3
  | .mov => 4
  | .and => 5
  | .or => 6
  | .xor => 7
  | .shl => 8
  | .shr => 9
  | .sar => 10
  | .not => 11
  | .fadd => 32
  | .fsub => 33
  | .fmul => 34
  | .fmin => 35
  | .fmax => 36
  | .hadd2 => 37
  | .hmul2 => 38
  | .badd2 => 39
  | .bmul2 => 40

/-- The inverse of the pair codes (Table WORD-10); none for a code outside them. -/
def PairOp.ofCode (c : BitVec 6) : Option PairOp :=
  match c.toNat with
  | 0 => some .iadd
  | 1 => some .isub
  | 2 => some .imin
  | 3 => some .imax
  | 4 => some .mov
  | 5 => some .and
  | 6 => some .or
  | 7 => some .xor
  | 8 => some .shl
  | 9 => some .shr
  | 10 => some .sar
  | 11 => some .not
  | 32 => some .fadd
  | 33 => some .fsub
  | 34 => some .fmul
  | 35 => some .fmin
  | 36 => some .fmax
  | 37 => some .hadd2
  | 38 => some .hmul2
  | 39 => some .badd2
  | 40 => some .bmul2
  | _ => none

/-- MOD-F. -/
def FMod.bits (m : FMod) : BitVec 8 :=
  BitVec.ofBool m.absB ++ BitVec.ofBool m.absA ++ BitVec.ofBool m.negB ++ BitVec.ofBool m.negA ++ BitVec.ofBool m.ftz ++
    m.rm.code

/-- MOD-F out of its bits. -/
def FMod.of (x : BitVec 8) : Option FMod := do
  let rm ← RM.ofCode (x.extractLsb' 0 3)
  pure { absB := x.getLsbD 7, absA := x.getLsbD 6, negB := x.getLsbD 5, negA := x.getLsbD 4, ftz := x.getLsbD 3, rm }

/-- MOD-P. -/
def PMod.bits (m : PMod) : BitVec 8 :=
  0#2 ++ BitVec.ofBool m.negB ++ BitVec.ofBool m.negA ++ BitVec.ofBool m.ftz ++ m.rm.code

/-- MOD-P out of its bits; bits [7:6] are checked by the encoding. -/
def PMod.of (x : BitVec 8) : Option PMod := do
  let rm ← RM.ofCode (x.extractLsb' 0 3)
  pure { negB := x.getLsbD 5, negA := x.getLsbD 4, ftz := x.getLsbD 3, rm }

/-- MOD-F (fma) and MOD-P (fma). -/
def FmaMod.bits (m : FmaMod) : BitVec 8 :=
  0#2 ++ BitVec.ofBool m.negC ++ BitVec.ofBool m.negP ++ BitVec.ofBool m.ftz ++ m.rm.code

/-- The fma layouts out of their bits. -/
def FmaMod.of (x : BitVec 8) : Option FmaMod := do
  let rm ← RM.ofCode (x.extractLsb' 0 3)
  pure { negC := x.getLsbD 5, negP := x.getLsbD 4, ftz := x.getLsbD 3, rm }

/-- A byte with one flag in a given place. -/
def flagBit (n : Nat) (c : Bool) : BitVec 8 := if c then 1#8 <<< n else 0#8

/-- The operands of Form T and I. -/
def FormT.od (f : FormT) : Opnd := { s := f.sd, n := f.d }
/-- A of Form T. -/
def FormT.oa (f : FormT) : Opnd := { s := f.sa, n := f.a }
/-- B of Form T. -/
def FormT.ob (f : FormT) : Opnd := { s := f.sb, n := f.b }
/-- D of Form I. -/
def FormI.od (f : FormI) : Opnd := { s := f.sd, n := f.d }
/-- A of Form I. -/
def FormI.oa (f : FormI) : Opnd := { s := f.sa, n := f.a }

/-- Form T with operands D, A, B. -/
def tDAB (d a b : Opnd) (mod : BitVec 8) : BitVec 35 :=
  FormT.bits { d := d.n, a := a.n, b := b.n, sd := d.s, sa := a.s, sb := b.s, mod }

/-- Form T with operands D, A. -/
def tDA (d a : Opnd) (mod : BitVec 8) : BitVec 35 :=
  FormT.bits { d := d.n, a := a.n, b := 0, sd := d.s, sa := a.s, sb := false, mod }

/-- Form I with operands D, A. -/
def iDA (d a : Opnd) (imm : BitVec 17) : BitVec 35 :=
  FormI.bits { d := d.n, a := a.n, sd := d.s, sa := a.s, imm }

/-- A v register operand. -/
def vr (n : Reg) : Opnd := { s := false, n }

/-- An s register operand. -/
def sr (n : Reg) : Opnd := { s := true, n }

/-- A 4-bit number in an 8-bit field. -/
def low4 (n : BitVec 4) : Reg := 0#4 ++ n

/-- Form M of a load or store. -/
def mBits (d : Reg) (m : MAddr) (order : BitVec 2) : BitVec 35 :=
  FormM.bits { d, a := m.a.n, off := m.off, space := m.space.code, size := m.size.code, order, sa := m.a.s }

/-- The memory operand of Form M. -/
def FormM.addr (f : FormM) : Option MAddr := do
  let space ← Space.ofCode f.space
  let size ← Size.ofCode f.size
  pure { space, size, a := { s := f.sa, n := f.a }, off := f.off }

/-- Form M of ATOM and RED: the operation stands in OFF11 (R319). -/
def atomBits (op : AtomOp) (d : Reg) (a : Opnd) (sp : Space) (wide : Bool) (ord : Order) : BitVec 35 :=
  FormM.bits { d, a := a.n, off := 0#7 ++ op.code, space := sp.code, size := if wide then 3 else 2, order := ord.code,
               sa := a.s }

/-- The SIZE of an atomic: 2 or 3 (R319). -/
def wideOf (z : BitVec 3) : Option Bool :=
  if z = 2 then some false else if z = 3 then some true else none

/-- Both forms of the destination of ISET and FSET (R355). -/
def SetDst.field : SetDst → Opnd
  | .pred p => vr (low4 p)
  | .reg d => d

/-- VD of MOD-C. -/
def SetDst.vd : SetDst → Bool
  | .pred _ => false
  | .reg _ => true

/-- The destination from D, SD and VD. -/
def SetDst.of (vd : Bool) (d : Opnd) : SetDst := if vd then .reg d else .pred (d.n.extractLsb' 0 4)

/-- MOD-C. -/
def condBits (c : Cond) (u : Bool) (d : SetDst) : BitVec 8 :=
  0#3 ++ BitVec.ofBool u ++ BitVec.ofBool d.vd ++ c.code

/-- The four bits of a predicate or mask number in an 8-bit field. -/
def nib (x : BitVec 8) : BitVec 4 := x.extractLsb' 0 4

/-- A pair slot (Table WORD-9). -/
def Slot.bits (s : Slot) : BitVec 30 :=
  s.op.code ++ s.d ++ s.a ++ BitVec.ofBool s.ge ++ s.gp ++ BitVec.ofBool s.gs ++ BitVec.ofBool s.abs ++ BitVec.ofBool s.neg

/-- A pair slot out of its bits, or none for a code outside Table WORD-10. -/
def Slot.of (x : BitVec 30) : Option Slot := do
  let op ← PairOp.ofCode (x.extractLsb' 24 6)
  pure { op, d := x.extractLsb' 16 8, a := x.extractLsb' 8 8, ge := x.getLsbD 7, gp := x.extractLsb' 3 4,
         gs := x.getLsbD 2, abs := x.getLsbD 1, neg := x.getLsbD 0 }

/-! ### The opcode map (Table WORD-13) -/

/-- The instruction whose named fields a full word holds, by its OPC (class × 64 + function); none for an OPC or a code
that the opcode map does not list. -/
def rawFull (h : Hdr) (opc : BitVec 10) (x : BitVec 35) : Option Instr :=
  match opc.toNat with
  | 0x000 => some (.nop h)
  | 0x001 => some (.br h (BForm.of x))
  | 0x002 => some (.brx h (FormT.of x).oa)
  | 0x003 => some (.call h (BForm.of x))
  | 0x004 => some (.ret h)
  | 0x005 => let f := FormI.of x; some (.fork h f.d f.oa f.imm)
  | 0x006 => some (.endFibre h)
  | 0x007 => some (.joinMask h (nib (FormT.of x).mod))
  | 0x008 => some (.leaveMask h (nib (FormT.of x).mod))
  | 0x009 => some (.waitk h (nib (FormT.of x).mod))
  | 0x00A =>
    let f := FormT.of x
    let hi := f.mod.getLsbD 6
    if f.mod.getLsbD 7 then some (.kmovToMask h hi f.a (nib f.mod)) else some (.kmovToScalar h hi f.d (nib f.mod))
  | 0x00B => some (.elect h (nib (FormT.of x).d))
  | 0x00C => some (.yieldFibre h)
  | 0x00D => some (.trap h (FormL.of x).imm)
  | 0x00E => some (.eret h)
  | 0x040 => let f := FormT.of x; some (.iadd h f.od f.oa f.ob)
  | 0x041 => let f := FormI.of x; some (.iaddi h f.od f.oa f.imm)
  | 0x042 => let f := FormT.of x; some (.isub h f.od f.oa f.ob)
  | 0x043 => let f := FormT.of x; some (.imul h f.od f.oa f.ob)
  | 0x044 => let f := FormT.of x; some (.imulh h (f.mod.getLsbD 0) f.od f.oa f.ob)
  | 0x045 => let f := FormT.of x; some (.imad h f.od f.oa f.ob)
  | 0x046 => let f := FormT.of x; some (.imin h (f.mod.getLsbD 0) f.od f.oa f.ob)
  | 0x047 => let f := FormT.of x; some (.imax h (f.mod.getLsbD 0) f.od f.oa f.ob)
  | 0x048 => let f := FormT.of x; some (.iabs h f.od f.oa)
  | 0x049 => do
    let f := FormT.of x
    let c ← Cond.ofCode (f.mod.extractLsb' 0 3)
    some (.iset h c (f.mod.getLsbD 4) (SetDst.of (f.mod.getLsbD 3) f.od) f.oa f.ob)
  | 0x04A => do
    let f := FormI.of x
    let c ← Cond.ofCode (f.d.extractLsb' 4 3)
    some (.iseti h c (f.d.getLsbD 7) (nib f.d) f.oa f.imm)
  | 0x04B => let f := FormT.of x; some (.sel h f.od f.oa f.ob (nib f.mod) (f.mod.getLsbD 4))
  | 0x04C => let f := FormT.of x; some (.mov h f.od f.oa)
  | 0x04D => let f := FormL.of x; some (.movi h { s := f.sd, n := f.d } f.imm)
  | 0x04E => let f := FormI.of x; some (.movhi h f.od f.oa (f.imm.extractLsb' 0 16))
  | 0x04F => let f := FormT.of x; some (.iadd64 h f.od f.oa f.ob)
  | 0x050 => let f := FormI.of x; some (.iadd64i h f.od f.oa f.imm)
  | 0x051 => let f := FormI.of x; some (.rdx h f.d (f.a.extractLsb' 0 1) f.imm)
  | 0x052 => let f := FormI.of x; some (.wrx h (f.d.extractLsb' 0 1) f.oa f.imm)
  | 0x053 => let f := FormI.of x; some (.setix h (f.d.extractLsb' 0 1) f.oa f.imm)
  | 0x080 => let f := FormT.of x; some (.and h f.od f.oa f.ob)
  | 0x081 => let f := FormI.of x; some (.andi h f.od f.oa f.imm)
  | 0x082 => let f := FormT.of x; some (.or h f.od f.oa f.ob)
  | 0x083 => let f := FormI.of x; some (.ori h f.od f.oa f.imm)
  | 0x084 => let f := FormT.of x; some (.xor h f.od f.oa f.ob)
  | 0x085 => let f := FormI.of x; some (.xori h f.od f.oa f.imm)
  | 0x086 => let f := FormT.of x; some (.not h f.od f.oa)
  | 0x087 => let f := FormT.of x; some (.shl h f.od f.oa f.ob)
  | 0x088 => let f := FormI.of x; some (.shli h f.od f.oa f.imm)
  | 0x089 => let f := FormT.of x; some (.shr h f.od f.oa f.ob)
  | 0x08A => let f := FormI.of x; some (.shri h f.od f.oa f.imm)
  | 0x08B => let f := FormT.of x; some (.sar h f.od f.oa f.ob)
  | 0x08C => let f := FormI.of x; some (.sari h f.od f.oa f.imm)
  | 0x08D => let f := FormT.of x; some (.bfx h (f.mod.getLsbD 0) f.od f.oa f.ob)
  | 0x08E => let f := FormT.of x; some (.bfi h f.od f.oa f.ob)
  | 0x08F => let f := FormT.of x; some (.popc h f.od f.oa)
  | 0x090 => let f := FormT.of x; some (.clz h f.od f.oa)
  | 0x091 => let f := FormT.of x; some (.brev h f.od f.oa)
  | 0x092 => let f := FormT.of x; if f.mod.getLsbD 0 then some (.pmovTop h f.oa) else some (.pmov h f.od)
  | 0x093 => let f := FormT.of x; some (.plop h (nib f.d) (nib f.a) (nib f.b) (nib f.mod))
  | 0x0C0 => let f := FormT.of x; do let m ← FMod.of f.mod; some (.fadd h m f.od f.oa f.ob)
  | 0x0C1 => let f := FormT.of x; do let m ← FMod.of f.mod; some (.fsub h m f.od f.oa f.ob)
  | 0x0C2 => let f := FormT.of x; do let m ← FMod.of f.mod; some (.fmul h m f.od f.oa f.ob)
  | 0x0C3 => let f := FormT.of x; do let m ← FmaMod.of f.mod; some (.ffma h m f.od f.oa f.ob)
  | 0x0C4 => let f := FormT.of x; do let m ← FMod.of f.mod; some (.fmin h m f.od f.oa f.ob)
  | 0x0C5 => let f := FormT.of x; do let m ← FMod.of f.mod; some (.fmax h m f.od f.oa f.ob)
  | 0x0C6 => do
    let f := FormT.of x
    let c ← Cond.ofCode (f.mod.extractLsb' 0 3)
    some (.fset h c (SetDst.of (f.mod.getLsbD 3) f.od) f.oa f.ob)
  | 0x0C7 => let f := FormT.of x; do let m ← FMod.of f.mod; some (.frnd h m.absA m.negA m.ftz m.rm f.od f.oa)
  | 0x100 => let f := FormT.of x; do let m ← PMod.of f.mod; some (.hadd2 h m f.od f.oa f.ob)
  | 0x101 => let f := FormT.of x; do let m ← PMod.of f.mod; some (.hmul2 h m f.od f.oa f.ob)
  | 0x102 => let f := FormT.of x; do let m ← FmaMod.of f.mod; some (.hfma2 h m f.od f.oa f.ob)
  | 0x103 => let f := FormT.of x; do let m ← PMod.of f.mod; some (.badd2 h m f.od f.oa f.ob)
  | 0x104 => let f := FormT.of x; do let m ← PMod.of f.mod; some (.bmul2 h m f.od f.oa f.ob)
  | 0x105 => let f := FormT.of x; do let m ← FmaMod.of f.mod; some (.bfma2 h m f.od f.oa f.ob)
  | 0x106 => do
    let f := FormT.of x
    let src ← CvtType.ofCode (f.mod.extractLsb' 0 4)
    let dst ← CvtType.ofCode (f.mod.extractLsb' 4 4)
    let rm ← RM.ofCode (f.b.extractLsb' 0 3)
    some (.cvt h src dst rm (f.b.getLsbD 3) f.d f.a)
  | 0x107 => do
    let f := FormT.of x
    let t ← CvtType.ofCode (f.mod.extractLsb' 0 4)
    some (.pack h t (f.mod.getLsbD 4) (f.mod.getLsbD 5) f.d f.a f.b)
  | 0x140 => let f := FormT.of x; some (.frcp h (f.mod.getLsbD 3) f.od f.oa)
  | 0x141 => let f := FormT.of x; some (.frsq h (f.mod.getLsbD 3) f.od f.oa)
  | 0x142 => let f := FormT.of x; some (.fsqrt h (f.mod.getLsbD 3) f.od f.oa)
  | 0x143 => let f := FormT.of x; some (.fex2 h (f.mod.getLsbD 3) f.od f.oa)
  | 0x144 => let f := FormT.of x; some (.flg2 h (f.mod.getLsbD 3) f.od f.oa)
  | 0x145 => let f := FormT.of x; some (.fsin h (f.mod.getLsbD 3) f.od f.oa)
  | 0x146 => let f := FormT.of x; some (.fcos h (f.mod.getLsbD 3) f.od f.oa)
  | 0x180 => let f := FormT.of x; do let m ← ShflMode.ofCode (f.mod.extractLsb' 0 2); some (.shfl h m f.d f.a f.ob)
  | 0x181 => let f := FormT.of x; some (.bcast h f.d f.a f.ob)
  | 0x182 => let f := FormT.of x; do let op ← LaneOp.ofCode (nib f.mod); some (.redl h op f.od f.a)
  | 0x183 => let f := FormT.of x; do let op ← LaneOp.ofCode (nib f.mod); some (.scanl h op (f.mod.getLsbD 4) f.d f.a)
  | 0x184 => do
    let f := FormT.of x
    let m ← VoteMode.ofCode (f.mod.extractLsb' 0 3)
    some (.vote h m (f.mod.getLsbD 3) f.od (nib f.a))
  | 0x185 => let f := FormT.of x; some (.matchLanes h (f.mod.getLsbD 2) f.od f.oa)
  | 0x186 => let f := FormT.of x; some (.compress h f.d f.oa (nib f.b))
  | 0x187 => let f := FormT.of x; some (.expand h f.d f.oa (nib f.b))
  | 0x188 => let f := FormT.of x; some (.slideup h f.d f.a f.ob)
  | 0x189 => let f := FormT.of x; some (.slidedn h f.d f.a f.ob)
  | 0x1C0 => let f := FormM.of x; do let m ← f.addr; let o ← Order.ofCode f.order; some (.ld h f.d m o)
  | 0x1C1 => let f := FormM.of x; do let m ← f.addr; let o ← Order.ofCode f.order; some (.st h f.d m o)
  | 0x1C2 => let f := FormM.of x; do let m ← f.addr; some (.ldc h f.d m (f.order.getLsbD 0))
  | 0x1C3 => let f := FormM.of x; do let m ← f.addr; let o ← Order.ofCode f.order; some (.stf h f.d m o)
  | 0x1C4 => let f := FormT.of x; some (.ldt h f.d f.oa (f.mod.getLsbD 0) (f.mod.getLsbD 1))
  | 0x1C5 => let f := FormT.of x; some (.stt h f.d f.oa (f.mod.getLsbD 0) (f.mod.getLsbD 1))
  | 0x1C6 => let f := FormT.of x; some (.tld h f.d f.oa f.ob (f.mod.extractLsb' 0 3))
  | 0x1C7 => let f := FormT.of x; some (.tst h f.d f.oa f.ob (f.mod.extractLsb' 0 3))
  | 0x1C8 => let f := FormM.of x; some (.pref h (f.d.getLsbD 0) { s := f.sa, n := f.a } f.off)
  | 0x1C9 => do let s ← Scope.ofCode ((FormT.of x).mod.extractLsb' 0 3); some (.fence h s)
  | 0x200 => do
    let f := FormM.of x
    let op ← AtomOp.ofCode (f.off.extractLsb' 0 4)
    let sp ← Space.ofCode f.space
    let wide ← wideOf f.size
    let o ← Order.ofCode f.order
    some (.atom h op f.d { s := f.sa, n := f.a } sp wide o)
  | 0x202 => do
    let f := FormM.of x
    let op ← AtomOp.ofCode (f.off.extractLsb' 0 4)
    let sp ← Space.ofCode f.space
    let wide ← wideOf f.size
    let o ← Order.ofCode f.order
    some (.red h op f.d { s := f.sa, n := f.a } sp wide o)
  | 0x201 => do
    let f := FormT.of x
    let sp ← Space.ofCode (f.mod.extractLsb' 0 2)
    let o ← Order.ofCode (f.mod.extractLsb' 3 2)
    some (.atomcas h f.d f.oa f.ob sp (f.mod.getLsbD 2) o)
  | 0x203 => let f := FormT.of x; some (.mwait h (f.mod.getLsbD 0) f.d f.oa f.ob)
  | 0x204 => let f := FormT.of x; some (.barinit h f.oa (f.mod.getLsbD 5) (f.mod.extractLsb' 0 5))
  | 0x205 =>
    let f := FormT.of x
    let bar := f.mod.extractLsb' 0 5
    match (f.mod.extractLsb' 5 2).toNat with
    | 0 => some (.bararv h (.plain f.od f.oa) bar)
    | 1 => some (.bararv h (.x f.od f.oa) bar)
    | 2 => some (.bararv h (.r f.oa) bar)
    | _ => none
  | 0x206 => let f := FormT.of x; some (.barwait h f.oa (f.mod.extractLsb' 0 5))
  | 0x207 => let f := FormT.of x; some (.bartst h (nib f.d) f.oa (f.mod.extractLsb' 0 5))
  | 0x208 => some (.attach h (FormT.of x).od)
  | 0x209 => some (.detach h)
  | 0x240 => do
    let f := FormT.of x
    let k ← CopyKind.ofCode (f.mod.extractLsb' 5 3)
    some (.copy h k f.od f.oa f.b (f.mod.extractLsb' 0 5))
  | 0x241 => do
    let f := FormT.of x
    let k ← CopywKind.ofCode (f.mod.extractLsb' 5 3)
    some (.copyw h k f.od f.oa f.ob (f.mod.extractLsb' 0 5))
  | 0x242 =>
    let f := FormT.of x
    some (.copyb h f.od f.oa f.ob (f.mod.getLsbD 7) (f.mod.getLsbD 6) (f.mod.getLsbD 5) (f.mod.extractLsb' 0 5))
  | 0x243 => let f := FormT.of x; do let t ← LayoutTag.ofCode f.mod; some (.relayout h f.oa f.ob t)
  | 0x244 => let f := FormT.of x; some (.hstat h (f.mod.getLsbD 0) f.od f.oa)
  | 0x245 => some (.hinv h (FormT.of x).oa)
  | 0x246 => let f := FormT.of x; some (.cbld h f.oa f.mod)
  | 0x280 => let f := FormT.of x; some (.mma h (nib f.d) (f.d.getLsbD 7) f.a f.b f.mod)
  | 0x281 => some (.mmaz h (nib (FormT.of x).d))
  | 0x282 => let f := FormT.of x; some (.qld h f.d f.oa (nib f.mod) (f.mod.extractLsb' 4 2))
  | 0x283 => let f := FormT.of x; some (.qst h f.d f.oa (nib f.mod) (f.mod.extractLsb' 4 2))
  | 0x284 => let f := FormT.of x; do let q ← QFmt.ofCode (f.mod.extractLsb' 4 2); some (.qscr h f.d (nib f.mod) q)
  | 0x2C0 => let f := FormT.of x; some (.emitm h f.a f.b)
  | 0x2C1 => let f := FormT.of x; some (.emitf h f.a (f.mod.extractLsb' 0 3) (f.mod.extractLsb' 3 3))
  | 0x2C2 => let f := FormT.of x; some (.ipa h (f.mod.getLsbD 2) (f.mod.extractLsb' 0 2) f.d f.oa)
  | 0x2C3 => do
    let f := FormT.of x
    let t ← Filter.ofCode (f.mod.extractLsb' 0 2)
    some (.sample h t (f.mod.getLsbD 2) f.d f.oa f.b)
  | 0x2C4 => let f := FormT.of x; some (.trace h (f.mod.getLsbD 0) f.d f.a f.ob)
  | 0x2C5 => let f := FormT.of x; some (.tracef h f.od f.a f.b (f.mod.extractLsb' 0 5))
  | 0x300 => let f := FormT.of x; some (.rdsr h f.od f.mod)
  | 0x301 => let f := FormT.of x; some (.wrsr h f.oa f.mod)
  | 0x302 => some (.sleep h (FormT.of x).oa)
  | 0x303 => some (.bkpt h (FormT.of x).mod)
  | 0x304 => let f := FormT.of x; some (.cfgrd h f.od f.oa)
  | 0x305 => let f := FormT.of x; some (.cfgwr h f.oa f.ob)
  | _ => none

/-- The 64 bits of a word, from the encoding that its entry gives; an event is no word. -/
def encode : Instr → Option DWord
  | .pairWord stall a b => some (1#1 ++ stall ++ a.bits ++ b.bits)
  | .nop h => some (fullWord h 0x000 0)
  | .br h f => some (fullWord h 0x001 f.bits)
  | .brx h a => some (fullWord h 0x002 (tDA (vr 0) a 0))
  | .call h f => some (fullWord h 0x003 f.bits)
  | .ret h => some (fullWord h 0x004 0)
  | .fork h d a imm => some (fullWord h 0x005 (iDA (vr d) a imm))
  | .endFibre h => some (fullWord h 0x006 0)
  | .joinMask h k => some (fullWord h 0x007 (tDA (vr 0) (vr 0) (low4 k)))
  | .leaveMask h k => some (fullWord h 0x008 (tDA (vr 0) (vr 0) (low4 k)))
  | .waitk h k => some (fullWord h 0x009 (tDA (vr 0) (vr 0) (low4 k)))
  | .kmovToScalar h hi d k =>
    some (fullWord h 0x00A (tDA (sr d) (vr 0) (0#1 ++ BitVec.ofBool hi ++ 0#2 ++ k)))
  | .kmovToMask h hi a k =>
    some (fullWord h 0x00A (tDA (vr 0) (sr a) (1#1 ++ BitVec.ofBool hi ++ 0#2 ++ k)))
  | .elect h p => some (fullWord h 0x00B (tDA (vr (low4 p)) (vr 0) 0))
  | .yieldFibre h => some (fullWord h 0x00C 0)
  | .trap h code => some (fullWord h 0x00D (FormL.bits { d := 0, sd := false, imm := code }))
  | .eret h => some (fullWord h 0x00E 0)
  | .iadd h d a b => some (fullWord h 0x040 (tDAB d a b 0))
  | .iaddi h d a imm => some (fullWord h 0x041 (iDA d a imm))
  | .isub h d a b => some (fullWord h 0x042 (tDAB d a b 0))
  | .imul h d a b => some (fullWord h 0x043 (tDAB d a b 0))
  | .imulh h u d a b => some (fullWord h 0x044 (tDAB d a b (flagBit 0 u)))
  | .imad h d a b => some (fullWord h 0x045 (tDAB d a b 0))
  | .imin h u d a b => some (fullWord h 0x046 (tDAB d a b (flagBit 0 u)))
  | .imax h u d a b => some (fullWord h 0x047 (tDAB d a b (flagBit 0 u)))
  | .iabs h d a => some (fullWord h 0x048 (tDA d a 0))
  | .iset h c u d a b => some (fullWord h 0x049 (tDAB d.field a b (condBits c u d)))
  | .iseti h c u p a imm =>
    some (fullWord h 0x04A (FormI.bits { d := BitVec.ofBool u ++ c.code ++ p, a := a.n, sd := false, sa := a.s, imm }))
  | .sel h d a b p sense => some (fullWord h 0x04B (tDAB d a b (0#3 ++ BitVec.ofBool sense ++ p)))
  | .mov h d a => some (fullWord h 0x04C (tDA d a 0))
  | .movi h d imm => some (fullWord h 0x04D (FormL.bits { d := d.n, sd := d.s, imm }))
  | .movhi h d a imm => some (fullWord h 0x04E (iDA d a (0#1 ++ imm)))
  | .iadd64 h d a b => some (fullWord h 0x04F (tDAB d a b 0))
  | .iadd64i h d a imm => some (fullWord h 0x050 (iDA d a imm))
  | .rdx h d n imm => some (fullWord h 0x051 (iDA (vr d) (vr (0#7 ++ n)) imm))
  | .wrx h n a imm => some (fullWord h 0x052 (iDA (vr (0#7 ++ n)) a imm))
  | .setix h n a imm => some (fullWord h 0x053 (iDA (vr (0#7 ++ n)) a imm))
  | .and h d a b => some (fullWord h 0x080 (tDAB d a b 0))
  | .andi h d a imm => some (fullWord h 0x081 (iDA d a imm))
  | .or h d a b => some (fullWord h 0x082 (tDAB d a b 0))
  | .ori h d a imm => some (fullWord h 0x083 (iDA d a imm))
  | .xor h d a b => some (fullWord h 0x084 (tDAB d a b 0))
  | .xori h d a imm => some (fullWord h 0x085 (iDA d a imm))
  | .not h d a => some (fullWord h 0x086 (tDA d a 0))
  | .shl h d a b => some (fullWord h 0x087 (tDAB d a b 0))
  | .shli h d a imm => some (fullWord h 0x088 (iDA d a imm))
  | .shr h d a b => some (fullWord h 0x089 (tDAB d a b 0))
  | .shri h d a imm => some (fullWord h 0x08A (iDA d a imm))
  | .sar h d a b => some (fullWord h 0x08B (tDAB d a b 0))
  | .sari h d a imm => some (fullWord h 0x08C (iDA d a imm))
  | .bfx h u d a b => some (fullWord h 0x08D (tDAB d a b (flagBit 0 u)))
  | .bfi h d a b => some (fullWord h 0x08E (tDAB d a b 0))
  | .popc h d a => some (fullWord h 0x08F (tDA d a 0))
  | .clz h d a => some (fullWord h 0x090 (tDA d a 0))
  | .brev h d a => some (fullWord h 0x091 (tDA d a 0))
  | .pmov h d => some (fullWord h 0x092 (tDA d (vr 0) 0))
  | .pmovTop h a => some (fullWord h 0x092 (tDA (vr 0) a 1))
  | .plop h d a b table => some (fullWord h 0x093 (tDAB (vr (low4 d)) (vr (low4 a)) (vr (low4 b)) (low4 table)))
  | .fadd h m d a b => some (fullWord h 0x0C0 (tDAB d a b m.bits))
  | .fsub h m d a b => some (fullWord h 0x0C1 (tDAB d a b m.bits))
  | .fmul h m d a b => some (fullWord h 0x0C2 (tDAB d a b m.bits))
  | .ffma h m d a b => some (fullWord h 0x0C3 (tDAB d a b m.bits))
  | .fmin h m d a b => some (fullWord h 0x0C4 (tDAB d a b m.bits))
  | .fmax h m d a b => some (fullWord h 0x0C5 (tDAB d a b m.bits))
  | .fset h c d a b => some (fullWord h 0x0C6 (tDAB d.field a b (condBits c false d)))
  | .frnd h absA negA ftz rm d a =>
    some (fullWord h 0x0C7 (tDA d a (FMod.bits { absB := false, absA, negB := false, negA, ftz, rm })))
  | .hadd2 h m d a b => some (fullWord h 0x100 (tDAB d a b m.bits))
  | .hmul2 h m d a b => some (fullWord h 0x101 (tDAB d a b m.bits))
  | .hfma2 h m d a b => some (fullWord h 0x102 (tDAB d a b m.bits))
  | .badd2 h m d a b => some (fullWord h 0x103 (tDAB d a b m.bits))
  | .bmul2 h m d a b => some (fullWord h 0x104 (tDAB d a b m.bits))
  | .bfma2 h m d a b => some (fullWord h 0x105 (tDAB d a b m.bits))
  | .cvt h src dst rm ftz d a =>
    some (fullWord h 0x106 (tDAB (vr d) (vr a) (vr (0#4 ++ BitVec.ofBool ftz ++ rm.code)) (dst.code ++ src.code)))
  | .pack h t s32 hi d a b =>
    some (fullWord h 0x107 (tDAB (vr d) (vr a) (vr b) (0#2 ++ BitVec.ofBool hi ++ BitVec.ofBool s32 ++ t.code)))
  | .frcp h ftz d a => some (fullWord h 0x140 (tDA d a (flagBit 3 ftz)))
  | .frsq h ftz d a => some (fullWord h 0x141 (tDA d a (flagBit 3 ftz)))
  | .fsqrt h ftz d a => some (fullWord h 0x142 (tDA d a (flagBit 3 ftz)))
  | .fex2 h ftz d a => some (fullWord h 0x143 (tDA d a (flagBit 3 ftz)))
  | .flg2 h ftz d a => some (fullWord h 0x144 (tDA d a (flagBit 3 ftz)))
  | .fsin h ftz d a => some (fullWord h 0x145 (tDA d a (flagBit 3 ftz)))
  | .fcos h ftz d a => some (fullWord h 0x146 (tDA d a (flagBit 3 ftz)))
  | .shfl h mode d a b => some (fullWord h 0x180 (tDAB (vr d) (vr a) b (0#6 ++ mode.code)))
  | .bcast h d a b => some (fullWord h 0x181 (tDAB (vr d) (vr a) b 0))
  | .redl h op d a => some (fullWord h 0x182 (tDA d (vr a) (0#4 ++ op.code)))
  | .scanl h op excl d a => some (fullWord h 0x183 (tDA (vr d) (vr a) (0#3 ++ BitVec.ofBool excl ++ op.code)))
  | .vote h mode hi d p => some (fullWord h 0x184 (tDA d (vr (low4 p)) (0#4 ++ BitVec.ofBool hi ++ mode.code)))
  | .matchLanes h hi d a => some (fullWord h 0x185 (tDA d a (flagBit 2 hi)))
  | .compress h d a p => some (fullWord h 0x186 (tDAB (vr d) a (vr (low4 p)) 0))
  | .expand h d a p => some (fullWord h 0x187 (tDAB (vr d) a (vr (low4 p)) 0))
  | .slideup h d a b => some (fullWord h 0x188 (tDAB (vr d) (vr a) b 0))
  | .slidedn h d a b => some (fullWord h 0x189 (tDAB (vr d) (vr a) b 0))
  | .ld h d m ord => some (fullWord h 0x1C0 (mBits d m ord.code))
  | .st h d m ord => some (fullWord h 0x1C1 (mBits d m ord.code))
  | .ldc h d m clr => some (fullWord h 0x1C2 (mBits d m (0#1 ++ BitVec.ofBool clr)))
  | .stf h d m ord => some (fullWord h 0x1C3 (mBits d m ord.code))
  | .ldt h d a col rs => some (fullWord h 0x1C4 (tDA (vr d) a (0#6 ++ BitVec.ofBool rs ++ BitVec.ofBool col)))
  | .stt h d a col rs => some (fullWord h 0x1C5 (tDA (vr d) a (0#6 ++ BitVec.ofBool rs ++ BitVec.ofBool col)))
  | .tld h d a b n => some (fullWord h 0x1C6 (tDAB (vr d) a b (0#5 ++ n)))
  | .tst h d a b n => some (fullWord h 0x1C7 (tDAB (vr d) a b (0#5 ++ n)))
  | .pref h llc a off =>
    some (fullWord h 0x1C8 (FormM.bits { d := flagBit 0 llc, a := a.n, off, space := 0, size := 0, order := 0, sa := a.s }))
  | .fence h scope => some (fullWord h 0x1C9 (tDA (vr 0) (vr 0) (0#5 ++ scope.code)))
  | .atom h op d a sp wide ord => some (fullWord h 0x200 (atomBits op d a sp wide ord))
  | .red h op d a sp wide ord => some (fullWord h 0x202 (atomBits op d a sp wide ord))
  | .atomcas h d a b sp wide ord =>
    some (fullWord h 0x201 (tDAB (vr d) a b (0#3 ++ ord.code ++ BitVec.ofBool wide ++ sp.code)))
  | .mwait h wide d a b => some (fullWord h 0x203 (tDAB (vr d) a b (flagBit 0 wide)))
  | .barinit h a member bar => some (fullWord h 0x204 (tDA (vr 0) a (0#2 ++ BitVec.ofBool member ++ bar)))
  | .bararv h (.plain d a) bar => some (fullWord h 0x205 (tDA d a (0#3 ++ bar)))
  | .bararv h (.x d a) bar => some (fullWord h 0x205 (tDA d a (1#3 ++ bar)))
  | .bararv h (.r a) bar => some (fullWord h 0x205 (tDA (vr 0) a (2#3 ++ bar)))
  | .barwait h a bar => some (fullWord h 0x206 (tDA (vr 0) a (0#3 ++ bar)))
  | .bartst h p a bar => some (fullWord h 0x207 (tDA (vr (low4 p)) a (0#3 ++ bar)))
  | .attach h d => some (fullWord h 0x208 (tDA d (vr 0) 0))
  | .detach h => some (fullWord h 0x209 0)
  | .copy h k d a b bar => some (fullWord h 0x240 (tDAB d a (vr b) (k.code ++ bar)))
  | .copyw h k d a b bar => some (fullWord h 0x241 (tDAB d a b (k.code ++ bar)))
  | .copyb h d a b out spSide rel bar =>
    some (fullWord h 0x242 (tDAB d a b (BitVec.ofBool out ++ BitVec.ofBool spSide ++ BitVec.ofBool rel ++ bar)))
  | .relayout h a b tag => some (fullWord h 0x243 (tDAB (vr 0) a b tag.code))
  | .hstat h acq d a => some (fullWord h 0x244 (tDA d a (flagBit 0 acq)))
  | .hinv h a => some (fullWord h 0x245 (tDA (vr 0) a 0))
  | .cbld h a slot => some (fullWord h 0x246 (tDA (vr 0) a slot))
  | .mma h tile reuse a b f =>
    some (fullWord h 0x280 (tDAB (vr (BitVec.ofBool reuse ++ 0#3 ++ tile)) (vr a) (sr b) f))
  | .mmaz h tile => some (fullWord h 0x281 (tDA (vr (low4 tile)) (vr 0) 0))
  | .qld h d a tile lg => some (fullWord h 0x282 (tDA (vr d) a (0#2 ++ lg ++ tile)))
  | .qst h d a tile lg => some (fullWord h 0x283 (tDA (vr d) a (0#2 ++ lg ++ tile)))
  | .qscr h d tile f => some (fullWord h 0x284 (tDA (sr d) (vr 0) (0#2 ++ f.code ++ tile)))
  | .emitm h a b => some (fullWord h 0x2C0 (tDAB (vr 0) (sr a) (sr b) 0))
  | .emitf h a tgt n => some (fullWord h 0x2C1 (tDA (vr 0) (vr a) (0#2 ++ n ++ tgt)))
  | .ipa h flat c d a => some (fullWord h 0x2C2 (tDA (vr d) a (0#5 ++ BitVec.ofBool flat ++ c)))
  | .sample h f lod d a b => some (fullWord h 0x2C3 (tDAB (vr d) a (vr b) (0#5 ++ BitVec.ofBool lod ++ f.code)))
  | .trace h any d a b => some (fullWord h 0x2C4 (tDAB (vr d) (vr a) b (flagBit 0 any)))
  | .tracef h d a b bar => some (fullWord h 0x2C5 (tDAB d (vr a) (vr b) (0#3 ++ bar)))
  | .rdsr h d num => some (fullWord h 0x300 (tDA d (vr 0) num))
  | .wrsr h a num => some (fullWord h 0x301 (tDA (vr 0) a num))
  | .sleep h a => some (fullWord h 0x302 (tDA (vr 0) a 0))
  | .bkpt h code => some (fullWord h 0x303 (tDA (vr 0) (vr 0) code))
  | .cfgrd h d a => some (fullWord h 0x304 (tDA d a 0))
  | .cfgwr h a b => some (fullWord h 0x305 (tDAB (vr 0) a b 0))
  | .powerOn | .bootWatchdogExpiry | .failedStart .. | .cfgBootokWrite .. | .cfgBootctlWrite .. | .cfgSlopeWrite .. => none
  | .cfgRegisterWrite .. | .startGovernorGrant .. | .canaryWarning .. | .canaryDecay .. | .stackLevelEvaluation .. => none
  | .dieThermalTrip .. | .dieReturnToService .. | .powerSampleTick .. | .linkRetirement .. | .bundleRegroup .. => none
  | .bundleIssue .. | .trapEntry .. | .lateTrapDelivery .. | .crewHalt .. | .shiftAdmission | .dependenceWordCheck .. => none
  | .startdtReached .. | .deviceQueueTake .. | .crewDispatch .. | .prologueBinding .. | .gangStart .. => none
  | .attachingGangStart .. | .gangAttach .. | .shrinkRequest .. | .crewRetirement .. | .shiftCompletion .. => none
  | .timeSliceExpiry .. | .hotDieMigration .. | .tileWaitTimeout .. | .preemptionHalt .. | .contextSave .. => none
  | .contextRestore .. | .loadDataReturn .. | .storeAppliedAtHome .. | .readLeaseExpiry .. | .exclusiveLeaseGrant .. => none
  | .exclusiveLeaseRecall .. | .exclusiveLeaseExpiry .. | .monitorWake .. | .monitorTimeout .. | .copyPartLand .. => none
  | .copyFault .. | .relayoutTileConversion .. | .engineOperationRetire .. | .cbTransfer .. | .backfillBegin .. => none
  | .backfillUnitMove .. | .powerGatedWake .. | .cfgFattrWrite .. | .cfgXinvcmdWrite .. | .invalidationCompletion => none
  | .passOpen .. | .passClose .. | .passCloseCompletion | .regionFlushGo .. | .regionFlushCompletion => none
  | .claimEntryWrite .. | .packetDelivery .. | .packetRelease .. | .microTriangleEnqueue .. | .fragmentBlend .. => none
  | .regionCacheEviction .. | .tracefCompletion .. | .sqtailDoorbell .. | .queuePairEnable .. | .queuePairDisable .. => none
  | .completionEntryPost .. | .inboundWrite .. | .inboundRead .. | .bar2ConfigAccess .. | .hostStoreAcknowledge .. => none
  | .peerPortFailure .. | .timeFlit .. | .ppsEdge | .ptpMessage .. | .ownershipWrite .. | .partitionEnable .. => none
  | .partitionDisable .. | .partitionSuspend .. | .partitionResume .. | .vfMapWrite .. | .policyInstall .. => none
  | .attestationRequest .. | .surveyTick | .debugStopCommand .. | .debugResumeCommand .. | .debugStepCommand .. => none
  | .debugArmCommand .. | .debugDisarmCommand .. | .debugStopRecord .. | .waitkRelease .. | .barwaitRelease .. => none
  | .bararvCredit .. | .ldcFill .. | .fenceRelease .. | .hinvCompletion .. | .detachCompletion .. | .sleepExpiry .. => none
  | .rsTargetRestored .. | .resourcePowerGating .. | .memoryScrub .. | .cxlCacheSnoop .. | .inboundAtomic .. => none
  | .peerPortTrained .. | .timingInputLoss .. | .cqheadWrite .. | .functionRegisterWrite .. => none
  | .partitionScrubCompletion .. | .ownershipChangeEffect .. | .frameAttributeChangeDone | .firmwareImageInstall .. => none

/-- A full word (bit 63 clear). -/
def decodeFull (w : DWord) : Except DecodeErr Instr :=
  match rawFull (Hdr.of w) (w.extractLsb' 35 10) (w.extractLsb' 0 35) with
  | some i => if i.wellFormed && encode i == some w then .ok i else .error .illegal
  | none => .error .illegal

/-- A pair word (bit 63 set): the first static rule of R92 that it breaks, in the order listed. Rule 5 depends on the
window base of each fibre and is checked at issue. -/
def decodePair (w : DWord) : Except DecodeErr Instr :=
  match Slot.of (w.extractLsb' 30 30), Slot.of (w.extractLsb' 0 30) with
  | some a, some b =>
    if !(a.ok && b.ok) then .error (.pairRule 2)
    else if !slotsF a b then .error (.pairRule 3)
    else if !slotsApart a b then .error (.pairRule 4)
    else .ok (.pairWord (w.extractLsb' 60 3) a b)
  | _, _ => .error (.pairRule 1)

/-- The instruction that a 64-bit word holds, or the cause with which it traps at decode (R89, R92). -/
def decode (w : DWord) : Except DecodeErr Instr :=
  if w.getLsbD 63 then decodePair w else decodeFull w

/-- The word that eight bytes hold, the first at the lowest address (R3). -/
def wordOfBytes (bs : List Byte) : DWord :=
  bs.foldr (fun b acc => acc <<< 8 ||| b.zeroExtend 64) 0#64

/-- The bytes of a word in memory order. -/
def bytesOfWord (w : DWord) : List Byte :=
  (List.range 8).map fun i => w.extractLsb' (8 * i) 8

/-- What the decoder reads from an instruction whose bits are `w`, bit 0 being the least significant bit of the word. -/
def decodeTableWord (_nbits w : Nat) : Option Instr :=
  match decode (wordOfBytes (bytesOfWord (BitVec.ofNat 64 w))) with
  | .ok i => some i
  | .error _ => none

end Sys2Proof
end

