-- ==== Sys2Proof/Machine/Parts.lean ====
section
/-! DEFINITION. The kinds of record that the state is made of, each with the rules of spec/ that name its parts. Fields
that count something the spec does not bound are numbers; fields that software reads as a word are bit vectors. -/

namespace Sys2Proof.Machine

/-! ### Dies and cores -/

/-- CFG.TILEID.KIND (Table PKG-4). -/
inductive DieKind where
  | none | shading | geometry | memory
  deriving DecidableEq, Repr

/-- CFG.CBFILL STATE (Table MEM-6). -/
inductive FillState where
  | normal | vacate | backfill | reduced | gone
  deriving DecidableEq, Repr

/-- A position: what stands there and how it fares (R10, R17 to R24, R31 to R37, R86, R159). -/
structure Die where
  /-- What is physically there. -/
  kind : DieKind
  dieRev : BitVec 8
  baseRev : BitVec 8
  /-- Self-test results of the die: its code, and the LLC slices and channels that pass (memory dies). -/
  test : BitVec 8
  llcPass : BitVec 32
  chanPass : BitVec 24
  /-- Self-test results of the column banks (shading dies). -/
  bankPass : BitVec 8
  /-- CFG.HEALTH, CFG.CHAN and CFG.LINKS as software reads them. -/
  health : BitVec 32
  chan : BitVec 24
  links : BitVec 8
  slope : BitVec 8
  /-- Stack level S, hottest sensor and last one-millisecond average power. -/
  level : Nat
  temp : Nat
  mw : Nat
  stepped : Bool
  governed : Bool
  incomplete : Bool
  /-- The instant of its last stack-level evaluation (R33). -/
  evalAt : Option Nat
  /-- The reading of its base tile's time base less DT, plus ε: 0 to 8 (R12, R167). -/
  skew : Nat
  /-- In service when the start was made, so that its channel groups are numbered (R23, R150). -/
  whole : Bool
  /-- In the scheduler's service; tripped (R34); isolated (R14). -/
  inService : Bool
  tripped : Bool
  isolated : Bool
  /-- The conversion whose tile the relayout engine converted last (R207). -/
  turn : Nat
  /-- The start governor: its balance in units of 0.5 mA, and the start requests, oldest first: their instants and the
  keys of the engines. -/
  govB : Nat
  govReq : List (Nat × Nat)
  cbRetry : BitVec 4
  cbFoldWait : BitVec 24
  /-- The error logs: rings of 64 records of four words, and the counts. -/
  alog : Tab (List Word)
  blog : Tab (List Word)
  alogN : Nat
  blogN : Nat
  deriving DecidableEq, Repr

/-- A core: self-test results, its column bank's buses, canary and clock (R20, R21, R31, R32, R154 to R158). -/
structure Core where
  /-- Units that pass self-test, whatever the manifest says of them (R22). -/
  pipePass : BitVec 18
  engPass : BitVec 6
  texPass : BitVec 6
  rayPass : BitVec 2
  /-- Units that pass and that the manifest does not disable. -/
  pipe : BitVec 18
  eng : BitVec 6
  tex : BitVec 6
  ray : BitVec 2
  /-- CFG.VBUS; the bus list of the current mapping; buses retired during a backfill. -/
  vbus : BitVec 16
  mapBuses : BitVec 16
  oldBuses : BitVec 16
  lateBuses : List Nat
  fill : FillState
  wmark : Nat
  /-- The instant at which backfill begins, while VACATE. -/
  foldAt : Nat
  canary : Nat
  canaryPend : Bool
  canaryEvents : Nat
  canaryAt : Nat
  /-- The region's cycle count and its fraction in thousandths (R31, R84). -/
  cyc : Nat
  frac : Nat
  /-- The core's reading of device time less DT, plus ε: 0 to 8 (R167). -/
  skew : Nat
  /-- For each slice × 4 + pipe, the cycle from which the pipe is free (R45). -/
  pipes : Tab Nat
  deriving DecidableEq, Repr

/-! ### Registers, hazards and holds -/

/-- The files whose registers R97 to R102 time: v, s, predicate, index. -/
inductive RegFile where
  | v | s | p | ix
  deriving DecidableEq, Repr

/-- A register by file and number. -/
structure RegRef where
  file : RegFile
  n : Nat
  deriving DecidableEq, Repr

/-- A register written by a word of fixed latency: a read whose R98 sum is below `due` sees `old` or the new value. -/
structure Hazard where
  reg : RegRef
  old : Word
  due : Nat
  deriving DecidableEq, Repr

/-- A register that a word has written while an earlier word's data had still to land in it: until that data has landed, or
been lost, a read may see what stood there before (R99, R101). `after` are the accesses awaited, `ops` the issue numbers of the
QLD words awaited. -/
structure Shadow where
  reg : RegRef
  old : Word
  after : List Nat
  ops : List Nat
  deriving DecidableEq, Repr

/-- A change of SR.FFLAGS that may not have been merged yet: a word's raise, or the write of a WRSR, and the R98 sum from which
it is sure (R121). -/
structure FlagEv where
  write : Bool
  val : Flags
  due : Nat
  deriving DecidableEq, Repr

/-- An s register written by some fibres of the gang: another fibre reading before cycle `due` sees either value (R81). -/
structure SHazard where
  n : Nat
  old : Word
  due : Nat
  lanes : List Nat
  deriving DecidableEq, Repr

/-- Why a fibre is held (R103), or that a debug session holds its crew (R317). -/
inductive HoldWhy where
  | waitk (k : Nat)
  | attach (d : Opnd)
  | barwait (bar : Nat) (phase : Word)
  | bararv
  | mwait (mon : Nat)
  | fence (scope : Scope)
  | sleep (upto : Nat)
  /-- HINV of a handle: 0, or once the drop is made its descriptor's address and the issue number before which accesses count
  (R202). -/
  | hinv (handle : Nat) (daddr : Option Nat) (cut : Nat)
  | ldc (acc : Nat)
  | detach
  deriving DecidableEq, Repr

/-- A hold: the stall of the holding word, its counter group, and the issue number of the word. -/
structure Held where
  why : HoldWhy
  stall : Nat
  gid : Nat
  seq : Nat
  deriving DecidableEq, Repr

/-- A condition found late (R278): its trap, and the issue number of its word; `waits` if another was delivered before it,
so that it is delivered when the handler returns. -/
structure LateTrap where
  seq : Nat
  pc : DWord
  info : TrapInfo
  waits : Bool
  deriving DecidableEq, Repr

/-- A fibre (R41, R82, R96, R98, R281). -/
structure Fibre where
  pc : DWord
  wbase : Nat
  preds : BitVec 16
  ix0 : Word
  ix1 : Word
  fmode : BitVec 2
  /-- SR.FFLAGS with every raise and write so far; the flags that are sure, and the later changes, oldest first (R121). -/
  fflags : Flags
  flBase : Flags
  flq : List FlagEv
  /-- CR.CHKSTALL as the fibre's words meet it: from the gang's next regroup, the gang's (R85). -/
  chk : Bool
  tcause : BitVec 8
  tpc : Word
  taddr : DWord
  tinfo : Word
  handler : Bool
  retpc : DWord
  timeHi : Option Word
  cycHi : Option Word
  /-- The cycle of its region from which its next word may issue (R96). -/
  readyAt : Nat
  /-- The cycle from which a word that waited at issue is tried again. -/
  retry : Nat
  /-- The bundle it belongs to; 0 until the next regroup (R45). -/
  bun : Nat
  /-- The R98 sum of the words issued, and the registers still too young to read. -/
  sum : Nat
  haz : List Hazard
  /-- Registers written ahead of an earlier word's data (R99). -/
  shadow : List Shadow
  held : Option Held
  /-- Words abandoned at a halt, by address and counter group, whose raise of a counter stands until they are replayed (R287). -/
  owed : List (DWord × Nat)
  late : List LateTrap
  /-- An order that later words wait for: the issue number of an acquire not yet performed (Table ORD-4). -/
  acqs : List Nat
  /-- The issue number of the last word that wrote a v register, kept so that an earlier word's late data never lands
  over a later write (R99). -/
  wseq : Tab Nat
  deriving DecidableEq, Repr

/-- An outstanding issue of a counter (R100): lanes still to complete, or the cycle at which a latency elapses. -/
structure Outst where
  gid : Nat
  ctr : Nat
  left : Nat
  due : Nat
  deriving DecidableEq, Repr

/-- A quad of a pixel gang (R263): its packet and triangle, its region, its first pixel, and the coverage of its four
pixels after ZTEST. -/
structure Quad where
  pkt : Nat
  off : Nat
  m : Nat
  region : Nat
  x : Nat
  y : Nat
  cover : BitVec 4
  deriving DecidableEq, Repr

/-- A gang (R41, R44, R76). Its key is 256 × crew + index. -/
structure Gang where
  core : Nat
  slice : Nat
  gw : Nat
  wsize : Nat
  pool : Tab Word
  sregs : Tab Word
  shaz : List SHazard
  swseq : Tab Nat
  kmasks : Tab DWord
  /-- For each mask, the JOIN, and the LEAVE and END, updates of one cycle, which follow a KMOV of that cycle (R367). -/
  klog : Tab (Nat × DWord × DWord)
  outs : List Outst
  /-- The cycle at which an issue of each counter last completed (R45, R46). -/
  zeroAt : Tab Nat
  /-- CR.CHKSTALL. -/
  chk : Bool
  fibres : Tab Fibre
  born : Nat
  /-- It started at the attach entry and is not yet a member (R55). -/
  attaching : Bool
  /-- Its first word has issued. -/
  begun : Bool
  /-- The tile set it belongs to: gangs of one slice share it (R73, R242). -/
  group : Nat
  /-- The pool registers of this gang that the engine's A latch holds; none once one of them is written (R236). -/
  latch : List Nat
  /-- The quads of a pixel gang; none for any other gang (R263). -/
  pixel : List Quad
  deriving DecidableEq, Repr

/-! ### Barriers, crews -/

/-- An arrival at a barrier that is not yet credited to the current phase (R223, R224): the issuing gang and its held lanes,
the destination of the phase, the bytes an .X arrival declares, the later phase it has been credited to, its issue number,
the address by which it comes from another crew (.R), and whether its ordering conditions have been met, so that it is at the barrier. -/
structure Arrival where
  gang : Nat
  lanes : List Nat
  dst : Option Opnd
  bytes : Option Nat
  credited : Option Nat
  seq : Nat
  /-- The RS address of an .R arrival. -/
  remote : Option Word
  there : Bool
  deriving DecidableEq, Repr

/-- A member of a member-counted barrier (R56): F, and the phases it has arrived in, and the phase from which it is
dropped. -/
structure Member where
  gang : Nat
  f : Nat
  arrived : List Nat
  dropped : Option Nat
  deriving DecidableEq, Repr

/-- A barrier (Table TENS-7). PHASE counts on as a number; software reads it modulo 2^32. -/
structure Barrier where
  phase : Nat
  expect : Nat
  arrived : Nat
  bytes : Nat
  member : Bool
  err : Nat
  mems : List Member
  waits : List Arrival
  deriving DecidableEq, Repr

/-- The copy fault record of a crew (R219). -/
structure CopyFaultRec where
  addr : DWord
  handle : Nat
  cause : BitVec 8
  bar : Nat
  deriving DecidableEq, Repr

/-- What a crew is doing (R74, R75, R283, R286 to R289, R317). -/
inductive CrewPhase where
  | prologue (k : Nat)
  | running
  /-- A halt has been asked for: to report a trap and retire, to save, or for a debug stop. -/
  | halting
  /-- Its gangs have stopped under R283; its copies drain and its stores are applied before it is reported and retires. -/
  | ending
  | halted
  | saved
  | stopped
  deriving DecidableEq, Repr

/-- Why a crew halts. -/
inductive HaltWhy where
  | trap (gang lane : Nat) (t : TrapInfo) (pc : DWord) (double : Bool)
  | prologue (k : Nat) (addr : DWord) (info : Word) (cause : BitVec 8)
  | preempt
  | lost (cause : BitVec 8)
  | debug (gang lane reason : Nat) (pc : DWord)
  deriving DecidableEq, Repr

/-- A crew (R51 to R53, R60, R82, R219, R228). -/
structure Crew where
  shift : Nat
  x : Nat
  y : Nat
  z : Nat
  pos : Nat
  core : Nat
  paired : Bool
  part : Nat
  prio : Nat
  svc : Bool
  /-- Offsets of the allocation in each core's scratchpad (one, or two if paired), and the bytes of each. -/
  spBase : List Nat
  spSize : Nat
  cbBase : List Nat
  cbSize : Nat
  bars : List Barrier
  gangMin : Nat
  gangMax : Nat
  crewN : Nat
  shrink : Nat
  tvec : DWord
  htab : DWord
  shiftId : Word
  phase : CrewPhase
  /-- The halts asked for and not yet carried out: at most one that retires the crew, one pre-emption, one debug stop. -/
  halt : List HaltWhy
  cfr : CopyFaultRec
  slots : List Nat
  slotImage : Tab (List Byte)
  settle : Nat
  born : Nat
  /-- The quads of a pixel crew (R263). -/
  pixel : List Quad
  /-- Debug: a breakpoint is armed; a barrier and phase that a STEP waits for. -/
  armed : Bool
  stepBar : Option (Nat × Nat)
  /-- The debug stop in place of its trap halt has been taken; it was stopped when it was pre-empted (R317). -/
  trapStop : Bool
  wasStopped : Bool
  /-- Its gangs have started; the tiles that its context save wrote, by group × 16 + tile. -/
  started : Bool
  savedTiles : List Nat
  /-- The crew's tile sets, by 8 × core of the pair + slice (R240, R242). -/
  sets : Tab Nat
  /-- A phase of barrier 0 has just begun at which the gangs held then attach: the phase and the gangs (R55, R59). -/
  attachDue : Option (Nat × List Nat)
  deriving DecidableEq, Repr

/-! ### Accesses in the memory system -/

/-- A handle descriptor (Table TENS-1). -/
structure Desc where
  base : Nat
  newBase : Nat
  dims : List Nat
  box : List Nat
  fmt : Nat
  tag : Nat
  newTag : Nat
  tile : Nat
  state : Nat
  flags : Nat
  errCause : Nat
  bmap : Nat
  cbook : Nat
  deriving DecidableEq, Repr

/-- A read-modify-write operation (Table ORD-5, R321). -/
inductive RmwOp where
  | op (o : AtomOp)
  | cas
  deriving DecidableEq, Repr

/-- What an access does when it is performed. -/
inductive AccOp where
  /-- A load of `size` bytes into `d` (R369). -/
  | load (d : Nat) (acq : Bool)
  /-- The words of one 16-byte part that an LDT moves, by the key of each lane's word (R181). -/
  | loadLine (d : Nat) (keys : List Nat)
  /-- A store of bytes (R400). -/
  | store (bytes : List Byte)
  /-- One aggregated update: lane, operand and comparison, in ascending lane order (R183). `ret` is D, or none (RED). -/
  | rmw (op : RmwOp) (args : List (Nat × Nat × Nat)) (ret : Option Nat) (acq : Bool)
  /-- A waiting LDC; `clr` empties the granule (R370). -/
  | ldc (d : Nat) (clr : Bool)
  /-- A TLD or TST of a handle's element at coordinates (R204). -/
  | tld (d : Nat) (handle daddr : Nat) (desc : Desc) (coords : List Nat)
  | tst (v : Word) (handle daddr : Nat) (desc : Desc) (coords : List Nat)
  /-- A read of a descriptor's STATE (R211). -/
  | hstat (d : Opnd) (acq : Bool) (handle : Nat)
  /-- A configuration read of an address (R334). -/
  | cfgrd (d : Opnd) (addr : Word)
  /-- A texture sample with the channels read so far, a ray walk with the 16-byte parts read so far (R267 to R273). -/
  | sample (d : Nat) (handle daddr : Nat) (desc : Desc) (levels : List (Nat × Nat × Nat)) (f : Filter) (u v lod : Word)
      (got : Tab (List Byte))
  | trace (d : Nat) (any : Bool) (ray : List Word) (root : DWord) (seen : List (DWord × List Byte))
  /-- The writes of one bundle's lanes to one granule, with the keys of their bytes (R402). -/
  | stf (writes : List (Nat × List Byte))
  /-- A prefetch into L1 (R383). -/
  | pref
  deriving DecidableEq, Repr

/-- How far an access has come. -/
inductive AccSt where
  | pending
  /-- Performed, with the values to write to its lanes' registers. -/
  | done (vals : List (Nat × List Word))
  /-- A store applied at its home at H, with settle time S (R170). -/
  | applied (s : Nat)
  /-- A store forwarded to a host or peer window, not yet acknowledged (R196). -/
  | forwarded
  /-- Performed in the L1 under an exclusive lease, not yet returned (R185). -/
  | near
  deriving DecidableEq, Repr

/-- An access of one lane, or of one group of lanes for an atomic. -/
structure Acc where
  gang : Nat
  crew : Nat
  core : Nat
  lanes : List Nat
  /-- The other fibres that executed its word, where one register of the gang takes its data (R80, R101). -/
  also : List Nat := []
  gid : Nat
  seq : Nat
  pc : DWord
  op : AccOp
  space : Space
  /-- The address as the fibre formed it, the address it reaches, and its length. -/
  va : DWord
  pa : Nat
  size : Nat
  /-- Performed at the home whatever the L1 holds (acquire, C = 0, windows). -/
  atHome : Bool
  window : Bool
  /-- A store that first fences at device scope (Table ORD-4). -/
  rel : Bool
  st : AccSt
  deriving DecidableEq, Repr

/-! ### Leases, translations, monitors -/

/-- A lease directory record (R168, R185): EMAX, and the exclusive holder with its expiry; while there is one, the bytes that
the home held at the grant, which stand if the holder is lost (R14). -/
structure DirRec where
  emax : Nat
  holder : Option (Nat × Nat)
  was : List Byte
  deriving DecidableEq, Repr

/-- A read-lease copy of a line in a core's L1 (R147, R168), or the words of the line that a gang has fetched ahead
(R169). -/
structure L1Copy where
  core : Nat
  line : Nat
  fetch : Option Nat
  exp : Nat
  bytes : List Byte
  deriving DecidableEq, Repr

/-- A cached translation (R164): die, partition, page address and size, its leaf entry, and whether it reaches the host as PF 0
for service crews (R433). -/
structure TlbEntry where
  svc : Bool
  pos : Nat
  part : Nat
  page : Nat
  size : Nat
  leaf : DWord
  deriving DecidableEq, Repr

/-- A monitor (R186, R187): its fibre, the address and size, its arming time and timeout, whether it has been woken. -/
structure Monitor where
  gang : Nat
  lane : Nat
  d : Nat
  wide : Bool
  va : DWord
  pa : Nat
  armed : Nat
  upto : Option Nat
  woken : Bool
  seq : Nat
  deriving DecidableEq, Repr

/-- A granule's state (R145). -/
inductive GranState where
  | empty | full | failed
  deriving DecidableEq, Repr

/-- A frame's sidecar attributes (R152) and the CRCs of its CHK blocks. -/
structure Frame where
  packed : Bool
  chk : Bool
  deriving DecidableEq, Repr

/-! ### Handles, copies, conversions -/

/-- A cached descriptor (R201): partition, core, handle table address of the descriptor. -/
structure HCache where
  part : Nat
  core : Nat
  handle : Nat
  addr : Nat
  desc : Desc
  /-- The levels of its mip chain, once a SAMPLE has read it (R268). -/
  levels : Option (List (Nat × Nat × Nat))
  deriving DecidableEq, Repr

/-- What an engine thread does (R213 to R217, R220, R274). -/
inductive CopyOp where
  /-- A box into scratchpad at each destination (the key of its first byte, and the RS address it was given by); `rows` are
  the index entries of a gather. -/
  | box (handle : Nat) (addr : Nat) (desc : Desc) (coords : List Nat) (order1 : Bool) (rows : Option (List Nat))
      (dests : List (Nat × Option Nat)) (credit : Bool) (convert : Option Nat)
  /-- Scratchpad, from the key of a byte, out to a box. -/
  | boxOut (handle : Nat) (addr : Nat) (desc : Desc) (coords : List Nat) (src : Nat)
  /-- Scratchpad out to consecutive global bytes. -/
  | glbOut (va : DWord) (src : Nat)
  /-- Column bank, from the key of a byte, and global memory or scratchpad. -/
  | bankGl (out : Bool) (bank : Nat) (va : DWord)
  | bankSp (out : Bool) (bank : Nat) (spad : Nat)
  /-- A ray, with the 16-byte parts of its BVH read so far, and the three FADDs on its miss: how many have been applied, and
  their settle time as far as it is known. -/
  | ray (words : List Word) (root : DWord) (va : DWord) (rgb : List Word) (seen : List (DWord × List Byte)) (fadds : Nat)
      (settle : Option Nat)
  deriving DecidableEq, Repr

/-- The state of a part (R219). -/
inductive PartSt where
  | todo
  /-- Applied at the home with its settle time. -/
  | applied (s : Nat)
  /-- Forwarded to a host or peer window, and not yet acknowledged (R196). -/
  | forwarded
  deriving DecidableEq, Repr

/-- An engine thread with the parts it still has to land (R189, R219). -/
structure Copy where
  gang : Nat
  lane : Nat
  crew : Nat
  core : Nat
  part : Nat
  gid : Nat
  seq : Nat
  bar : Option Nat
  rel : Bool
  op : CopyOp
  parts : Tab PartSt
  unread : Nat
  /-- Granules that a COPY.MC has read for all its receivers and not yet sent to each: the fault or the bytes (R213). -/
  read : Tab (Option (BitVec 8 × DWord) × List Byte) := []
  deriving DecidableEq, Repr

/-- A conversion of a relayout engine (R205 to R210). -/
structure Conv where
  pos : Nat
  part : Nat
  addr : Nat
  handle : Nat
  desc : Desc
  tile : Nat
  locked : Bool
  /-- The settle time of the locked tile's writes; none while a window has still to acknowledge one (R191, R196). -/
  settle : Option Nat
  svc : Bool
  deriving DecidableEq, Repr

/-! ### Matrix engines -/

/-- An operation in an engine's queue (R230, R243 to R246). -/
inductive EngOp where
  /-- Format word, lanes with their A registers and row scales, tile (group × 16 + tile), the key of the B block, and the
  contents that its 16-byte parts have lost to stores since the word issued (R238). -/
  | mma (fmt : Word) (rows : List (Nat × List Word × Word)) (tile : Nat) (b : Nat) (olds : List (Nat × List Byte))
  | mmaz (tile : Nat)
  | qld (d : Nat) (tile : Nat) (col : Nat) (c : Nat)
  | qst (tile : Nat) (col : Nat) (c : Nat) (rows : List (Nat × List Word))
  | qscr (f : QFmt) (tile : Nat) (key : Nat)
  deriving DecidableEq, Repr

/-- A queued operation with its gang, that gang's width, its lanes and its counter group. -/
structure EngEntry where
  gang : Nat
  gw : Nat
  lanes : List Nat
  gid : Nat
  seq : Nat
  pc : DWord
  op : EngOp
  deriving DecidableEq, Repr

/-- The A latch (R236): gang, the pool registers held, format word, and the operand of each lane. It is valid while its gang
lists those registers as held. -/
structure ALatch where
  gang : Nat
  regs : List Nat
  fmt : Word
  rows : List (Nat × List Word × Word)
  deriving DecidableEq, Repr

/-- A wait for a physical tile (R241, R242): the gang, the tile, the waiting word's address (none for a restore), and its
beginning. -/
structure TileWait where
  gang : Nat
  tile : Nat
  pc : Option DWord
  since : Nat
  deriving DecidableEq, Repr

/-- The matrix engine of a core slice (R230, R236, R240, R37). Its key is 8 × core + slice. -/
structure Engine where
  queue : List EngEntry
  /-- Mapped logical tiles: tile group × 16 + tile. -/
  mapped : List Nat
  /-- The cycle at which an MMA was last in progress, or none since the start. -/
  busyAt : Option Nat
  latch : Option ALatch
  /-- The cycle from which a start's wait for the governor is still to be counted (R38). -/
  stallAt : Option Nat
  tileWait : List TileWait
  deriving DecidableEq, Repr

/-! ### Rendering -/

/-- A vertex of a packet: x, y, the code of z, and its attribute block (Table REND-2). -/
structure Vertex where
  x : Int
  y : Int
  z : Nat
  aref : Nat
  deriving DecidableEq, Repr

/-- A meshlet packet that has been emitted (R251 to R255): its number less SEQ0, its emitting fibre and word, its geometry,
its attributes once read (a list for each vertex), and the regions that it has still to be delivered to. -/
structure Packet where
  off : Nat
  pos : Nat
  gang : Nat
  /-- The fibres of the bundle that emitted it. -/
  lanes : List Nat
  seq : Nat
  svc : Bool
  nattr : Nat
  abase : DWord
  verts : List Vertex
  tris : List (Nat × Nat × Nat)
  attrs : Option (List (List Word))
  todo : List Nat
  deriving DecidableEq, Repr

/-- An export that has been accepted and not yet blended (R265). -/
structure Fragment where
  off : Nat
  m : Nat
  region : Nat
  gang : Nat
  lane : Nat
  seq : Nat
  x : Nat
  y : Nat
  tgt : Nat
  val : List Word
  deriving DecidableEq, Repr

/-- A micro-triangle entry on its way to its queue, or written to the slot with this key and not yet taken (R262). -/
structure MicroTri where
  pos : Nat
  queue : Nat
  region : Nat
  bytes : List Byte
  slot : Option Nat
  deriving DecidableEq, Repr

/-! ### The scheduler -/

/-- How far a shift has come (R67, R68). -/
inductive ShiftSt where
  | admitted
  | running
  | completed
  | rejected (code : Nat)
  deriving DecidableEq, Repr

/-- Where a record came from: the service record, a function's submission slot (its host bus address), a device-side
queue's slot address, the pixel shift record. -/
inductive ShiftSrc where
  | svc
  | host (fn : Nat) (slot : DWord)
  | dev (part queue : Nat) (va : DWord)
  | pixel
  deriving DecidableEq, Repr

/-- A shift (R62, R67, R68, R72): `depPa` is the address its dependence word was last read at, `depWake` that a store has
reached that line since. -/
structure Shift where
  record : List Byte
  src : ShiftSrc
  part : Nat
  st : ShiftSt
  depMet : Bool
  depPa : Nat
  depWake : Bool
  dtMet : Bool
  next : Nat
  retired : Nat
  settle : Nat
  /-- Stores of its retired crews that a window has still to acknowledge (R68, R196). -/
  acks : List Nat
  deriving DecidableEq, Repr

/-! ### Peers and partitions -/

/-- A peer port (Table OUT-6): STATE and REFUSED. -/
structure Peer where
  state : Nat
  refused : Nat
  deriving DecidableEq, Repr

/-- A completion entry to be posted (R299): submission slot, shift ID, STATUS, completion time. -/
structure Completion where
  slot : DWord
  shiftId : Word
  status : Byte
  dt : Nat
  /-- STATUS stands in the submission slot (R299). -/
  written : Bool
  deriving DecidableEq, Repr

/-- A debug session (R316, R318): its registers, the flags of DBGSTAT, and a stop whose record is to be written: the crew,
REASON and CAUSE. -/
structure DebugSt where
  shiftId : Word
  x : Word
  y : Word
  z : Word
  bar : BitVec 5
  cmd : BitVec 8
  busy : Bool
  stopped : Bool
  stepping : Bool
  armed : Bool
  result : BitVec 8
  buf : DWord
  stop : Option (Nat × Nat × BitVec 8)
  deriving DecidableEq, Repr

/-- A function (Table OUT-2, R311, R316): 0 is PF 0 and 1 + v is virtual function v. -/
structure Func where
  sqBase : DWord
  sqLogn : BitVec 4
  sqTail : Word
  sqHead : Word
  cqBase : DWord
  cqLogn : BitVec 4
  cqHead : Word
  cqTail : Word
  en : Bool
  err : Bool
  errCode : BitVec 8
  comps : List Completion
  dbg : DebugSt
  nonce : List Word
  abuf : DWord
  apart : BitVec 5
  abusy : Bool
  deriving DecidableEq, Repr

/-- An ownership write in preparation (R302): the value, and the CFGWR issues that wait for it: gang, lane and group. -/
structure OwnWrite where
  val : Word
  waits : List (Nat × Nat × Nat)
  deriving DecidableEq, Repr

/-- What a survey counter has counted in one bin of 256 ns, which no interval of a stream divides: bin `b` covers
(256 × (b - 1), 256 × b]. The crew is 0 for a count that belongs to no crew; the counter is 12 × group + its place in Table
OUT-10. -/
structure SurveyCount where
  bin : Nat
  part : Nat
  crew : Nat
  core : Nat
  ctr : Nat
  n : Nat
  deriving DecidableEq, Repr

/-- The survey stream (R313, R314): the counts; partition, shift ID and coordinates of the crews counted; the bins in which a
crew's time saved (2 × crew) or a die's time out of service (2 × position + 1) has ended; the first bin that no tick has
latched yet. -/
structure SurveySt where
  counts : List SurveyCount
  who : Tab (Nat × Word × Nat × Nat × Nat)
  inc : List (Nat × Nat)
  opened : Nat
  deriving DecidableEq, Repr

/-- A partition (R86, R303, R304, R312): EN, SUSP, SCRUB, FAILED, the control registers of Table WORD-6, the result of the
last policy installation and whether one is in progress, the policy in force and the one that takes its place at the next
survey tick. -/
structure Partition where
  enabled : Bool
  susp : Bool
  scrub : Bool
  failed : Bool
  leaseMax : Nat
  rasThr : Nat
  result : Nat
  busy : Bool
  policy : Option (List Byte)
  nextPolicy : Option (List Byte)
  deriving DecidableEq, Repr

/-- A partition at reset (Tables OUT-4, WORD-6). -/
def newPartition : Partition :=
  { enabled := false, susp := false, scrub := false, failed := false, leaseMax := 0x800, rasThr := 0x2000, result := 0,
    busy := false, policy := none, nextPolicy := none }

/-- The bundle a pipe has taken: its gang, lanes and program counter. -/
structure Bundle where
  gang : Nat
  lanes : List Nat
  pc : DWord
  deriving DecidableEq, Repr

/-- A record on its way to a ring of the management plane (R284, R291, R293, R314, R315): the configuration offset of the
ring's registers at position 0, and the record; once it has been written, its settle time (R291). -/
structure Report where
  ring : Nat
  bytes : List Byte
  upto : Option Nat := none
  deriving DecidableEq, Repr

/-- The next move of a unit: the nanoseconds that pass before it, and the event. -/
structure Tick where
  ns : Nat
  ev : Instr
  deriving DecidableEq, Repr

end Sys2Proof.Machine
end

