-- ==== Sys2Proof/Machine/State.lean ====
section
/-! DEFINITION. The state of the package as plain data: everything the spec names, and beside it the model's own record of
which unit moves next (INVENTORY.md, '## State', lists every field with its rule). -/

namespace Sys2Proof.Machine

/-- Why the machine stops. No run from reset meets one: each marks a state the spec rules out. -/
inductive Fault where
  /-- Raised by `step` and by every word's meaning when the issue latch names a gang that does not exist. Safe: no rule of
  the spec leads to such a state. -/
  | noGang
  deriving DecidableEq, Repr

/-- Why there is no meaning. -/
inductive Refusal where
  /-- Raised by an arm of `exec` that has no meaning yet, with its mnemonic. Safe: nothing is claimed of it. -/
  | notModelled (mnemonic : String)
  deriving DecidableEq, Repr

/-- Device time and the servo (R167, R308, Table OUT-7). -/
structure TimeSt where
  now : Nat
  lock : Bool
  offset : Int
  slew : Int
  ppsAt : Option Nat
  ptpAt : Option Nat
  ptpSec : Option Nat
  goodSecs : Nat
  /-- CFG.THI, once a read of CFG.TLO has latched it. -/
  thi : Option Word
  deriving DecidableEq, Repr

/-- The start (R25 to R30). -/
structure BootSt where
  started : Bool
  refuge : Bool
  ok : Bool
  startAt : Nat
  cause : BitVec 8
  fails : Nat
  refugePos : Option Nat
  deriving DecidableEq, Repr

/-- A boot-log record (R26). -/
structure BootRec where
  cause : BitVec 8
  detail : Nat
  deriving DecidableEq, Repr

/-- The flash (R22, R25, R26): the manifest, the firmware images in load order, the boot log and its count. -/
structure FlashSt where
  manifest : Manifest
  images : List Image
  log : List BootRec
  fails : Nat
  deriving DecidableEq, Repr

/-- The caches and directories of global memory (R147, R164, R168, R185 to R187, R197, R201). -/
structure CacheSt where
  dir : Tab DirRec
  /-- HORIZON of each LLC slice, by position × 32 + slice (R168). -/
  horizon : Tab Nat
  l1 : List L1Copy
  tlb : List TlbEntry
  /-- An invalidation in progress: its command and the accesses and copies it waits for. -/
  inv : Option (Word × List Nat × List Nat)
  hlc : Tab (List Byte)
  handles : List HCache
  mons : Tab Monitor
  deriving DecidableEq, Repr

/-- The scheduler (R62 to R75). `done` holds, for partition × 4096 + ID mod 4096, the ID last completed; `owner`, by
position × 8 + pair, a shared core pair's owner and the end of its slice. -/
structure SchedSt where
  shifts : Tab Shift
  done : Tab Nat
  owner : Tab (Nat × Nat)
  /-- Device-side queue faults already reported, by partition × 16 + queue. -/
  queueErr : Tab Nat
  deriving DecidableEq, Repr

/-- The render pass (R249 to R263): the flags of CFG.RPASS and CFG.RFLUSH, the flush's region and cut; the geometry dies by
rank with each die's watermark and the numbers emitted above it (both less SEQ0); packets; each region's reorder window; the
highest number sent to a region, plus 1; cuts of held regions, and whether their flush has completed; quads to launch;
exports to blend; micro-triangle entries, and how many each queue (position × 256 + queue) has had; the bytes that region
caches hold, by region × 2^48 + address; the latest settle time of a region; whether the end entries have been written; SEQ0 at the open. -/
structure RendSt where
  passOpen : Bool
  closing : Bool
  done : Bool
  qerr : Bool
  verr : Bool
  flushing : Bool
  fdone : Bool
  flushRegion : Nat
  cut : Word
  geo : List Nat
  marks : Tab (Nat × List Nat)
  pkts : Tab Packet
  wins : Tab (List Nat)
  sent : Tab Nat
  held : Tab (Nat × Bool)
  quads : List Quad
  frags : List Fragment
  micro : List MicroTri
  microN : Tab Nat
  rcache : Tab Byte
  settle : Tab Nat
  ended : Bool
  seq0 : Nat
  deriving DecidableEq, Repr

/-- The whole package. -/
structure State where
  time : TimeSt
  boot : BootSt
  flash : FlashSt
  dies : Tab Die
  cores : Tab Core
  parts : Tab Partition
  peers : Tab Peer
  cfg : Tab Word
  mem : List Host.Cell
  hostMem : List Host.Cell
  /-- The 4 KiB pages of host bus addresses, by number, that the host answers with an error (R298). -/
  hostHoles : List Nat
  poison : List Nat
  bankPoison : List Nat
  frames : Tab Frame
  crcs : Tab DWord
  cache : CacheSt
  accs : Tab Acc
  spad : Tab Byte
  gran : Tab GranState
  bank : Tab Byte
  slots : Tab (List Byte)
  crews : Tab Crew
  gangs : Tab Gang
  engines : Tab Engine
  tiles : Tab Word
  copies : Tab Copy
  convs : Tab Conv
  rend : RendSt
  sched : SchedSt
  funcs : Tab Func
  own : Tab OwnWrite
  /-- A change of frame attributes in progress: the frame and its new attributes (R152). -/
  fattr : Option (Nat × Frame)
  survey : SurveySt
  /-- Power-gated resources (R160). -/
  gated : List GateRes
  /-- Records on their way to rings; rings that owe the LOST flag of R314; MSI-X messages raised, by function × 4 + vector;
  entries of the AER log; the operator's telemetry buffer. -/
  outbox : List Report
  lostMark : List Nat
  msix : Tab Nat
  aer : Nat
  telemetry : List (List Byte)
  agenda : List Tick
  issue : Option Bundle
  free : Nat
  nextId : Nat
  deriving DecidableEq, Repr

/-! ### Reset -/

/-- A die of a kind, passing its self-tests, with its registers as they are at reset (Tables PKG-4, PKG-5, PKG-10, WORD-5,
MEM-7): health is filled in by the start (R25), links that have a neighbour train. -/
def newDie (kind : DieKind) (links : BitVec 8) : Die :=
  { kind, dieRev := 0, baseRev := 0, test := 0, llcPass := if kind = .memory then 0xFFFFFFFF else 0,
    chanPass := if kind = .memory then 0xFFFFFF else 0, bankPass := if kind = .shading then 0xFF else 0, health := 0, chan := 0, links, slope := 0x10, level := 0, temp := 25,
    mw := 0, stepped := false, governed := false, incomplete := true, evalAt := none, skew := 4, whole := false, inService := false, tripped := false,
    isolated := false, turn := 0, govB := 8000, govReq := [], cbRetry := 4, cbFoldWait := 0x3E8, alog := [], blog := [], alogN := 0,
    blogN := 0 }

/-- A core of a kind of die, passing its self-tests (Tables PKG-6, PKG-9, MEM-6). -/
def newCore (kind : DieKind) : Core :=
  let shading := kind = .shading
  let pipe := if shading then 0x3FFFF else 0xFFF
  let six := if shading then 0x3F else 0
  let ray := if shading then 3 else 0
  { pipePass := pipe, engPass := six, texPass := six, rayPass := ray, pipe, eng := six, tex := six, ray, vbus := if shading then 0xFFFF else 0, mapBuses := if shading then 0xFFFF else 0,
    oldBuses := 0, lateBuses := [], fill := .normal, wmark := 0, foldAt := 0, canary := 0, canaryPend := false,
    canaryEvents := 0, canaryAt := 0, cyc := 0, frac := 0, skew := 4, pipes := [] }

/-- The mixes that ship (Table SCOPE-1): shading, geometry and memory dies in the product code. -/
inductive Mix where
  | s16g2m8 | s18g0m8 | s8g1m4
  deriving DecidableEq, Repr

/-- Rows of the mosaic that a mix fills. -/
def Mix.rows : Mix → Nat
  | .s16g2m8 | .s18g0m8 => 4
  | .s8g1m4 => 2

/-- The die at positions 10 and 17, where they are present (Table PKG-1). -/
def Mix.centre : Mix → DieKind
  | .s16g2m8 | .s8g1m4 => .geometry
  | .s18g0m8 => .shading

/-- The die that a mix has at a position (Table PKG-1). -/
def Mix.kind (x : Mix) (pos : Nat) : DieKind :=
  if 7 * x.rows ≤ pos || pos = 3 || pos = 24 then .none
  else if pos % 7 = 0 || pos % 7 = 6 then .memory
  else if pos = 10 || pos = 17 then x.centre
  else .shading

/-- Dies of a kind in a mix. -/
def Mix.count (x : Mix) (k : DieKind) : Nat := ((List.range 28).filter fun p => x.kind p == k).length

/-- The product code, which names the mix (R1, Table SCOPE-1), in ASCII. -/
def Mix.product : Mix → List Byte
  | .s16g2m8 => [0x31, 0x36, 0x53, 0x2D, 0x32, 0x47, 0x2D, 0x38, 0x4D]
  | .s18g0m8 => [0x31, 0x38, 0x53, 0x2D, 0x30, 0x47, 0x2D, 0x38, 0x4D]
  | .s8g1m4 => [0x38, 0x53, 0x2D, 0x31, 0x47, 0x2D, 0x34, 0x4D]

/-- The die that the flagship mix, 16S-2G-8M, has at a position. -/
def flagshipKind : Nat → DieKind := Mix.kind .s16g2m8

/-- Is a position of a mix present? -/
def standsAt (kinds : Nat → DieKind) (pos : Nat) : Bool := kinds pos != .none

/-- CFG.LINKS at reset: training towards each present neighbour (Table PKG-5): north, east, south, west from bit 0 up. -/
def resetLinks (kinds : Nat → DieKind) (pos : Nat) : BitVec 8 :=
  let up := fun (b : Bool) (k : Nat) => if b then BitVec.ofNat 8 (3 * 4 ^ k) else 0#8
  up (7 ≤ pos && standsAt kinds (pos - 7)) 0 ||| up (pos % 7 < 6 && standsAt kinds (pos + 1)) 1 |||
    up (pos < 21 && standsAt kinds (pos + 7)) 2 ||| up (0 < pos % 7 && standsAt kinds (pos - 1)) 3

/-- The dies of a mix. -/
def mixDies (kinds : Nat → DieKind) : Tab Die :=
  ((List.range 28).filter (standsAt kinds)).map fun p => (p, newDie (kinds p) (resetLinks kinds p))

/-- Cores of a kind of die. -/
def coresOf : DieKind → Nat
  | .shading => 8
  | .geometry => 16
  | _ => 0

/-- The cores of a mix, by 16 × position + core. -/
def mixCores (kinds : Nat → DieKind) : Tab Core :=
  (List.range 28).flatMap fun p => (List.range (coresOf (kinds p))).map fun c => (p * 16 + c, newCore (kinds p))

/-- The code of a kind (Table PKG-4). -/
def kindBits : DieKind → BitVec 2
  | .none => 0
  | .shading => 1
  | .geometry => 2
  | .memory => 3

/-- A manifest that names a mix, calls for its dies, accepts every revision and disables nothing (notes/assumptions/6.md). -/
def mixManifest (x : Mix) : Manifest :=
  let kinds := x.kind
  { sig := [], product := x.product, binding := [], kinds := (List.range 28).map fun p => (p, kindBits (kinds p)), minDie := [],
    minBase := [], offHealth := [], offChan := [], offCore := [], offTex := [], slope := [], throttle := 85, trip := 105,
    links := [] }

/-- The state of a package at power-on: only its dies, its flash, host memory and the model's own counters are given. -/
def State.fresh (dies : Tab Die) (cores : Tab Core) (flash : FlashSt) (hostMem : List Host.Cell) (agenda : List Tick)
    (free nextId : Nat) : State :=
  { time := { now := 0, lock := false, offset := 0, slew := 0, ppsAt := none, ptpAt := none, ptpSec := none, goodSecs := 0, thi := none },
    boot := { started := false, refuge := false, ok := false, startAt := 0, cause := 0, fails := 0, refugePos := none },
    flash, dies, cores, parts := [], peers := [], cfg := [], mem := [], hostMem, hostHoles := [], poison := [], bankPoison := [], frames := [],
    crcs := [],
    cache := { dir := [], horizon := [], l1 := [], tlb := [], inv := none, hlc := [], handles := [], mons := [] },
    accs := [], spad := [], gran := [], bank := [], slots := [], crews := [], gangs := [], engines := [], tiles := [],
    copies := [], convs := [],
    rend := { passOpen := false, closing := false, done := false, qerr := false, verr := false, flushing := false,
              fdone := false, flushRegion := 0, cut := 0, geo := [], marks := [], pkts := [], wins := [], sent := [],
              held := [], quads := [], frags := [], micro := [], microN := [], rcache := [], settle := [], ended := false,
              seq0 := 0 },
    sched := { shifts := [], done := [], owner := [], queueErr := [] }, funcs := [], own := [],
    fattr := none, survey := { counts := [], who := [], inc := [], opened := 0 }, gated := [], outbox := [],
    lostMark := [], msix := [], aer := 0, telemetry := [], agenda, issue := none, free, nextId }

/-- The flash of a package as it is delivered to this model: a manifest of its mix, and no firmware image yet
(notes/assumptions/6.md). -/
def resetFlash (x : Mix) : FlashSt :=
  { manifest := mixManifest x, images := [], log := [], fails := 0 }

/-- A module of a mix at power-on, before the first step of its start (R10, R25). -/
def State.resetOf (x : Mix) : State := State.fresh (mixDies x.kind) (mixCores x.kind) (resetFlash x) [] [] 0 1

/-- The machine right after reset: the flagship, 16S-2G-8M (notes/assumptions/2.md). -/
def State.reset : State := State.resetOf .s16g2m8

end Sys2Proof.Machine
end

