-- ==== Sys2Proof/Machine/Ops.lean ====
section
/-! DEFINITION. The named operations that every meaning is built from: device time and region clocks, fibres and their
registers with the latency rules R97 to R102, counters, holds, taking a trap and returning from one, and the issue of one
word by a bundle (R87 to R103, R276 to R285). -/

namespace Sys2Proof.Machine

/-! ### Time and clocks -/

/-- The bound ε on a unit's reading, in ns (R167). -/
def epsilon : Nat := 4

/-- May a unit take "DT ≥ x" as met? Its reading is at least x + ε then, and at most DT + ε (R167, notes/assumptions/9.md). -/
def timeReached (s : State) (x : Nat) : Bool := x ≤ s.time.now

/-- A core's reading of device time, from DT - ε to DT + ε (R167). -/
def readingOf (s : State) (core : Nat) : Nat := match tabFind s.cores core with
  | some c => s.time.now + c.skew - epsilon
  | none => s.time.now

/-- A core takes "DT ≥ x" as met (R167). -/
def coreReached (s : State) (core x : Nat) : Bool := x + epsilon ≤ readingOf s core

/-- A core's number in the package: 16 × position + core. -/
def coreKey (pos core : Nat) : Nat := pos * 16 + core

/-- The arithmetic clock of a region in MHz: 1,400 − 50 × min(14, S + C) (R31). -/
def coreMHz (s : State) (key : Nat) (c : Core) : Nat :=
  let lv := match tabFind s.dies (key / 16) with
    | some d => d.level
    | none => 0
  1400 - 50 * min 14 (lv + c.canary)

/-- A region's clock after `ns` nanoseconds, and its core's reading: any within ε of DT that is not below the one before
(R167). -/
def tickCore (s : State) (ns key : Nat) (c : Core) : Core :=
  let t := c.frac + ns * coreMHz s key c
  { c with cyc := c.cyc + t / 1000, frac := t % 1000,
           skew := c.skew - ns + Config.freeNat (s.free * 16777216 + 10000000 + key) (2 * epsilon + 1 - (c.skew - ns)) }

/-- A start governor's balance after `ns`, LIMIT × 0.5 mA per ns, capped at 4 A (R37), and the reading of the base tile, moved
like a core's. -/
def tickDie (s : State) (ns pos : Nat) (d : Die) : Die :=
  { d with govB := min 8000 (d.govB + ns * d.slope.toNat),
           skew := d.skew - ns + Config.freeNat (s.free * 16777216 + 10001000 + pos) (2 * epsilon + 1 - (d.skew - ns)) }

/-- Device time and every clock move on by `ns`. -/
def advanceTime (ns : Nat) (s : State) : State :=
  if ns = 0 then s else
  { s with time := { s.time with now := s.time.now + ns },
           cores := tabMap s.cores (tickCore s ns),
           dies := tabMap s.dies (tickDie s ns) }

/-- The cycle count of a core's region. -/
def cycOf (s : State) (core : Nat) : Nat := match tabFind s.cores core with
  | some c => c.cyc
  | none => 0

/-! ### Gangs and fibres -/

/-- The crew of a gang key. -/
def crewOfGang (gk : Nat) : Nat := gk / 256

/-- The gang of a key. -/
def gangOf (s : State) (gk : Nat) : Option Gang := tabFind s.gangs gk

/-- Puts a gang. -/
def setGang (s : State) (gk : Nat) (g : Gang) : State := { s with gangs := tabPut s.gangs gk g }

/-- Changes a gang. -/
def modGang (s : State) (gk : Nat) (f : Gang → Gang) : State := { s with gangs := tabMod s.gangs gk f }

/-- Changes a fibre of a gang. -/
def modFibreG (g : Gang) (l : Nat) (f : Fibre → Fibre) : Gang := { g with fibres := tabMod g.fibres l f }

/-- Changes a fibre. -/
def modFibre (s : State) (gk l : Nat) (f : Fibre → Fibre) : State := modGang s gk fun g => modFibreG g l f

/-- The crew of a key. -/
def crewOf (s : State) (ck : Nat) : Option Crew := tabFind s.crews ck

/-- Changes a crew. -/
def modCrew (s : State) (ck : Nat) (f : Crew → Crew) : State := { s with crews := tabMod s.crews ck f }

/-- A fibre as it starts (R41, R353): program counter, window base, and what a FORK copies. -/
def newFibre (pc : DWord) (wbase : Nat) : Fibre :=
  { pc, wbase, preds := 0, ix0 := 0, ix1 := 0, fmode := 0, fflags := 0, chk := false, tcause := 0, tpc := 0, taddr := 0, tinfo := 0,
    handler := false, retpc := 0, timeHi := none, cycHi := none, flBase := 0, flq := [], readyAt := 0, retry := 0, bun := 0, sum := 0,
    haz := [], shadow := [], held := none, owed := [], late := [], acqs := [], wseq := [] }

/-! ### Reading registers -/

/-- Where free choices for a register read by a lane stand among the free values of one step. -/
def readIdx (s : State) (l : Nat) (r : RegRef) : Nat :=
  let f := match r.file with
    | .v => 0
    | .s => 1
    | .p => 2
    | .ix => 3
  s.free * 16777216 + l * 8192 + f * 1024 + r.n

/-- The value a register of the fibre's own view holds. -/
def regNow (g : Gang) (fb : Fibre) (r : RegRef) : Word :=
  match r.file with
  | .v => spGet 0 g.pool (fb.wbase + r.n)
  | .s => spGet 0 g.sregs r.n
  | .p => if fb.preds.getLsbD r.n then 1 else 0
  | .ix => if r.n = 0 then fb.ix0 else fb.ix1

/-- The fibre's own writes of a register that are still too young to read (R98), latest first. -/
def youngOwn (fb : Fibre) (r : RegRef) : List Hazard := fb.haz.filter fun h => h.reg == r && fb.sum < h.due

/-- Writes of an s register by other fibres that are still too young (R81), latest first. -/
def youngOther (cyc : Nat) (g : Gang) (l : Nat) (r : RegRef) : List SHazard :=
  if r.file = .s then g.shaz.filter fun h => h.n == r.n && !h.lanes.contains l && cyc < h.due else []

/-- One of the values a read may return: the newest, or what stood before one of the young writes. -/
def pickValue (idx : Nat) (now : Word) (olds : List Word) : Word :=
  match olds with
  | [] => now
  | _ => (now :: olds).getD (Config.freeNat idx (olds.length + 1)) now

/-- Has an access still to write its registers? -/
def accOwes (a : Acc) : Bool := match a.st with
  | .pending | .done _ => true
  | _ => false

/-- Does data that a shadow waits for still have to land? -/
def shadowLive (s : State) (h : Shadow) : Bool :=
  h.after.any (fun id => match tabFind s.accs id with
    | some a => accOwes a
    | none => false) || h.ops.any fun q => s.engines.any fun (_, e) => e.queue.any fun x => x.seq == q

/-- What a register held before the fibre's writes that earlier data still holds up (R99). -/
def shadowOlds (s : State) (fb : Fibre) (r : RegRef) : List Word :=
  (fb.shadow.filter fun h => h.reg == r && shadowLive s h).map (·.old)

/-- A register read by lane `l`: a read that is too early sees the value before the write or after it (R81, R99, R101). -/
def readReg (s : State) (g : Gang) (l : Nat) (r : RegRef) : Word :=
  match tabFind g.fibres l with
  | none => 0
  | some fb =>
    pickValue (readIdx s l r) (regNow g fb r)
      ((youngOwn fb r).map (·.old) ++ shadowOlds s fb r ++ (youngOther (cycOf s g.core) g l r).map (·.old))

/-- v register `n` of lane `l`. -/
def readV (s : State) (g : Gang) (l : Nat) (n : Nat) : Word := readReg s g l { file := .v, n }

/-- s register `n`, in the view of lane `l`. -/
def readS (s : State) (g : Gang) (l : Nat) (n : Nat) : Word := readReg s g l { file := .s, n }

/-- Predicate `n` of lane `l`. -/
def readP (s : State) (g : Gang) (l : Nat) (n : Nat) : Bool := readReg s g l { file := .p, n } != 0

/-- Index register `n` of lane `l`. -/
def readIx (s : State) (g : Gang) (l : Nat) (n : Nat) : Word := readReg s g l { file := .ix, n }

/-! ### Writing registers -/

/-- A register value to write in one lane. -/
structure RegWrite where
  lane : Nat
  reg : RegRef
  val : Word
  deriving DecidableEq, Repr

/-- The storage of a register takes a value. -/
def storeReg (g : Gang) (l : Nat) (r : RegRef) (v : Word) : Gang :=
  match tabFind g.fibres l with
  | none => g
  | some fb =>
    match r.file with
    -- a register that the A latch holds is no longer what the latch holds (R236)
    | .v => { g with pool := spSet 0 g.pool (fb.wbase + r.n) v,
                     latch := if g.latch.contains (fb.wbase + r.n) then [] else g.latch }
    | .s => { g with sregs := spSet 0 g.sregs r.n v }
    | .p => modFibreG g l fun f =>
        { f with preds := if v = 0 then f.preds &&& ~~~(1#16 <<< r.n) else f.preds ||| 1#16 <<< r.n }
    | .ix => modFibreG g l fun f => if r.n = 0 then { f with ix0 := v } else { f with ix1 := v }

/-- Notes that a word wrote a register (R99). -/
def noteWrite (g : Gang) (l : Nat) (r : RegRef) (seq : Nat) : Gang :=
  match r.file with
  | .v => modFibreG g l fun f => { f with wseq := tabPut f.wseq r.n seq }
  | .s => { g with swseq := tabPut g.swseq r.n seq }
  | _ => g

/-- A write with latency `lat` by a word that lanes `lanes` issue (R97, R98, R81). -/
def writeReg (cyc seq lat : Nat) (lanes : List Nat) (g : Gang) (w : RegWrite) : Gang :=
  match tabFind g.fibres w.lane with
  | none => g
  | some fb =>
    let old := regNow g fb w.reg
    let g := noteWrite (storeReg g w.lane w.reg w.val) w.lane w.reg seq
    if w.reg.file = .s then
      let g := { g with shaz := { n := w.reg.n, old, due := cyc + lat, lanes } :: g.shaz.filter (cyc < ·.due) }
      lanes.foldl (fun g l => modFibreG g l fun f =>
        { f with haz := { reg := w.reg, old, due := f.sum + lat } :: f.haz }) g
    else modFibreG g w.lane fun f => { f with haz := { reg := w.reg, old, due := f.sum + lat } :: f.haz }

/-- An element goes into a list at a position (at the end if the position lies beyond it). -/
def insertFree {α : Type} (k : Nat) (x : α) : List α → List α
  | [] => [x]
  | y :: ys => if k = 0 then x :: y :: ys else y :: insertFree (k - 1) x ys

/-- A list in an order that is a free choice: any of its permutations (R6). -/
def shuffle {α : Type} (idx : Nat) : List α → List α
  | [] => []
  | x :: xs => insertFree (Config.freeNat (idx + xs.length) (xs.length + 1)) x (shuffle idx xs)

/-- Where a register of a lane is stored: a v register lies in the gang's pool, behind the fibre's window base (R78). -/
def regPlace (g : Gang) (l : Nat) (r : RegRef) : RegFile × Nat × Nat := match r.file with
  | .v => (.v, 0, ((tabFind g.fibres l).map (·.wbase)).getD 0 + r.n)
  | .s => (.s, 0, r.n)
  | f => (f, l, r.n)

/-- The writes of a word in their order: where lanes write one pool register through overlapping windows, the order is a free
choice (R6, R78, R388). -/
def orderWrites (s : State) (g : Gang) (ws : List RegWrite) : List RegWrite :=
  if (ws.map fun w => regPlace g w.lane w.reg).Nodup then ws else shuffle (s.free * 16777216 + 8400000) ws

/-- Several writes in order. -/
def writeRegs (cyc seq lat : Nat) (lanes : List Nat) (g : Gang) (ws : List RegWrite) : Gang :=
  ws.foldl (writeReg cyc seq lat lanes) g

/-- Data that lands in a register from a variable-latency word numbered `seq`: dropped if a later word has written the
register since (R99). -/
def landReg (seq : Nat) (g : Gang) (w : RegWrite) : Gang :=
  match tabFind g.fibres w.lane with
  | none => g
  | some fb =>
    let last := match w.reg.file with
      | .v => spGet 0 fb.wseq w.reg.n
      | _ => spGet 0 g.swseq w.reg.n
    if last ≤ seq then noteWrite (storeReg g w.lane w.reg w.val) w.lane w.reg seq else g

/-! ### Counters (R100) -/

/-- The value of counter `c`: its issues not yet complete. -/
def ctrVal (cyc : Nat) (g : Gang) (c : Nat) : Nat :=
  (g.outs.filter fun o => o.ctr == c && (o.left != 0 || cyc < o.due)).length

/-- A counter is noted to have had an issue complete at a cycle. -/
def noteZero (z : Tab Nat) (ctr cyc : Nat) : Tab Nat := tabPut z ctr (max (spGet 0 z ctr) cyc)

/-- One lane, or part, of the issue `gid` completes in cycle `cyc`. -/
def ctrDone (cyc : Nat) (g : Gang) (gid n : Nat) : Gang :=
  let outs := g.outs.map fun o => if o.gid = gid then { o with left := o.left - n } else o
  let ran := fun (o : Outst) => o.gid == gid && o.left == 0 && o.due == 0
  { g with outs := outs.filter fun o => !ran o,
           zeroAt := (outs.filter ran).foldl (fun z o => noteZero z o.ctr cyc) g.zeroAt }

/-- One lane, or part, of an issue completes. -/
def ctrDoneS (s : State) (gk gid n : Nat) : State := modGang s gk fun g => ctrDone (cycOf s g.core) g gid n

/-- The cycle from which a counter that is 0 has been so. -/
def zeroSince (g : Gang) (c : Nat) : Nat :=
  (g.outs.filter fun o => o.ctr == c && o.left == 0).foldl (fun n o => max n o.due) (spGet 0 g.zeroAt c)

/-- The latencies that have elapsed leave the list of outstanding issues. -/
def sweepOuts (cyc : Nat) (g : Gang) : Gang :=
  let live := fun (o : Outst) => o.left != 0 || cyc < o.due
  { g with outs := g.outs.filter live, zeroAt := (g.outs.filter fun o => !live o).foldl (fun z o => noteZero z o.ctr o.due) g.zeroAt }

/-- When an issue completes (Table WORD-12): at issue, after a latency, or once `n` lanes or parts have completed. -/
inductive Compl where
  | issue
  | cycles (n : Nat)
  | lanes (n : Nat)
  deriving DecidableEq, Repr

/-- The counter that SETC names. -/
def setcOf (h : Hdr) : Option Nat := if h.setc.toNat < 6 then some h.setc.toNat else none

/-- The counter rises at issue (an issue that completes at issue leaves no trace). -/
def raise (h : Hdr) (gid cyc : Nat) (k : Compl) (g : Gang) : Gang :=
  match setcOf h with
  | none => g
  | some c =>
    let g := sweepOuts cyc g
    match k with
    | .issue => g
    | .cycles n => { g with outs := g.outs ++ [{ gid, ctr := c, left := 0, due := cyc + n }] }
    | .lanes n => if n = 0 then g else { g with outs := g.outs ++ [{ gid, ctr := c, left := n, due := 0 }] }

/-- Every counter named by a WAITM is 0. -/
def waitmMet (cyc : Nat) (g : Gang) (m : BitVec 6) : Bool :=
  (List.range 6).all fun c => !m.getLsbD c || ctrVal cyc g c == 0

/-! ### Taking a trap and returning from it (R280 to R285) -/

/-- A trap with a cause only. -/
def trapOf (cause : BitVec 8) : TrapInfo := { cause, addr := 0, info := 0, next := false }

/-- Is a halt one that retires its crew? -/
def retires : HaltWhy → Bool
  | .preempt | .debug .. => false
  | _ => true

/-- Is a halt that of a trap, for which a debug session that holds the crew takes a stop (R283, R317)? -/
def ofTrap : HaltWhy → Bool
  | .trap .. => true
  | _ => false

/-- Two halts of one kind, of which the earlier stands: both pre-empt the crew, both stop it, both halt it for a trap, or both retire
it for another cause. -/
def sameHalt (a b : HaltWhy) : Bool := match a, b with
  | .preempt, .preempt => true
  | .debug .., .debug .. => true
  | a, b => retires a && retires b && ofTrap a == ofTrap b

/-- The phase of a crew as a halt is asked for: it begins to halt, unless its gangs are still already. A crew that stands stopped
begins anew to be pre-empted, or to retire for another cause than a trap (R283, R286, R317). -/
def haltPhase (why : HaltWhy) : CrewPhase → CrewPhase
  | .stopped => match why with
    | .trap .. | .debug .. => .stopped
    | _ => .halting
  | .prologue _ | .running | .halting => .halting
  | p => p

/-- A crew is asked to halt. No request is lost: one that cannot be met yet waits for those before it (R282, R283, R286, R290,
R317). -/
def askHalt (why : HaltWhy) (c : Crew) : Crew :=
  { c with wasStopped := c.wasStopped || c.phase == CrewPhase.stopped,
           halt := if c.halt.any (sameHalt why) then c.halt else c.halt ++ [why],
           phase := haltPhase why c.phase }

/-- The fibre enters its handler (R281): handler bit, trap registers, and the program counter at CR.TVEC. -/
def enterHandler (tvec pc retpc : DWord) (t : TrapInfo) (fb : Fibre) : Fibre :=
  { fb with handler := true, tcause := t.cause, tpc := pc.truncate 32, taddr := t.addr, tinfo := t.info, retpc,
            pc := tvec, bun := 0 }

/-- A fibre takes a trap at word `pc`, to return to `retpc`: its handler, or with the handler bit set or CR.TVEC = 0 the
crew's halt (R281, R282). -/
def takeTrap (s : State) (gk l : Nat) (pc retpc : DWord) (t : TrapInfo) : State :=
  match gangOf s gk, crewOf s (crewOfGang gk) with
  | some g, some c =>
    match tabFind g.fibres l with
    | none => s
    | some fb =>
      if fb.handler || c.tvec = 0 then
        -- a double trap, in either case
        modCrew s (crewOfGang gk) (askHalt (.trap (gk % 256) l t pc true))
      else modFibre s gk l (enterHandler c.tvec pc retpc t)
  | _, _ => s

/-- The return point of a trap (Table TRAP-1). -/
def returnPoint (pc : DWord) (t : TrapInfo) : DWord := if t.next then pc + 8 else pc

/-- ERET in a fibre whose handler bit is set (R285). -/
def leaveHandler (fb : Fibre) : Fibre := { fb with handler := false, pc := fb.retpc }

/-! ### The issue of a word -/

/-- What a word did in one of its lanes (R277). -/
inductive LaneEnd where
  /-- It completed; the fibre goes on at the next word. -/
  | next
  /-- It completed; the fibre goes on elsewhere. -/
  | goto (pc : DWord)
  /-- It met a trap condition. -/
  | trap (t : TrapInfo)
  /-- The fibre stays at the word and issues it again. -/
  | stay
  /-- The fibre is held by it. -/
  | hold (why : HoldWhy)
  /-- The fibre ended. -/
  | ended
  deriving DecidableEq, Repr

/-- What a word's meaning works on: the gang's key, the gang, its crew, the bundle's lanes, the guard-true ones, the
address and the issue number. -/
structure Ctx where
  gk : Nat
  g : Gang
  lanes : List Nat
  on : List Nat
  pc : DWord
  seq : Nat
  cyc : Nat
  deriving DecidableEq, Repr

/-- What issuing a word leads to: the state after its effects, each guard-true lane's end, and when its counter falls. -/
structure Plan where
  st : State
  ends : List (Nat × LaneEnd)
  comp : Compl

/-- A word's meaning: its header; the v registers it names, bound by WSIZE (R78); the registers a lane reads (R98, R102);
the first decode trap of causes 0x01, 0x02 and 0x04 that depends on the state (R89); whether it must wait at issue; and its
effect. `once`: an s destination, for which only the lowest guard-true lane reads v sources (R80). -/
structure WordSpec where
  hdr : Hdr
  names : List Nat
  reads : State → Gang → Nat → List RegRef
  early : State → Gang → List Nat → Option TrapInfo
  wait : Ctx → State → Bool
  body : Ctx → State → Plan
  /-- The word is ATTACH, the one word that an attaching gang may begin with (R55). -/
  attach : Bool := false
  once : Bool := false
  /-- What waiting at issue leaves noted. -/
  onWait : Ctx → State → State := fun _ s => s

/-- No decode trap depends on the state. -/
def noEarly (_ : State) (_ : Gang) (_ : List Nat) : Option TrapInfo := none

/-- The word never waits at issue. -/
def noWait (_ : Ctx) (_ : State) : Bool := false

/-- The same registers are read in every lane. -/
def readsAll (l : List RegRef) (_ : State) (_ : Gang) (_ : Nat) : List RegRef := l

/-- The guard of a word in a lane (R93). -/
def guardOf (s : State) (g : Gang) (ge : Bool) (gp : BitVec 4) (gs : Bool) (l : Nat) : Bool :=
  !ge || (readP s g l gp.toNat != gs)

/-- The lowest v register that a word names at or above WSIZE (R78). -/
def overWindow (wsize : Nat) (names : List Nat) : Option Nat :=
  let bad := names.filter (wsize ≤ ·)
  match bad with
  | [] => none
  | n :: rest => some (rest.foldl min n)

/-- A register that a variable-latency word of the fibre still has to write (R101). -/
def accDest (a : Acc) : List RegRef :=
  let vs := fun (d n : Nat) => (List.range n).map fun i => ({ file := .v, n := d + i } : RegRef)
  match a.op with
  | .load d _ | .ldc d _ => vs d (if a.size ≤ 4 then 1 else a.size / 4)
  | .loadLine d _ => vs d 1
  | .rmw _ _ (some d) _ => vs d (if a.size = 8 then 2 else 1)
  | .tld d .. => vs d 1
  | .hstat d _ _ | .cfgrd d _ => [{ file := if d.s then .s else .v, n := d.n.toNat }]
  | .sample d .. | .trace d .. => vs d 4
  | _ => []

/-- The destinations of a QLD that an engine still holds. -/
def qldDest (q : EngEntry) : List RegRef := match q.op with
  | .qld d _ _ c => (List.range (64 / q.gw * c)).map fun i => { file := .v, n := d + i }
  | _ => []

/-- An access that still has to write registers for a lane's fibre. -/
def owesLane (gk l : Nat) (a : Acc) : Bool := a.gang == gk && (a.lanes.contains l || a.also.contains l) && accOwes a

/-- An engine operation that still has to write registers for a lane's fibre. -/
def engOwesLane (gk l : Nat) (q : EngEntry) : Bool := q.gang == gk && q.lanes.contains l && !(qldDest q).isEmpty

/-- Is a register pending for a lane's fibre (R101)? -/
def isPending (s : State) (gk l : Nat) (r : RegRef) : Bool :=
  (s.accs.any fun (_, a) => owesLane gk l a && (accDest a).contains r) ||
  s.engines.any fun (_, e) => e.queue.any fun q => engOwesLane gk l q && (qldDest q).contains r

/-- Must the data of a variable-latency word numbered `seq` wait, because an earlier word of the fibre has still to write one of
its registers (R99)? -/
def landsLater (s : State) (gk : Nat) (ls : List Nat) (seq : Nat) (regs : List RegRef) : Bool :=
  ls.any fun l =>
    (s.accs.any fun (_, b) => b.seq < seq && owesLane gk l b && (accDest b).any regs.contains) ||
    s.engines.any fun (_, e) => e.queue.any fun q => q.seq < seq && engOwesLane gk l q && (qldDest q).any regs.contains

/-- Did word `seq` write a register of a fibre? -/
def wroteReg (g : Gang) (fb : Fibre) (seq : Nat) (r : RegRef) : Bool := match r.file with
  | .v => tabFind fb.wseq r.n == some seq
  | .s => tabFind g.swseq r.n == some seq
  | _ => false

/-- The registers that word `seq` wrote in a lane ahead of an earlier word's data, with what they held before (R99). -/
def newShadows (s : State) (gk : Nat) (before g : Gang) (seq l : Nat) (fb : Fibre) : List Shadow :=
  let accs := s.accs.filter fun (_, a) => a.seq < seq && owesLane gk l a
  let ops := (s.engines.flatMap fun (_, e) => e.queue).filter fun q => q.seq < seq && engOwesLane gk l q
  let regs := (accs.flatMap fun (_, a) => accDest a) ++ ops.flatMap qldDest
  (regs.eraseDups.filter (wroteReg g fb seq)).map fun r =>
    { reg := r, old := ((tabFind before.fibres l).map fun f => regNow before f r).getD 0,
      after := (accs.filter fun (_, a) => (accDest a).contains r).map (·.1),
      ops := (ops.filter fun q => (qldDest q).contains r).map (·.seq) }

/-- The shadows of lanes after a word: those it casts, and those that still wait. -/
def castShadows (s : State) (gk : Nat) (before : Gang) (seq : Nat) (ls : List Nat) (g : Gang) : Gang :=
  ls.foldl (fun g l => modFibreG g l fun fb =>
    { fb with shadow := newShadows s gk before g seq l fb ++ fb.shadow.filter (shadowLive s) }) g

/-- The cause 0x03 trap of the checking scoreboard at a register (R102). -/
def scoreTrap (r : RegRef) : TrapInfo :=
  let kind := match r.file with
    | .v => 0
    | .s => 1
    | .p => 2
    | .ix => 3
  { trapOf 0x03 with info := BitVec.ofNat 32 (r.n + 256 * kind) }

/-- The first register a lane reads too early, when CR.CHKSTALL is 1. -/
def scoreCheck (s : State) (gk : Nat) (g : Gang) (rs : List RegRef) (l : Nat) : Option TrapInfo :=
  match tabFind g.fibres l with
  | none => none
  | some fb =>
    if !fb.chk then none
    else (rs.find? fun r => !(youngOwn fb r).isEmpty || isPending s gk l r).map scoreTrap

/-- The guard register of a header, as a read. -/
def guardReads (h : Hdr) : List RegRef := if h.ge then [{ file := .p, n := h.gp.toNat }] else []

/-- A change of the flags is made (R121). -/
def FlagEv.apply (e : FlagEv) (f : Flags) : Flags := if e.write then e.val else f ||| e.val

/-- The changes of the flags that are sure are merged, as far as none before them is open. -/
def mergeFlags (sum : Nat) : Flags → List FlagEv → Flags × List FlagEv
  | f, [] => (f, [])
  | f, e :: rest => if sum < e.due then (f, e :: rest) else mergeFlags sum (e.apply f) rest

/-- The fibre has issued a word (R96, R98). -/
def issuedFibre (cyc stall : Nat) (fb : Fibre) : Fibre :=
  let sum := fb.sum + 1 + stall
  let fl := mergeFlags sum fb.flBase fb.flq
  { fb with sum, readyAt := cyc + 1 + stall, haz := fb.haz.filter (sum < ·.due), flBase := fl.1, flq := fl.2 }

/-- SR.FFLAGS as a read returns it: each change that is not sure is in it or not, by free choice (R121). -/
def flagsRead (idx sum : Nat) : Flags → List FlagEv → Flags
  | f, [] => f
  | f, e :: rest => flagsRead (idx + 1) sum (if sum < e.due && Config.freeBool idx then f else e.apply f) rest

/-- A condition found late: delivered before the fibre's next word, the earliest word's first (R278). -/
def addLate (s : State) (gk l seq : Nat) (pc : DWord) (t : TrapInfo) : State :=
  modFibre s gk l fun f =>
    { f with late := (f.late.filter (·.seq ≤ seq)) ++ { seq, pc, info := t, waits := false } :: f.late.filter (seq < ·.seq) }

/-- One lane's end takes effect. Traps are taken later, in `endTraps`. -/
def endLane (cyc stall gid seq : Nat) (pc : DWord) (g : Gang) (e : Nat × LaneEnd) : Gang :=
  match e.2 with
  | .next => modFibreG g e.1 fun f => { issuedFibre cyc stall f with pc := pc + 8 }
  | .goto t => modFibreG g e.1 fun f => { issuedFibre cyc stall f with pc := t }
  | .hold why => modFibreG g e.1 fun f => { f with held := some { why, stall, gid, seq } }
  -- TRAP and BKPT return to the next word, so that the fibre has executed them (R98, R285)
  | .trap t => if t.next then modFibreG g e.1 (issuedFibre cyc stall) else g
  | .stay => g
  | .ended => g

/-- The traps among the lanes' ends are taken, or, with `later`, once other lanes have gone on (R277). -/
def endTraps (gk : Nat) (pc : DWord) (later : Option Nat) (s : State) (ends : List (Nat × LaneEnd)) : State :=
  ends.foldl (fun s e => match e.2, later with
    | .trap t, none => takeTrap s gk e.1 pc (returnPoint pc t) t
    | .trap t, some seq => addLate s gk e.1 seq pc t
    | _, _ => s) s

/-- Where lanes of the bundle issue the word again, they may do so before the trapping lanes enter their handlers: a free choice
(R277). -/
def trapsLater (s : State) (ends : List (Nat × LaneEnd)) : Bool :=
  ends.any (fun e => e.2 == LaneEnd.stay) && Config.freeBool (s.free * 16777216 + 8430000)

/-- The counter raises that a halt had saved with the words at `pc` end, in lanes that do not issue the word again (R287). -/
def dropOwed (cyc : Nat) (pc : DWord) (g : Gang) (ls : List Nat) : Gang :=
  ls.foldl (fun g l => match tabFind g.fibres l with
    | none => g
    | some fb =>
      if fb.owed.isEmpty then g
      else modFibreG ((fb.owed.filter (·.1 == pc)).foldl (fun g x => ctrDone cyc g x.2 1) g) l fun f =>
        { f with owed := f.owed.filter (·.1 != pc) }) g

/-- The lanes of a bundle that do not issue the word again. -/
def leaving (lanes : List Nat) (ends : List (Nat × LaneEnd)) : List Nat :=
  lanes.filter fun l => !ends.any fun e => e.1 == l && e.2 == LaneEnd.stay

/-- Fibres of one bundle that now hold different program counters become separate bundles (R45). -/
def splitBundle (fresh : Nat) (lanes : List Nat) (g : Gang) : Gang :=
  let pcs := (lanes.filterMap fun l => (tabFind g.fibres l).map (·.pc)).eraseDups
  if pcs.length ≤ 1 then g
  else lanes.foldl (fun g l => modFibreG g l fun f =>
    if f.bun = 0 then f else { f with bun := fresh + pcs.findIdx (· == f.pc) }) g

/-- Did some lane complete the word, so that it raises its counter (R277)? -/
def someDone (ends : List (Nat × LaneEnd)) : Bool :=
  ends.any fun e => match e.2 with
    | .next | .goto _ | .hold _ | .ended => true
    | .trap _ | .stay => false

/-- A lane's fibre is in its handler. -/
def inHandler (g : Gang) (l : Nat) : Bool := ((tabFind g.fibres l).map (·.handler)).getD false

/-- Has the gang executed its first instruction (R55)? The words of a handler do not count. -/
def beginsNow (c : Ctx) (ends : List (Nat × LaneEnd)) : Bool :=
  (ends.isEmpty || someDone ends) && c.lanes.any fun l => !inHandler c.g l

/-- The end of an issue: each lane goes on, traps, holds or stays; guard-false lanes go on; the counter rises; the pipe is
free again. -/
def finishWord (h : Hdr) (c : Ctx) (p : Plan) : State :=
  let stall := h.stall.toNat
  let off := c.lanes.filter fun l => !c.on.contains l
  let ends := p.ends ++ off.map fun l => (l, LaneEnd.next)
  let s := modGang p.st c.gk fun g =>
    let g := dropOwed c.cyc c.pc (castShadows p.st c.gk c.g c.seq c.lanes g) (leaving c.lanes ends)
    let g := ends.foldl (endLane c.cyc stall c.seq c.seq c.pc) g
    let g := if someDone p.ends then raise h c.seq c.cyc p.comp g else g
    { g with begun := g.begun || beginsNow c p.ends }
  let s := endTraps c.gk c.pc (if trapsLater s p.ends then some c.seq else none) s p.ends
  let s := modGang s c.gk (splitBundle (c.seq + 1) c.lanes)
  { s with issue := none, nextId := s.nextId + 66, free := s.free + 1 }

/-- A trap at decode, in every fibre that executes the word, whatever its guard (R89, R93). -/
def trapAllLanes (c : Ctx) (t : TrapInfo) (s : State) : State :=
  finishWord { stall := 0, setc := 7, waitm := 0, ge := false, gp := 0, gs := false } { c with on := c.lanes }
    { st := s, ends := c.lanes.map fun l => (l, LaneEnd.trap t), comp := .issue }

/-- The word does not issue now: its bundle waits, and gives way to other bundles in this cycle (R230, R100). -/
def waitAtIssue (s : State) : State :=
  match s.issue with
  | none => s
  | some b =>
    { modGang s b.gang (fun g => b.lanes.foldl (fun g l =>
        modFibreG g l fun f => { f with retry := cycOf s g.core + 1 }) g) with issue := none }

/-- The traps at decode that the state decides, in the order of R89: causes 0x01, 0x02 and 0x04, then 0x05. DESIGN CHOICE: R204
says that a coordinate register at or above WSIZE traps as a reserved MOD does, with cause 0x01, "under R78", whose cause is
0x05; the cause here is R78's, 0x05 (notes/assumptions/87.md). -/
def decodeTrap (w : WordSpec) (s : State) (g : Gang) (lanes : List Nat) : Option TrapInfo :=
  match w.early s g lanes with
  | some t => some t
  | none => (overWindow g.wsize w.names).map fun n => { trapOf 0x05 with info := BitVec.ofNat 32 n }

/-- The context of the word that the issue latch holds. -/
def ctxOf (s : State) (b : Bundle) (g : Gang) : Ctx :=
  { gk := b.gang, g, lanes := b.lanes, on := b.lanes, pc := b.pc, seq := s.nextId, cyc := cycOf s g.core }

/-- The scoreboard traps of a word (R102): the guard in every lane, the sources in guard-true lanes. -/
def scoreTraps (w : WordSpec) (s : State) (c : Ctx) : List (Nat × TrapInfo) :=
  c.lanes.filterMap fun l =>
    match scoreCheck s c.gk c.g (guardReads w.hdr) l with
    | some t => some (l, t)
    | none =>
      let rs := w.reads s c.g l
      let rs := if w.once && l != c.on.headD 0 then rs.filter (·.file != .v) else rs
      if c.on.contains l then (scoreCheck s c.gk c.g rs l).map fun t => (l, t) else none

/-- The lanes that meet a trap condition trap and the others stay, if any does (R141, R277). -/
def trapEnds (c : Ctx) (f : Nat → Option TrapInfo) : Option (List (Nat × LaneEnd)) :=
  if c.on.any fun l => (f l).isSome then
    some (c.on.map fun l => match f l with
      | some t => (l, LaneEnd.trap t)
      | none => (l, LaneEnd.stay))
  else none

/-- A first instruction other than ATTACH in an attaching gang traps with cause 0x15 (R55). -/
def firstTrap (g : Gang) (attach : Bool) (l : Nat) : Option TrapInfo :=
  if g.attaching && !g.begun && !attach && !inHandler g l then some (trapOf 0x15) else none

/-- A bundle issues a word (R89 to R103, R277). -/
def issueWord (w : WordSpec) (s : State) (b : Bundle) (g : Gang) : State :=
  let c := ctxOf s b g
  match decodeTrap w s g b.lanes with
  | some t => trapAllLanes c t s
  | none =>
    let c := { c with on := b.lanes.filter (guardOf s g w.hdr.ge w.hdr.gp w.hdr.gs) }
    -- the raises of the words that the bundle replays do not stand in their own way
    let g0 := dropOwed c.cyc c.pc g b.lanes
    let full := match setcOf w.hdr with
      | some n => ctrVal c.cyc g0 n ≥ 63
      | none => false
    if full || !waitmMet c.cyc g0 w.hdr.waitm then waitAtIssue s
    else if w.wait c s then waitAtIssue (w.onWait c s)
    else
      match scoreTraps w s c with
      | [] =>
        if c.on.isEmpty then finishWord w.hdr c { st := s, ends := [], comp := .issue }
        else
          match trapEnds c fun l => firstTrap g w.attach l with
          | some ends => finishWord w.hdr c { st := s, ends, comp := .issue }
          | none => finishWord w.hdr c (w.body c s)
      | ts =>
        -- the trapping lanes trap; other guard-true lanes issue the word again
        let stays := (c.on.filter fun l => !ts.any (·.1 == l)).map fun l => (l, LaneEnd.stay)
        let ends := stays ++ ts.map fun t => (t.1, LaneEnd.trap t.2)
        finishWord w.hdr c { st := s, comp := .issue, ends }

/-- The meaning of a word at a state: nothing if no bundle is being issued. -/
def runWord (w : WordSpec) (s : State) : Host.Outcome State Fault Refusal :=
  match s.issue with
  | none => .next s
  | some b =>
    match gangOf s b.gang with
    | none => .fault .noGang
    | some g => .next (issueWord w s b g)

/-- Every guard-true lane goes on at the next word. -/
def allNext (c : Ctx) : List (Nat × LaneEnd) := c.on.map fun l => (l, LaneEnd.next)

/-- Every guard-true lane takes one trap: a word that acts once per bundle (R277). -/
def allTrap (c : Ctx) (t : TrapInfo) : List (Nat × LaneEnd) := c.on.map fun l => (l, LaneEnd.trap t)

/-- A plan of traps only: nothing is done. -/
def trapPlan (s : State) (ends : List (Nat × LaneEnd)) : Plan := { st := s, ends, comp := .issue }

/-- The lowest guard-true lane. -/
def lowest (c : Ctx) : Nat := c.on.headD 0

/-- A fibre is released from a hold (R103): its stall and its R98 sum count from now, and it goes on at the next word. -/
def releaseFibre (cyc : Nat) (fb : Fibre) : Fibre :=
  match fb.held with
  | none => fb
  | some h => { issuedFibre cyc h.stall fb with held := none, pc := fb.pc + 8 }

/-- Fibres of a gang are released together: the bundles they form, one per program counter, and their counters fall. -/
def releaseLanes (s : State) (gk : Nat) (ls : List Nat) : State :=
  match gangOf s gk with
  | none => s
  | some g =>
    let cyc := cycOf s g.core
    let ls := ls.filter fun l => ((tabFind g.fibres l).bind (·.held)).isSome
    let g := ls.foldl (fun g l =>
      match (tabFind g.fibres l).bind (·.held) with
      | some h => modFibreG (ctrDone cyc g h.gid 1) l (releaseFibre cyc)
      | none => g) g
    let pcs := (ls.filterMap fun l => (tabFind g.fibres l).map (·.pc)).eraseDups
    let g := ls.foldl (fun g l => modFibreG g l fun f => { f with bun := s.nextId + pcs.findIdx (· == f.pc) }) g
    { setGang s gk g with nextId := s.nextId + 66 }

end Sys2Proof.Machine
end

