-- ==== Sys2Proof/Machine/Operands.lean ====
section
/-! DEFINITION. Operand forms: v and s registers, pairs and quads, immediates (R77, R80, R88), and the shape shared by the
words that compute one result per active lane from registers (R80, R93, R97). -/

namespace Sys2Proof.Machine

/-- The register an operand names. -/
def opRef (o : Opnd) : RegRef := { file := if o.s then .s else .v, n := o.n.toNat }

/-- The second register of a pair operand. -/
def opRef1 (o : Opnd) : RegRef := { file := if o.s then .s else .v, n := o.n.toNat + 1 }

/-- v register `n` as an operand. -/
def vRef (n : Nat) : RegRef := { file := .v, n }

/-- Predicate `n`. -/
def pRef (n : Nat) : RegRef := { file := .p, n }

/-- The v registers that an operand of `k` registers names. -/
def opNames (o : Opnd) (k : Nat) : List Nat := if o.s then [] else (List.range k).map (o.n.toNat + ·)

/-- Successive v registers. -/
def vNames (d : Reg) (k : Nat) : List Nat := (List.range k).map (d.toNat + ·)

/-- An operand of `k` registers as reads. -/
def opReads (o : Opnd) (k : Nat) : List RegRef :=
  (List.range k).map fun i => { file := if o.s then .s else .v, n := o.n.toNat + i }

/-- Successive v registers as reads. -/
def vReads (d : Reg) (k : Nat) : List RegRef := (List.range k).map fun i => vRef (d.toNat + i)

/-- The value of an operand in a lane: an s source is read once for the bundle, in the view of its lowest guard-true lane
(R80). -/
def rd (s : State) (c : Ctx) (l : Nat) (o : Opnd) : Word :=
  if o.s then readS s c.g (lowest c) o.n.toNat else readV s c.g l o.n.toNat

/-- The 64-bit value of a pair operand (R77). -/
def rd64 (s : State) (c : Ctx) (l : Nat) (o : Opnd) : DWord :=
  rd s c l { s := o.s, n := o.n + 1 } ++ rd s c l o

/-- The 64-bit value of a v pair. -/
def rdV64 (s : State) (c : Ctx) (l : Nat) (n : Reg) : DWord :=
  readV s c.g l (n.toNat + 1) ++ readV s c.g l n.toNat

/-- The lowest guard-true lane's value of an operand (a uniform operand). -/
def rdU (s : State) (c : Ctx) (o : Opnd) : Word := rd s c (lowest c) o

/-- The lanes that write a destination: every guard-true lane, or the lowest one for an s register (R80). -/
def dstLanes (c : Ctx) (d : Opnd) : List Nat := if d.s then [lowest c] else c.on

/-- SR.FFLAGS takes a raise, sure once the word's latency has elapsed (R121). -/
def raiseFlag (lat : Nat) (f : Flags) (fb : Fibre) : Fibre :=
  { fb with fflags := fb.fflags ||| f, flq := fb.flq ++ [{ write := false, val := f, due := fb.sum + lat }] }

/-- The flags a word raises, merged into SR.FFLAGS with the word's latency (R120, R121). -/
def raiseFlags (lat : Nat) (g : Gang) (fs : List (Nat × Flags)) : Gang :=
  fs.foldl (fun g lf => if lf.2 = 0#4 then g else modFibreG g lf.1 (raiseFlag lat lf.2)) g

/-- Register results of a word with latency `lat`, and the flags it raises. -/
def writeBack (s : State) (c : Ctx) (lat : Nat) (ws : List RegWrite) (fs : List (Nat × Flags)) : State :=
  modGang s c.gk fun g => raiseFlags lat (writeRegs c.cyc c.seq lat c.on g (orderWrites s c.g ws)) fs

/-- The plan of a word that only writes registers, with fixed latency `lat`. -/
def regPlan (s : State) (c : Ctx) (lat : Nat) (ws : List RegWrite) (fs : List (Nat × Flags)) : Plan :=
  { st := writeBack s c lat ws fs, ends := allNext c, comp := .cycles lat }

/-- One result register per lane. -/
def oneWrite (d : Opnd) (lane : Nat) (val : Word) : RegWrite := { lane, reg := opRef d, val }

/-- A pair of result registers per lane. -/
def pairWrite (d : Opnd) (lane : Nat) (val : DWord) : List RegWrite :=
  [{ lane, reg := opRef d, val := val.truncate 32 }, { lane, reg := opRef1 d, val := val.extractLsb' 32 32 }]

/-- A word that reads registers and writes one register per lane, with flags. `reads` are the registers read beside D. -/
def laneSpec (h : Hdr) (lat : Nat) (d : Opnd) (names : List Nat) (reads : List RegRef)
    (f : State → Ctx → Nat → Word × Flags) : WordSpec :=
  { hdr := h, names := opNames d 1 ++ names, reads := readsAll reads, early := noEarly, wait := noWait, once := d.s,
    body := fun c s =>
      let rs := (dstLanes c d).map fun l => (l, f s c l)
      regPlan s c lat (rs.map fun r => oneWrite d r.1 r.2.1) (rs.map fun r => (r.1, r.2.2)) }

/-- D := f(A, B) with latency 4 and no flag: classes 1 and 2, Form T. -/
def binSpec (h : Hdr) (d a b : Opnd) (f : Word → Word → Word) : WordSpec :=
  laneSpec h 4 d (opNames a 1 ++ opNames b 1) (opReads a 1 ++ opReads b 1)
    fun s c l => (f (rd s c l a) (rd s c l b), 0)

/-- D := f(A) with latency 4. -/
def unSpec (h : Hdr) (d a : Opnd) (f : Word → Word) : WordSpec :=
  laneSpec h 4 d (opNames a 1) (opReads a 1) fun s c l => (f (rd s c l a), 0)

/-- D := f(A, B, D) with latency 4. -/
def triSpec (h : Hdr) (d a b : Opnd) (f : Word → Word → Word → Word) : WordSpec :=
  laneSpec h 4 d (opNames a 1 ++ opNames b 1) (opReads a 1 ++ opReads b 1 ++ opReads d 1)
    fun s c l => (f (rd s c l a) (rd s c l b) (rd s c l d), 0)

/-- A 64-bit result in a pair, latency 4. -/
def wideSpec (h : Hdr) (d : Opnd) (names : List Nat) (reads : List RegRef) (f : State → Ctx → Nat → DWord) : WordSpec :=
  { hdr := h, names := opNames d 2 ++ names, reads := readsAll reads, early := noEarly, wait := noWait, once := d.s,
    body := fun c s => regPlan s c 4 ((dstLanes c d).flatMap fun l => pairWrite d l (f s c l)) [] }

/-- A predicate or 0/1 result: ISET, ISETI, FSET (R355, R365). -/
def setSpec (h : Hdr) (lat : Nat) (d : SetDst) (names : List Nat) (reads : List RegRef)
    (f : State → Ctx → Nat → Bool) : WordSpec :=
  match d with
  | .reg d => laneSpec h lat d names reads fun s c l => (if f s c l then 1 else 0, 0)
  | .pred p =>
    { hdr := h, names, reads := readsAll reads, early := noEarly, wait := noWait,
      body := fun c s =>
        regPlan s c lat (c.on.map fun l => { lane := l, reg := pRef p.toNat, val := if f s c l then 1 else 0 }) [] }

/-- The rounding of a word in a lane (R105, R116): DYN takes the fibre's CR.FMODE. -/
def laneRM (c : Ctx) (l : Nat) (rm : RM) : RM :=
  match tabFind c.g.fibres l with
  | some fb => resolveRM rm fb.fmode
  | none => resolveRM rm 0

/-- A sign- or zero-extended immediate. -/
def sx (n : Nat) (x : BitVec n) : Word := x.signExtend 32

/-- A zero-extended immediate. -/
def zx (n : Nat) (x : BitVec n) : Word := x.zeroExtend 32

end Sys2Proof.Machine
end

