-- ==== Sys2Proof/Machine/Integer.lean ====
section
/-! DEFINITION. Classes 0x1 and 0x2: integer and bitwise words, moves, predicates, index registers (R79, R113, R114, and
the entries R326 to R396). -/

namespace Sys2Proof.Machine

/-! ### Values -/

/-- High 32 bits of a product (R113, R362). -/
def mulHigh (u : Bool) (a b : Word) : Word :=
  if u then (a.zeroExtend 64 * b.zeroExtend 64).extractLsb' 32 32
  else (a.signExtend 64 * b.signExtend 64).extractLsb' 32 32

/-- The comparison of ISET and ISETI (R365). -/
def compareI (c : Cond) (u : Bool) (a b : Word) : Bool :=
  let lt := fun x y : Word => if u then x.ult y else x.slt y
  match c with
  | .eq => a == b
  | .ne => a != b
  | .lt => lt a b
  | .le => !lt b a
  | .gt => lt b a
  | .ge => !lt a b
  | .ord | .uno => false

/-- Minimum or maximum, signed or unsigned (R363). -/
def minmaxI (isMax u : Bool) (a b : Word) : Word :=
  let below := compareI .lt u a b
  if isMax then (if below then b else a) else if below then a else b

/-- Shift left by an unsigned 32-bit amount: 0 for 32 or more (R114, R395). -/
def shlW (a n : Word) : Word := a <<< n.toNat

/-- Logical shift right. -/
def shrW (a n : Word) : Word := a >>> n.toNat

/-- Arithmetic shift right: the sign fill for 32 or more. -/
def sarW (a n : Word) : Word := a.sshiftRight (min n.toNat 32)

/-- IABS (R359). -/
def absW (a : Word) : Word := if a.slt 0 then 0 - a else a

/-- The field position and length of BFX and BFI (R326). -/
def fieldOf (b : Word) : Nat × Nat := (b.toNat % 32, min (b.toNat / 256 % 64) 32)

/-- BFX (R326). -/
def bfxW (signed : Bool) (a b : Word) : Word :=
  let pos := (fieldOf b).1
  let top := min (pos + (fieldOf b).2) 32
  let n := top - pos
  if n = 0 then 0
  else if signed then (a <<< (32 - top)).sshiftRight (32 - n)
  else (a <<< (32 - top)) >>> (32 - n)

/-- BFI (R327). -/
def bfiW (a b d : Word) : Word :=
  let pos := (fieldOf b).1
  let top := min (pos + (fieldOf b).2) 32
  let mask := BitVec.ofNat 32 (2 ^ top - 2 ^ pos)
  (d &&& ~~~mask) ||| ((a <<< pos) &&& mask)

/-- Bits set (R382). -/
def popcW (a : Word) : Word := BitVec.ofNat 32 ((List.range 32).filter fun i => a.getLsbD i).length

/-- Zero bits above the highest set bit (R336). -/
def clzW (a : Word) : Word := if a = 0 then 32 else BitVec.ofNat 32 (31 - Nat.log2 a.toNat)

/-- Bits reversed (R330). -/
def brevW (a : Word) : Word :=
  BitVec.ofNat 32 ((List.range 32).foldl (fun acc i => acc + if a.getLsbD i then 2 ^ (31 - i) else 0) 0)

/-! ### Class 0x1 -/

/-- IADD (R360). -/
def execIadd (h : Hdr) (d a b : Opnd) (s : State) : Host.Outcome State Fault Refusal :=
  runWord (binSpec h d a b (· + ·)) s

/-- IADDI (R360). -/
def execIaddi (h : Hdr) (d a : Opnd) (imm : BitVec 17) (s : State) : Host.Outcome State Fault Refusal :=
  runWord (unSpec h d a (· + sx 17 imm)) s

/-- ISUB (R360). -/
def execIsub (h : Hdr) (d a b : Opnd) (s : State) : Host.Outcome State Fault Refusal :=
  runWord (binSpec h d a b (· - ·)) s

/-- IMUL (R362). -/
def execImul (h : Hdr) (d a b : Opnd) (s : State) : Host.Outcome State Fault Refusal :=
  runWord (binSpec h d a b (· * ·)) s

/-- IMULH (R362). -/
def execImulh (h : Hdr) (u : Bool) (d a b : Opnd) (s : State) : Host.Outcome State Fault Refusal :=
  runWord (binSpec h d a b (mulHigh u)) s

/-- IMAD (R362): reads D. -/
def execImad (h : Hdr) (d a b : Opnd) (s : State) : Host.Outcome State Fault Refusal :=
  runWord (triSpec h d a b fun x y z => x * y + z) s

/-- IMIN (R363). -/
def execImin (h : Hdr) (u : Bool) (d a b : Opnd) (s : State) : Host.Outcome State Fault Refusal :=
  runWord (binSpec h d a b (minmaxI false u)) s

/-- IMAX (R363). -/
def execImax (h : Hdr) (u : Bool) (d a b : Opnd) (s : State) : Host.Outcome State Fault Refusal :=
  runWord (binSpec h d a b (minmaxI true u)) s

/-- IABS (R359). -/
def execIabs (h : Hdr) (d a : Opnd) (s : State) : Host.Outcome State Fault Refusal :=
  runWord (unSpec h d a absW) s

/-- ISET (R365). -/
def execIset (h : Hdr) (cond : Cond) (u : Bool) (d : SetDst) (a b : Opnd) (s : State) :
    Host.Outcome State Fault Refusal :=
  runWord (setSpec h 4 d (opNames a 1 ++ opNames b 1) (opReads a 1 ++ opReads b 1)
    fun s c l => compareI cond u (rd s c l a) (rd s c l b)) s

/-- ISETI (R365). -/
def execIseti (h : Hdr) (cond : Cond) (u : Bool) (p : BitVec 4) (a : Opnd) (imm : BitVec 17) (s : State) :
    Host.Outcome State Fault Refusal :=
  runWord (setSpec h 4 (.pred p) (opNames a 1) (opReads a 1)
    fun s c l => compareI cond u (rd s c l a) (sx 17 imm)) s

/-- SEL (R396): the predicate of the lane that computes is a source. -/
def execSel (h : Hdr) (d a b : Opnd) (p : BitVec 4) (sense : Bool) (s : State) : Host.Outcome State Fault Refusal :=
  runWord (laneSpec h 4 d (opNames a 1 ++ opNames b 1) (opReads a 1 ++ opReads b 1 ++ [pRef p.toNat])
    fun s c l => (if readP s c.g l p.toNat != sense then rd s c l a else rd s c l b, 0)) s

/-- MOV (R374). -/
def execMov (h : Hdr) (d a : Opnd) (s : State) : Host.Outcome State Fault Refusal :=
  runWord (unSpec h d a id) s

/-- MOVI (R374). -/
def execMovi (h : Hdr) (d : Opnd) (imm : BitVec 26) (s : State) : Host.Outcome State Fault Refusal :=
  runWord (laneSpec h 4 d [] [] fun _ _ _ => (sx 26 imm, 0)) s

/-- MOVHI (R374). -/
def execMovhi (h : Hdr) (d a : Opnd) (imm : BitVec 16) (s : State) : Host.Outcome State Fault Refusal :=
  runWord (unSpec h d a fun x => imm ++ x.truncate 16) s

/-- IADD64 (R361). -/
def execIadd64 (h : Hdr) (d a b : Opnd) (s : State) : Host.Outcome State Fault Refusal :=
  runWord (wideSpec h d (opNames a 2 ++ opNames b 2) (opReads a 2 ++ opReads b 2)
    fun s c l => rd64 s c l a + rd64 s c l b) s

/-- IADD64I (R361). -/
def execIadd64i (h : Hdr) (d a : Opnd) (imm : BitVec 17) (s : State) : Host.Outcome State Fault Refusal :=
  runWord (wideSpec h d (opNames a 2) (opReads a 2) fun s c l => rd64 s c l a + imm.signExtend 64) s

/-! ### Index registers (R79, R387) -/

/-- The effective index e of RDX and WRX. -/
def indexOf (s : State) (c : Ctx) (l : Nat) (n : BitVec 1) (imm : BitVec 17) : Word := readIx s c.g l n.toNat + sx 17 imm

/-- Is the index within [0, WSIZE)? -/
def indexIn (g : Gang) (e : Word) : Bool := e.toNat < g.wsize

/-- The trap of an index outside the window. -/
def indexTrap (s : State) (c : Ctx) (n : BitVec 1) (imm : BitVec 17) (l : Nat) : Option TrapInfo :=
  let e := indexOf s c l n imm
  if indexIn c.g e then none else some { trapOf 0x05 with info := e }

/-- ix[N] as a read. -/
def ixRef (n : BitVec 1) : RegRef := { file := .ix, n := n.toNat }

/-- v[e] as a read, when e lies in the window (R387). -/
def indexedReads (g : Gang) (l : Nat) (n : BitVec 1) (imm : BitVec 17) : List RegRef :=
  match tabFind g.fibres l with
  | none => []
  | some fb =>
    let e := (if n = 0 then fb.ix0 else fb.ix1) + sx 17 imm
    if indexIn g e then [vRef e.toNat] else []

/-- RDX (R79, R387). -/
def execRdx (h : Hdr) (d : Reg) (n : BitVec 1) (imm : BitVec 17) (s : State) : Host.Outcome State Fault Refusal :=
  runWord { hdr := h, names := vNames d 1, reads := fun _ g l => ixRef n :: indexedReads g l n imm,
            early := noEarly, wait := noWait,
            body := fun c s =>
              match trapEnds c (indexTrap s c n imm) with
              | some ends => trapPlan s ends
              | none => regPlan s c 4
                  (c.on.map fun l => oneWrite (vr d) l (readV s c.g l (indexOf s c l n imm).toNat)) [] } s

/-- WRX (R79, R387, R388): of lanes that write one pool register, one lane's value stands. -/
def execWrx (h : Hdr) (n : BitVec 1) (a : Opnd) (imm : BitVec 17) (s : State) : Host.Outcome State Fault Refusal :=
  runWord { hdr := h, names := opNames a 1, reads := readsAll (ixRef n :: opReads a 1), early := noEarly, wait := noWait,
            body := fun c s =>
              match trapEnds c (indexTrap s c n imm) with
              | some ends => trapPlan s ends
              | none =>
                let ws := c.on.map fun l =>
                  ({ lane := l, reg := vRef (indexOf s c l n imm).toNat, val := rd s c l a } : RegWrite)
                regPlan s c 4 ws [] } s

/-- SETIX (R79, R387). -/
def execSetix (h : Hdr) (n : BitVec 1) (a : Opnd) (imm : BitVec 17) (s : State) : Host.Outcome State Fault Refusal :=
  runWord { hdr := h, names := opNames a 1, reads := readsAll (opReads a 1), early := noEarly, wait := noWait,
            body := fun c s =>
              regPlan s c 4 (c.on.map fun l => { lane := l, reg := ixRef n, val := rd s c l a + sx 17 imm }) [] } s

/-! ### Class 0x2 -/

/-- AND (R378). -/
def execAnd (h : Hdr) (d a b : Opnd) (s : State) : Host.Outcome State Fault Refusal :=
  runWord (binSpec h d a b (· &&& ·)) s

/-- ANDI (R378). -/
def execAndi (h : Hdr) (d a : Opnd) (imm : BitVec 17) (s : State) : Host.Outcome State Fault Refusal :=
  runWord (unSpec h d a (· &&& zx 17 imm)) s

/-- OR (R378). -/
def execOr (h : Hdr) (d a b : Opnd) (s : State) : Host.Outcome State Fault Refusal :=
  runWord (binSpec h d a b (· ||| ·)) s

/-- ORI (R378). -/
def execOri (h : Hdr) (d a : Opnd) (imm : BitVec 17) (s : State) : Host.Outcome State Fault Refusal :=
  runWord (unSpec h d a (· ||| zx 17 imm)) s

/-- XOR (R378). -/
def execXor (h : Hdr) (d a b : Opnd) (s : State) : Host.Outcome State Fault Refusal :=
  runWord (binSpec h d a b (· ^^^ ·)) s

/-- XORI (R378). -/
def execXori (h : Hdr) (d a : Opnd) (imm : BitVec 17) (s : State) : Host.Outcome State Fault Refusal :=
  runWord (unSpec h d a (· ^^^ zx 17 imm)) s

/-- NOT (R378). -/
def execNot (h : Hdr) (d a : Opnd) (s : State) : Host.Outcome State Fault Refusal :=
  runWord (unSpec h d a fun x => ~~~x) s

/-- SHL (R395). -/
def execShl (h : Hdr) (d a b : Opnd) (s : State) : Host.Outcome State Fault Refusal :=
  runWord (binSpec h d a b shlW) s

/-- SHLI (R395). -/
def execShli (h : Hdr) (d a : Opnd) (imm : BitVec 17) (s : State) : Host.Outcome State Fault Refusal :=
  runWord (unSpec h d a (shlW · (zx 17 imm))) s

/-- SHR (R395). -/
def execShr (h : Hdr) (d a b : Opnd) (s : State) : Host.Outcome State Fault Refusal :=
  runWord (binSpec h d a b shrW) s

/-- SHRI (R395). -/
def execShri (h : Hdr) (d a : Opnd) (imm : BitVec 17) (s : State) : Host.Outcome State Fault Refusal :=
  runWord (unSpec h d a (shrW · (zx 17 imm))) s

/-- SAR (R395). -/
def execSar (h : Hdr) (d a b : Opnd) (s : State) : Host.Outcome State Fault Refusal :=
  runWord (binSpec h d a b sarW) s

/-- SARI (R395). -/
def execSari (h : Hdr) (d a : Opnd) (imm : BitVec 17) (s : State) : Host.Outcome State Fault Refusal :=
  runWord (unSpec h d a (sarW · (zx 17 imm))) s

/-- BFX (R326). -/
def execBfx (h : Hdr) (signed : Bool) (d a b : Opnd) (s : State) : Host.Outcome State Fault Refusal :=
  runWord (binSpec h d a b (bfxW signed)) s

/-- BFI (R327): reads D. -/
def execBfi (h : Hdr) (d a b : Opnd) (s : State) : Host.Outcome State Fault Refusal :=
  runWord (triSpec h d a b bfiW) s

/-- POPC (R382). -/
def execPopc (h : Hdr) (d a : Opnd) (s : State) : Host.Outcome State Fault Refusal :=
  runWord (unSpec h d a popcW) s

/-- CLZ (R336). -/
def execClz (h : Hdr) (d a : Opnd) (s : State) : Host.Outcome State Fault Refusal :=
  runWord (unSpec h d a clzW) s

/-- BREV (R330). -/
def execBrev (h : Hdr) (d a : Opnd) (s : State) : Host.Outcome State Fault Refusal :=
  runWord (unSpec h d a brevW) s

/-- All sixteen predicates as reads. -/
def allPreds : List RegRef := (List.range 16).map pRef

/-- The predicates of a lane as a word (R381). -/
def predWord (s : State) (c : Ctx) (l : Nat) : Word :=
  BitVec.ofNat 32 ((List.range 16).foldl (fun acc i => acc + if readP s c.g l i then 2 ^ i else 0) 0)

/-- PMOV to a register (R381). -/
def execPmov (h : Hdr) (d : Opnd) (s : State) : Host.Outcome State Fault Refusal :=
  runWord (laneSpec h 4 d [] allPreds fun s c l => (predWord s c l, 0)) s

/-- PMOV to the predicates (R381). -/
def execPmovTop (h : Hdr) (a : Opnd) (s : State) : Host.Outcome State Fault Refusal :=
  runWord { hdr := h, names := opNames a 1, reads := readsAll (opReads a 1), early := noEarly, wait := noWait,
            body := fun c s =>
              regPlan s c 4 (c.on.flatMap fun l => (List.range 16).map fun i =>
                { lane := l, reg := pRef i, val := if (rd s c l a).getLsbD i then 1 else 0 }) [] } s

/-- PLOP (R380): the truth table at 2 × p[A] + p[B]. -/
def execPlop (h : Hdr) (d a b : BitVec 4) (table : BitVec 4) (s : State) : Host.Outcome State Fault Refusal :=
  runWord { hdr := h, names := [], reads := readsAll [pRef a.toNat, pRef b.toNat], early := noEarly, wait := noWait,
            body := fun c s =>
              regPlan s c 4 (c.on.map fun l =>
                let i := (if readP s c.g l a.toNat then 2 else 0) + (if readP s c.g l b.toNat then 1 else 0)
                { lane := l, reg := pRef d.toNat, val := if table.getLsbD i then 1 else 0 }) [] } s

end Sys2Proof.Machine
end

