-- ==== Sys2Proof/Machine/LaneWords.lean ====
section
/-! DEFINITION. Class 0x6: words that move values between the lanes of a bundle (R325, R337, R346, R372, R390, R391, R397,
R399, R408). Only guard-true active lanes are sources and destinations. -/

namespace Sys2Proof.Machine

/-- A cross-lane word that writes v register D in some lanes, with the given latency. -/
def crossSpec (h : Hdr) (d : Reg) (names : List Nat) (reads : List RegRef) (lat : Nat)
    (f : State → Ctx → List (Nat × Word)) : WordSpec :=
  { hdr := h, names := vNames d 1 ++ names, reads := readsAll reads, early := noEarly, wait := noWait,
    body := fun c s => regPlan s c lat ((f s c).map fun r => oneWrite (vr d) r.1 r.2) [] }

/-- The lane that SHFL reads, if it is in range (R397). -/
def shflLane (mode : ShflMode) (gw l : Nat) (b : Word) : Option Nat :=
  match mode with
  | .idx => some (b.toNat % gw)
  | .up => if b.toNat ≤ l then some (l - b.toNat) else none
  | .down => if l + b.toNat < gw then some (l + b.toNat) else none
  | .xor => some (l ^^^ (b.toNat % gw))

/-- SHFL (R397). -/
def execShfl (h : Hdr) (mode : ShflMode) (d a : Reg) (b : Opnd) (s : State) : Host.Outcome State Fault Refusal :=
  runWord (crossSpec h d (vNames a 1 ++ opNames b 1) (vReads a 1 ++ opReads b 1) 6 fun s c => c.on.map fun l =>
    let j := match shflLane mode c.g.gw l (rd s c l b) with
      | some j => if c.on.contains j then j else l
      | none => l
    (l, readV s c.g j a.toNat)) s

/-- BCAST (R325). -/
def execBcast (h : Hdr) (d a : Reg) (b : Opnd) (s : State) : Host.Outcome State Fault Refusal :=
  runWord (crossSpec h d (vNames a 1 ++ opNames b 1) (vReads a 1 ++ opReads b 1) 6 fun s c =>
    let j := (rdU s c b).toNat % c.g.gw
    c.on.map fun l => (l, if c.on.contains j then readV s c.g j a.toNat else 0)) s

/-- The lanes of L in which a predicate is set. -/
def withPred (s : State) (c : Ctx) (p : BitVec 4) : List Nat := c.on.filter fun l => readP s c.g l p.toNat

/-- COMPRESS (R337). -/
def execCompress (h : Hdr) (d : Reg) (a : Opnd) (p : BitVec 4) (s : State) : Host.Outcome State Fault Refusal :=
  runWord (crossSpec h d (opNames a 1) (opReads a 1 ++ [pRef p.toNat]) 6 fun s c =>
    (c.on.zip (withPred s c p)).map fun x => (x.1, rd s c x.2 a)) s

/-- EXPAND (R346). -/
def execExpand (h : Hdr) (d : Reg) (a : Opnd) (p : BitVec 4) (s : State) : Host.Outcome State Fault Refusal :=
  runWord (crossSpec h d (opNames a 1) (opReads a 1 ++ [pRef p.toNat]) 6 fun s c =>
    ((withPred s c p).zip c.on).map fun x => (x.1, rd s c x.2 a)) s

/-- SLIDEUP (R399): position i takes position i − n. -/
def execSlideup (h : Hdr) (d a : Reg) (b : Opnd) (s : State) : Host.Outcome State Fault Refusal :=
  runWord (crossSpec h d (vNames a 1 ++ opNames b 1) (vReads a 1 ++ opReads b 1) 6 fun s c =>
    ((c.on.drop (rdU s c b).toNat).zip c.on).map fun x => (x.1, readV s c.g x.2 a.toNat)) s

/-- SLIDEDN (R399): position i takes position i + n. -/
def execSlidedn (h : Hdr) (d a : Reg) (b : Opnd) (s : State) : Host.Outcome State Fault Refusal :=
  runWord (crossSpec h d (vNames a 1 ++ opNames b 1) (vReads a 1 ++ opReads b 1) 6 fun s c =>
    (c.on.zip (c.on.drop (rdU s c b).toNat)).map fun x => (x.1, readV s c.g x.2 a.toNat)) s

/-- Op of REDL and SCANL (R391). -/
def laneOp (op : LaneOp) (r x : Word) : Word :=
  match op with
  | .add => r + x
  | .min => minmaxI false false r x
  | .max => minmaxI true false r x
  | .umin => minmaxI false true r x
  | .umax => minmaxI true true r x
  | .and => r &&& x
  | .or => r ||| x
  | .xor => r ^^^ x
  | .fadd => BitVec.ofNat 32 (addF fmtFP32 .rne false r.toNat x.toNat).1
  | .fmin => BitVec.ofNat 32 (minmaxF fmtFP32 false r.toNat x.toNat)
  | .fmax => BitVec.ofNat 32 (minmaxF fmtFP32 true r.toNat x.toNat)

/-- Identity of an operation (R391). -/
def laneIdentity : LaneOp → Word
  | .add | .or | .xor | .umax => 0
  | .min => 0x7FFFFFFF
  | .max => 0x80000000
  | .umin | .and => 0xFFFFFFFF
  | .fadd => 0x80000000
  | .fmin => 0x7F800000
  | .fmax => 0xFF800000

/-- First: the first value, with a NaN of an F operation made canonical (R390). -/
def laneFirst (op : LaneOp) (x : Word) : Word :=
  match op with
  | .fadd | .fmin | .fmax => if fmtFP32.value x.toNat == .nan then 0x7FC00000 else x
  | _ => x

/-- The running results after each of a list of values, from `r`. -/
def laneScan (op : LaneOp) : Word → List Word → List Word
  | _, [] => []
  | r, x :: xs => laneOp op r x :: laneScan op (laneOp op r x) xs

/-- The inclusive results of a list of lane values, in ascending lane order (R390). -/
def lanePrefixes (op : LaneOp) : List Word → List Word
  | [] => []
  | x :: xs => laneFirst op x :: laneScan op (laneFirst op x) xs

/-- 6 + log2 GW (Table WORD-11). -/
def redLatency (gw : Nat) : Nat := 6 + Nat.log2 gw

/-- REDL (R390). -/
def execRedl (h : Hdr) (op : LaneOp) (d : Opnd) (a : Reg) (s : State) : Host.Outcome State Fault Refusal :=
  runWord { hdr := h, names := opNames d 1 ++ vNames a 1, reads := readsAll (vReads a 1), early := noEarly,
            wait := noWait,
            body := fun c s =>
              let r := (lanePrefixes op (c.on.map fun l => readV s c.g l a.toNat)).getLastD 0
              regPlan s c (redLatency c.g.gw) ((dstLanes c d).map fun l => oneWrite d l r) [] } s

/-- SCANL (R390). -/
def execScanl (h : Hdr) (op : LaneOp) (excl : Bool) (d a : Reg) (s : State) : Host.Outcome State Fault Refusal :=
  runWord { hdr := h, names := vNames d 1 ++ vNames a 1, reads := readsAll (vReads a 1), early := noEarly,
            wait := noWait,
            body := fun c s =>
              let rs := lanePrefixes op (c.on.map fun l => readV s c.g l a.toNat)
              let rs := if excl then laneIdentity op :: rs else rs
              regPlan s c (redLatency c.g.gw) ((c.on.zip rs).map fun x => oneWrite (vr d) x.1 x.2) [] } s

/-- A mask of lanes as a number: bit l for lane l. -/
def laneMask (ls : List Nat) : Nat := ls.foldl (fun acc l => acc + 2 ^ l) 0

/-- One half of a 64-bit mask. -/
def maskHalf (hi : Bool) (m : Nat) : Word := BitVec.ofNat 32 (if hi then m / 2 ^ 32 else m)

/-- VOTE's result (R408). -/
def voteResult (mode : VoteMode) (hi : Bool) (on set : List Nat) : Word :=
  match mode with
  | .mask => maskHalf hi (laneMask set)
  | .every => if set.length = on.length then 1 else 0
  | .some => if set.isEmpty then 0 else 1
  | .same => if set.isEmpty || set.length = on.length then 1 else 0
  | .count => BitVec.ofNat 32 set.length

/-- VOTE (R408). -/
def execVote (h : Hdr) (mode : VoteMode) (hi : Bool) (d : Opnd) (p : BitVec 4) (s : State) :
    Host.Outcome State Fault Refusal :=
  runWord { hdr := h, names := opNames d 1, reads := readsAll [pRef p.toNat], early := noEarly, wait := noWait,
            body := fun c s =>
              let r := voteResult mode hi c.on (withPred s c p)
              regPlan s c 6 ((dstLanes c d).map fun l => oneWrite d l r) [] } s

/-- MATCH (R372). -/
def execMatchLanes (h : Hdr) (hi : Bool) (d a : Opnd) (s : State) : Host.Outcome State Fault Refusal :=
  runWord (laneSpec h 8 d (opNames a 1) (opReads a 1) fun s c l =>
    (maskHalf hi (laneMask (c.on.filter fun j => rd s c j a == rd s c l a)), 0)) s

end Sys2Proof.Machine
end

