-- ==== Sys2Proof/Machine/BlockSum.lean ====
section
/-! DEFINITION. The arithmetic of the matrix engine: format words (R135, R136), codebook values and scales (R133, R134), the
block sum (R137), and the conversions of QSCR (R246). -/

namespace Sys2Proof.Machine

/-- The fields of a format word (Table NUM-8). -/
def fwA (w : Word) : Nat := w.toNat % 16
/-- BFMT. -/
def fwB (w : Word) : Nat := w.toNat / 16 % 16
/-- ACC. -/
def fwAcc (w : Word) : Nat := w.toNat / 256 % 16
/-- SCALE. -/
def fwScale (w : Word) : Nat := w.toNat / 4096 % 4
/-- The reserved bits. -/
def fwRsvd (w : Word) : Nat := w.toNat / 16384 % 4
/-- BSLOT. -/
def fwBSlot (w : Word) : Nat := w.toNat / 65536 % 256
/-- ASLOT. -/
def fwASlot (w : Word) : Nat := w.toNat / 16777216

/-- Is a format word illegal (R135)? -/
def fwIllegal (w : Word) : Bool := 4 < fwA w || 4 < fwB w || fwAcc w != 0 || 1 < fwScale w || fwRsvd w != 0

/-- A 16-bit operand format. -/
def is16 (f : Nat) : Bool := f == 2 || f == 3

/-- The K-block of a format pair (R136). -/
def kBlock (fa fb : Nat) : Nat := if is16 fa || is16 fb then 16 else if fa = 4 && fb = 4 then 64 else 32

/-- Bits of an operand element (R234). -/
def opBits (f : Nat) : Nat := if f = 4 then 4 else if is16 f then 16 else 8

/-- The value of an operand element; a C4 code goes through its table (R133). -/
def opValue (f : Nat) (table : List Byte) (x : Nat) : FV :=
  match f with
  | 0 => fmtE4M3.value x
  | 1 => fmtE5M2.value x
  | 2 => fmtBF16.value x
  | 3 => fmtFP16.value x
  | _ => fmtBF16.value ((table.getD (2 * x) 0).toNat + 256 * (table.getD (2 * x + 1) 0).toNat)

/-- The exponent of an E8 scale, or none for its NaN (R134). -/
def scaleExp (e : Nat) : Option Int := if e = 255 then none else if e = 0 then some (-127) else some ((e : Int) - 127)

/-- A finite value as a signed multiple of 2^q, truncated toward −∞ (R137). -/
def floorAt (q : Int) (x : FV) : Int :=
  match x with
  | .fin n m e =>
    let v : Int := if n then -(m : Int) else m
    if q ≤ e then v * 2 ^ (e - q).toNat else Int.fdiv v (2 ^ (q - e).toNat)
  | _ => 0

/-- The leading bit's exponent of a non-zero finite value. -/
def topExp (x : FV) : Option Int :=
  match x with
  | .fin _ m e => if m = 0 then none else some (leadExp m e)
  | _ => none

/-- The infinite products as one IEEE sum (R137). -/
def infSum (ps : List FV) : FV :=
  let inf := fun n => ps.any (· == .inf n)
  if inf true && inf false then .nan else if inf true then .inf true else .inf false

/-- The sum of finite products in the 48-bit window: an integer and its exponent. -/
def windowSum (ps : List FV) : Int × Int :=
  match ps.filterMap topExp with
  | [] => (0, 0)
  | e :: es =>
    let q := es.foldl max e - 47
    (ps.foldl (fun acc p => acc + floorAt q p) 0, q)

/-- An exact signed value. -/
def intValue (v e : Int) : FV := .fin (v < 0) v.natAbs e

/-- BlockSum of R137: the new accumulator code. `scale` is the exponent of the two scales' product: `some none` if one of
them is NaN. -/
def blockSum (acc : Nat) (as bs : List FV) (scale : Option (Option Int)) : Nat :=
  let ps := List.zipWith (fun a b => (mulV a b).1) as bs
  let add := fun t => (roundV fmtFP32 .rne false (addV .rne (fmtFP32.value acc) t)).1
  if ps.any (· == .nan) || scale == some none then fmtFP32.nan
  else if ps.any fun p => p == .inf true || p == .inf false then add (infSum ps)
  else
    let w := windowSum ps
    let x := match scale with
      | some (some k) => k
      | _ => 0
    let s := (fmtFP32.ofValue .rne false (intValue w.1 (w.2 + x))).1
    add (fmtFP32.value s)

/-- An accumulator element as QSCR writes it (R246). -/
def qscrCode (f : QFmt) (x : Nat) : Nat :=
  let v := fmtFP32.value x
  match f with
  | .e4m3b8 => (fmtE4M3.ofValue .rne false v).1
  | .e5m2b16 => (fmtE5M2.ofValue .rne false v).1
  | .bf16 =>
    let r := (fmtBF16.ofValue .rne false v).1
    if r = fmtBF16.inf false then fmtBF16.big false else if r = fmtBF16.inf true then fmtBF16.big true else r

end Sys2Proof.Machine
end

