-- ==== Sys2Proof/Machine/Exact.lean ====
section
/-! DEFINITION. Exact ratios and their one rounding into FP32, for texture sampling, rays, interpolation and blending (R260,
R264, R266, R269 to R271). -/

namespace Sys2Proof.Machine

/-- A ratio: numerator and denominator; a denominator of 0 is an infinity with the numerator's sign. -/
structure Ratio where
  n : Int
  d : Nat
  deriving DecidableEq, Repr

/-- An integer as a ratio. -/
def ratInt (n : Int) : Ratio := { n, d := 1 }

/-- m × 2^e as a ratio. -/
def ratPow (v : Int) (e : Int) : Ratio :=
  if 0 ≤ e then { n := v * 2 ^ e.toNat, d := 1 } else { n := v, d := 2 ^ (-e).toNat }

/-- A value as a ratio; a NaN has none. -/
def ratOf : FV → Option Ratio
  | .nan => none
  | .inf n => some { n := if n then -1 else 1, d := 0 }
  | .fin n m e => some (ratPow (if n then -(m : Int) else m) e)

/-- Sum of finite ratios. -/
def ratAdd (a b : Ratio) : Ratio := { n := a.n * b.d + b.n * a.d, d := a.d * b.d }

/-- Difference; an infinite first term stays. -/
def ratSub (a b : Ratio) : Ratio := if a.d = 0 then a else { n := a.n * b.d - b.n * a.d, d := a.d * b.d }

/-- Product of finite ratios. -/
def ratMul (a b : Ratio) : Ratio := { n := a.n * b.n, d := a.d * b.d }

/-- Quotient by a finite ratio other than 0. -/
def ratDiv (a b : Ratio) : Ratio :=
  if b.n < 0 then { n := -a.n * b.d, d := a.d * b.n.natAbs } else { n := a.n * b.d, d := a.d * b.n.natAbs }

/-- a ≤ b. -/
def ratLe (a b : Ratio) : Bool := if a.d = 0 && b.d = 0 then a.n ≤ b.n else a.n * b.d ≤ b.n * a.d

/-- a < b. -/
def ratLt (a b : Ratio) : Bool := !ratLe b a

/-- A finite ratio as a value with at least 64 digits and a sticky bit: enough for one rounding. -/
def ratValue (r : Ratio) : FV :=
  if r.n = 0 then .fin false 0 0
  else
    let k := 64 + Nat.log2 r.d
    let q := r.n.natAbs * 2 ^ k
    withSticky (r.n < 0) (q / r.d) (-(k : Int)) (q % r.d != 0)

/-- A ratio rounded RNE to a format; an infinity stays. -/
def ratRound (f : Fmt) (r : Ratio) : Nat :=
  if r.d = 0 then f.inf (r.n < 0) else (f.ofValue .rne false (ratValue r)).1

/-- A ratio rounded RNE to FP32. -/
def ratFP32 (r : Ratio) : Word := BitVec.ofNat 32 (ratRound fmtFP32 r)

/-- A weighted term: weight and value. -/
abbrev Term := Ratio × FV

/-- The exact sum of weighted terms (R264, R269): a NaN makes a NaN; infinities with weight make one, or a NaN if their
signs differ; an infinite value of weight 0 adds nothing. -/
def termSum (ts : List Term) : Option Ratio :=
  if ts.any (·.2 == .nan) then none
  else
    let inf := fun neg => ts.any fun t => t.1.n != 0 && (t.2 == .inf (neg != decide (t.1.n < 0)))
    if inf false && inf true then none
    else if inf false then some { n := 1, d := 0 }
    else if inf true then some { n := -1, d := 0 }
    else some (ts.foldl (fun acc t => match t.2 with
      | .fin .. => match ratOf t.2 with
        | some v => ratAdd acc (ratMul t.1 v)
        | none => acc
      | _ => acc) (ratInt 0))

/-- A sum rounded RNE to FP32. -/
def termWord (ts : List Term) : Word := match termSum ts with
  | none => 0x7FC00000
  | some r => ratFP32 r

/-- An FP32 code's value. -/
def v32 (w : Word) : FV := fmtFP32.value w.toNat

end Sys2Proof.Machine
end

