-- ==== Sys2Proof/Machine/Reports.lean ====
section
/-! DEFINITION. Configuration words as they are kept (R15, R16), partitions, and the records that units hand to the
management plane: trace records, event records, fault reports and notices (R284, R291 to R293, R315). -/

namespace Sys2Proof.Machine

/-! ### Configuration words -/

/-- A configuration address (R15). -/
def cfgAddr (pos off : Nat) : Nat := pos * 67108864 + off

/-- The value that a register kept in `cfg` has at reset (Tables OUT-4, OUT-7, REND-1). -/
def cfgReset (addr : Nat) : Word :=
  if addr = 0x390 then 0x14
  else if 0x2000 ≤ addr && addr < 0x4000 then 0xFFFFFFFF
  else if 0x4000 ≤ addr && addr < 0x5800 && addr % 256 = 0 then 0x7D0
  else if 0x4000 ≤ addr && addr < 0x5800 && addr % 256 = 0xC0 then 0x14
  else 0

/-- The stored value of a configuration register. -/
def cfgGet (s : State) (addr : Nat) : Word := (tabFind s.cfg addr).getD (cfgReset addr)

/-- A configuration register takes a value; its reset value is not listed. -/
def cfgSet (s : State) (addr : Nat) (v : Word) : State :=
  { s with cfg := if v = cfgReset addr then tabDel s.cfg addr else tabPut s.cfg addr v }

/-- A partition's record. -/
def partOf (s : State) (p : Nat) : Partition := (tabFind s.parts p).getD newPartition

/-- Changes a partition's record. -/
def modPart (s : State) (p : Nat) (f : Partition → Partition) : State := { s with parts := tabPut s.parts p (f (partOf s p)) }

/-! ### Survey counters (R313, R314) -/

/-- The bin in which a count falls now. -/
def surveyBin (s : State) : Nat := max s.survey.opened ((s.time.now + 255) / 256)

/-- A count joins the others. -/
def addCount (x : SurveyCount) : List SurveyCount → List SurveyCount
  | [] => [x]
  | y :: rest =>
    if y.bin = x.bin && y.part = x.part && y.crew = x.crew && y.core = x.core && y.ctr = x.ctr then { y with n := y.n + x.n } :: rest
    else y :: addCount x rest

/-- A counter that belongs to no crew rises by `n`. -/
def countPart (s : State) (part core ctr n : Nat) : State :=
  if n = 0 then s else
  { s with survey := { s.survey with counts := addCount { bin := surveyBin s, part, crew := 0, core, ctr, n } s.survey.counts } }

/-- A counter of a crew rises by `n` on a core; the crew's counts follow it (R314). -/
def countCrew (s : State) (ck core ctr n : Nat) : State :=
  match crewOf s ck with
  | none => s
  | some c =>
    if n = 0 then s else
    { s with survey := { s.survey with
        counts := addCount { bin := surveyBin s, part := c.part, crew := ck, core, ctr, n } s.survey.counts,
        who := tabPut s.survey.who ck (c.part, c.shiftId, c.x, c.y, c.z) } }

/-- Where survey counts of a die that belong to none of its cores are kept (R314). -/
def dieCounts (pos : Nat) : Nat := 512 + pos

/-- A crew's time saved, or a die's time out of service, ends: the interval is not complete (Table OUT-11). -/
def markInc (s : State) (key : Nat) : State :=
  { s with survey := { s.survey with inc := setIns' (surveyBin s, key) s.survey.inc } }
where
  /-- Adds a mark once. -/
  setIns' (x : Nat × Nat) (l : List (Nat × Nat)) : List (Nat × Nat) := if l.contains x then l else x :: l

/-! ### Records -/

/-- A record enters the management plane. -/
def report (s : State) (ring : Nat) (bytes : List Byte) : State := { s with outbox := s.outbox ++ [{ ring, bytes }] }

/-- Zero bytes. -/
def zeros (n : Nat) : List Byte := List.replicate n 0#8

/-- A list of exactly `n` bytes. -/
def fitBytes (n : Nat) (bs : List Byte) : List Byte := (bs ++ zeros n).take n

/-- The offset of partition p's block (Table OUT-4). -/
def partOff (p : Nat) : Nat := 0x4000 + 0x100 * p

/-- The operator's rings at position 0 (R291, R303). -/
def eventRing : Nat := 0x300
/-- Fault ring of the operator. -/
def opFaultRing : Nat := 0x320
/-- Survey ring of the operator. -/
def opSurveyRing : Nat := 0x340
/-- Trace ring of the operator. -/
def opTraceRing : Nat := 0x360

/-- TRACE of the policy in force (Table OUT-9, R313). -/
def policyTrace (p : Partition) : Nat := match p.policy with
  | some bs => (bs.getD 8 0).toNat
  | none => 0

/-- DETAIL of the policy in force. -/
def policyDetail (p : Partition) : Nat := match p.policy with
  | some bs => (bs.getD 9 0).toNat
  | none => 0

/-- A trace record (R315). -/
def traceBytes (now kind pos core part bar : Nat) (cause : BitVec 8) (shiftId : Word) (x y z phase : Nat) : List Byte :=
  bytesOfNat 8 now ++ [BitVec.ofNat 8 kind, BitVec.ofNat 8 pos, BitVec.ofNat 8 core, BitVec.ofNat 8 part,
    BitVec.ofNat 8 bar, cause] ++ zeros 2 ++ bytesOfNat 4 shiftId.toNat ++ bytesOfNat 4 x ++ bytesOfNat 4 y ++
    bytesOfNat 4 z ++ bytesOfNat 4 phase ++ zeros 28

/-- Does the operator's trace ring receive a kind under TRACE (R315)? -/
def traceSeen (level kind : Nat) : Bool :=
  level == 3 || (level == 2 && (kind ≤ 7 || kind == 10)) || (level == 1 && kind ≤ 3)

/-- A trace record goes to the tenant's ring and, under TRACE and DETAIL, to the operator's. -/
def traceShift (s : State) (kind part : Nat) (shiftId : Word) : State :=
  let bs := traceBytes s.time.now kind 0 0 part 0 0 shiftId 0 0 0 0
  let s := report s (partOff part + 0xA0) bs
  if traceSeen (policyTrace (partOf s part)) kind then report s opTraceRing bs else s

/-- A trace record about a crew. -/
def traceCrew (s : State) (ck kind bar : Nat) (cause : BitVec 8) (phase : Nat) : State :=
  match crewOf s ck with
  | none => s
  | some c =>
    let rec' := fun cause => traceBytes s.time.now kind c.pos (c.core % 16) c.part bar cause c.shiftId c.x c.y c.z phase
    let s := report s (partOff c.part + 0xA0) (rec' cause)
    let p := partOf s c.part
    if traceSeen (policyTrace p) kind then report s opTraceRing (rec' (if policyDetail p = 0 then 0 else cause)) else s

/-- An event record (R292). -/
def eventBytes (now kind pos unit arg0 arg1 : Nat) : List Byte :=
  bytesOfNat 8 now ++ [BitVec.ofNat 8 kind, BitVec.ofNat 8 pos, BitVec.ofNat 8 unit, 0] ++ bytesOfNat 4 arg0 ++
    bytesOfNat 8 arg1 ++ zeros 8

/-- An event is raised to system software (R291, R292). -/
def raiseEvent (s : State) (kind pos unit arg0 arg1 : Nat) : State :=
  report s eventRing (eventBytes s.time.now kind pos unit arg0 arg1)

/-- A fault report (Table TRAP-2): fields above the DETAIL level read 0. -/
def faultBytes (now : Nat) (c : Crew) (cause : BitVec 8) (detail gang lane flags : Nat) (pc addr : DWord) (info : Word) :
    List Byte :=
  let phase := ((c.bars.head?).map (·.phase)).getD 0
  bytesOfNat 8 now ++ bytesOfNat 4 c.shiftId.toNat ++ bytesOfNat 4 c.x ++ bytesOfNat 4 c.y ++ bytesOfNat 4 c.z ++
    [cause, BitVec.ofNat 8 detail, BitVec.ofNat 8 c.pos, BitVec.ofNat 8 (c.core % 16), BitVec.ofNat 8 gang,
      BitVec.ofNat 8 lane, BitVec.ofNat 8 flags, 0] ++
    (if detail ≥ 1 then bytesOfNat 8 pc.toNat else zeros 8) ++ (if detail ≥ 2 then bytesOfNat 8 addr.toNat else zeros 8) ++
    (if detail ≥ 2 then bytesOfNat 4 info.toNat else zeros 4) ++ bytesOfNat 4 phase ++ zeros 8

/-- A fault report goes to the tenant's ring at DETAIL 2 and to the operator's at the policy's DETAIL (R284, R313). -/
def reportFault (s : State) (c : Crew) (cause : BitVec 8) (gang lane flags : Nat) (pc addr : DWord) (info : Word) : State :=
  let rec' := fun detail => faultBytes s.time.now c cause detail gang lane flags pc addr info
  let s := report s (partOff c.part + 0x20) (rec' 2)
  report s opFaultRing (rec' (policyDetail (partOf s c.part)))

end Sys2Proof.Machine
end

