-- ==== Sys2Proof/Machine/Raster.lean ====
section
/-! DEFINITION. The arithmetic of rendering: regions, edge functions, coverage, depth keys, interpolation and blends (R251,
R259, R260, R264, R266), and the pass registers as rendering reads them (Table REND-1). -/

namespace Sys2Proof.Machine

/-! ### Pass registers (Table REND-1) -/

/-- A pass register at position 0. -/
def passReg (s : State) (off : Nat) : Nat := (cfgGet s (cfgAddr 0 off)).toNat

/-- PART of the pass. -/
def passPart (s : State) : Nat := passReg s 0x1000 % 32

/-- VIS: visibility mode. -/
def passVis (s : State) : Bool := passReg s 0x1000 / 536870912 % 2 == 1

/-- ZTEST. -/
def passZtest (s : State) : Bool := passReg s 0x1000 / 268435456 % 2 == 1

/-- CH. -/
def passCh (s : State) : Nat := passReg s 0x1000 / 16777216 % 16

/-- WIDTH. -/
def passWidth (s : State) : Nat := passReg s 0x1004 % 65536

/-- HEIGHT. -/
def passHeight (s : State) : Nat := passReg s 0x1004 / 65536

/-- SEQ0. -/
def passSeq0 (s : State) : Nat := passReg s 0x1008

/-- SEQE − SEQ0, modulo 2^32. -/
def passLen (s : State) : Nat := (passReg s 0x100C + 4294967296 - passSeq0 s) % 4294967296

/-- The address of a pixel's visibility word (R249). -/
def visAddr (s : State) (x y : Nat) : DWord :=
  BitVec.ofNat 64 (passReg s 0x1020 % 32768 * 4294967296 + passReg s 0x101C / 8 * 8 + 8 * (x + passWidth s * y))

/-- The address of the pixel shift record. -/
def pixRecord (s : State) : DWord :=
  BitVec.ofNat 64 (passReg s 0x1028 % 32768 * 4294967296 + passReg s 0x1024 / 256 * 256)

/-- A render target as its registers give it: address, pitch, BLEND and TFMT; none if it is disabled. -/
structure Target where
  base : Nat
  pitch : Nat
  op : Nat
  fmt : Nat
  deriving DecidableEq, Repr

/-- Target `t` of the pass. -/
def targetOf (s : State) (t : Nat) : Option Target :=
  let a := 0x1040 + 16 * t
  let c := passReg s (a + 12)
  if c / 256 % 2 = 1 && c % 16 ≤ 4 then
    some { base := passReg s (a + 4) % 32768 * 4294967296 + passReg s a / 256 * 256, pitch := passReg s (a + 8),
           op := c / 16 % 16, fmt := c % 16 }
  else none

/-- Channels of a target format, and the bytes of one. -/
def targetChans (fmt : Nat) : Nat × Nat :=
  match fmt with
  | 0 => (4, 1)
  | 1 => (4, 2)
  | 2 => (4, 4)
  | 3 => (1, 4)
  | _ => (2, 2)

/-- The bytes of a pixel of a target. -/
def pixelBytes (fmt : Nat) : Nat := (targetChans fmt).1 * (targetChans fmt).2

/-- The address of a pixel of a target. -/
def pixelAddr (t : Target) (x y : Nat) : DWord := BitVec.ofNat 64 (t.base + t.pitch * y + pixelBytes t.fmt * x)

/-- The region of a pixel (R251). -/
def regionAt (x y : Nat) : Nat := x / 256 + 64 * (y / 256)

/-! ### Triangles (R259) -/

/-- E_ab(q). -/
def edgeFn (a b : Vertex) (qx qy : Int) : Int := (b.x - a.x) * (qy - a.y) - (b.y - a.y) * (qx - a.x)

/-- A top-left edge. -/
def topLeft (a b : Vertex) : Bool := b.y - a.y < 0 || (b.y == a.y && b.x - a.x > 0)

/-- The vertex indices of triangle `m` in the order of R259, unless its area is 0. -/
def triOrder (p : Packet) (m : Nat) : Option (Nat × Nat × Nat) :=
  match p.tris[m]? with
  | none => none
  | some (i, j, k) =>
    match p.verts[i]?, p.verts[j]?, p.verts[k]? with
    | some a, some b, some c =>
      let d := edgeFn a b c.x c.y
      if d = 0 then none else if d < 0 then some (i, k, j) else some (i, j, k)
    | _, _, _ => none

/-- A triangle set up: its vertices in order and D, which is positive. -/
structure TriSetup where
  a : Vertex
  b : Vertex
  c : Vertex
  d : Int
  deriving DecidableEq, Repr

/-- Sets a triangle up. -/
def triSetup (p : Packet) (m : Nat) : Option TriSetup :=
  match triOrder p m with
  | none => none
  | some (i, j, k) =>
    match p.verts[i]?, p.verts[j]?, p.verts[k]? with
    | some a, some b, some c => some { a, b, c, d := edgeFn a b c.x c.y }
    | _, _, _ => none

/-- E_12, E_20 and E_01 at the centre of pixel (x, y). -/
def weightsAt (t : TriSetup) (x y : Nat) : Int × Int × Int :=
  let qx : Int := 256 * (x : Int) + 128
  let qy : Int := 256 * (y : Int) + 128
  (edgeFn t.b t.c qx qy, edgeFn t.c t.a qx qy, edgeFn t.a t.b qx qy)

/-- Is a pixel centre covered? -/
def coveredAt (t : TriSetup) (x y : Nat) : Bool :=
  let w := weightsAt t x y
  (w.1 > 0 || (w.1 == 0 && topLeft t.b t.c)) && (w.2.1 > 0 || (w.2.1 == 0 && topLeft t.c t.a)) &&
    (w.2.2 > 0 || (w.2.2 == 0 && topLeft t.a t.b))

/-- The first and last pixel of [lo, lo + 256) ∩ [0, bound) whose centres can lie between two coordinates. -/
def pixelSpan (lo bound : Nat) (cs : List Int) : List Nat :=
  let least := cs.foldl min (cs.headD 0)
  let most := cs.foldl max (cs.headD 0)
  let a : Nat := max lo (least / 256).toNat
  let b : Nat := min (min (lo + 256) bound) ((most / 256).toNat + 1)
  (List.range (b - a)).map (a + ·)

/-- The columns and rows of a region that a triangle can touch. -/
def triSpan (s : State) (t : TriSetup) (region : Nat) : List Nat × List Nat :=
  (pixelSpan (region % 64 * 256) (passWidth s) [t.a.x, t.b.x, t.c.x],
    pixelSpan (region / 64 * 256) (passHeight s) [t.a.y, t.b.y, t.c.y])

/-- The pixels of a region that a triangle covers. -/
def coveredIn (s : State) (t : TriSetup) (region : Nat) : List (Nat × Nat) :=
  let sp := triSpan s t region
  sp.2.flatMap fun y => (sp.1.filter fun x => coveredAt t x y).map fun x => (x, y)

/-- The depth key of a pixel (R260). -/
def depthKey (t : TriSetup) (x y : Nat) : Nat :=
  let w := weightsAt t x y
  let ts := [(w.1, v32 (BitVec.ofNat 32 t.a.z)), (w.2.1, v32 (BitVec.ofNat 32 t.b.z)), (w.2.2, v32 (BitVec.ofNat 32 t.c.z))]
  let inf := fun neg => ts.any fun (e, v) => v == .inf (neg != decide (e < 0))
  if ts.any (fun (e, v) => v == .nan || (e == 0 && (v == .inf true || v == .inf false))) then 0
  else if inf true then 0
  else if inf false then 0x3F800000
  else match termSum (ts.map fun (e, v) => (ratInt e, v)) with
    | none => 0
    | some r =>
      let q := ratDiv r (ratInt t.d)
      if q.n ≤ 0 then 0 else if ratLt (ratInt 1) q then 0x3F800000 else ratRound fmtFP32 q

/-- The primitive ID (R260): `off` is n − SEQ0. -/
def primId (off m : Nat) : Nat := off % 33554432 * 128 + m

/-! ### Interpolation (R264) -/

/-- One component of an attribute at a pixel. A NaN or an infinity among the three gives the canonical NaN, unless all
three are one infinity (read as binding FLAT too, notes/assumptions). -/
def interpolate (t : TriSetup) (flat : Bool) (x y : Nat) (a b c : Word) : Word :=
  let fin := fun (w : Word) => match v32 w with
    | .fin .. => true
    | _ => false
  if !(fin a && fin b && fin c) then
    (if a = b && b = c && (v32 a == .inf true || v32 a == .inf false) then a else 0x7FC00000)
  else if flat then a
  else
    let w := weightsAt t x y
    match termSum [(ratInt w.1, v32 a), (ratInt w.2.1, v32 b), (ratInt w.2.2, v32 c)] with
    | none => 0x7FC00000
    | some r => ratFP32 (ratDiv r (ratInt t.d))

/-! ### Blends (R266) -/

/-- An exact value with a sign, as IEEE arithmetic has it: NaN, an infinity, or ± n ÷ d. -/
inductive XVal where
  | nan
  | inf (neg : Bool)
  | fin (neg : Bool) (n d : Nat)
  deriving DecidableEq, Repr

/-- The value of an FP code. -/
def xOf (f : Fmt) (x : Nat) : XVal :=
  match f.value x with
  | .nan => .nan
  | .inf n => .inf n
  | .fin n m e => if 0 ≤ e then .fin n (m * 2 ^ e.toNat) 1 else .fin n m (2 ^ (-e).toNat)

/-- Is a value a zero? -/
def xZero : XVal → Bool
  | .fin _ 0 _ => true
  | _ => false

/-- The sign of a value. -/
def xNeg : XVal → Bool
  | .nan => false
  | .inf n => n
  | .fin n _ _ => n

/-- Product. -/
def xMul (a b : XVal) : XVal :=
  match a, b with
  | .fin n1 m1 d1, .fin n2 m2 d2 => .fin (n1 != n2) (m1 * m2) (d1 * d2)
  | .nan, _ | _, .nan => .nan
  | a, b => if xZero a || xZero b then .nan else .inf (xNeg a != xNeg b)

/-- Sum; a cancellation gives +0. -/
def xAdd (a b : XVal) : XVal :=
  match a, b with
  | .nan, _ | _, .nan => .nan
  | .inf n1, .inf n2 => if n1 = n2 then .inf n1 else .nan
  | .inf n, _ | _, .inf n => .inf n
  | .fin n1 m1 d1, .fin n2 m2 d2 =>
    let x := m1 * d2
    let y := m2 * d1
    if n1 = n2 then .fin n1 (x + y) (d1 * d2)
    else if x = y then .fin false 0 1
    else if x > y then .fin n1 (x - y) (d1 * d2) else .fin n2 (y - x) (d1 * d2)

/-- 1 − a. -/
def xOneMinus (a : XVal) : XVal := match a with
  | .nan => .nan
  | .inf n => .inf (!n)
  | .fin n m d => xAdd (.fin false 1 1) (.fin (!n) m d)

/-- The blend of one channel: source, source alpha, destination. -/
def blendChan (op : Nat) (src alpha dst : XVal) : XVal :=
  if op = 1 then xAdd src dst
  else if op = 2 then xAdd (xMul src alpha) (xMul dst (xOneMinus alpha))
  else src

/-- A value rounded RNE to an FP format (R116, R117). -/
def xRound (f : Fmt) (v : XVal) : Nat := match v with
  | .nan => f.nan
  | .inf n => f.inf n
  | .fin n 0 _ => f.zero n
  | .fin n m d => ratRound f { n := if n then -(m : Int) else m, d }

/-- A value rounded to a UNORM channel; R266 states no result for a NaN, which takes the free byte. -/
def xUnorm (free : Nat) (v : XVal) : Nat := match v with
  | .nan => free
  | .inf n => if n then 0 else 255
  | .fin n m d =>
    if n || m = 0 then 0 else if d ≤ m then 255
    else
      let q := 255 * m / d
      let r := 255 * m % d
      if 2 * r > d || (2 * r = d && q % 2 = 1) then q + 1 else q

/-- The blended bytes of a pixel: the source's four values, the bytes there, and free bytes for NaN results. -/
def blendBytes (t : Target) (src : List Word) (old : List Byte) (free : Nat → Nat) : List Byte :=
  let alpha := xOf fmtFP32 (src.getD 3 0x3F800000).toNat
  let sz := (targetChans t.fmt).2
  (List.range (targetChans t.fmt).1).flatMap fun k =>
    let code := natOfBytes ((old.drop (sz * k)).take sz)
    let f := if sz = 2 then fmtFP16 else fmtFP32
    let v := fun dst => blendChan t.op (xOf fmtFP32 (src.getD k 0).toNat) alpha dst
    if sz = 1 then bytesOfNat 1 (xUnorm (free k) (v (.fin false code 255)))
    else bytesOfNat sz (xRound f (v (xOf f code)))

end Sys2Proof.Machine
end

