-- ==== Sys2Proof/Machine/Barriers.lean ====
section
/-! DEFINITION. The barrier unit of a crew and the membership of its gangs (R54 to R60, R221 to R226), and the end of a
gang (R43, R57, R58). -/

namespace Sys2Proof.Machine

/-! ### One barrier -/

/-- Members expected in phase `q` (R56). -/
def memberExpect (ms : List Member) (q : Nat) : Nat :=
  (ms.filter fun m => m.f ≤ q && (match m.dropped with
    | some d => q < d
    | none => true)).length

/-- EXPECT of the current phase. -/
def Barrier.expectNow (b : Barrier) : Nat := if b.member then memberExpect b.mems b.phase else b.expect

/-- The earliest phase at or after max(P, F) in which a member has not arrived (R56, R57). -/
def creditPhase (p : Nat) (m : Member) : Nat :=
  let q := max p m.f
  if m.arrived.contains q then (if m.arrived.contains (q + 1) then q + 2 else q + 1) else q

/-- Bytes declared (R225): above 2^39 − 1 they are refused and ERR becomes 1. -/
def Barrier.declare (b : Barrier) (n : Nat) : Barrier :=
  if b.bytes + n > 2 ^ 39 - 1 then { b with err := if b.err = 0 then 1 else b.err } else { b with bytes := b.bytes + n }

/-- An engine credit (R225): an underflow leaves 0 and sets ERR to 1. -/
def Barrier.credit (b : Barrier) (n : Nat) : Barrier :=
  if n > b.bytes then { b with bytes := 0, err := if b.err = 0 then 1 else b.err } else { b with bytes := b.bytes - n }

/-- Is the current phase complete (R222)? -/
def Barrier.full (b : Barrier) : Bool := b.arrived == b.expectNow && b.bytes == 0 && b.err == 0

/-- The next phase (R56, R222): ARRIVED takes the arrivals already credited to it, and their bytes are declared. -/
def Barrier.advance (b : Barrier) : Barrier :=
  let p := b.phase + 1
  let ms : List Member := b.mems.map fun m => { m with arrived := m.arrived.filter (p ≤ ·) }
  let n := if b.member then (ms.filter fun m => m.arrived.contains p).length else 0
  let b' : Barrier := { b with phase := p, mems := ms, arrived := n }
  b.waits.foldl (fun (c : Barrier) (a : Arrival) => if a.credited = some p then c.declare (a.bytes.getD 0) else c) b'

/-- Is phase `p`, a 32-bit value, complete (R226)? -/
def phaseDone (b : Barrier) (p : Word) : Bool :=
  let d := (BitVec.ofNat 32 b.phase - p).toNat
  1 ≤ d && d < 2 ^ 31

/-- A barrier at crew start (Table TENS-7). -/
def newBarrier (expect : Nat) (member : Bool) (gangs : List Nat) : Barrier :=
  { phase := 0, expect, arrived := 0, bytes := 0, member, err := 0,
    mems := if member then gangs.map fun g => { gang := g, f := 0, arrived := [], dropped := none } else [],
    waits := [] }

/-! ### Barriers of a crew -/

/-- Barrier `k` of a crew. -/
def barOf (s : State) (ck k : Nat) : Option Barrier := (crewOf s ck).bind fun c => c.bars[k]?

/-- Changes barrier `k` of a crew. -/
def modBar (s : State) (ck k : Nat) (f : Barrier → Barrier) : State :=
  modCrew s ck fun c => { c with bars := c.bars.modify k f }

/-- The lanes of an arrival receive its phase and are released (R224). -/
def grantArrival (s : State) (a : Arrival) (phase : Nat) : State :=
  match gangOf s a.gang with
  | none => s
  | some g =>
    let ls := a.lanes.filter fun l => match (tabFind g.fibres l).bind (·.held) with
      | some h => h.why == .bararv && h.seq == a.seq
      | none => false
    let ws := match a.dst with
      | none => []
      | some d => (if d.s then ls.take 1 else ls).map fun l => oneWrite d l (BitVec.ofNat 32 phase)
    let s := setGang s a.gang (writeRegs (cycOf s g.core) a.seq 4 ls g ws)
    releaseLanes s a.gang ls

/-- Gangs of a crew all of whose fibres are held at ATTACH (R55). -/
def heldAttaching (s : State) (ck : Nat) : List Nat :=
  (s.gangs.filter fun (k, g) => crewOfGang k == ck && g.attaching && !g.fibres.isEmpty &&
    g.fibres.all fun (_, f) => match f.held with
      | some { why := .attach _, .. } => true
      | _ => false).map (·.1)

/-- A gang becomes a member of a member-counted barrier (R55). -/
def joinBarrier (gk : Nat) (b : Barrier) : Barrier :=
  if b.member then
    { b with mems := b.mems ++
        [{ gang := gk, f := if b.arrived = 0 then b.phase else b.phase + 1, arrived := [], dropped := none }] }
  else b

/-- An attaching gang becomes a member, receives the phase, and its fibres are released (R55). -/
def attachGang (phase : Nat) (s : State) (gk : Nat) : State :=
  let ck := crewOfGang gk
  let s := modCrew s ck fun c => { c with bars := c.bars.map (joinBarrier gk), crewN := c.crewN + 1 }
  match gangOf s gk with
  | none => s
  | some g =>
    let ls := tabKeys g.fibres
    let held := ls.filterMap fun l => (tabFind g.fibres l).bind (·.held)
    let seq := (held.map (·.seq)).foldl max 0
    let d := held.findSome? fun h => match h.why with
      | .attach d => some d
      | _ => none
    let ws := match d with
      | none => []
      | some d => (if d.s then ls.take 1 else ls).map fun l => oneWrite d l (BitVec.ofNat 32 phase)
    let g := writeRegs (cycOf s g.core) seq 4 ls g ws
    releaseLanes (setGang s gk { g with attaching := false }) gk ls

/-- A phase change ends a debug session's STEP on the barrier (R317). -/
def stepStop (s : State) (ck k : Nat) : State :=
  match (crewOf s ck).bind (·.stepBar) with
  | some (b, _) => if b = k then modCrew s ck fun c => askHalt (.debug 0 0 2 0) { c with stepBar := none } else s
  | none => s

/-- Do held gangs of a crew attach at a phase change? Not while it halts or stands stopped (R61, R317). -/
def crewAttaches (s : State) (ck : Nat) : Bool := match crewOf s ck with
  | some c => c.phase == .running
  | none => false

/-- Phase changes that a barrier makes at once: at most `fuel`, one in each cycle of the unit. A change of barrier 0 with
gangs held at ATTACH waits for their attachment. -/
def barPhases : Nat → State → Nat → Nat → State
  | 0, s, _, _ => s
  | fuel + 1, s, ck, k =>
    match barOf s ck k with
    | none => s
    | some b =>
      if b.full then
        let now := b.advance
        -- .X arrivals whose phase has become current are released
        let rel := b.waits.filter fun a => a.credited == some now.phase
        let att := if k = 0 && crewAttaches s ck then heldAttaching s ck else []
        let s := modBar s ck k fun _ => { now with waits := now.waits.filter fun a => a.credited != some now.phase }
        let s := stepStop (traceCrew s ck 8 k 0 now.phase) ck k
        let s := rel.foldl (fun s a => grantArrival s a now.phase) s
        if !att.isEmpty then modCrew s ck fun c => { c with attachDue := some (now.phase, att) }
        -- early arrivals may complete the new phase in the next cycle
        else if now.arrived = 0 then s
        else barPhases fuel s ck k
      else s

/-- The gangs that were held at ATTACH at a phase change of barrier 0 attach; the barrier is checked again (R55, R59). -/
def flushAttach (s : State) (ck : Nat) : State :=
  match (crewOf s ck).bind (·.attachDue) with
  | none => s
  | some (p, gs) =>
    let s := modCrew s ck fun c => { c with attachDue := none }
    let s := gs.foldl (attachGang p) s
    match barOf s ck 0 with
    | some b => if b.arrived = 0 then s else barPhases 64 s ck 0
    | none => s

/-- Is some fibre of a gang held at ATTACH? -/
def atAttach (g : Gang) : Bool := g.fibres.any fun (_, f) => match f.held with
  | some { why := .attach _, .. } => true
  | _ => false

/-- Gangs held at ATTACH end without becoming members (R61). -/
def endAttaching (s : State) (ck : Nat) : State :=
  { s with gangs := s.gangs.filter fun (k, g) => !(crewOfGang k == ck && g.attaching && atAttach g) }

/-- A pre-emption is asked for: from now on the crew issues nothing, and its gangs held at ATTACH, but for those whose phase
change has come, end (R61, R286). -/
def beginPreempt (s : State) (ck : Nat) : State := modCrew (endAttaching (flushAttach s ck) ck) ck (askHalt .preempt)

/-- A held fibre takes a trap at its word at the instant the cause arises (R279); its lane counts no more. -/
def trapHeld (s : State) (gk l : Nat) (t : TrapInfo) : State :=
  match (gangOf s gk).bind fun g => tabFind g.fibres l with
  | none => s
  | some fb =>
    match fb.held with
    | none => s
    | some h =>
      let s := modGang s gk fun g => modFibreG (ctrDone (cycOf s g.core) g h.gid 1) l fun f => { f with held := none, bun := 0 }
      takeTrap s gk l fb.pc fb.pc t

/-- The trap that gives a fibre its crew's copy fault record (R219). -/
def cfrTrap (s : State) (ck : Nat) (cause : BitVec 8) (bar : Nat) : TrapInfo :=
  match crewOf s ck with
  | none => trapOf cause
  | some c =>
    let err := ((c.bars[bar]?).map (·.err)).getD 0
    { cause, addr := c.cfr.addr, next := false,
      info := BitVec.ofNat 32 (c.cfr.handle * 65536 + c.cfr.cause.toNat * 256 + err * 32 + bar) }

/-- Lanes held at BARWAIT on a barrier for a phase that is not complete. -/
def waitingAt (s : State) (ck k : Nat) (b : Barrier) : List (Nat × Nat) :=
  s.gangs.flatMap fun (gk, g) =>
    if crewOfGang gk = ck then
      g.fibres.filterMap fun (l, f) => match f.held with
        | some { why := .barwait j p, .. } => if j = k && !phaseDone b p then some (gk, l) else none
        | _ => none
    else []

/-- With ERR set, lanes held at BARWAIT for a phase that is not complete trap with cause 0x10 at once (R226, R279). -/
def barErrHeld (s : State) (ck k : Nat) : State :=
  match barOf s ck k with
  | none => s
  | some b =>
    if b.err = 0 then s
    else (waitingAt s ck k b).foldl (fun s x => trapHeld s x.1 x.2 (cfrTrap s ck 0x10 k)) s

/-- The completion check of step 3 of R59 on a barrier. -/
def barCheck (s : State) (ck k : Nat) : State := barErrHeld (barPhases 64 s ck k) ck k

/-- Bytes credited to a barrier by an engine (R225). -/
def creditBytes (s : State) (ck k n : Nat) : State := barCheck (modBar (flushAttach s ck) ck k (Barrier.credit · n)) ck k

/-- A barrier's ERR takes a value if it holds none (R218, R219). -/
def barError (s : State) (ck k e : Nat) : State :=
  barErrHeld (modBar s ck k fun b => { b with err := if b.err = 0 then e else b.err }) ck k

/-- A gang's expectations are dropped on a member-counted barrier (R57). -/
def Barrier.dropGang (gk : Nat) (b : Barrier) : Barrier :=
  { b with mems := b.mems.map fun m =>
      if m.gang = gk && m.dropped.isNone then { m with dropped := some (creditPhase b.phase m) } else m }

/-- The drops of a gang on every barrier of its crew, and the phases they complete (R57 to R59). -/
def dropGang (s : State) (gk : Nat) : State :=
  let ck := crewOfGang gk
  let s := flushAttach s ck
  let s := modCrew s ck fun c => { c with bars := c.bars.map fun b => if b.member then b.dropGang gk else b }
  let n := match crewOf s ck with
    | some c => c.bars.length
    | none => 0
  (List.range n).foldl (fun s k => match barOf s ck k with
    | some b => if b.member then barCheck s ck k else s
    | none => s) s

/-! ### The end of a gang -/

/-- Crew members that remain. -/
def memberGangs (s : State) (ck : Nat) : List Nat :=
  (s.gangs.filter fun (k, g) => crewOfGang k == ck && !g.attaching).map (·.1)

/-- Fibres that end leave their slots, and what they have issued goes on without them (R43): it stands from then on under
numbers that no fibre bears, so that its order is kept and none of its results reaches a new fibre of the slot. -/
def leaveSlots (s : State) (gk : Nat) (p : Nat → Bool) : State :=
  let gone := fun l => if l < 64 && p l then l + 64 * (s.nextId + 1) else l
  { s with
    accs := tabMap s.accs fun _ a => if a.gang = gk then { a with lanes := a.lanes.map gone, also := a.also.map gone } else a,
    copies := tabMap s.copies fun _ cp => if cp.gang = gk then { cp with lane := gone cp.lane } else cp,
    own := tabMap s.own fun _ w => { w with waits := w.waits.map fun x => if x.1 = gk then (x.1, gone x.2.1, x.2.2) else x },
    engines := tabMap s.engines fun _ e => { e with queue := e.queue.map fun q =>
      if q.gang = gk then { q with lanes := q.lanes.map gone } else q },
    rend := { s.rend with
      pkts := tabMap s.rend.pkts fun _ p => if p.gang = gk then { p with lanes := p.lanes.map gone } else p,
      frags := s.rend.frags.map fun f => if f.gang = gk then { f with lane := gone f.lane } else f } }

/-- A gang ends (R43, R57, R58): its expectations drop, SR.CREWN and SR.SHRINK fall; with an elastic crew's last member,
gangs held at ATTACH end too. -/
def endGang (s : State) (gk : Nat) : State :=
  let ck := crewOfGang gk
  match gangOf s gk with
  | none => s
  | some g =>
    let s := if g.attaching then s else dropGang s gk
    let s := leaveSlots { s with gangs := tabDel s.gangs gk } gk fun _ => true
    let s := { s with nextId := s.nextId + 1 }
    let s := if g.attaching then s else
      modCrew s ck fun c => { c with crewN := c.crewN - 1, shrink := c.shrink - 1 }
    if (memberGangs s ck).isEmpty then
      { s with gangs := s.gangs.filter fun (k, g) => !(crewOfGang k == ck && g.attaching) }
    else s

/-- Does no counter of the gang stand above 0? -/
def countersZero (s : State) (g : Gang) : Bool := (List.range 6).all fun c => ctrVal (cycOf s g.core) g c == 0

/-- A gang all of whose slots are free and whose counters have reached zero ends (R43). -/
def tryEndGang (s : State) (gk : Nat) : State :=
  match gangOf s gk with
  | none => s
  | some g => if g.fibres.isEmpty && countersZero s g then endGang s gk else s

/-- A lane or part of an issue completes, and with it perhaps the gang. -/
def complete (s : State) (gk gid n : Nat) : State := tryEndGang (ctrDoneS s gk gid n) gk

/-! ### Lane masks (R47, R48, R367) -/

/-- Lane mask `k`. -/
def maskOf (g : Gang) (k : Nat) : DWord := spGet 0#64 g.kmasks k

/-- The same-cycle updates of mask `k`. -/
def klogOf (cyc : Nat) (g : Gang) (k : Nat) : DWord × DWord :=
  match tabFind g.klog k with
  | some (n, set, clr) => if n = cyc then (set, clr) else (0, 0)
  | none => (0, 0)

/-- Bits of mask `k` are set and cleared by JOIN, LEAVE or END. -/
def maskUpdate (cyc : Nat) (k : Nat) (set clr : DWord) (g : Gang) : Gang :=
  let o := klogOf cyc g k
  { g with kmasks := spSet 0#64 g.kmasks k ((maskOf g k ||| set) &&& ~~~clr),
           klog := tabPut g.klog k (cyc, (o.1 ||| set) &&& ~~~clr, (o.2 &&& ~~~set) ||| clr) }

/-- Lanes below GW as a mask. -/
def gwMask (g : Gang) : DWord := BitVec.ofNat 64 (2 ^ g.gw - 1)

/-- A KMOV writes half of mask `k`; JOIN, LEAVE and END updates of the same cycle follow it. -/
def maskWrite (cyc : Nat) (k : Nat) (hi : Bool) (v : Word) (g : Gang) : Gang :=
  let m := maskOf g k
  let m : DWord := if hi then v ++ m.truncate 32 else m.extractLsb' 32 32 ++ v
  let o := klogOf cyc g k
  { g with kmasks := spSet 0#64 g.kmasks k (((m &&& gwMask g) ||| o.1) &&& ~~~o.2) }

/-- A lane belongs to no lane mask (R42, R43). -/
def leaveMasks (cyc : Nat) (g : Gang) (l : Nat) : Gang :=
  (List.range 12).foldl (fun g k => if (maskOf g k).getLsbD l then maskUpdate cyc k 0 (1#64 <<< l) g else g) g

/-- A fibre is removed from every lane mask and its slot is freed (R43). -/
def endFibreG (cyc : Nat) (g : Gang) (l : Nat) : Gang :=
  let g := leaveMasks cyc g l
  -- words that it would have replayed hold no counter any more (R287)
  let g := ((tabFind g.fibres l).map fun fb => fb.owed.foldl (fun g x => ctrDone cyc g x.2 1) g).getD g
  { g with fibres := tabDel g.fibres l }

/-- A fibre ends: its stores and engine operations still complete, and results of its outstanding loads are discarded (R43). -/
def endFibreS (s : State) (gk l : Nat) : State :=
  leaveSlots (modGang s gk fun g => endFibreG (cycOf s g.core) g l) gk (· == l)

end Sys2Proof.Machine
end

