-- ==== Sys2Proof/Machine/Memory.lean ====
section
/-! DEFINITION. The address map and its owners (R149 to R153, R301, R306, R432, R433), the bytes of device and host memory
as their homes apply accesses (R151, R153, R168 to R171, R187, R197), and translation (R161 to R166). -/

namespace Sys2Proof.Machine

/-! ### What backs an address (R150) -/

/-- A memory die that has tripped or is isolated (R35). -/
def dieLost (d : Die) : Bool := d.kind == .memory && (d.tripped || d.isolated)

/-- The channel groups of a die whose eight channels were in service at the start; none of a die that was out of service whole
(R23, R24, R150). -/
def dieGroups (pos : Nat) (d : Die) : List (Nat × Nat) :=
  if d.kind = .memory && d.whole then
    (List.range 3).filterMap fun g => if d.chan.extractLsb' (8 * g) 8 = 0xFF#8 then some (pos, g) else none
  else []

/-- The channel groups, in the order of their addresses: position and group within the die. -/
def chanGroups (s : State) : List (Nat × Nat) := s.dies.flatMap fun (pos, d) => dieGroups pos d

/-- The channel group that holds a device-memory address. -/
def groupAt (s : State) (pa : Nat) : Option (Nat × Nat) :=
  if pa < 0x400000000000 then (chanGroups s)[pa / 34359738368]? else none

/-- The owner that an ownership register names (Table OUT-3). DESIGN CHOICE: a PART of 24 to 31, which the table does not give,
owns the granule like any other number (notes/assumptions/85.md). -/
def ownerWord (w : Word) : Option Nat := if w.getLsbD 31 then some (w.toNat % 32) else none

/-- The partition that owns a channel group (R301). -/
def groupOwner (s : State) (g : Nat × Nat) : Option Nat := ownerWord (cfgGet s (cfgAddr g.1 (0x2A0 + 4 * g.2)))

/-- The LLC slices in service that a partition owns on a die, by position × 32 + slice (R24, R148, R301). -/
def dieSlices (s : State) (part : Nat) (pos : Nat) (d : Die) : List Nat :=
  if d.kind = .memory && d.whole then
    (List.range 32).filterMap fun i =>
      if d.health.getLsbD i && ownerWord (cfgGet s (cfgAddr pos (0x280 + 4 * (i / 4)))) = some part then some (pos * 32 + i) else none
  else []

/-- The LLC slices over which a partition's lines are hashed (R148). A slice that is lost while the device runs stays among them
(R35). -/
def llcSlices (s : State) (part : Nat) : List Nat := s.dies.flatMap fun (pos, d) => dieSlices s part pos d

/-- The slice of a list that is home to a line. -/
def pickHome : List Nat → Nat → Option Nat
  | [], _ => none
  | a :: l, line => (a :: l)[Config.homeHash (a :: l) line % (l.length + 1)]?

/-- The home of a line of device memory (R148). -/
def homeOf (s : State) (line : Nat) : Option Nat :=
  match groupAt s (128 * line) with
  | some g => match groupOwner s g with
    | some p => pickHome (llcSlices s p) line
    | none => none
  | none => none

/-- A position whose memory die is lost. -/
def posLost (s : State) (pos : Nat) : Bool := match tabFind s.dies pos with
  | some d => dieLost d
  | none => false

/-- Has a memory die been lost since the start? -/
def someLost (s : State) : Bool := s.dies.any fun (_, d) => dieLost d

/-- Does an access to an address reach a slice or a channel group of a lost die (R35)? -/
def addrLost (s : State) (pa : Nat) : Bool :=
  someLost s && match groupAt s pa with
  | some g => posLost s g.1 || (match homeOf s (pa / 128) with
    | some h => posLost s (h / 32)
    | none => false)
  | none => false

/-- The reading of a die's base tile (R12, R167). -/
def dieReading (s : State) (pos : Nat) : Nat := match tabFind s.dies pos with
  | some d => s.time.now + d.skew - epsilon
  | none => s.time.now

/-- The reading of the home of an address: that of its slice's base tile (R167). -/
def homeReading (s : State) (pa : Nat) : Nat := match homeOf s (pa / 128) with
  | some h => dieReading s (h / 32)
  | none => s.time.now

/-- Has a line a home: its group is in service and owned (R149)? -/
def hasHome (s : State) (pa : Nat) : Bool :=
  match groupAt s pa with
  | some g => (groupOwner s g).isSome && !addrLost s pa
  | none => false

/-- Host memory (Table MEM-4). -/
def isHost (pa : Nat) : Bool := 0x800000000000 ≤ pa && pa < 0xC00000000000

/-- Peer windows (Table MEM-4). -/
def isPeer (pa : Nat) : Bool := 0x400000000000 ≤ pa && pa < 0x800000000000

/-- The host bus address of an address in the host range (R432). -/
def hostBus (pa : Nat) : Nat := pa - 0x800000000000

/-- A host line reached through CXL.cache (R197). -/
def isCxl (pa : Nat) : Bool := isHost pa && Config.cxlLine (hostBus pa / 64)

/-- Does an enabled virtual function name the partition (R303, R433)? -/
def vfNames (s : State) (part : Nat) : Bool :=
  (List.range 192).any fun v =>
    let w := cfgGet s (0x6000 + 4 * v)
    w.getLsbD 31 && w.toNat % 32 == part

/-- An outbound peer window (Table OUT-6): port, partition, remote address of `pa`, if window `w` holds it. -/
def peerWindowAt (s : State) (base : Nat) (pa w : Nat) : Option (Nat × Nat × Nat) :=
  let a := base + 0x20 * w
  let lo := (cfgGet s a).toNat % 131072 * 2147483648
  let size := (cfgGet s (a + 4)).toNat % 131072 * 2147483648
  let ctl := cfgGet s (a + 12)
  if ctl.getLsbD 31 && lo ≤ pa && pa < lo + size then
    some (ctl.toNat / 256 % 16, ctl.toNat % 32, (cfgGet s (a + 8)).toNat * 2147483648 + (pa - lo))
  else none

/-- The first enabled outbound window that holds an address (R306). -/
def outWindow (s : State) (pa : Nat) : Option (Nat × Nat × Nat) := (List.range 32).findSome? (peerWindowAt s 0x700 pa)

/-- A peer port. -/
def peerOf (s : State) (port : Nat) : Peer := (tabFind s.peers port).getD { state := 0, refused := 0 }

/-- Why partition `part` may not reach an address: cause and detail (R163, R306, R307, R433). -/
def paFault (s : State) (part : Nat) (svc : Bool) (pa : Nat) : Option (BitVec 8 × Nat) :=
  if isHost pa then (if svc || vfNames s part then none else some (0x0A, 0))
  else if isPeer pa then
    match outWindow s pa with
    | none => some (0x09, 2)
    | some (port, p, _) => if (peerOf s port).state = 3 then some (0x09, 2) else if p ≠ part then some (0x0A, 0) else none
  else
    match groupAt s pa with
    | none => some (0x09, 2)
    | some g => if groupOwner s g = some part then none else some (0x0A, 0)

/-! ### Bytes at their homes -/

/-- Bytes of device memory. -/
def memRead (s : State) (pa n : Nat) : List Byte := spRange 0#8 s.mem pa n

/-- The sectors that an access of `n` bytes meets. -/
def sectorsOf (pa n : Nat) : List Nat := (List.range ((pa + n - 1) / 32 - pa / 32 + 1)).map (pa / 32 + ·)

/-- Does an access read a poisoned sector (R151)? -/
def readsPoison (s : State) (pa n : Nat) : Bool := n != 0 && (sectorsOf pa n).any s.poison.contains

/-- Does the write cover the sector whole? -/
def covers (pa n sec : Nat) : Bool := pa ≤ 32 * sec && 32 * sec + 32 ≤ pa + n

/-- Does a write cover a poisoned sector in part only (R151)? -/
def partlyPoison (s : State) (pa n : Nat) : Bool :=
  n != 0 && (sectorsOf pa n).any fun sec => s.poison.contains sec && !covers pa n sec

/-- One step of the CRC of R153, for one byte. -/
def crcByte (c : DWord) (b : Byte) : DWord :=
  (List.range 8).foldl (fun c _ => if c.getLsbD 63 then (c <<< 1) ^^^ 0x42F0E1EBA9EA3693#64 else c <<< 1)
    (c ^^^ (b.zeroExtend 64 <<< 56))

/-- The CRC of a list of bytes (R153). -/
def crcOf (bs : List Byte) : DWord := bs.foldl crcByte 0

/-- The CRC of the bytes stored in a 4 KiB block. -/
def crcStored (s : State) (block : Nat) : DWord := crcOf (memRead s (4096 * block) 4096)

/-- Attributes of the frame that holds an address (R152): those of device memory only. -/
def frameOf (s : State) (pa : Nat) : Frame :=
  if pa < 0x400000000000 then (tabFind s.frames (pa / 524288)).getD { packed := false, chk := false }
  else { packed := false, chk := false }

/-- The CRC kept for a block of a CHK frame. -/
def crcKept (s : State) (block : Nat) : DWord := spGet 0#64 s.crcs block

/-- The blocks that a write meets in CHK frames. -/
def chkBlocks (s : State) (pa n : Nat) : List Nat :=
  ((List.range ((pa + n - 1) / 4096 - pa / 4096 + 1)).map (pa / 4096 + ·)).filter fun b => (frameOf s (4096 * b)).chk

/-- The CRCs of a frame's 128 blocks are computed from the stored bytes, or forgotten (R152, R153). -/
def frameCrcs (s : State) (f : Nat) (on : Bool) : State :=
  (List.range 128).foldl (fun s i =>
    let b := 128 * f + i
    { s with crcs := spSet 0#64 s.crcs b (if on then crcStored s b else 0) }) s

/-- A change of a frame's attributes is done: they take their new values (R152). -/
def frameDone (s : State) : State :=
  match s.fattr with
  | none => s
  | some (f, new) =>
    let old := frameOf s (524288 * f)
    let s := if new.chk = old.chk then s else frameCrcs s f new.chk
    { s with fattr := none, frames := spSet { packed := false, chk := false } s.frames f new }

/-- An access to a frame whose attributes are being changed stalls until the change is done (R152): the change, which takes a time
that is left open, is done before the access is performed. -/
def frameFirst (s : State) (pa : Nat) : State :=
  match s.fattr with
  | some (f, _) => if pa / 524288 = f then frameDone s else s
  | none => s

/-- The kept CRCs follow a write from the bytes replaced and the bytes written, so that a mismatch stays one (R153). -/
def crcFollow (before after : State) (blocks : List Nat) : State :=
  blocks.foldl (fun s b =>
    { s with crcs := spSet 0#64 s.crcs b (crcKept s b ^^^ crcStored before b ^^^ crcStored after b) }) after

/-- Sleeping monitors of the lines that a write meets wake (R187). -/
def wakeLines (s : State) (pa n : Nat) : State :=
  { s with cache := { s.cache with mons := tabMap s.cache.mons fun _ m =>
      if pa / 128 ≤ m.pa / 128 && m.pa / 128 ≤ (pa + n - 1) / 128 then { m with woken := true } else m },
           sched := { s.sched with shifts := tabMap s.sched.shifts fun _ (x : Shift) =>
      if pa / 128 ≤ x.depPa / 128 && x.depPa / 128 ≤ (pa + n - 1) / 128 then { x with depWake := true } else x } }

/-- Bytes of device memory are replaced: the CRCs follow, and the poison of wholly written sectors is cleared (R151, R153). -/
def putBytes (s : State) (pa : Nat) (bs : List Byte) : State :=
  let n := bs.length
  let after := { s with mem := spPutList 0#8 s.mem pa bs, poison := s.poison.filter fun sec => !covers pa n sec }
  crcFollow s after (chkBlocks s pa n)

/-- A write applied at its home: the bytes, the CRCs, the poison of wholly written sectors, the monitors. -/
def homeWrite (s : State) (pa : Nat) (bs : List Byte) : State :=
  if bs.isEmpty then s else wakeLines (putBytes s pa bs) pa bs.length

/-- HORIZON of the slice that is home to a line (R168). -/
def horizonOf (s : State) (line : Nat) : Nat := match homeOf s line with
  | some h => spGet 0 s.cache.horizon h
  | none => spGet 0 s.cache.horizon 0

/-- A directory record, or what an absent one means (R168). -/
def dirOf (s : State) (line : Nat) : DirRec := match tabFind s.cache.dir line with
  | some r => r
  | none => { emax := horizonOf s line, holder := none, was := [] }

/-- Puts a directory record. -/
def setDir (s : State) (line : Nat) (r : DirRec) : State := { s with cache := { s.cache with dir := tabPut s.cache.dir line r } }

/-- The settle time of a store applied now (R170): its home time, the home's reading, or the largest EMAX of the lines it
meets. -/
def settleNow (s : State) (pa n : Nat) : Nat :=
  maxList (homeReading s pa :: (List.range ((pa + n - 1) / 128 - pa / 128 + 1)).map fun i => (dirOf s (pa / 128 + i)).emax)

/-- A crew's and its shift's largest settle time (R51, R68). -/
def noteSettle (s : State) (crew settle : Nat) : State :=
  match crewOf s crew with
  | none => s
  | some c =>
    let s := modCrew s crew fun c => { c with settle := max c.settle settle }
    { s with sched := { s.sched with shifts := tabMod s.sched.shifts c.shift fun h => { h with settle := max h.settle settle } } }

/-- Bytes of the host-line cache's line, or of host memory if it holds none (R197). -/
def hostLine (s : State) (line : Nat) : List Byte :=
  match tabFind s.cache.hlc line with
  | some bs => bs
  | none => spRange 0#8 s.hostMem (64 * line) 64

/-- Bytes at a host bus address, as an access of the device reads them. An access lies in one line. -/
def hostRead (s : State) (b n : Nat) : List Byte :=
  if Config.cxlLine (b / 64) then ((hostLine s (b / 64)).drop (b % 64)).take n else spRange 0#8 s.hostMem b n

/-- A list with `new` laid over it from index `i` on. -/
def overlay (old : List Byte) (i : Nat) (new : List Byte) : List Byte := old.take i ++ new ++ old.drop (i + new.length)

/-- Lines of 64 bytes that the 32 MiB host-line cache holds (R197). -/
def hostLines : Nat := 524288

/-- A line enters the host-line cache; in a full cache it takes the place of another, by free choice, whose bytes go back to the
host (R197). -/
def hostKeep (s : State) (line : Nat) (bs : List Byte) : State :=
  let hlc := tabPut s.cache.hlc line bs
  if hlc.length ≤ hostLines then { s with cache := { s.cache with hlc := hlc } }
  else match (tabDel hlc line)[Config.freeNat (s.free * 16777216 + 8388630) (hlc.length - 1)]? with
    | some (out, old) =>
      { s with cache := { s.cache with hlc := tabDel hlc out }, hostMem := spPutList 0#8 s.hostMem (64 * out) old }
    | none => s

/-- A line enters the host-line cache. -/
def hostFill (s : State) (b : Nat) : State :=
  if Config.cxlLine (b / 64) then hostKeep s (b / 64) (hostLine s (b / 64)) else s

/-- A store to a host bus address. What waits for a store to the line learns of it (R67, R187). -/
def hostWrite (s : State) (b : Nat) (bs : List Byte) : State :=
  let s := wakeLines s (0x800000000000 + b) bs.length
  if Config.cxlLine (b / 64) then hostKeep s (b / 64) (overlay (hostLine s (b / 64)) (b % 64) bs)
  else { s with hostMem := spPutList 0#8 s.hostMem b bs }

/-- Bytes at host bus addresses that a unit of the device reads, over as many lines as they take (R432). -/
def busRead (s : State) (b n : Nat) : List Byte := (List.range n).flatMap fun i => hostRead s (b + i) 1

/-- Bytes that a unit of the device writes at host bus addresses. -/
def busWrite (s : State) (b : Nat) (bs : List Byte) : State := (bs.zipIdx).foldl (fun s x => hostWrite s (b + x.2) [x.1]) s

/-! ### Exclusive leases (R185) -/

/-- An exclusive holder whose lease is live: by its core's own reading, below the expiry less ε (R167). -/
def holderOf (s : State) (line : Nat) : Option Nat :=
  match (dirOf s line).holder with
  | some (core, upto) => if readingOf s core + epsilon < upto then some core else none
  | none => none

/-- Near operations of a line. -/
def nearAccs (s : State) (line : Nat) : List (Nat × Acc) :=
  s.accs.filter fun (_, a) => a.st == .near && a.pa / 128 == line

/-- Does the counter of an access complete only when it is applied at its home (Table WORD-12)? -/
def completesAtHome (a : Acc) : Bool :=
  match a.op with
  | .store _ | .tst .. => true
  | .rmw _ _ none _ => true
  | _ => false

/-- Later accesses of the lanes wait for word `seq`. -/
def addAcqs (s : State) (gk seq : Nat) (ls : List Nat) : State :=
  modGang s gk fun g => ls.foldl (fun g l => modFibreG g l fun f => { f with acqs := f.acqs ++ [seq] }) g

/-- An acquire is performed. -/
def dropAcqs (s : State) (gk seq : Nat) (ls : List Nat) : State :=
  modGang s gk fun g => ls.foldl (fun g l => modFibreG g l fun f => { f with acqs := f.acqs.filter (· != seq) }) g

/-- How many lanes of a counter's issue an access stands for. -/
def accCount (a : Acc) : Nat :=
  match a.op with
  | .rmw _ args _ _ => args.length
  | .stf ws => ws.length
  | _ => 1

/-- The holder returns a line: its operations take their home times now, by the home's reading, which are also their settle
times; monitors of the line wake for what they wrote (R185, R187). -/
def returnLine (s : State) (line : Nat) : State :=
  let accs := nearAccs s line
  let now := homeReading s (128 * line)
  let s := match tabFind s.cache.dir line with
    | some r => setDir s line { r with holder := none, was := [] }
    | none => s
  let s := if accs.isEmpty then s else wakeLines s (128 * line) 128
  accs.foldl (fun s (id, a) =>
    let s := { s with accs := tabPut s.accs id { a with st := .applied now } }
    let s := dropAcqs (noteSettle s a.crew now) a.gang a.seq a.lanes
    if completesAtHome a then complete s a.gang a.gid (accCount a) else s) s

/-- The home recalls a line from any holder but `core` before it serves another request (R185); a request to a frame whose
attributes are being changed has waited for the change (R152). -/
def recallFrom (s : State) (core : Option Nat) (line : Nat) : State :=
  let s := frameFirst s (128 * line)
  match (dirOf s line).holder with
  | none => s
  | some (c, _) => if some c = core then s else returnLine s line

/-- Every line of a range is recalled: a request by a unit that is no core. -/
def recallRange (s : State) (pa n : Nat) : State :=
  if n = 0 then s else
  (List.range ((pa + n - 1) / 128 - pa / 128 + 1)).foldl (fun s i => recallFrom s none (pa / 128 + i)) s

/-! ### Translation -/

/-- The kind of an access (R163, Table TRAP-1); a watch is the read of an MWAIT, which reaches no window (R186). -/
inductive AccessKind where
  | read | write | atomic | fetch | watch
  deriving DecidableEq, Repr

/-- The kind's code in SR.TINFO bits [5:4]. -/
def kindCode : AccessKind → Nat
  | .read => 0
  | .write => 1
  | .atomic => 2
  | .fetch => 3
  | .watch => 0

/-- A translation fault (Table TRAP-1). -/
def xlTrap (cause : BitVec 8) (detail : Nat) (k : AccessKind) (va : DWord) : TrapInfo :=
  { cause, addr := va, info := BitVec.ofNat 32 (detail + 16 * kindCode k), next := false }

/-- A table entry is valid and no reserved bit of it is set (R162). -/
def entryOk (e : DWord) : Bool := e.getLsbD 0 && e.extractLsb' 48 16 == 0#16 && e.extractLsb' 7 2 == 0#2

/-- The address in an entry. -/
def entryAddr (e : DWord) : Nat := (e.extractLsb' 9 39).toNat * 512

/-- A table entry read at its home, or the detail of the fault 0x09 that ends the walk (R163). -/
def readEntry (s : State) (addr : Nat) : Except Nat DWord :=
  if !hasHome s addr then .error 0
  else if readsPoison s addr 8 then .error 4
  else .ok (BitVec.ofNat 64 (natOfBytes (memRead s addr 8)))

/-- The levels below the root: index shift, index width, page size (Table MEM-9). -/
def walkLevels : List (Nat × Nat × Nat) := [(31, 65536, 2147483648), (25, 64, 33554432), (19, 64, 524288)]

/-- The walk below the root: the leaf and its page size, or the detail of the fault. -/
def walkFrom (s : State) (va : Nat) : Nat → List (Nat × Nat × Nat) → Except Nat (DWord × Nat)
  | _, [] => .error 0
  | tbl, (sh, n, page) :: rest =>
    match readEntry s (tbl + 8 * (va / 2 ^ sh % n)) with
    | .error d => .error d
    | .ok e =>
      if !entryOk e || (rest.isEmpty && !e.getLsbD 1) then .error 0
      else if e.getLsbD 1 then (if entryAddr e % page = 0 then .ok (e, page) else .error 0)
      else walkFrom s va (entryAddr e) rest

/-- The root table's address (Table MEM-5). -/
def rootAddr (s : State) : Nat := (cfgGet s 0x244).toNat % 65536 * 4294967296 + (cfgGet s 0x240).toNat / 512 * 512

/-- A walk in partition `part`: the leaf and its page size (R163). -/
def walkLeaf (s : State) (part va : Nat) : Except Nat (DWord × Nat) :=
  match readEntry s (rootAddr s + 8 * part) with
  | .error d => .error d
  | .ok e => if !entryOk e || e.getLsbD 1 then .error 0 else walkFrom s va (entryAddr e) walkLevels

/-- A translation: the address reached, and the page with its leaf. -/
structure Xl where
  pa : Nat
  page : Nat
  size : Nat
  leaf : DWord
  svc : Bool
  deriving DecidableEq, Repr

/-- The checks that a leaf's attributes decide (R141, R163): permission, with that of R320 for an atomic to a window reached by
PCIe, then attributes of the frame. -/
def leafFault (s : State) (k : AccessKind) (leaf : DWord) (pa : Nat) : Option (BitVec 8) :=
  let deny := match k with
    | .write => !leaf.getLsbD 2
    | .atomic => !leaf.getLsbD 2 || (isHost pa && !isCxl pa)
    | .fetch => !leaf.getLsbD 3
    | .watch => isHost pa || isPeer pa
    | .read => false
  let f := frameOf s pa
  if deny then some 0x0A
  else if leaf.getLsbD 5 != f.packed || leaf.getLsbD 6 != f.chk then some 0x0B
  else none

/-- A fresh walk with its checks, in the order of R163. -/
def freshWalk (s : State) (part : Nat) (svc : Bool) (k : AccessKind) (va : DWord) : Except TrapInfo Xl :=
  match walkLeaf s part va.toNat with
  | .error d => .error (xlTrap 0x09 d k va)
  | .ok (leaf, size) =>
    let pa := entryAddr leaf + va.toNat % size
    match paFault s part svc pa with
    | some (cause, d) => .error (xlTrap cause d k va)
    | none =>
      match leafFault s k leaf pa with
      | some cause => .error (xlTrap cause 0 k va)
      | none => .ok { pa, page := va.toNat / size * size, size, leaf, svc := svc && isHost pa }

/-- The address that a cached translation gives. -/
def TlbEntry.pa (e : TlbEntry) (va : Nat) : Nat := entryAddr e.leaf + (va - e.page)

/-- Translations of an address that the die's TLBs hold for a crew: a service crew's of the host range carry PF 0's requester ID
and serve no other crew, nor the other way (R164, R433). -/
def tlbHits (s : State) (pos part : Nat) (svc : Bool) (va : Nat) : List TlbEntry :=
  s.cache.tlb.filter fun e => e.pos == pos && e.part == part && e.page ≤ va && va < e.page + e.size &&
    e.svc == (svc && isHost (e.pa va))

/-- What R306 and R307 ask of every access to a peer window, translated anew or not. -/
def windowFault (s : State) (part pa : Nat) : Option (BitVec 8 × Nat) := if isPeer pa then paFault s part false pa else none

/-- A translation (R161 to R164): through a cached entry or by a fresh walk, by free choice `idx` where both are possible. -/
def translate (s : State) (pos part : Nat) (svc : Bool) (k : AccessKind) (va : DWord) (idx : Nat) : Except TrapInfo Xl :=
  if va.toNat ≥ 140737488355328 then .error (xlTrap 0x09 3 k va)
  else
    match tlbHits s pos part svc va.toNat with
    | [] => freshWalk s part svc k va
    | hits =>
      match hits[Config.freeNat idx (hits.length + 1)]? with
      | none => freshWalk s part svc k va
      | some e =>
        let pa := e.pa va.toNat
        match windowFault s part pa with
        | some (cause, d) => .error (xlTrap cause d k va)
        | none =>
          match leafFault s k e.leaf pa with
          | some cause => .error (xlTrap cause 0 k va)
          | none => .ok { pa, page := e.page, size := e.size, leaf := e.leaf, svc := e.svc }

/-- The addresses of the entries that a walk reads below the root, as far as it comes. -/
def walkReads (s : State) (va : Nat) : Nat → List (Nat × Nat × Nat) → List Nat
  | _, [] => []
  | tbl, (sh, n, _) :: rest =>
    let a := tbl + 8 * (va / 2 ^ sh % n)
    a :: match readEntry s a with
    | .ok e => if entryOk e && !e.getLsbD 1 then walkReads s va (entryAddr e) rest else []
    | .error _ => []

/-- A walk reads its entries at their homes, which recall the lines from any holder (R163, R185). -/
def recallWalk (s : State) (part va : Nat) : State :=
  let root := rootAddr s + 8 * part
  let below := match readEntry s root with
    | .ok e => if entryOk e && !e.getLsbD 1 then walkReads s va (entryAddr e) walkLevels else []
    | .error _ => []
  (root :: below).foldl (fun s a => recallFrom s none (a / 128)) s

/-- A translation that an access used is cached; a walk made for it has recalled the lines of its entries. -/
def tlbAdd (s : State) (pos part : Nat) (x : Xl) : State :=
  let e : TlbEntry := { pos, part, page := x.page, size := x.size, leaf := x.leaf, svc := x.svc }
  if s.cache.tlb.contains e then s
  else
    let s := recallWalk s part x.page
    { s with cache := { s.cache with tlb := e :: s.cache.tlb } }

end Sys2Proof.Machine
end

