-- ==== Sys2Proof/Machine/Access.lean ====
section
/-! DEFINITION. Memory accesses of fibres: effective addresses with their checks in order (R139 to R141), accesses on their
way (R100, R172), what performs a load, a store and an atomic (R168 to R173, R177 to R185), granules (R145, R146), and the
conditions of fences (R175, R177). -/

namespace Sys2Proof.Machine

/-! ### Crews and allocations -/

/-- A crew with nothing in it: what a gang without a crew would see. -/
def noCrew : Crew :=
  { shift := 0, x := 0, y := 0, z := 0, pos := 0, core := 0, paired := false, part := 0, prio := 0, svc := false,
    spBase := [], spSize := 0, cbBase := [], cbSize := 0, bars := [], gangMin := 0, gangMax := 0, crewN := 0, shrink := 0,
    tvec := 0, htab := 0, shiftId := 0, phase := .running, halt := [],
    cfr := { addr := 0, handle := 0, cause := 0, bar := 0 }, slots := [], slotImage := [], settle := 0, born := 0,
    pixel := [], armed := false, stepBar := none, trapStop := false, wasStopped := false, started := false,
    savedTiles := [], sets := [], attachDue := none }

/-- The crew of a gang. -/
def crewD (s : State) (gk : Nat) : Crew := (crewOf s (crewOfGang gk)).getD noCrew

/-- Which core of its crew's pair a gang runs on: 0 or 1 (R53). -/
def halfOf (cr : Crew) (core : Nat) : Nat := if core = cr.core then 0 else 1

/-- The key of a scratchpad byte: its crew, the core of the pair, the offset in the allocation. -/
def spadKey (ck half off : Nat) : Nat := (ck * 2 + half) * 8388608 + off

/-- The key of a column-bank byte: its core and its bank address. -/
def bankKey (core addr : Nat) : Nat := core * 4294967296 + addr

/-- The cores that a crew lives on. -/
def crewCores (c : Crew) : List Nat := if c.paired then [c.core, c.core + 1] else [c.core]

/-- Is the crew's context saved (R140)? -/
def crewSaved (c : Crew) : Bool := c.phase == .saved

/-- A crew whose abandoned words wait for its restore or its RESUME (R287, R317). -/
def crewAway (s : State) (ck : Nat) : Bool := match crewOf s ck with
  | some c => c.phase == .halted || crewSaved c || c.phase == .stopped
  | none => true

/-- A crew of shift `shift` whose allocation on a core holds `n` bytes at scratchpad offset `off`: its key, which core of
its pair, its allocation's offset. -/
def allocAt (s : State) (shift core off n : Nat) (saved : Bool) : Option (Nat × Nat × Nat) :=
  s.crews.findSome? fun (k, c) =>
    if c.shift ≠ shift || crewSaved c != saved || !(crewCores c).contains core then none
    else
      let h := core - c.core
      let base := c.spBase.getD h 0
      if base ≤ off && off + n ≤ base + c.spSize then some (k, h, base) else none

/-- Is a core pair owned, or shared, by a partition (R301)? -/
def pairHas (s : State) (core part : Nat) : Bool :=
  (cfgGet s (cfgAddr (core / 16) (0x280 + 4 * (core % 16 / 2)))).getLsbD part

/-- Is a position a shading or geometry die in service with that core (Table MEM-2)? -/
def coreThere (s : State) (pos core : Nat) : Bool :=
  match tabFind s.dies pos with
  | none => false
  | some d => d.inService && !d.isolated && (match d.kind with
    | .shading => core < 8
    | .geometry => core < 16
    | _ => false)

/-- What an RS address reaches (R140): the byte's key and whether its crew is saved, or none. -/
def rsTarget (s : State) (cr : Crew) (addr n : Nat) : Option (Nat × Bool) :=
  let pos := addr / 134217728 % 32
  let core := coreKey pos (addr / 8388608 % 16)
  let off := addr % 8388608
  if !coreThere s pos (core % 16) || !pairHas s core cr.part then none
  else match allocAt s cr.shift core off n false with
    | some (k, h, base) => some (spadKey k h (off - base), false)
    | none => (allocAt s cr.shift core off n true).map fun (k, h, base) => (spadKey k h (off - base), true)

/-- Where an RS access stands whose target was found when it was formed: its crew is where it was, saved, or gone from that
place (R140). -/
inductive RsLook where
  | here | saved | gone
  deriving DecidableEq, Repr

/-- The target of an RS access now: `key` is its byte's key, `addr` the address that named it (R140). -/
def rsLook (s : State) (key addr : Nat) : RsLook :=
  match crewOf s (key / 16777216) with
  | none => .gone
  | some c =>
    let h := key / 8388608 % 2
    if crewSaved c then .saved
    else if coreKey (addr / 134217728 % 32) (addr / 8388608 % 16) = c.core + h &&
        addr % 8388608 = c.spBase.getD h 0 + key % 8388608 then .here
    else .gone

/-- Buses of a core's current mapping (R154). -/
def busCount (b : BitVec 16) : Nat := ((List.range 16).filter fun i => b.getLsbD i).length

/-- The first address of a bank that no access may reach (R154, R157): that of the mapping in force, or, once the wait of a
VACATE has run out, that of the buses left, even before the first unit moves. -/
def cbLimit (s : State) (c : Core) : Nat :=
  busCount (if c.fill == .vacate && timeReached s c.foldAt then c.vbus else c.mapBuses) * 268435456

/-- Does an access reach the withdrawn range of a bank after its backfill has begun (R154, R157)? -/
def cbWithdrawn (s : State) (core addr n : Nat) : Bool :=
  match tabFind s.cores core with
  | none => true
  | some c => c.fill == .gone || cbLimit s c < addr + n

/-! ### Effective addresses and their checks (R139 to R141) -/

/-- Bytes of an access size. -/
def sizeBytes : Size → Nat
  | .b8 => 1
  | .b16 => 2
  | .b32 => 4
  | .b64 => 8
  | .b128 => 16

/-- A lane's checked address: as the fibre formed it, what it reaches, its length, its translation, and whether it waits
for a saved crew. -/
structure LaneAddr where
  lane : Nat
  space : Space
  va : DWord
  pa : Nat
  size : Nat
  xl : Option Xl
  saved : Bool
  deriving DecidableEq, Repr

/-- A trap at an address. -/
def addrTrap (cause : BitVec 8) (va : DWord) : TrapInfo := { trapOf cause with addr := va }

/-- A free choice for the translation of a lane in one word. -/
def xlIdx (s : State) (l : Nat) : Nat := s.free * 16777216 + 9000000 + l * 64

/-- The order of checks of a global access by a fibre of crew `cr` on a core (R141). -/
def checkGL (s : State) (core : Nat) (cr : Crew) (k : AccessKind) (n : Nat) (va : DWord) (l idx : Nat) :
    Except TrapInfo LaneAddr :=
  if va.toNat % n ≠ 0 then .error (addrTrap 0x08 va)
  else match translate s (core / 16) cr.part cr.svc k va idx with
    | .error t => .error t
    | .ok x =>
      if k ≠ .read && k ≠ .watch && addrLost s x.pa then .error (addrTrap 0x0F va)
      else .ok { lane := l, space := .gl, va, pa := x.pa, size := n, xl := some x, saved := false }

/-- A scratchpad access (Table MEM-1). -/
def checkSP (ck half : Nat) (cr : Crew) (n : Nat) (va : DWord) (l : Nat) : Except TrapInfo LaneAddr :=
  if va.toNat % n ≠ 0 then .error (addrTrap 0x08 va)
  else if cr.spSize < va.toNat + n then .error (addrTrap 0x0C va)
  else .ok { lane := l, space := .sp, va, pa := spadKey ck half va.toNat, size := n, xl := none, saved := false }

/-- A remote scratchpad access (R140). -/
def checkRS (s : State) (cr : Crew) (n : Nat) (va : DWord) (l : Nat) : Except TrapInfo LaneAddr :=
  if va.toNat % n ≠ 0 then .error (addrTrap 0x08 va)
  else match rsTarget s cr va.toNat n with
    | none => .error (addrTrap 0x0C va)
    | some (key, saved) => .ok { lane := l, space := .rs, va, pa := key, size := n, xl := none, saved }

/-- A column-bank access (Table MEM-1, R154, R157). -/
def checkCB (s : State) (core half : Nat) (cr : Crew) (n : Nat) (va : DWord) (l : Nat) : Except TrapInfo LaneAddr :=
  let bank := cr.cbBase.getD half 0 * 2048 + va.toNat
  if va.toNat % n ≠ 0 then .error (addrTrap 0x08 va)
  else if cr.cbSize * 2048 < va.toNat + n then .error (addrTrap 0x0D va)
  else if cbWithdrawn s core bank n then .error (addrTrap 0x0E va)
  else .ok { lane := l, space := .cb, va, pa := bankKey core bank, size := n, xl := none, saved := false }

/-- The checks of an access of any space. -/
def checkSpace (s : State) (c : Ctx) (sp : Space) (k : AccessKind) (n : Nat) (va : DWord) (l : Nat) :
    Except TrapInfo LaneAddr :=
  let cr := crewD s c.gk
  let half := halfOf cr c.g.core
  match sp with
  | .gl => checkGL s c.g.core cr k n va l (xlIdx s l)
  | .sp => checkSP (crewOfGang c.gk) half cr n va l
  | .rs => checkRS s cr n va l
  | .cb => checkCB s c.g.core half cr n va l

/-- The effective address of Form M in a lane (R88, R139). -/
def effAddr (s : State) (c : Ctx) (m : MAddr) (l : Nat) : DWord :=
  let off := m.off.signExtend 64 * BitVec.ofNat 64 (sizeBytes m.size)
  match m.space with
  | .gl => rd64 s c l m.a + off
  | _ => (rd s c l m.a + off.truncate 32).zeroExtend 64

/-- The address operand alone: ATOM, ATOMCAS, RED. -/
def bareAddr (s : State) (c : Ctx) (sp : Space) (a : Opnd) (l : Nat) : DWord :=
  if sp = .gl then rd64 s c l a else (rd s c l a).zeroExtend 64

/-- Registers of an address operand. -/
def addrRegs (sp : Space) : Nat := if sp = .gl then 2 else 1

/-- The trap of a check. -/
def errOf (x : Except TrapInfo LaneAddr) : Option TrapInfo := match x with
  | .error t => some t
  | .ok _ => none

/-- The address of a check. -/
def okOf (x : Except TrapInfo LaneAddr) : Option LaneAddr := match x with
  | .error _ => none
  | .ok a => some a

/-- SPACE 3 on a geometry die traps with cause 0x01 at decode (R139). -/
def onGeometry (s : State) (g : Gang) : Bool := ((tabFind s.dies (g.core / 16)).map (·.kind)) == some .geometry

/-- The early trap of a word that a geometry die does not have. -/
def geoEarly (s : State) (g : Gang) (_ : List Nat) : Option TrapInfo := if onGeometry s g then some (trapOf 0x01) else none

/-- The early trap of a Form M word that names the column bank. -/
def cbEarly (sp : Space) (s : State) (g : Gang) (ls : List Nat) : Option TrapInfo :=
  if sp = .cb then geoEarly s g ls else none

/-! ### Outstanding accesses -/

/-- Has an access still to be performed? -/
def accWaits (a : Acc) : Bool := a.st == .pending

/-- Is an access a store, for the order of a line? -/
def isStore (a : Acc) : Bool := match a.op with
  | .store _ | .tst .. | .rmw .. | .stf _ => true
  | _ => false

/-- Does an access move bytes of fibre memory, so that program order on its bytes binds it (R172)? -/
def movesBytes (a : Acc) : Bool := match a.op with
  | .load .. | .loadLine .. | .ldc .. | .tld .. => true
  | _ => isStore a

/-- Does an access read global bytes that are known only as it is performed (SAMPLE, TRACE), so that a later store of its fibre
waits for it (R172)? -/
def readsWidely (a : Acc) : Bool := match a.op with
  | .sample .. | .trace .. => true
  | _ => false

/-- Two accesses of one kind of storage overlap. -/
def rangesMeet (sp1 : Space) (pa1 n1 : Nat) (sp2 : Space) (pa2 n2 : Nat) : Bool :=
  let kind := fun sp : Space => match sp with
    | .gl => 0
    | .sp | .rs => 1
    | .cb => 2
  kind sp1 == kind sp2 && pa1 < pa2 + n2 && pa2 < pa1 + n1

/-- An earlier access of one of the fibres, not yet performed, meets these bytes. -/
def ownMeets (s : State) (gk : Nat) (lanes : List Nat) (before : Nat) (sp : Space) (pa n : Nat) (p : Acc → Bool) : Bool :=
  s.accs.any fun (id, b) =>
    id < before && b.gang == gk && b.lanes.any lanes.contains && accWaits b && movesBytes b && p b &&
    rangesMeet b.space b.pa b.size sp pa n

/-- A store of the core to a line that has not been performed (R171). -/
def pendingStore (core line : Nat) (b : Acc) : Bool :=
  b.core == core && b.space == .gl && isStore b && accWaits b && b.pa / 128 == line

/-- An earlier store of the core to a line has not reached the home (R171). -/
def coreStorePending (s : State) (core line before : Nat) : Bool := s.accs.any fun (id, b) => id < before && pendingStore core line b

/-- A store of the core to a line precedes a fetch made now for access `id`: an earlier one, or one that has left for the home;
a later one that still waits for its fence has not left (R171, Table ORD-4). -/
def fetchWaits (s : State) (core line id : Nat) : Bool :=
  s.accs.any fun (k, b) => (k < id || !b.rel) && pendingStore core line b

/-- A store of the core to a line waits for its fence, so that later stores of the core to the line wait at issue (R171). -/
def relPending (s : State) (core line : Nat) : Bool := s.accs.any fun (_, b) => b.rel && pendingStore core line b

/-- The earlier stores of a fibre to scratchpad or bank that still wait: later ones queue behind them (R172). -/
def ownSpQueue (s : State) (gk : Nat) (lanes : List Nat) (before : Nat) : Bool :=
  s.accs.any fun (id, b) =>
    id < before && b.gang == gk && b.lanes.any lanes.contains && accWaits b && b.space != .gl && isStore b

/-- A fibre of the bundle has an acquire that is not yet performed (Table ORD-4). -/
def acqWait (c : Ctx) (s : State) : Bool :=
  match gangOf s c.gk with
  | none => false
  | some g => c.on.any fun l => match tabFind g.fibres l with
    | some fb => !fb.acqs.isEmpty
    | none => false

/-- The fibre has a texture sample or a ray walk still to be performed. -/
def ownWalks (s : State) (gk l : Nat) : Bool :=
  s.accs.any fun (_, b) => b.gang == gk && b.lanes.contains l && accWaits b && readsWidely b

/-- The memory word waits at issue: an acquire is out, a store of the core to the line waits for its fence, or an earlier load of a lane still has to read bytes that the word
would change at its issue. -/
def storeWait (req : Ctx → State → Nat → Except TrapInfo LaneAddr) (c : Ctx) (s : State) : Bool :=
  acqWait c s || c.on.any fun l => match req c s l with
    | .error _ => false
    | .ok a => ownMeets s c.gk [l] s.nextId a.space a.pa a.size (fun _ => true) ||
        (a.space == .gl && (relPending s c.g.core (a.pa / 128) || ownWalks s c.gk l))

/-- The lanes of a word in the order in which their accesses count: a free choice (R6, R172). -/
def accOrder (s : State) (ls : List LaneAddr) : List LaneAddr := shuffle (s.free * 16777216 + 8410000) ls

/-- An access of a lane. -/
def newAcc (c : Ctx) (a : LaneAddr) (op : AccOp) (atHome rel : Bool) : Acc :=
  { gang := c.gk, crew := crewOfGang c.gk, core := c.g.core, lanes := [a.lane], gid := c.seq, seq := c.seq, pc := c.pc, op,
    space := a.space, va := a.va, pa := a.pa, size := a.size, atHome,
    window := a.space == .gl && (isHost a.pa || isPeer a.pa), rel, st := .pending }

/-- Accesses enter the memory system, numbered from the word's issue number on. -/
def addAccs (s : State) (first : Nat) : List Acc → State
  | [] => s
  | a :: rest => addAccs { s with accs := tabPut s.accs first a } (first + 1) rest

/-- Translations of a word's lanes are cached. -/
def addTlbs (s : State) (core part : Nat) (ls : List LaneAddr) : State :=
  ls.foldl (fun s a => match a.xl with
    | some x => tlbAdd s (core / 16) part x
    | none => s) s

/-- Can a page be held in L1: its C attribute, of device memory (R147, R196)? -/
def cacheable (a : LaneAddr) : Bool := match a.xl with
  | some x => x.leaf.getLsbD 4 && !isHost a.pa && !isPeer a.pa
  | none => false

/-- The walks that ended in faults have read their entries at their homes (R163, R185). -/
def recallTraps (s : State) (part : Nat) (ends : List (Nat × LaneEnd)) : State :=
  ends.foldl (fun s e => match e.2 with
    | .trap t => if t.cause = 0x09 || t.cause = 0x0A || t.cause = 0x0B then recallWalk s part t.addr.toNat else s
    | _ => s) s

/-- The plan of a word with checked addresses: traps first, else `k`, with the translations cached. -/
def memPlan (s : State) (c : Ctx) (req : Nat → Except TrapInfo LaneAddr) (k : State → List LaneAddr → Plan) : Plan :=
  match trapEnds c fun l => errOf (req l) with
  | some ends => trapPlan (recallTraps s (crewD s c.gk).part ends) ends
  | none =>
    let ls := c.on.filterMap fun l => okOf (req l)
    k (addTlbs s c.g.core (crewD s c.gk).part ls) ls

/-! ### Fences (R175, R177) -/

/-- Condition set A for a fibre's words before `seq` (Table ORD-3). -/
def fenceA (s : State) (gk l seq : Nat) : Bool :=
  (s.accs.all fun (_, a) =>
    !(a.gang == gk && a.lanes.contains l && a.seq < seq && accWaits a) || (match a.op with
      | .store _ => a.space == .gl && !a.rel
      -- through a converting handle the bytes, and so the copy of the core's own L1, are known at the home only (R170, R208)
      | .tst _ _ _ d _ => d.state != 1
      | .pref => true
      | _ => false)) &&
  (s.engines.all fun (_, e) => e.queue.all fun q => !(q.gang == gk && q.lanes.contains l && q.seq < seq && (match q.op with
    | .qscr .. => true
    | _ => false))) &&
  (s.own.all fun (_, w) => !w.waits.any fun x => x.1 == gk && x.2.1 == l && x.2.2 < seq)

/-- Condition set B: global stores and atomics settled by the core's reading, exclusive lines returned. -/
def fenceB (s : State) (gk l seq : Nat) : Bool :=
  s.accs.all fun (_, a) =>
    !(a.gang == gk && a.lanes.contains l && a.seq < seq && a.space == .gl && isStore a && !a.window) || (match a.st with
      | .applied t => coreReached s a.core t
      | _ => false)

/-- Condition set C: stores, atomics and RED to windows acknowledged. -/
def fenceC (s : State) (gk l seq : Nat) : Bool :=
  s.accs.all fun (_, a) => !(a.gang == gk && a.lanes.contains l && a.seq < seq && a.window && isStore a)

/-- Does a scope take condition set B? -/
def scopeB (paired : Bool) : Scope → Bool
  | .die | .dev | .sys => true
  | .crew => paired
  | _ => false

/-- The conditions of a fence, for a fibre's words before `seq`. -/
def fenceMet (s : State) (gk l seq : Nat) (sc : Scope) : Bool :=
  fenceA s gk l seq && (!scopeB (crewD s gk).paired sc || fenceB s gk l seq) && (sc != .sys || fenceC s gk l seq)

/-- The lines that fibres hold under exclusive leases are returned (R185). -/
def returnNear (s : State) (gk : Nat) (ls : List Nat) : State :=
  let lines := (s.accs.filterMap fun (_, a) =>
    if a.gang = gk && a.lanes.any ls.contains && a.st == .near then some (a.pa / 128) else none).eraseDups
  lines.foldl returnLine s

/-! ### L1 -/

/-- A store of the core updates its copy of the line, if it holds one, whatever the C attribute of the page it came by (R147,
R170). -/
def l1Update (s : State) (core pa : Nat) (bs : List Byte) : State :=
  let l1 := s.cache.l1.map fun (x : L1Copy) =>
    if x.core = core && x.line = pa / 128 && x.fetch.isNone then { x with bytes := overlay x.bytes (pa % 128) bs } else x
  { s with cache := { s.cache with l1 := l1 } }

/-- The core's copy of a line is dropped (R169). -/
def l1Drop (s : State) (core line : Nat) : State :=
  let l1 := s.cache.l1.filter fun x => !(x.core == core && x.line == line && x.fetch.isNone)
  { s with cache := { s.cache with l1 := l1 } }

/-- Words fetched ahead are discarded (R169). -/
def fetchDrop (s : State) (gk : Nat) : State :=
  let l1 := s.cache.l1.filter fun x => x.fetch != some gk
  { s with cache := { s.cache with l1 := l1 } }

/-- A live copy of a line: the reading is below E − ε (R169). -/
def l1Live (s : State) (core line : Nat) (fetch : Option Nat) : Option L1Copy :=
  s.cache.l1.find? fun x => x.core == core && x.line == line && x.fetch == fetch && readingOf s core + epsilon < x.exp

/-- The home grants a read lease (R168): E = h + L with L from 256 ns to the partition's LMAX and h its reading; the line is
copied. -/
def leaseFetch (s : State) (core part line : Nat) (fetch : Option Nat) : State :=
  let s := recallFrom s none line
  let lmax := (partOf s part).leaseMax
  let exp := homeReading s (128 * line) + 256 + Config.freeNat (s.free * 16777216 + 8388610) (lmax - 256 + 1)
  let r := dirOf s line
  let s := setDir s line { r with emax := max r.emax exp }
  let x : L1Copy := { core, line, fetch, exp, bytes := memRead s (128 * line) 128 }
  let l1 := s.cache.l1.filter fun y => !(y.core == core && y.line == line && y.fetch == fetch)
  -- a line with a poisoned sector is not kept: every read of it meets the poison
  let l1 := if readsPoison s (128 * line) 128 then l1 else x :: l1
  { s with cache := { s.cache with l1 := l1 }, free := s.free + 1 }

/-! ### Late traps (R278) -/

/-- A condition found late in every lane of an access. -/
def lateAcc (s : State) (a : Acc) (t : TrapInfo) : State := a.lanes.foldl (fun s l => addLate s a.gang l a.seq a.pc t) s

/-- The lanes of an access with the address that each formed. -/
def laneVas (a : Acc) : List (Nat × DWord) :=
  let at' := fun (key : Nat) => a.va + BitVec.ofNat 64 key - BitVec.ofNat 64 a.pa
  match a.op with
  | .loadLine _ keys => a.lanes.zip (keys.map at')
  | .stf ws => a.lanes.zip (ws.map fun w => at' w.1)
  | _ => a.lanes.map fun l => (l, a.va)

/-- An RS access that holds no fibre finds its target gone: the trap is late (R140, R278). -/
def rsGone (s : State) (a : Acc) : State :=
  (laneVas a).foldl (fun s x => addLate s a.gang x.1 a.seq a.pc (addrTrap 0x0C x.2)) s

/-- An RS access waits while its target crew is saved (R140). -/
def rsStalls (s : State) (a : Acc) : Bool := a.space == .rs && rsLook s a.pa a.va.toNat == .saved

/-- An RS access whose target has retired or is back elsewhere (R140). -/
def rsLost (s : State) (a : Acc) : Bool := a.space == .rs && rsLook s a.pa a.va.toNat == .gone

/-! ### Bytes of the three storages without leases (R173) -/

/-- Bytes of scratchpad. -/
def spadRead (s : State) (key n : Nat) : List Byte := spRange 0#8 s.spad key n

/-- The bytes of an MMA's B block and of its column scales (R237). -/
def bSpan (w : Word) : Nat := 64 * kBlock (fwA w) (fwB w) * opBits (fwB w) / 8 + if fwScale w = 1 then 64 else 0

/-- A store is about to write `n` bytes at a scratchpad key: an MMA still in its queue keeps what stood in the 16-byte parts of
its B block that the store meets, since it may see each part as it was or as it is (R238). -/
def keepOlds (s : State) (key n : Nat) (q : EngEntry) : EngEntry := match q.op with
  | .mma w rows tile b olds =>
    let parts := (List.range (bSpan w / 16)).map (b + 16 * ·) |>.filter fun p => key < p + 16 && p < key + n
    { q with op := .mma w rows tile b (parts.map (fun p => (p, spadRead s p 16)) ++ olds) }
  | _ => q

/-- The engines, their queued operations keeping the bytes that a write of `n` scratchpad bytes is about to replace. -/
def enginesKeep (s : State) (key n : Nat) : Tab Engine :=
  if s.engines.all fun (_, e) => e.queue.isEmpty then s.engines
  else tabMap s.engines fun _ (e : Engine) => { e with queue := e.queue.map (keepOlds s key n) }

/-- Scratchpad bytes are written; granules stand. -/
def spadWrite (s : State) (key : Nat) (bs : List Byte) : State :=
  { s with spad := spPutList 0#8 s.spad key bs, engines := enginesKeep s key bs.length }

/-- Bytes of a column bank. -/
def bankRead (s : State) (key n : Nat) : List Byte := spRange 0#8 s.bank key n

/-- Does a read meet a poisoned sector of a bank? -/
def bankPoisoned (s : State) (key n : Nat) : Bool := n != 0 && (sectorsOf key n).any s.bankPoison.contains

/-- Does a write cover a poisoned sector of a bank in part only? -/
def bankPartly (s : State) (key n : Nat) : Bool :=
  n != 0 && (sectorsOf key n).any fun sec => s.bankPoison.contains sec && !covers key n sec

/-- Column-bank bytes are written. -/
def bankWrite (s : State) (key : Nat) (bs : List Byte) : State :=
  { s with bank := spPutList 0#8 s.bank key bs, bankPoison := s.bankPoison.filter fun sec => !covers key bs.length sec }

/-- A granule's state. -/
def granOf (s : State) (g : Nat) : GranState := spGet .empty s.gran g

/-- A granule takes a state. -/
def setGran (s : State) (g : Nat) (x : GranState) : State := { s with gran := spSet .empty s.gran g x }

/-- Words out of bytes. -/
def wordsOf (bs : List Byte) (n : Nat) : List Word := (List.range n).map fun i => BitVec.ofNat 32 (natOfBytes ((bs.drop (4 * i)).take 4))

/-- Registers that a load of `n` bytes writes (R369). -/
def loadRegs (n : Nat) : Nat := if n ≤ 4 then 1 else n / 4

/-- Data lands in successive v registers of a lane. -/
def landWords (s : State) (gk l seq d : Nat) (ws : List Word) : State :=
  modGang s gk fun g =>
    (ws.zipIdx).foldl (fun g w => landReg seq g { lane := l, reg := vRef (d + w.2), val := w.1 }) g

/-- An access leaves the memory system: its acquire is over and its lanes count as complete. -/
def finishAcc (s : State) (id : Nat) (a : Acc) (n : Nat) : State :=
  let s := dropAcqs { s with accs := tabDel s.accs id } a.gang a.seq a.lanes
  complete s a.gang a.gid n

/-! ### LDC and fills (R145, R146) -/

/-- The LDC accesses that wait on a granule, oldest first. -/
def ldcWaiters (s : State) (g : Nat) : List (Nat × Acc) :=
  s.accs.filter fun (_, a) => (match a.op with
    | .ldc .. => true
    | _ => false) && a.st == .pending && a.pa / 16 == g

/-- Is a waiting LDC an LDC.CLR? -/
def isClr (a : Acc) : Bool := match a.op with
  | .ldc _ clr => clr
  | _ => false

/-- A waiting LDC reads, writes D and releases its fibre. -/
def ldcTake (s : State) (x : Nat × Acc) : State :=
  let a := x.2
  let d := match a.op with
    | .ldc d _ => d
    | _ => 0
  let ws := wordsOf (spadRead s a.pa a.size) (loadRegs a.size)
  let s := { s with accs := tabDel s.accs x.1 }
  a.lanes.foldl (fun s l => releaseLanes (landWords s a.gang l a.seq d ws) a.gang [l]) s

/-- How many lanes' registers an access writes at its return. -/
def loadCount (a : Acc) : Nat := match a.op with
  | .loadLine .. => a.lanes.length
  | _ => 1

/-- Is a granule in the image of a saved crew? -/
def granSaved (s : State) (g : Nat) : Bool := ((crewOf s (g / 1048576)).map crewSaved).getD false

/-- A fill, or a failure, meets the LDC accesses that wait on the granule (R146): every plain LDC, then the oldest
LDC.CLR. None is served while the granule's crew is saved (R140). -/
def ldcServe (s : State) (g : Nat) : State :=
  if granSaved s g then s
  else match granOf s g with
  | .empty => s
  | .full =>
    let ws := ldcWaiters s g
    let s := (ws.filter fun x => !isClr x.2).foldl ldcTake s
    match ws.find? fun x => isClr x.2 with
    | some x => ldcTake (setGran s g .empty) x
    | none => s
  | .failed =>
    (ldcWaiters s g).foldl (fun s x =>
      let s := { s with accs := tabDel s.accs x.1 }
      x.2.lanes.foldl (fun s l => trapHeld s x.2.gang l (cfrTrap s x.2.crew 0x11 ((crewD s x.2.gang).cfr.bar))) s) s

/-- A waiting RS access whose target has gone traps: an LDC at its word, any other late (R140, R278, R279). -/
def rsStranded (s : State) (id : Nat) (a : Acc) : State :=
  match a.op with
  | .ldc .. =>
    let s := { s with accs := tabDel s.accs id }
    a.lanes.foldl (fun s l => trapHeld s a.gang l (addrTrap 0x0C a.va)) s
  | _ => finishAcc (rsGone s a) id a a.lanes.length

/-- A granule is filled, and the LDC accesses that wait on it are served. -/
def fillGran (s : State) (g : Nat) : State := ldcServe (setGran s g .full) g

/-- A granule fails (R218, R219). -/
def failGran (s : State) (g : Nat) : State := ldcServe (setGran s g .failed) g

/-! ### Atomic operations (R183, R184) -/

/-- Op(v, x, c) on `w` bits (Table ORD-5, R321). -/
def rmwOp (o : RmwOp) (w v x c : Nat) : Nat :=
  match o with
  | .cas => if v = c then x else v
  | .op .add => (v + x) % 2 ^ w
  | .op .sub => (v + (2 ^ w - x)) % 2 ^ w
  | .op .min => if toSigned w x < toSigned w v then x else v
  | .op .max => if toSigned w v < toSigned w x then x else v
  | .op .umin => if x < v then x else v
  | .op .umax => if v < x then x else v
  | .op .and => v &&& x
  | .op .or => v ||| x
  | .op .xor => v ^^^ x
  | .op .xchg => x
  | .op .fadd => (addF fmtFP32 .rne false v x).1

/-- The lanes' operations one by one (R183): the final value and each lane's old value. -/
def rmwRun (o : RmwOp) (w : Nat) : Nat → List (Nat × Nat × Nat) → Nat × List (Nat × Nat)
  | v, [] => (v, [])
  | v, (l, x, c) :: rest =>
    let r := rmwRun o w (rmwOp o w v x c) rest
    (r.1, (l, v) :: r.2)

/-- Old values as registers: one or two words. -/
def oldWords (n v : Nat) : List Word := wordsOf (bytesOfNat n v) (loadRegs n)

/-- The update of an atomic on bytes: the new bytes and the lanes' results. -/
def rmwBytes (o : RmwOp) (bs : List Byte) (args : List (Nat × Nat × Nat)) : List Byte × List (Nat × List Word) :=
  let n := bs.length
  let r := rmwRun o (8 * n) (natOfBytes bs) args
  (bytesOfNat n r.1, r.2.map fun x => (x.1, oldWords n x.2))

/-- Do all the comparisons of a compare-and-swap fail, so that it applies no write (R321)? -/
def rmwIdle (o : RmwOp) (bs : List Byte) (args : List (Nat × Nat × Nat)) : Bool :=
  match o with
  | .cas => (rmwRun o (8 * bs.length) (natOfBytes bs) args).2.zip args |>.all fun x => x.1.2 != x.2.2.2
  | _ => false

/-! ### Performing an access -/

/-- What an access needs to be performed now: nothing of its fibres before it on its bytes, and with REL or AR the fence
conditions of each of its fibres (Table ORD-4). -/
def accReady (s : State) (id : Nat) (a : Acc) : Bool :=
  a.st == .pending && !rsStalls s a && !ownMeets s a.gang a.lanes id a.space a.pa a.size (fun _ => true) &&
  (!a.rel || a.lanes.all fun l => fenceMet s a.gang l a.seq .dev) &&
  (a.space == .gl || !isStore a || !ownSpQueue s a.gang a.lanes id)

/-- What reading the bytes of an access gives. -/
inductive Got where
  | bytes (s : State) (bs : List Byte)
  | late (t : TrapInfo)
  | notYet

/-- The bytes that a peer returns: unknown to this model (R305). -/
def peerBytes (s : State) (n : Nat) : List Byte :=
  (List.range n).map fun i => (Config.freeBits (s.free * 16777216 + 8500000 + i)).truncate 8

/-- A global read by a core for a crew (R147, R168, R169, R178, R179, R196): from its own exclusive line, from a live copy
or by a fetch under a lease (by free choice), or at the home. -/
def readGL (s : State) (core part : Nat) (va : DWord) (pa n : Nat) (atHome cachedPage : Bool) (id : Nat) : Got :=
  let line := pa / 128
  let poison : Got := .late (addrTrap 0x0F va)
  if isHost pa then .bytes (hostFill s (hostBus pa)) (hostRead s (hostBus pa) n)
  else if isPeer pa then
    match outWindow s pa with
    | none => poison
    | some (port, _, _) => if (peerOf s port).state = 3 then poison else .bytes { s with free := s.free + 1 } (peerBytes s n)
  else if addrLost s pa then poison
  else if holderOf s line = some core then
    -- performed in the L1 that holds the line, behind the stores that the core has issued to it (R170, R185)
    if fetchWaits s core line id then .notYet
    else if readsPoison s pa n then poison else .bytes s (memRead s pa n)
  else if atHome then
    if coreStorePending s core line id then .notYet
    else
      let s := recallFrom s none line
      let s := if cachedPage then l1Drop s core line else s
      if readsPoison s pa n then poison else .bytes s (memRead s pa n)
  else
    match l1Live s core line none with
    | some x =>
      if Config.freeBool (s.free * 16777216 + 8388611) then
        .bytes { s with free := s.free + 1 } ((x.bytes.drop (pa % 128)).take n)
      else fetch line poison
    | none => fetch line poison
where
  /-- The line is fetched, once the core's own stores to it have been applied (R171). -/
  fetch (line : Nat) (poison : Got) : Got :=
    if fetchWaits s core line id then .notYet
    else
      let t := leaseFetch s core part line none
      if readsPoison t pa n then poison else .bytes t (memRead t pa n)

/-- The bytes of a load of any space; those of a bank whose range has been withdrawn since are not there (R157, R289). -/
def readAcc (s : State) (id : Nat) (a : Acc) : Got :=
  match a.space with
  | .gl => readGL s a.core ((crewOf s a.crew).getD noCrew).part a.va a.pa a.size a.atHome true id
  | .sp => .bytes s (spadRead s a.pa a.size)
  | .rs => if rsLost s a then .late (addrTrap 0x0C a.va) else .bytes s (spadRead s a.pa a.size)
  | .cb =>
    if cbWithdrawn s a.core (a.pa % 4294967296) a.size then .late (addrTrap 0x0E a.va)
    else if bankPoisoned s a.pa a.size then .late { addrTrap 0x0F a.va with info := 1 } else .bytes s (bankRead s a.pa a.size)

/-- Words that an access has read are written to its lanes' registers (R369): its acquire is over, its lanes are complete. While
an earlier word's data has still to land in one of the registers, the access holds them (R99). -/
def landLoad (s : State) (id : Nat) (a : Acc) (d : Nat) (vals : List (Nat × List Word)) : State :=
  if landsLater s a.gang a.lanes a.seq (accDest a) then { s with accs := tabPut s.accs id { a with st := .done vals } }
  else finishAcc (vals.foldl (fun s r => landWords s a.gang r.1 a.seq d r.2) s) id a (loadCount a)

/-- A load is performed, and its data lands (R369). -/
def returnLoad (s : State) (id : Nat) (a : Acc) (d : Nat) : State :=
  if !accReady s id a then s else
  match readAcc s id a with
  | .notYet => s
  | .late t => finishAcc (lateAcc s a t) id a 1
  | .bytes s bs => landLoad s id a d (a.lanes.map fun l => (l, wordsOf bs (loadRegs a.size)))

/-- A 16-byte part of an LDT is read at one instant (R144, R181). -/
def returnLine16 (s : State) (id : Nat) (a : Acc) (d : Nat) (keys : List Nat) : State :=
  if !accReady s id a then s
  else if rsLost s a then finishAcc (rsGone s a) id a (loadCount a)
  else landLoad s id a d ((a.lanes.zip keys).map fun x => (x.1, wordsOf (spadRead s x.2 4) 1))

/-- A store reaches scratchpad or bank (R173, R402): to be called when its turn has come. -/
def storeThere (s : State) (a : Acc) : State :=
  match a.op with
  | .store bs =>
    match a.space with
    | .cb =>
      if bankPartly s a.pa a.size then lateAcc s a { addrTrap 0x0F a.va with info := 1 } else bankWrite s a.pa bs
    | _ => if rsLost s a then rsGone s a else spadWrite s a.pa bs
  | .stf ws =>
    if rsLost s a then rsGone s a
    else fillGran (ws.foldl (fun s w => spadWrite s w.1 w.2) s) (a.pa / 16)
  | _ => s

/-- A global store is applied at its home, near, or forwarded to a window (R170, R185, R196). -/
def applyStore (s : State) (id : Nat) (a : Acc) (bs : List Byte) : State :=
  let line := a.pa / 128
  if coreStorePending s a.core line id then s
  else if isHost a.pa then
    let s := hostWrite s (hostBus a.pa) bs
    if isCxl a.pa then finishAcc (noteSettle s a.crew s.time.now) id a 1
    else complete { s with accs := tabPut s.accs id { a with st := .forwarded } } a.gang a.gid 1
  else if isPeer a.pa then
    complete { s with accs := tabPut s.accs id { a with st := .forwarded } } a.gang a.gid 1
  else if addrLost s a.pa then finishAcc s id a 1
  else if partlyPoison s a.pa a.size then
    -- the store is discarded, and with it what it had put into the copy of its core (R278)
    finishAcc (lateAcc (l1Drop s a.core line) a (addrTrap 0x0F a.va)) id a 1
  else
    let s := if a.rel then l1Update s a.core a.pa bs else s
    if holderOf s line = some a.core then
      let s := putBytes s a.pa bs
      { s with accs := tabPut s.accs id { a with st := .near } }
    else
      let s := recallFrom s none line
      let t := settleNow s a.pa a.size
      let s := noteSettle (homeWrite s a.pa bs) a.crew t
      complete { s with accs := tabPut s.accs id { a with st := .applied t } } a.gang a.gid 1

/-- The update of an atomic at scratchpad: the results of its lanes. -/
def rmwThere (s : State) (key n : Nat) (o : RmwOp) (args : List (Nat × Nat × Nat)) : State × List (Nat × List Word) :=
  let r := rmwBytes o (spadRead s key n) args
  (spadWrite s key r.1, r.2)

/-- The results of an atomic land in its lanes. -/
def landResults (s : State) (a : Acc) (d : Nat) (rs : List (Nat × List Word)) : State :=
  rs.foldl (fun s r => if a.lanes.contains r.1 then landWords s a.gang r.1 a.seq d r.2 else s) s

/-- A global atomic is performed (R182 to R185, R320). -/
def applyRmw (s : State) (id : Nat) (a : Acc) (o : RmwOp) (args : List (Nat × Nat × Nat)) (ret : Option Nat) : State :=
  let line := a.pa / 128
  let n := args.length
  let land := fun (s : State) rs => match ret with
    | some d => landResults s a d rs
    | none => s
  if coreStorePending s a.core line id then s
  else if isHost a.pa then
    let r := rmwBytes o (hostRead s (hostBus a.pa) a.size) args
    let s := hostWrite s (hostBus a.pa) r.1
    finishAcc (noteSettle (land s r.2) a.crew s.time.now) id a n
  else if isPeer a.pa then
    match outWindow s a.pa with
    | none => finishAcc (lateAcc s a (addrTrap 0x0F a.va)) id a n
    | some (port, _, _) =>
      if (peerOf s port).state = 3 then finishAcc (lateAcc s a (addrTrap 0x0F a.va)) id a n
      else
        -- its store stays to be acknowledged, as that of an ST (R182, R196)
        let r := rmwBytes o (peerBytes s a.size) args
        let s := dropAcqs (land { s with free := s.free + 1 } r.2) a.gang a.seq a.lanes
        complete { s with accs := tabPut s.accs id { a with st := .forwarded } } a.gang a.gid n
  else if addrLost s a.pa then finishAcc (lateAcc s a (addrTrap 0x0F a.va)) id a n
  else if readsPoison s a.pa a.size then finishAcc (lateAcc s a (addrTrap 0x0F a.va)) id a n
  else
    let near := holderOf s line = some a.core
    let s := countCrew s a.crew a.core (if near then 42 else 43) n
    let s := if near then s else l1Drop (recallFrom s none line) a.core line
    let bs := memRead s a.pa a.size
    let r := rmwBytes o bs args
    let t := settleNow s a.pa a.size
    let s := if rmwIdle o bs args then s else if near then putBytes s a.pa r.1 else homeWrite s a.pa r.1
    let s := land s r.2
    if near then
      let s := { s with accs := tabPut s.accs id { a with st := .near } }
      if ret.isSome then complete (dropAcqs s a.gang a.seq a.lanes) a.gang a.gid n else s
    else
      let s := dropAcqs s a.gang a.seq a.lanes
      complete (noteSettle { s with accs := tabPut s.accs id { a with st := .applied t } } a.crew t) a.gang a.gid n

/-- The stores whose settle time has passed by every reading are forgotten: no fence waits for them. -/
def purgeAccs (s : State) : State :=
  { s with accs := s.accs.filter fun (_, a) => match a.st with
      | .applied t => s.time.now < t + 2 * epsilon
      | _ => true }

end Sys2Proof.Machine
end

