-- ==== Sys2Proof/Machine/FloatWords.lean ====
section
/-! DEFINITION. Classes 0x3 to 0x5: FP32, packed and conversion words, special functions (R115 to R132, R323, R348 to
R356, R379). -/

namespace Sys2Proof.Machine

/-- A 32-bit result and its flags. -/
def f32 (r : Nat × Flags) : Word × Flags := (BitVec.ofNat 32 r.1, r.2)

/-- FADD, FSUB, FMUL on two sources with MOD-F (R348). -/
def fBin (op : RM → Bool → Nat → Nat → Nat × Flags) (m : FMod) (rm : RM) (a b : Word) : Word × Flags :=
  f32 (op rm m.ftz (srcCode fmtFP32 m.absA m.negA m.ftz a.toNat) (srcCode fmtFP32 m.absB m.negB m.ftz b.toNat))

/-- A class 0x3 word with two sources and latency 5. -/
def fSpec (h : Hdr) (rm : RM) (d a b : Opnd) (f : RM → Word → Word → Word × Flags) : WordSpec :=
  laneSpec h 5 d (opNames a 1 ++ opNames b 1) (opReads a 1 ++ opReads b 1)
    fun s c l => f (laneRM c l rm) (rd s c l a) (rd s c l b)

/-- A word that also reads D, with latency 5. -/
def fmaSpec (h : Hdr) (rm : RM) (d a b : Opnd) (f : RM → Word → Word → Word → Word × Flags) : WordSpec :=
  laneSpec h 5 d (opNames a 1 ++ opNames b 1) (opReads a 1 ++ opReads b 1 ++ opReads d 1)
    fun s c l => f (laneRM c l rm) (rd s c l a) (rd s c l b) (rd s c l d)

/-- FADD (R348). -/
def execFadd (h : Hdr) (m : FMod) (d a b : Opnd) (s : State) : Host.Outcome State Fault Refusal :=
  runWord (fSpec h m.rm d a b (fBin (addF fmtFP32) m)) s

/-- FSUB (R348). -/
def execFsub (h : Hdr) (m : FMod) (d a b : Opnd) (s : State) : Host.Outcome State Fault Refusal :=
  runWord (fSpec h m.rm d a b (fBin (subF fmtFP32) m)) s

/-- FMUL (R348). -/
def execFmul (h : Hdr) (m : FMod) (d a b : Opnd) (s : State) : Host.Outcome State Fault Refusal :=
  runWord (fSpec h m.rm d a b (fBin (mulF fmtFP32) m)) s

/-- FFMA's value (R351): sources flushed with FTZ, one rounding. -/
def ffmaW (m : FmaMod) (rm : RM) (a b d : Word) : Word × Flags :=
  let fl := fun x : Word => fmtFP32.flush m.ftz x.toNat
  f32 (fmaF fmtFP32 rm m.ftz m.negP m.negC (fl a) (fl b) (fl d))

/-- FFMA (R351). -/
def execFfma (h : Hdr) (m : FmaMod) (d a b : Opnd) (s : State) : Host.Outcome State Fault Refusal :=
  runWord (fmaSpec h m.rm d a b (ffmaW m)) s

/-- FMIN and FMAX's value (R122, R352). -/
def minmaxW (isMax : Bool) (m : FMod) (a b : Word) : Word × Flags :=
  (BitVec.ofNat 32 (minmaxF fmtFP32 isMax (srcCode fmtFP32 m.absA m.negA m.ftz a.toNat)
    (srcCode fmtFP32 m.absB m.negB m.ftz b.toNat)), 0)

/-- FMIN (R352). -/
def execFmin (h : Hdr) (m : FMod) (d a b : Opnd) (s : State) : Host.Outcome State Fault Refusal :=
  runWord (fSpec h .rne d a b fun _ => minmaxW false m) s

/-- FMAX (R352). -/
def execFmax (h : Hdr) (m : FMod) (d a b : Opnd) (s : State) : Host.Outcome State Fault Refusal :=
  runWord (fSpec h .rne d a b fun _ => minmaxW true m) s

/-- FSET (R355). -/
def execFset (h : Hdr) (cond : Cond) (d : SetDst) (a b : Opnd) (s : State) : Host.Outcome State Fault Refusal :=
  runWord (setSpec h 5 d (opNames a 1 ++ opNames b 1) (opReads a 1 ++ opReads b 1)
    fun s c l => compareF cond (rd s c l a).toNat (rd s c l b).toNat) s

/-- FRND (R354). -/
def execFrnd (h : Hdr) (absA negA ftz : Bool) (rm : RM) (d a : Opnd) (s : State) : Host.Outcome State Fault Refusal :=
  runWord (laneSpec h 5 d (opNames a 1) (opReads a 1) fun s c l =>
    (BitVec.ofNat 32 (frndF (laneRM c l rm) (srcCode fmtFP32 absA negA ftz (rd s c l a).toNat)), 0)) s

/-! ### Packed words (R124, R323, R356) -/

/-- A packed addition or multiplication with MOD-P. -/
def pBin (f : Fmt) (op : Fmt → RM → Bool → Nat → Nat → Nat × Flags) (m : PMod) (rm : RM) (a b : Word) : Word × Flags :=
  packed (fun x y _ => op f rm m.ftz (srcCode f false m.negA m.ftz x) (srcCode f false m.negB m.ftz y)) a b 0

/-- A packed fused multiply-add with MOD-P (fma). -/
def pFma (f : Fmt) (m : FmaMod) (rm : RM) (a b d : Word) : Word × Flags :=
  packed (fun x y z => fmaF f rm m.ftz m.negP m.negC (f.flush m.ftz x) (f.flush m.ftz y) (f.flush m.ftz z)) a b d

/-- HADD2 (R356). -/
def execHadd2 (h : Hdr) (m : PMod) (d a b : Opnd) (s : State) : Host.Outcome State Fault Refusal :=
  runWord (fSpec h m.rm d a b (pBin fmtFP16 addF m)) s

/-- HMUL2 (R356). -/
def execHmul2 (h : Hdr) (m : PMod) (d a b : Opnd) (s : State) : Host.Outcome State Fault Refusal :=
  runWord (fSpec h m.rm d a b (pBin fmtFP16 mulF m)) s

/-- HFMA2 (R356). -/
def execHfma2 (h : Hdr) (m : FmaMod) (d a b : Opnd) (s : State) : Host.Outcome State Fault Refusal :=
  runWord (fmaSpec h m.rm d a b (pFma fmtFP16 m)) s

/-- BADD2 (R323). -/
def execBadd2 (h : Hdr) (m : PMod) (d a b : Opnd) (s : State) : Host.Outcome State Fault Refusal :=
  runWord (fSpec h m.rm d a b (pBin fmtBF16 addF m)) s

/-- BMUL2 (R323). -/
def execBmul2 (h : Hdr) (m : PMod) (d a b : Opnd) (s : State) : Host.Outcome State Fault Refusal :=
  runWord (fSpec h m.rm d a b (pBin fmtBF16 mulF m)) s

/-- BFMA2 (R323). -/
def execBfma2 (h : Hdr) (m : FmaMod) (d a b : Opnd) (s : State) : Host.Outcome State Fault Refusal :=
  runWord (fmaSpec h m.rm d a b (pFma fmtBF16 m)) s

/-! ### Conversions -/

/-- The source of CVT: a pair for a 64-bit type (R106). -/
def cvtRead (s : State) (c : Ctx) (l : Nat) (t : CvtType) (a : Reg) : Nat :=
  if t.is64 then (rdV64 s c l a).toNat else (readV s c.g l a.toNat).toNat

/-- CVT (R128, R129, R339). -/
def execCvt (h : Hdr) (src dst : CvtType) (rm : RM) (ftz : Bool) (d a : Reg) (s : State) :
    Host.Outcome State Fault Refusal :=
  let na := if src.is64 then 2 else 1
  let nd := if dst.is64 then 2 else 1
  runWord { hdr := h, names := vNames d nd ++ vNames a na, reads := readsAll (vReads a na), early := noEarly,
            wait := noWait,
            body := fun c s =>
              let rs := c.on.map fun l => (l, cvtF src dst (laneRM c l rm) ftz (cvtRead s c l src a))
              let ws := rs.flatMap fun r => (pairWrite (vr d) r.1 (BitVec.ofNat 64 r.2.1)).take nd
              regPlan s c 5 ws (rs.map fun r => (r.1, r.2.2)) } s

/-- PACK (R131, R379): an 8-bit type reads D. -/
def execPack (h : Hdr) (t : CvtType) (s32 hi : Bool) (d a b : Reg) (s : State) : Host.Outcome State Fault Refusal :=
  runWord (laneSpec h 5 (vr d) (vNames a 1 ++ vNames b 1)
    (vReads a 1 ++ vReads b 1 ++ if t.is8 then vReads d 1 else [])
    fun s c l => packWord t s32 hi (readV s c.g l a.toNat) (readV s c.g l b.toNat) (readV s c.g l d.toNat)) s

/-! ### Special functions -/

/-- A class 0x5 word: latency 12 (R349). -/
def specialSpec (op : Special) (h : Hdr) (ftz : Bool) (d a : Opnd) : WordSpec :=
  laneSpec h 12 d (opNames a 1) (opReads a 1) fun s c l => f32 (specialF op ftz (rd s c l a).toNat)

/-- FRCP (R132, R349). -/
def execFrcp (h : Hdr) (ftz : Bool) (d a : Opnd) (s : State) : Host.Outcome State Fault Refusal :=
  runWord (specialSpec .rcp h ftz d a) s

/-- FRSQ (R132, R349). -/
def execFrsq (h : Hdr) (ftz : Bool) (d a : Opnd) (s : State) : Host.Outcome State Fault Refusal :=
  runWord (specialSpec .rsq h ftz d a) s

/-- FSQRT (R132, R349). -/
def execFsqrt (h : Hdr) (ftz : Bool) (d a : Opnd) (s : State) : Host.Outcome State Fault Refusal :=
  runWord (specialSpec .sqrt h ftz d a) s

/-- FEX2 (R132, R349). -/
def execFex2 (h : Hdr) (ftz : Bool) (d a : Opnd) (s : State) : Host.Outcome State Fault Refusal :=
  runWord (specialSpec .ex2 h ftz d a) s

/-- FLG2 (R132, R349). -/
def execFlg2 (h : Hdr) (ftz : Bool) (d a : Opnd) (s : State) : Host.Outcome State Fault Refusal :=
  runWord (specialSpec .lg2 h ftz d a) s

/-- FSIN (R132, R349). -/
def execFsin (h : Hdr) (ftz : Bool) (d a : Opnd) (s : State) : Host.Outcome State Fault Refusal :=
  runWord (specialSpec .sin h ftz d a) s

/-- FCOS (R132, R349). -/
def execFcos (h : Hdr) (ftz : Bool) (d a : Opnd) (s : State) : Host.Outcome State Fault Refusal :=
  runWord (specialSpec .cos h ftz d a) s

end Sys2Proof.Machine
end

