-- ==== Sys2Proof/Machine/Control.lean ====
section
/-! DEFINITION. Class 0x0, membership words and pair words: control flow, fibres, lane masks, traps (R42 to R49, R55,
R57, R90 to R95, R285, and the entries R322, R328, R329, R331, R332, R340, R341, R344, R345, R353, R366 to R368, R377,
R393, R407, R409, R412), and the events that release fibres held by WAITK and DETACH. -/

namespace Sys2Proof.Machine

/-! ### NOP and branches -/

/-- A word without register effect: every guard-true lane goes on. -/
def plainSpec (h : Hdr) (body : Ctx → State → Plan) : WordSpec :=
  { hdr := h, names := [], reads := readsAll [], early := noEarly, wait := noWait, body }

/-- NOP (R377). -/
def execNop (h : Hdr) (s : State) : Host.Outcome State Fault Refusal :=
  runWord (plainSpec h fun c s => { st := s, ends := allNext c, comp := .issue }) s

/-- The Form B condition in a lane (R94). -/
def branchTaken (s : State) (c : Ctx) (f : BForm) (l : Nat) : Bool :=
  !f.gen || (readV s c.g l f.greg.toNat).getLsbD f.gbit.toNat != f.gsense

/-- The target of a Form B word. -/
def branchTarget (pc : DWord) (off : BitVec 20) : DWord := pc + 8 * off.signExtend 64

/-- The register that a Form B word's condition names. -/
def branchNames (f : BForm) : List Nat := if f.gen then [f.greg.toNat] else []

/-- Each lane goes to the target or falls through. -/
def branchEnds (s : State) (c : Ctx) (f : BForm) : List (Nat × LaneEnd) :=
  c.on.map fun l => (l, if branchTaken s c f l then LaneEnd.goto (branchTarget c.pc f.off) else .next)

/-- BR (R94, R329). -/
def execBr (h : Hdr) (f : BForm) (s : State) : Host.Outcome State Fault Refusal :=
  runWord { hdr := h, names := branchNames f, reads := readsAll ((branchNames f).map vRef), early := noEarly,
            wait := noWait, body := fun c s => { st := s, ends := branchEnds s c f, comp := .issue } } s

/-- The link pair that CALL writes (R332). -/
def linkWrites (l : Nat) (v : DWord) : List RegWrite :=
  [{ lane := l, reg := vRef 254, val := v.truncate 32 }, { lane := l, reg := vRef 255, val := v.extractLsb' 32 32 }]

/-- CALL (R94, R332): the link is written where the branch is taken. -/
def execCall (h : Hdr) (f : BForm) (s : State) : Host.Outcome State Fault Refusal :=
  runWord { hdr := h, names := branchNames f ++ [254, 255], reads := readsAll ((branchNames f).map vRef),
            early := noEarly, wait := noWait,
            body := fun c s =>
              let ws := (c.on.filter (branchTaken s c f)).flatMap fun l => linkWrites l (c.pc + 8)
              { st := writeBack s c 4 ws [], ends := branchEnds s c f, comp := .cycles 4 } } s

/-- The trap of a branch target that is not a multiple of 8 (R331, R393). -/
def targetTrap (t : DWord) : Option TrapInfo :=
  if t.extractLsb' 0 3 = 0#3 then none else some { trapOf 0x08 with addr := t }

/-- Each lane goes to its own target; lanes with a misaligned one trap. -/
def jumpPlan (s : State) (c : Ctx) (target : Nat → DWord) : Plan :=
  match trapEnds c fun l => targetTrap (target l) with
  | some ends => trapPlan s ends
  | none => { st := s, ends := c.on.map fun l => (l, .goto (target l)), comp := .issue }

/-- BRX (R331). -/
def execBrx (h : Hdr) (a : Opnd) (s : State) : Host.Outcome State Fault Refusal :=
  runWord { hdr := h, names := opNames a 2, reads := readsAll (opReads a 2), early := noEarly, wait := noWait,
            body := fun c s => jumpPlan s c fun l => rd64 s c l a } s

/-- RET (R393). -/
def execRet (h : Hdr) (s : State) : Host.Outcome State Fault Refusal :=
  runWord { hdr := h, names := [254, 255], reads := readsAll [vRef 254, vRef 255], early := noEarly, wait := noWait,
            body := fun c s => jumpPlan s c fun l => rdV64 s c l 254#8 } s

/-! ### Traps -/

/-- TRAP (R285, R407). -/
def execTrap (h : Hdr) (code : BitVec 26) (s : State) : Host.Outcome State Fault Refusal :=
  runWord (plainSpec h fun c s =>
    trapPlan s (allTrap c { trapOf 0x13 with info := code.zeroExtend 32, next := true })) s

/-- Does a debug session have armed breakpoints over the crew (R317)? -/
def bkptArmed (s : State) (gk : Nat) : Bool := ((crewOf s (crewOfGang gk)).map (·.armed)).getD false

/-- BKPT (R285, R317, R328): the trap, or while breakpoints are armed a debug stop with the fibre at the next word. -/
def execBkpt (h : Hdr) (code : BitVec 8) (s : State) : Host.Outcome State Fault Refusal :=
  runWord (plainSpec h fun c s =>
    if bkptArmed s c.gk then
      { st := modCrew s (crewOfGang c.gk) (askHalt (.debug (c.gk % 256) (lowest c) 3 c.pc)), ends := allNext c,
        comp := .issue }
    else trapPlan s (allTrap c { trapOf 0x14 with info := code.zeroExtend 32, next := true })) s

/-- The return point of the trap that a lane's fibre handles. -/
def retPoint (g : Gang) (l : Nat) : DWord := ((tabFind g.fibres l).map (·.retpc)).getD 0

/-- The handler bits of lanes clear. -/
def clearHandlers (ls : List Nat) (g : Gang) : Gang :=
  ls.foldl (fun g l => modFibreG g l fun f => { f with handler := false }) g

/-- ERET (R285, R345): back to the return point, or cause 0x01 outside a handler. -/
def execEret (h : Hdr) (s : State) : Host.Outcome State Fault Refusal :=
  runWord (plainSpec h fun c s =>
    match trapEnds c fun l => if inHandler c.g l then none else some (trapOf 0x01) with
    | some ends => trapPlan s ends
    | none => { st := modGang s c.gk (clearHandlers c.on), ends := c.on.map fun l => (l, .goto (retPoint c.g l)),
                comp := .issue }) s

/-! ### Fibres -/

/-- The predicates of a lane as a word reads them. -/
def readPreds (s : State) (g : Gang) (l : Nat) : BitVec 16 :=
  BitVec.ofNat 16 ((List.range 16).foldl (fun acc i => acc + if readP s g l i then 2 ^ i else 0) 0)

/-- The fibre that FORK creates from lane `l` (R42, R353). -/
def forkFibre (s : State) (c : Ctx) (l : Nat) (target : DWord) (wbase : Nat) : Fibre :=
  let fb := newFibre target wbase
  { fb with preds := readPreds s c.g l, ix0 := readIx s c.g l 0, ix1 := readIx s c.g l 1,
            fmode := ((tabFind c.g.fibres l).map (·.fmode)).getD 0,
            chk := ((tabFind c.g.fibres l).map (·.chk)).getD false, readyAt := c.cyc }

/-- FORK's window base in a lane: WBASE + SignExt32(A). -/
def forkBase (g : Gang) (l : Nat) (a : Word) : Int := (((tabFind g.fibres l).map (·.wbase)).getD 0 : Nat) + a.toInt

/-- What FORK has done so far: the gang, the lanes' ends, the values of D, and whether a lane has trapped. -/
structure ForkAcc where
  g : Gang
  ends : List (Nat × LaneEnd)
  ws : List RegWrite
  stop : Bool
  deriving DecidableEq, Repr

/-- FORK in one lane (R42): a window outside the pool traps, and later lanes fork nothing. -/
def forkLane (s : State) (c : Ctx) (d : Reg) (a : Opnd) (imm : BitVec 17) (r : ForkAcc) (l : Nat) : ForkAcc :=
  if r.stop then { r with ends := r.ends ++ [(l, .stay)] }
  else
    let nb := forkBase c.g l (rd s c l a)
    if nb < 0 || nb + c.g.wsize > c.g.gw * c.g.wsize then
      { r with ends := r.ends ++ [(l, .trap { trapOf 0x05 with info := BitVec.ofInt 32 nb })], stop := true }
    else
      let w := fun v : Word => ({ lane := l, reg := vRef d.toNat, val := v } : RegWrite)
      let ends := r.ends ++ [(l, LaneEnd.next)]
      match firstWith (List.range c.g.gw) fun f => (tabFind r.g.fibres f).isNone with
      | none => { r with ends, ws := r.ws ++ [w 0xFFFFFFFF] }
      | some f =>
        let fb := forkFibre s c l (c.pc + 8 * imm.signExtend 64) nb.toNat
        let g := leaveMasks c.cyc r.g f
        { r with g := { g with fibres := tabPut g.fibres f fb }, ends, ws := r.ws ++ [w (BitVec.ofNat 32 f)] }

/-- FORK (R42, R353): once per bundle, lanes ascending. -/
def execFork (h : Hdr) (d : Reg) (a : Opnd) (imm : BitVec 17) (s : State) : Host.Outcome State Fault Refusal :=
  -- the new fibre copies the predicates and index registers, which are read so (R42, R102)
  let copied := (List.range 16).map pRef ++ (List.range 2).map fun n => ({ file := .ix, n } : RegRef)
  runWord { hdr := h, names := vNames d 1 ++ opNames a 1, reads := readsAll (opReads a 1 ++ copied), early := noEarly,
            wait := noWait,
            body := fun c s =>
              let r := c.on.foldl (forkLane s c d a imm) { g := c.g, ends := [], ws := [], stop := false }
              { st := writeBack (setGang s c.gk r.g) c 4 r.ws [], ends := r.ends, comp := .cycles 4 } } s

/-- The gang that the issue latch names. -/
def issuing (s : State) : Nat := match s.issue with
  | some b => b.gang
  | none => 0

/-- A word's outcome, then the end of its gang if no fibre and no count is left (R43). -/
def thenEnd (gk : Nat) (o : Host.Outcome State Fault Refusal) : Host.Outcome State Fault Refusal :=
  match o with
  | .next s => .next (tryEndGang s gk)
  | o => o

/-- END (R43, R344). -/
def execEndFibre (h : Hdr) (s : State) : Host.Outcome State Fault Refusal :=
  thenEnd (issuing s) (runWord (plainSpec h fun c s =>
    { st := c.on.foldl (fun s l => endFibreS s c.gk l) s, ends := c.on.map fun l => (l, .ended), comp := .issue }) s)

/-- YIELD (R412): not ready until the gang's next regroup. -/
def execYieldFibre (h : Hdr) (s : State) : Host.Outcome State Fault Refusal :=
  runWord (plainSpec h fun c s =>
    { st := modGang s c.gk fun g => c.on.foldl (fun g l => modFibreG g l fun f => { f with bun := 0 }) g,
      ends := allNext c, comp := .issue }) s

/-! ### Lane masks -/

/-- The lanes of a list as mask bits. -/
def laneBits (ls : List Nat) : DWord := BitVec.ofNat 64 (ls.foldl (fun acc l => acc + 2 ^ l) 0)

/-- JOIN (R47, R366). -/
def execJoinMask (h : Hdr) (k : BitVec 4) (s : State) : Host.Outcome State Fault Refusal :=
  runWord (plainSpec h fun c s =>
    { st := modGang s c.gk (maskUpdate c.cyc k.toNat (laneBits c.on) 0), ends := allNext c, comp := .issue }) s

/-- LEAVE (R47, R366). -/
def execLeaveMask (h : Hdr) (k : BitVec 4) (s : State) : Host.Outcome State Fault Refusal :=
  runWord (plainSpec h fun c s =>
    { st := modGang s c.gk (maskUpdate c.cyc k.toNat 0 (laneBits c.on)), ends := allNext c, comp := .issue }) s

/-- WAITK (R48, R409): a fibre whose bit is set is held. -/
def execWaitk (h : Hdr) (k : BitVec 4) (s : State) : Host.Outcome State Fault Refusal :=
  runWord (plainSpec h fun c s =>
    let m := maskOf c.g k.toNat
    { st := s, ends := c.on.map fun l => (l, if m.getLsbD l then .hold (.waitk k.toNat) else .next),
      comp := .lanes (c.on.filter fun l => m.getLsbD l).length }) s

/-- KMOV sD, kN (R368). -/
def execKmovToScalar (h : Hdr) (hi : Bool) (d : Reg) (k : BitVec 4) (s : State) : Host.Outcome State Fault Refusal :=
  runWord (plainSpec h fun c s =>
    let m := maskOf c.g k.toNat &&& gwMask c.g
    regPlan s c 4 [oneWrite { s := true, n := d } (lowest c) (m.extractLsb' (if hi then 32 else 0) 32)] []) s

/-- KMOV kN, sA (R368). -/
def execKmovToMask (h : Hdr) (hi : Bool) (a : Reg) (k : BitVec 4) (s : State) : Host.Outcome State Fault Refusal :=
  runWord { hdr := h, names := [], reads := readsAll (opReads { s := true, n := a } 1), early := noEarly, wait := noWait,
            body := fun c s =>
              { st := modGang s c.gk (maskWrite c.cyc k.toNat hi (rdU s c { s := true, n := a })), ends := allNext c,
                comp := .cycles 4 } } s

/-- ELECT (R49, R341). -/
def execElect (h : Hdr) (p : BitVec 4) (s : State) : Host.Outcome State Fault Refusal :=
  runWord (plainSpec h fun c s =>
    regPlan s c 4 (c.on.map fun l => { lane := l, reg := pRef p.toNat, val := if l = lowest c then 1 else 0 }) []) s

/-! ### Membership -/

/-- Is the crew elastic (R54)? -/
def elastic (s : State) (gk : Nat) : Bool :=
  ((crewOf s (crewOfGang gk)).map fun c => decide (c.gangMin < c.gangMax)).getD false

/-- ATTACH (R55, R322): the first instruction of an attaching gang of an elastic crew, or cause 0x15. -/
def execAttach (h : Hdr) (d : Opnd) (s : State) : Host.Outcome State Fault Refusal :=
  runWord { hdr := h, names := opNames d 1, reads := readsAll [], early := noEarly, wait := noWait, attach := true,
            body := fun c s =>
              if elastic s c.gk && c.g.attaching && !c.g.begun then
                { st := s, ends := c.on.map fun l => (l, .hold (.attach d)), comp := .lanes c.on.length }
              else trapPlan s (allTrap c (trapOf 0x15)) } s

/-- DETACH (R57, R340): the bundle is held until the counters are zero; no other fibre of the gang issues meanwhile. -/
def execDetach (h : Hdr) (s : State) : Host.Outcome State Fault Refusal :=
  runWord (plainSpec h fun c s =>
    { st := s, ends := c.on.map fun l => (l, .hold .detach), comp := .issue }) s

/-- Is a fibre of the gang held at DETACH? -/
def detaching (g : Gang) : Bool := g.fibres.any fun (_, f) => match f.held with
  | some { why := .detach, .. } => true
  | _ => false

/-- Has a gang an arrival that has still to be credited (R340)? -/
def arrivalsOut (s : State) (gk : Nat) : Bool :=
  s.crews.any fun (_, c) => c.bars.any fun b => b.waits.any fun a => a.gang == gk && !a.lanes.isEmpty && a.credited.isNone

/-- DETACH_COMPLETION (R57, R340): the arrivals that the gang has issued are credited and its counters are zero, so the
expectations drop and the gang ends. -/
def execDetachCompletion (gk : Nat) (s : State) : Host.Outcome State Fault Refusal :=
  match gangOf s gk with
  | none => .next s
  | some g => .next (if detaching g && countersZero s g && !arrivalsOut s gk then endGang s gk else s)

/-- GANG_ATTACH (R55, R59): the gangs held at ATTACH when barrier 0 changed phase become members. -/
def execGangAttach (crew : Nat) (s : State) : Host.Outcome State Fault Refusal := .next (flushAttach s crew)

/-- Fibres held at WAITK k. -/
def heldWaitk (g : Gang) (k : Nat) : List Nat :=
  (g.fibres.filter fun (_, f) => match f.held with
    | some { why := .waitk j, .. } => j == k
    | _ => false).map (·.1)

/-- The fibres that leave WAITK k now (R48): every one of them once all the fibres whose bit is set are held there, and those
whose own bit is clear. A bit of a free slot is no fibre's. -/
def waitkFree (g : Gang) (k : Nat) : List Nat :=
  let m := maskOf g k
  let held := heldWaitk g k
  let here := (tabKeys g.fibres).filter fun l => m.getLsbD l
  if here.all held.contains then held else held.filter fun l => !m.getLsbD l

/-- WAITK_RELEASE (R48). -/
def execWaitkRelease (gk k : Nat) (s : State) : Host.Outcome State Fault Refusal :=
  match gangOf s gk with
  | none => .next s
  | some g => .next (releaseLanes s gk (waitkFree g k))

/-! ### Pair words (R90 to R95) -/

/-- The value and flags of a slot: D op A, with M2 on A for F codes (R91). -/
def slotValue (x : Slot) (d a : Word) : Word × Flags :=
  let m : FMod := { absB := x.abs, absA := false, negB := x.neg, negA := false, ftz := false, rm := .rne }
  let p : PMod := { negB := x.neg, negA := false, ftz := false, rm := .rne }
  match x.op with
  | .iadd => (d + a, 0)
  | .isub => (d - a, 0)
  | .imin => (minmaxI false false d a, 0)
  | .imax => (minmaxI true false d a, 0)
  | .mov => (a, 0)
  | .and => (d &&& a, 0)
  | .or => (d ||| a, 0)
  | .xor => (d ^^^ a, 0)
  | .shl => (shlW d a, 0)
  | .shr => (shrW d a, 0)
  | .sar => (sarW d a, 0)
  | .not => (~~~a, 0)
  | .fadd => fBin (addF fmtFP32) m .rne d a
  | .fsub => fBin (subF fmtFP32) m .rne d a
  | .fmul => fBin (mulF fmtFP32) m .rne d a
  | .fmin => minmaxW false m d a
  | .fmax => minmaxW true m d a
  | .hadd2 => pBin fmtFP16 addF p .rne d (absPacked x.abs a)
  | .hmul2 => pBin fmtFP16 mulF p .rne d (absPacked x.abs a)
  | .badd2 => pBin fmtBF16 addF p .rne d (absPacked x.abs a)
  | .bmul2 => pBin fmtBF16 mulF p .rne d (absPacked x.abs a)
where
  /-- M2 bit 1 takes the absolute value of each element of A. -/
  absPacked (abs : Bool) (a : Word) : Word := if abs then a &&& 0x7FFF7FFF else a

/-- The registers a slot reads. -/
def slotReads (x : Slot) : List Nat :=
  match x.op with
  | .mov | .not => [x.a.toNat]
  | _ => [x.d.toNat, x.a.toNat]

/-- More than two distinct registers are read from one bank (R92). Every window base gives the same answer, since it
rotates the banks. -/
def bankTrap (a b : Slot) (_ : State) (_ : Gang) (_ : List Nat) : Option TrapInfo :=
  let regs := (slotReads a ++ slotReads b).eraseDups
  if (List.range 4).any fun k => (regs.filter fun n => n % 4 == k).length > 2 then
    some { trapOf 0x04 with info := 5 }
  else none

/-- A slot's guard in a lane. -/
def slotOn (s : State) (g : Gang) (x : Slot) (l : Nat) : Bool := guardOf s g x.ge x.gp x.gs l

/-- What a lane reads for a slot: its guard, and its sources where the guard is true. -/
def slotLaneReads (x : Slot) (s : State) (g : Gang) (l : Nat) : List RegRef :=
  (if x.ge then [pRef x.gp.toNat] else []) ++ if slotOn s g x l then (slotReads x).map vRef else []

/-- The latency of a slot (Table WORD-11). -/
def slotLat (x : Slot) : Nat := if x.op.isF then 5 else 4

/-- A slot's results: lane, value and flags. -/
def slotResults (s : State) (c : Ctx) (x : Slot) : List (Nat × Word × Flags) :=
  (c.on.filter (slotOn s c.g x)).map fun l =>
    (l, slotValue x (readV s c.g l x.d.toNat) (readV s c.g l x.a.toNat))

/-- A slot's results are written. -/
def slotWrite (c : Ctx) (x : Slot) (rs : List (Nat × Word × Flags)) (s : State) : State :=
  writeBack s c (slotLat x) (rs.map fun r => { lane := r.1, reg := vRef x.d.toNat, val := r.2.1 })
    (rs.map fun r => (r.1, r.2.2))

/-- Do two slots write one pool register, in lanes whose windows overlap? -/
def slotsClash (g : Gang) (a b : Slot) (ra rb : List (Nat × Word × Flags)) : Bool :=
  ra.any fun x => rb.any fun y => regPlace g x.1 (vRef a.d.toNat) == regPlace g y.1 (vRef b.d.toNat)

/-- The header that a pair word behaves as (R90). -/
def pairHdr (stall : BitVec 3) : Hdr := { stall, setc := 7, waitm := 0, ge := false, gp := 0, gs := false }

/-- A pair word (R90 to R93): both slots read in the issue cycle, each writes after its own latency. -/
def execPairWord (stall : BitVec 3) (a b : Slot) (s : State) : Host.Outcome State Fault Refusal :=
  runWord { hdr := pairHdr stall, names := [a.d.toNat, a.a.toNat, b.d.toNat, b.a.toNat],
            reads := fun s g l => slotLaneReads a s g l ++ slotLaneReads b s g l, early := bankTrap a b, wait := noWait,
            body := fun c s =>
              let ra := slotResults s c a
              let rb := slotResults s c b
              { st := if slotsClash c.g a b ra rb && Config.freeBool (s.free * 16777216 + 8420000)
                  then slotWrite c a ra (slotWrite c b rb s) else slotWrite c b rb (slotWrite c a ra s)
                ends := allNext c
                comp := .issue } } s

end Sys2Proof.Machine
end

