-- ==== Sys2Proof/Machine/LoadStore.lean ====
section
/-! DEFINITION. The words of class 0x7 that address memory, the atomics and MWAIT of class 0x8, and FENCE (R144 to R146,
R175 to R188, and the entries R319 to R321, R350, R369 to R371, R375, R383, R389, R400 to R403), with the events of leases,
monitors, fences and windows. -/

namespace Sys2Proof.Machine

/-! ### Loads -/

/-- The registers that a word's data names. -/
def dataNames (d : Reg) (m : MAddr) : List Nat := vNames d (loadRegs (sizeBytes m.size)) ++ opNames m.a (addrRegs m.space)

/-- LD (R369). -/
def execLd (h : Hdr) (d : Reg) (m : MAddr) (ord : Order) (s : State) : Host.Outcome State Fault Refusal :=
  runWord { hdr := h, names := dataNames d m, reads := readsAll (opReads m.a (addrRegs m.space)), early := cbEarly m.space,
            wait := acqWait,
            body := fun c s =>
              let acq := ord == .acq || ord == .ar
              let rel := ord == .ar
              let s0 := if rel then returnNear s c.gk c.on else s
              memPlan s0 c (fun l => checkSpace s c m.space .read (sizeBytes m.size) (effAddr s c m l) l) fun s ls =>
                let accs := ls.map fun a => newAcc c a (.load d.toNat acq) (acq || !cacheable a) rel
                let s := addAccs s (c.seq + 1) accs
                { st := if acq then addAcqs s c.gk c.seq c.on else s, ends := allNext c, comp := .lanes accs.length } } s

/-- LDC in one lane once its address is checked (R145, R146, R370): it reads a FULL granule that no earlier LDC waits on,
and else its fibre is held. -/
def ldcLane (c : Ctx) (d : Reg) (clr : Bool) (r : State × List (Nat × LaneEnd)) (x : LaneAddr × Nat) :
    State × List (Nat × LaneEnd) :=
  let s := r.1
  let a := x.1
  let id := c.seq + 1 + x.2
  let acc := newAcc c a (.ldc d.toNat clr) false false
  let g := a.pa / 16
  if !a.saved && granOf s g == .full && (ldcWaiters s g).isEmpty then
    let ws := wordsOf (spadRead s a.pa a.size) (loadRegs a.size)
    let s := { s with accs := tabPut s.accs id { acc with st := .done [(a.lane, ws)] } }
    (if clr then setGran s g .empty else s, r.2 ++ [(a.lane, .next)])
  else ({ s with accs := tabPut s.accs id acc }, r.2 ++ [(a.lane, .hold (.ldc id))])

/-- LDC (R146, R370). -/
def execLdc (h : Hdr) (d : Reg) (m : MAddr) (clr : Bool) (s : State) : Host.Outcome State Fault Refusal :=
  runWord { hdr := h, names := dataNames d m, reads := readsAll (opReads m.a 1), early := noEarly,
            wait := storeWait fun c s l => checkSpace s c m.space .read (sizeBytes m.size) (effAddr s c m l) l,
            body := fun c s =>
              memPlan s c (fun l => checkSpace s c m.space .read (sizeBytes m.size) (effAddr s c m l) l) fun s ls =>
                match trapEnds c fun l => (ls.find? (·.lane == l)).bind fun a =>
                    if !a.saved && granOf s (a.pa / 16) == .failed then
                      some (cfrTrap s (crewOfGang c.gk) 0x11 (crewD s c.gk).cfr.bar) else none with
                | some ends => trapPlan s ends
                | none =>
                  let r := ls.zipIdx.foldl (ldcLane c d clr) (s, [])
                  { st := r.1, ends := r.2, comp := .lanes ls.length } } s

/-- The scratchpad offset or RS address of the word that a lane of LDT or STT moves (R144). -/
def lineWord (col : Bool) (a l : Nat) : Nat :=
  let tile := a / 4096 * 4096
  let r := a / 128 % 32
  let k := a / 4 % 32
  let h := l / 32
  if col then tile + 128 * (l % 32) + 4 * ((k + h) % 32) else tile + 128 * ((r + h) % 32) + 4 * (l % 32)

/-- Is an address bit misplaced for LDT and STT (R144)? -/
def lineMisplaced (col : Bool) (a : Nat) : Bool := if col then a / 128 % 32 != 0 || a % 4 != 0 else a % 128 != 0

/-- The parts of an LDT: the lanes whose words lie in one 16-byte granule are read together (R181). -/
def lineAccs (c : Ctx) (d : Reg) (ls : List LaneAddr) : List Acc :=
  (ls.map (·.pa / 16)).eraseDups.filterMap fun g =>
    let here := ls.filter (·.pa / 16 == g)
    here.head?.map fun a =>
      { newAcc c { a with va := a.va - BitVec.ofNat 64 (a.pa % 16), pa := 16 * g, size := 16 }
          (.loadLine d.toNat (here.map (·.pa))) false false with lanes := here.map (·.lane) }

/-- The checks of a lane of LDT or STT. -/
def lineReq (s : State) (c : Ctx) (a : Opnd) (col rs : Bool) (l : Nat) : Except TrapInfo LaneAddr :=
  let x := rdU s c a
  if lineMisplaced col x.toNat then .error (addrTrap 0x08 (x.zeroExtend 64))
  else
    let base := if rs then 0 else (crewD s c.gk).spBase.getD (halfOf (crewD s c.gk) c.g.core) 0
    let w := lineWord col (base + x.toNat) l - base
    checkSpace s c (if rs then .rs else .sp) .read 4 (BitVec.ofNat 64 w) l

/-- LDT (R144, R371). -/
def execLdt (h : Hdr) (d : Reg) (a : Opnd) (col rs : Bool) (s : State) : Host.Outcome State Fault Refusal :=
  runWord { hdr := h, names := vNames d 1 ++ opNames a 1, reads := readsAll (opReads a 1), early := noEarly, wait := acqWait,
            body := fun c s =>
              memPlan s c (lineReq s c a col rs) fun s ls =>
                { st := addAccs s (c.seq + 1) (lineAccs c d ls), ends := allNext c, comp := .lanes ls.length } } s

/-! ### Stores -/

/-- The bytes that a lane stores: the low `n` of its registers from D on. -/
def dataBytes (s : State) (c : Ctx) (d : Reg) (n l : Nat) : List Byte :=
  ((List.range (loadRegs n)).flatMap fun i => bytesOfNat 4 (readV s c.g l (d.toNat + i)).toNat).take n

/-- Stores to scratchpad or bank: written now, or, behind a release, an earlier waiting store or a saved target crew (R140), in
their turn. -/
def spStores (s : State) (c : Ctx) (rel : Bool) (accs : List Acc) : Plan :=
  let late := fun a : Acc => rel || rsStalls s a || ownSpQueue s c.gk a.lanes s.nextId
  let s' := (accs.filter fun a => !late a).foldl storeThere s
  let rest := accs.filter late
  { st := addAccs s' (c.seq + 1) rest, ends := allNext c, comp := .lanes ((rest.map accCount).foldl (· + ·) 0) }

/-- The plan of a word that stores bytes per lane (R170, R172, R173). -/
def storePlan (s : State) (c : Ctx) (rel : Bool) (ls : List LaneAddr) (bytes : Nat → List Byte) : Plan :=
  let ls := accOrder s ls
  let accs := ls.map fun a => newAcc c a (.store (bytes a.lane)) true rel
  match ls.head? with
  | none => { st := s, ends := allNext c, comp := .issue }
  | some first =>
    if first.space = .gl then
      let s := if rel then s else ls.foldl (fun s a => l1Update s c.g.core a.pa (bytes a.lane)) s
      { st := addAccs s (c.seq + 1) accs, ends := allNext c, comp := .lanes accs.length }
    else spStores s c rel accs

/-- ST (R400, R401). -/
def execSt (h : Hdr) (d : Reg) (m : MAddr) (ord : Order) (s : State) : Host.Outcome State Fault Refusal :=
  let n := sizeBytes m.size
  let rel := ord == .rel
  runWord { hdr := h, names := dataNames d m, reads := readsAll (opReads m.a (addrRegs m.space) ++ vReads d (loadRegs n)),
            early := cbEarly m.space,
            wait := if rel then acqWait else storeWait fun c s l => checkSpace s c m.space .write n (effAddr s c m l) l,
            body := fun c s =>
              let s0 := if rel then returnNear s c.gk c.on else s
              memPlan s0 c (fun l => checkSpace s c m.space .write n (effAddr s c m l) l) fun s' ls =>
                storePlan s' c rel ls fun l => dataBytes s c d n l } s

/-- The stores of one bundle to one granule as one access (R402). -/
def stfAccs (c : Ctx) (rel : Bool) (ls : List LaneAddr) (bytes : Nat → List Byte) : List Acc :=
  (ls.map (·.pa / 16)).eraseDups.filterMap fun g =>
    let here := ls.filter (·.pa / 16 == g)
    here.head?.map fun a =>
      { newAcc c { a with va := a.va - BitVec.ofNat 64 (a.pa % 16), pa := 16 * g, size := 16 }
          (.stf (here.map fun x => (x.pa, bytes x.lane))) true rel with lanes := here.map (·.lane) }

/-- STF (R145, R402). -/
def execStf (h : Hdr) (d : Reg) (m : MAddr) (ord : Order) (s : State) : Host.Outcome State Fault Refusal :=
  let n := sizeBytes m.size
  let rel := ord == .rel
  runWord { hdr := h, names := dataNames d m, reads := readsAll (opReads m.a 1 ++ vReads d (loadRegs n)), early := noEarly,
            wait := if rel then acqWait else storeWait fun c s l => checkSpace s c m.space .write n (effAddr s c m l) l,
            body := fun c s =>
              let s0 := if rel then returnNear s c.gk c.on else s
              memPlan s0 c (fun l => checkSpace s c m.space .write n (effAddr s c m l) l) fun s' ls =>
                spStores s' c rel (stfAccs c rel (accOrder s' ls) fun l => dataBytes s c d n l) } s

/-- STT (R144, R403). -/
def execStt (h : Hdr) (d : Reg) (a : Opnd) (col rs : Bool) (s : State) : Host.Outcome State Fault Refusal :=
  runWord { hdr := h, names := vNames d 1 ++ opNames a 1, reads := readsAll (opReads a 1 ++ vReads d 1), early := noEarly,
            wait := storeWait fun c s l => lineReq s c a col rs l,
            body := fun c s =>
              memPlan s c (lineReq s c a col rs) fun s' ls => storePlan s' c false ls fun l => dataBytes s c d 4 l } s

/-! ### Atomics -/

/-- The groups of lanes that target one address, as accesses (R183). -/
def rmwAccs (c : Ctx) (ls : List LaneAddr) (o : RmwOp) (arg : Nat → Nat × Nat) (ret : Option Nat) (acq rel : Bool) :
    List Acc :=
  (ls.map (·.va)).eraseDups.filterMap fun va =>
    let here := ls.filter (·.va == va)
    here.head?.map fun a =>
      { newAcc c a (.rmw o (here.map fun x => (x.lane, arg x.lane)) ret acq) true rel with lanes := here.map (·.lane) }

/-- An atomic on scratchpad: performed now if its turn has come, its results landing later. -/
def rmwNow (rel : Bool) (r : State × List Acc) (a : Acc) : State × List Acc :=
  let s := r.1
  if a.space = .gl || rel || rsStalls s a || ownSpQueue s a.gang a.lanes s.nextId then (s, r.2 ++ [a])
  else
    match a.op with
    | .rmw o args ret _ =>
      let x := rmwThere s a.pa a.size o args
      if ret.isSome then (x.1, r.2 ++ [{ a with st := .done x.2 }]) else (x.1, r.2)
    | _ => (s, r.2 ++ [a])

/-- The lanes whose atomic is still to be performed. -/
def waitingLanes (accs : List Acc) : List Nat := (accs.filter accWaits).flatMap (·.lanes)

/-- ATOM, ATOMCAS and RED over their lanes' checked addresses (R183, R320). -/
def rmwPlan (s : State) (c : Ctx) (ls : List LaneAddr) (o : RmwOp) (arg : Nat → Nat × Nat) (ret : Option Nat)
    (ord : Order) : Plan :=
  let acq := ord == .acq || ord == .ar
  let rel := ord == .rel || ord == .ar
  let r := (rmwAccs c ls o arg ret acq rel).foldl (rmwNow rel) (s, [])
  let s := addAccs r.1 (c.seq + 1) r.2
  { st := if acq then addAcqs s c.gk c.seq (waitingLanes r.2) else s, ends := allNext c,
    comp := .lanes ((r.2.map accCount).foldl (· + ·) 0) }

/-- The shape of ATOM, ATOMCAS and RED: `cmp` reads ATOMCAS's comparison value. -/
def rmwSpec (h : Hdr) (o : RmwOp) (d : Reg) (a : Opnd) (extra : Option Opnd) (sp : Space) (wide : Bool) (ord : Order)
    (ret : Bool) : WordSpec :=
  let k := if wide then 2 else 1
  let n := 4 * k
  let req := fun (c : Ctx) (s : State) l => checkSpace s c sp .atomic n (bareAddr s c sp a l) l
  let rel := ord == .rel || ord == .ar
  let val := fun (s : State) (c : Ctx) l => if wide then (rdV64 s c l d).toNat else (readV s c.g l d.toNat).toNat
  let cmp := fun (s : State) (c : Ctx) l => match extra with
    | none => 0
    | some b => if wide then (rd64 s c l b).toNat else (rd s c l b).toNat
  let ex := match extra with
    | none => []
    | some b => opReads b k
  let exn := match extra with
    | none => []
    | some b => opNames b k
  { hdr := h, names := vNames d k ++ opNames a (addrRegs sp) ++ exn,
    reads := readsAll (opReads a (addrRegs sp) ++ vReads d k ++ ex), early := noEarly,
    wait := if sp = .gl ∨ rel then acqWait else storeWait req,
    body := fun c s =>
      let s0 := if rel then returnNear s c.gk c.on else s
      memPlan s0 c (req c s) fun s' ls =>
        rmwPlan s' c ls o (fun l => (val s c l, cmp s c l)) (if ret then some d.toNat else none) ord }

/-- ATOM (R319, R320). -/
def execAtom (h : Hdr) (op : AtomOp) (d : Reg) (a : Opnd) (sp : Space) (wide : Bool) (ord : Order) (s : State) :
    Host.Outcome State Fault Refusal :=
  runWord (rmwSpec h (.op op) d a none sp wide ord true) s

/-- ATOMCAS (R321): D holds the new value in, B the comparison. -/
def execAtomcas (h : Hdr) (d : Reg) (a b : Opnd) (sp : Space) (wide : Bool) (ord : Order) (s : State) :
    Host.Outcome State Fault Refusal :=
  runWord (rmwSpec h .cas d a (some b) sp wide ord true) s

/-- RED (R389). -/
def execRed (h : Hdr) (op : AtomOp) (d : Reg) (a : Opnd) (sp : Space) (wide : Bool) (ord : Order) (s : State) :
    Host.Outcome State Fault Refusal :=
  runWord (rmwSpec h (.op op) d a none sp wide ord false) s

/-! ### MWAIT (R186 to R188, R375) -/

/-- MWAIT's checked address: global memory only, no window (R141, R186). -/
def mwaitReq (wide : Bool) (a : Opnd) (c : Ctx) (s : State) (l : Nat) : Except TrapInfo LaneAddr :=
  checkSpace s c .gl .watch (if wide then 8 else 4) (rd64 s c l a) l

/-- Are the 4,096 monitors of the slice that is home to a line taken (R187)? A slice that a lost die held has none. -/
def monsTaken (s : State) (line : Nat) : Bool :=
  let home := homeOf s line
  4096 ≤ (s.cache.mons.filter fun (_, m) => homeOf s (m.pa / 128) == home).length

/-- The observed value, read at the home; the core's copy of the line is dropped (R169, R178). -/
def mwaitRead (s : State) (core pa n : Nat) : State × Nat :=
  let line := pa / 128
  let s := if holderOf s line = some core then s else l1Drop (recallFrom s none line) core line
  (s, natOfBytes (memRead s pa n))

/-- The observed value as D. -/
def mwaitWrites (d : Reg) (wide : Bool) (l v : Nat) : List RegWrite :=
  (pairWrite { s := false, n := d } l (BitVec.ofNat 64 v)).take (if wide then 2 else 1)

/-- MWAIT in one lane (R186): it writes D, or sleeps on its monitor. -/
def mwaitLane (c : Ctx) (d : Reg) (wide : Bool) (b : Opnd) (s0 : State) (r : State × List RegWrite × List (Nat × LaneEnd))
    (x : LaneAddr × Nat) : State × List RegWrite × List (Nat × LaneEnd) :=
  let a := x.1
  let rd0 := mwaitRead r.1 c.g.core a.pa a.size
  let s := rd0.1
  let want := if wide then (rdV64 s0 c a.lane d).toNat else (readV s0 c.g a.lane d.toNat).toNat
  let t := (rd s0 c a.lane b).toNat
  if rd0.2 ≠ want || t = 0 || monsTaken s (a.pa / 128) then
    (s, r.2.1 ++ mwaitWrites d wide a.lane rd0.2, r.2.2 ++ [(a.lane, .next)])
  else
    let id := c.seq + 1 + x.2
    let m : Monitor := { gang := c.gk, lane := a.lane, d := d.toNat, wide, va := a.va, pa := a.pa, armed := s.time.now,
                         upto := if t = 0xFFFFFFFF then none else some (s.time.now + t), woken := false, seq := c.seq }
    ({ s with cache := { s.cache with mons := tabPut s.cache.mons id m } }, r.2.1, r.2.2 ++ [(a.lane, .hold (.mwait id))])

/-- MWAIT waits at issue behind the fibre's own accesses to its bytes and the core's stores to its line (R171, R172). -/
def mwaitWait (wide : Bool) (a : Opnd) (c : Ctx) (s : State) : Bool :=
  storeWait (mwaitReq wide a) c s || c.on.any fun l => match mwaitReq wide a c s l with
    | .error _ => false
    | .ok x => coreStorePending s c.g.core (x.pa / 128) s.nextId

/-- The lanes that are held. -/
def heldEnds (ends : List (Nat × LaneEnd)) : Nat := (ends.filter fun e => match e.2 with
  | .hold _ => true
  | _ => false).length

/-- MWAIT (R186, R375). -/
def execMwait (h : Hdr) (wide : Bool) (d : Reg) (a b : Opnd) (s : State) : Host.Outcome State Fault Refusal :=
  let k := if wide then 2 else 1
  runWord { hdr := h, names := vNames d k ++ opNames a 2 ++ opNames b 1,
            reads := readsAll (opReads a 2 ++ opReads b 1 ++ vReads d k), early := noEarly, wait := mwaitWait wide a,
            body := fun c s =>
              memPlan s c (mwaitReq wide a c s) fun s' ls =>
                match trapEnds c fun l => (ls.find? (·.lane == l)).bind fun x =>
                    if readsPoison s' x.pa x.size || addrLost s' x.pa then some (addrTrap 0x0F x.va) else none with
                | some ends => trapPlan s' ends
                | none =>
                  let r := ls.zipIdx.foldl (mwaitLane c d wide b s) (s', [], [])
                  { st := writeBack r.1 c 4 r.2.1 [], ends := r.2.2, comp := .lanes (heldEnds r.2.2) } } s

/-- A sleeping monitor's fibre wakes: the address translates anew, the value is read, the fibre is released (R186). -/
def wakeMon (s : State) (id : Nat) (m : Monitor) : State :=
  let s := { s with cache := { s.cache with mons := tabDel s.cache.mons id } }
  match gangOf s m.gang with
  | none => s
  | some g =>
    let n := if m.wide then 8 else 4
    match checkGL s g.core (crewD s m.gang) .watch n m.va m.lane (xlIdx s m.lane) with
    | .error t => trapHeld s m.gang m.lane t
    | .ok a =>
      if addrLost s a.pa || readsPoison s a.pa n then trapHeld s m.gang m.lane (addrTrap 0x0F m.va)
      else
        let r := mwaitRead s g.core a.pa n
        let ws := mwaitWrites (BitVec.ofNat 8 m.d) m.wide m.lane r.2
        let s := modGang r.1 m.gang fun g => writeRegs (cycOf r.1 g.core) m.seq 4 [m.lane] g ws
        releaseLanes { s with free := s.free + 1 } m.gang [m.lane]

/-- MONITOR_WAKE (R187): a write to the line, or a recall of monitors, wakes the sleeper. -/
def execMonitorWake (id : Nat) (s : State) : Host.Outcome State Fault Refusal :=
  match tabFind s.cache.mons id with
  | some m => .next (if m.woken then wakeMon s id m else s)
  | none => .next s

/-- MONITOR_TIMEOUT (R187): DT has reached the arming time plus the timeout. -/
def execMonitorTimeout (id : Nat) (s : State) : Host.Outcome State Fault Refusal :=
  match tabFind s.cache.mons id with
  | some m => .next (match m.upto with
    | some t => if timeReached s t then wakeMon s id m else s
    | none => s)
  | none => .next s

/-! ### PREF and FENCE -/

/-- PREF (R383): a level-0 request fetches the line into L1 under a lease; nothing faults. -/
def execPref (h : Hdr) (llc : Bool) (a : Opnd) (off : BitVec 11) (s : State) : Host.Outcome State Fault Refusal :=
  let m : MAddr := { space := .gl, size := .b8, a, off }
  runWord { hdr := h, names := opNames a 2, reads := readsAll (opReads a 2), early := noEarly, wait := noWait,
            body := fun c s =>
              let ls := c.on.filterMap fun l => okOf (checkSpace s c .gl .read 1 (effAddr s c m l) l)
              let ls := ls.filter cacheable
              let s := addTlbs s c.g.core (crewD s c.gk).part ls
              let accs := if llc then [] else ls.map fun x => { newAcc c x .pref false false with lanes := [] }
              { st := addAccs s (c.seq + 1) accs, ends := allNext c, comp := .issue } } s

/-- FENCE (R175, R176, R350): the lanes are held; exclusive lines that the scope needs are returned, and words fetched
ahead are discarded (R169). -/
def execFence (h : Hdr) (scope : Scope) (s : State) : Host.Outcome State Fault Refusal :=
  runWord (plainSpec h fun c s =>
    let s := fetchDrop s c.gk
    let s := if scopeB (crewD s c.gk).paired scope then returnNear s c.gk c.on else s
    { st := s, ends := c.on.map fun l => (l, .hold (.fence scope)), comp := .lanes c.on.length }) s

/-- The scope of the FENCE that holds a fibre, with its issue number. -/
def fenceHold (g : Gang) (l : Nat) : Option (Scope × Nat) :=
  (tabFind g.fibres l).bind fun f => f.held.bind fun h => match h.why with
    | .fence sc => some (sc, h.seq)
    | _ => none

/-- FENCE_RELEASE (R175, R350): the lane's conditions hold; lanes of the same word that meet theirs now go on with it. -/
def execFenceRelease (gk lane : Nat) (s : State) : Host.Outcome State Fault Refusal :=
  match gangOf s gk with
  | none => .next s
  | some g =>
    match fenceHold g lane with
    | none => .next s
    | some (sc, seq) =>
      let ls := (tabKeys g.fibres).filter fun l => fenceHold g l == some (sc, seq) && fenceMet s gk l seq sc
      .next (if ls.contains lane then releaseLanes s gk ls else s)

/-! ### Leases -/

/-- READ_LEASE_EXPIRY (R169): a dead copy leaves L1; the home may then drop the line's record into HORIZON (R168). -/
def execReadLeaseExpiry (core line : Nat) (s : State) : Host.Outcome State Fault Refusal :=
  let l1 := s.cache.l1.filter fun x => !(x.core == core && x.line == line && x.exp ≤ readingOf s core + epsilon)
  let s := { s with cache := { s.cache with l1 := l1 } }
  match tabFind s.cache.dir line with
  | some r =>
    if r.holder.isNone && Config.freeBool (s.free * 16777216) then
      let home := (homeOf s line).getD 0
      let horizon := spSet 0 s.cache.horizon home (max (spGet 0 s.cache.horizon home) r.emax)
      .next { s with free := s.free + 1, cache := { s.cache with dir := tabDel s.cache.dir line, horizon := horizon } }
    else .next { s with free := s.free + 1 }
  | none => .next s

/-- A core has an atomic waiting on a line. -/
def nearRequest (s : State) (core line : Nat) : Bool :=
  s.accs.any fun (_, a) => a.core == core && a.space == .gl && a.pa / 128 == line && a.st == .pending && !a.window &&
    (match a.op with
    | .rmw .. => true
    | _ => false)

/-- EXCLUSIVE_LEASE_GRANT (R185): to a near request, when no one holds the line and by the home's reading no read lease is
live. -/
def execExclusiveLeaseGrant (core line : Nat) (s : State) : Host.Outcome State Fault Refusal :=
  let r := dirOf s line
  let h := homeReading s (128 * line)
  if nearRequest s core line && r.holder.isNone && r.emax + epsilon ≤ h && !addrLost s (128 * line) then
    let part := match s.accs.find? fun (_, a) => a.core == core && a.pa / 128 == line && a.st == .pending with
      | some (_, a) => ((crewOf s a.crew).getD noCrew).part
      | none => 0
    .next (setDir s line { r with holder := some (core, h + (partOf s part).leaseMax), was := memRead s (128 * line) 128 })
  else .next s

/-- EXCLUSIVE_LEASE_RECALL (R185). -/
def execExclusiveLeaseRecall (line : Nat) (s : State) : Host.Outcome State Fault Refusal := .next (returnLine s line)

/-- EXCLUSIVE_LEASE_EXPIRY (R185): the lease is no longer live by the holder's reading, and it returns the line. -/
def execExclusiveLeaseExpiry (line : Nat) (s : State) : Host.Outcome State Fault Refusal :=
  match (dirOf s line).holder with
  | some (core, t) => .next (if t ≤ readingOf s core + epsilon then returnLine s line else s)
  | none => .next s

/-! ### Granules, saved crews, windows -/

/-- LDC_FILL (R146): the accesses waiting on a granule meet its state. `crew` is the crew of the granule. -/
def execLdcFill (crew granule : Nat) (s : State) : Host.Outcome State Fault Refusal :=
  .next (if granule / 1048576 = crew then ldcServe s granule else s)

/-- RS_TARGET_RESTORED (R140): the target crew of a waiting RS access is back or gone, or was never away. An access that holds
no fibre traps late if its target has gone; an LDC goes on if its granule is full. -/
def execRsTargetRestored (id : Nat) (s : State) : Host.Outcome State Fault Refusal :=
  match tabFind s.accs id with
  | none => .next s
  | some a =>
    if a.space != .rs || a.st != .pending then .next s
    else if rsLost s a then .next (rsStranded s id a)
    else .next (match a.op with
      | .ldc .. => ldcServe s (a.pa / 16)
      | _ => s)

/-- HOST_STORE_ACKNOWLEDGE (R196): a store to a host or peer window is acknowledged; that is its settle time. -/
def execHostStoreAcknowledge (id : Nat) (s : State) : Host.Outcome State Fault Refusal :=
  match tabFind s.accs id with
  | none => .next s
  | some a =>
    if a.st ≠ .forwarded then .next s
    else
      -- a crew that has retired meanwhile leaves the wait to its shift (R68)
      let shifts := tabMap s.sched.shifts fun _ (x : Shift) =>
        if x.acks.contains id then { x with settle := max x.settle s.time.now, acks := x.acks.filter (· != id) } else x
      .next (noteSettle { s with accs := tabDel s.accs id, sched := { s.sched with shifts } } a.crew s.time.now)

end Sys2Proof.Machine
end

