-- ==== Sys2Proof/Machine/BarWords.lean ====
section
/-! DEFINITION. The barrier words of class 0x8 (R193, R221 to R226, R324) and the events that credit arrivals and release
waiting fibres. -/

namespace Sys2Proof.Machine

/-- The crew of the bundle has barrier `k`. -/
def hasBar (s : State) (c : Ctx) (k : Nat) : Bool := (barOf s (crewOfGang c.gk) k).isSome

/-- The trap of a barrier word at an index that the crew does not have, or by a gang that may not arrive (R224, Table TRAP-1):
the copy fault record's address and handle, ERR 0, cause 0 and the barrier named (notes/assumptions/30.md). -/
def badBarTrap (s : State) (ck k : Nat) : TrapInfo :=
  match crewOf s ck with
  | none => { trapOf 0x10 with info := BitVec.ofNat 32 k }
  | some c => { trapOf 0x10 with addr := c.cfr.addr, info := BitVec.ofNat 32 (c.cfr.handle * 65536 + k) }

/-- The trap of a misuse of a barrier: of a barrier that the crew has, its ERR and the copy fault record (R219). -/
def barTrap (s : State) (ck k : Nat) : TrapInfo :=
  if (barOf s ck k).isSome then cfrTrap s ck 0x10 k else badBarTrap s ck k

/-! ### BARINIT -/

/-- BARINIT on a barrier (R223): arrivals not yet credited to the current phase are to be credited anew. -/
def initBar (member : Bool) (expect : Nat) (gangs : List Nat) (b : Barrier) : Barrier :=
  { b with arrived := 0, bytes := 0, err := 0, member, expect := if member then b.expect else expect,
           mems := if member then gangs.map fun g => { gang := g, f := b.phase, arrived := [], dropped := none } else [],
           waits := b.waits.map fun a => { a with credited := none, there := a.there || a.credited.isSome } }

/-- BARINIT (R54, R223): once per bundle, or cause 0x10 for a bad index, a count above 0xFFFF, or barrier 0 of an elastic
crew. -/
def execBarinit (h : Hdr) (a : Opnd) (member : Bool) (bar : BitVec 5) (s : State) : Host.Outcome State Fault Refusal :=
  let k := bar.toNat
  runWord { hdr := h, names := if member then [] else opNames a 1, reads := readsAll (if member then [] else opReads a 1),
            early := noEarly, wait := noWait,
            body := fun c s =>
              let n := (rdU s c a).toNat
              if !hasBar s c k || (k == 0 && elastic s c.gk) || (!member && 0xFFFF < n) then
                trapPlan s (allTrap c (barTrap s (crewOfGang c.gk) k))
              else
                let ck := crewOfGang c.gk
                { st := modBar (flushAttach s ck) ck k (initBar member n (memberGangs s ck)), ends := allNext c,
                  comp := .issue } } s

/-! ### BARARV -/

/-- An arrival waits at a barrier, its bundle held (R224). -/
def pushArrival (s : State) (ck k : Nat) (a : Arrival) : State :=
  modBar s ck k fun b => { b with waits := b.waits ++ [a] }

/-- The arrival of a bundle. -/
def arrivalOf (c : Ctx) (dst : Option Opnd) (bytes : Option Nat) (remote : Option Word) : Arrival :=
  { gang := c.gk, lanes := c.on, dst, bytes, credited := none, seq := c.seq, remote, there := false }

/-- A bundle is held by its arrival. -/
def arrivePlan (s : State) (c : Ctx) (ck k : Nat) (a : Arrival) : Plan :=
  { st := pushArrival (returnNear s c.gk c.on) ck k a, ends := c.on.map fun l => (l, .hold .bararv),
    comp := .lanes c.on.length }

/-- A gang's member record that has not been dropped: a later gang of the same index has one of its own (R55 to R57). -/
def Barrier.liveOf (b : Barrier) (gk : Nat) : Option Member := b.mems.find? fun m => m.gang == gk && m.dropped.isNone

/-- Is the gang a member of a member-counted barrier, or the barrier explicit? -/
def mayArrive (b : Barrier) (gk : Nat) : Bool := !b.member || (b.liveOf gk).isSome

/-- The barrier that a BARARV.R reaches (R224): its crew, or the trap. -/
def remoteBar (s : State) (c : Ctx) (k : Nat) (va : Word) : Except TrapInfo Nat :=
  match rsTarget s (crewD s c.gk) va.toNat 1 with
  | none => .error (addrTrap 0x0C (va.zeroExtend 64))
  | some (key, _) =>
    let ck := key / 16777216
    match barOf s ck k with
    | none => .error (badBarTrap s (crewOfGang c.gk) k)
    | some b => if b.member then .error (badBarTrap s (crewOfGang c.gk) k) else .ok ck

/-- BARARV (R193, R224): the bundle is held until its ordering conditions are met and its arrival is credited. -/
def execBararv (h : Hdr) (f : BarForm) (bar : BitVec 5) (s : State) : Host.Outcome State Fault Refusal :=
  let k := bar.toNat
  let regs := match f with
    | .plain d _ => opNames d 1
    | .x d a => opNames d 1 ++ opNames a 1
    | .r a => opNames a 1
  let reads := match f with
    | .plain _ _ => []
    | .x _ a | .r a => opReads a 1
  runWord { hdr := h, names := regs, reads := readsAll reads, early := noEarly, wait := noWait,
            body := fun c s =>
              match f with
              | .r a => match remoteBar s c k (rdU s c a) with
                | .error t => trapPlan s (allTrap c t)
                | .ok ck => arrivePlan s c ck k (arrivalOf c none none (some (rdU s c a)))
              | .plain d _ => here s c k (arrivalOf c (some d) none none)
              | .x d a => here s c k (arrivalOf c (some d) (some (rdU s c a).toNat) none) } s
where
  /-- An arrival at a barrier of the own crew. -/
  here (s : State) (c : Ctx) (k : Nat) (a : Arrival) : Plan :=
    match barOf s (crewOfGang c.gk) k with
    | none => trapPlan s (allTrap c (badBarTrap s (crewOfGang c.gk) k))
    | some b =>
      if mayArrive b c.gk then arrivePlan s c (crewOfGang c.gk) k a
      else trapPlan s (allTrap c (badBarTrap s (crewOfGang c.gk) k))

/-- The ordering conditions of an arrival (R193). -/
def arrivalReady (s : State) (a : Arrival) : Bool :=
  a.there || a.lanes.all fun l => fenceMet s a.gang l a.seq (if a.remote.isSome then .dev else .crew)

/-- Can the arrival be credited now: to an explicit barrier with room, or to a phase below P + 2 of a member-counted one
(R56, R224)? -/
def creditable (b : Barrier) (a : Arrival) : Bool :=
  if b.member then
    match b.liveOf a.gang with
    | some m => creditPhase b.phase m < b.phase + 2
    | none => true
  else b.arrived < b.expect

/-- An arrival leaves the waiting ones. -/
def dropArrival (b : Barrier) (a : Arrival) : Barrier := { b with waits := b.waits.filter (· != a) }

/-- An arrival is credited (R56, R224): it counts in its phase; its bytes are declared when that phase is current; its
lanes receive the phase and go on, an .X arrival for a later phase only when that is current. -/
def creditArrival (s : State) (ck k : Nat) (b : Barrier) (a : Arrival) : State :=
  if b.member then
    match b.liveOf a.gang with
    | none =>
      let s := modBar s ck k (dropArrival · a)
      a.lanes.foldl (fun s l => trapHeld s a.gang l (badBarTrap s ck k)) s
    | some m =>
      let q := creditPhase b.phase m
      let credit : Barrier → Barrier := fun b =>
        { dropArrival b a with mems := b.mems.map fun x => if x = m then { x with arrived := x.arrived ++ [q] } else x }
      -- an arrival of a later phase keeps its place, so that BARINIT finds them in the order in which they came (R223)
      let later : Arrival → Barrier → Barrier := fun y b =>
        { credit b with waits := b.waits.map fun x => if x = a then y else x }
      if q = b.phase then
        let s := modBar s ck k fun b => Barrier.declare { credit b with arrived := b.arrived + 1 } (a.bytes.getD 0)
        barCheck (grantArrival s a q) ck k
      else if a.bytes.isSome then modBar s ck k (later { a with credited := some q })
      else grantArrival (modBar s ck k (later { a with lanes := [], credited := some q, there := true })) a q
  else
    let s := modBar s ck k fun b =>
      Barrier.declare { dropArrival b a with arrived := b.arrived + 1 } (a.bytes.getD 0)
    barCheck (grantArrival s a b.phase) ck k

/-- Arrivals whose ordering conditions are met are at the barrier, in the order in which that came about. -/
def markThere (s : State) (b : Barrier) : Barrier :=
  let old := b.waits.filter (·.there)
  let new := b.waits.filter fun a => !a.there && arrivalReady s a
  let rest := b.waits.filter fun a => !a.there && !arrivalReady s a
  let arrive : Arrival → Arrival := fun a => { a with there := true }
  { b with waits := old ++ new.map arrive ++ rest }

/-- BARARV_CREDIT (R59, R224): the first arrival at the barrier that can be credited is credited. -/
def execBararvCredit (crew bar : Nat) (s : State) : Host.Outcome State Fault Refusal :=
  let s := flushAttach s crew
  let s := modBar s crew bar (markThere s)
  match barOf s crew bar with
  | none => .next s
  | some b =>
    match b.waits.find? fun a => a.there && a.credited.isNone && creditable b a with
    | some a => .next (creditArrival s crew bar b a)
    | none => .next s

/-! ### BARWAIT and BARTST -/

/-- Has the barrier an error while phase `p` is incomplete (R226)? -/
def barErrTrap (s : State) (ck k : Nat) (p : Word) : Option TrapInfo :=
  match barOf s ck k with
  | none => some (badBarTrap s ck k)
  | some b => if b.err ≠ 0 && !phaseDone b p then some (cfrTrap s ck 0x10 k) else none

/-- Is phase `p` of the barrier complete? -/
def barDone (s : State) (ck k : Nat) (p : Word) : Bool := ((barOf s ck k).map (phaseDone · p)).getD false

/-- BARWAIT (R226): a lane passes if its phase is complete, else its fibre is held. -/
def execBarwait (h : Hdr) (a : Opnd) (bar : BitVec 5) (s : State) : Host.Outcome State Fault Refusal :=
  let k := bar.toNat
  runWord { hdr := h, names := opNames a 1, reads := readsAll (opReads a 1), early := noEarly, wait := noWait,
            body := fun c s =>
              let ck := crewOfGang c.gk
              match trapEnds c fun l => barErrTrap s ck k (rd s c l a) with
              | some ends => trapPlan s ends
              | none =>
                let ends : List (Nat × LaneEnd) := c.on.map fun l =>
                  (l, if barDone s ck k (rd s c l a) then .next else .hold (.barwait k (rd s c l a)))
                { st := s, ends, comp := .lanes (heldEnds ends) } } s

/-- BARTST (R226): the predicate says whether the phase is complete. -/
def execBartst (h : Hdr) (p : BitVec 4) (a : Opnd) (bar : BitVec 5) (s : State) : Host.Outcome State Fault Refusal :=
  let k := bar.toNat
  runWord { hdr := h, names := opNames a 1, reads := readsAll (opReads a 1), early := noEarly, wait := noWait,
            body := fun c s =>
              let ck := crewOfGang c.gk
              match trapEnds c fun l => barErrTrap s ck k (rd s c l a) with
              | some ends => trapPlan s ends
              | none => regPlan s c 4 (c.on.map fun l =>
                  { lane := l, reg := pRef p.toNat, val := if barDone s ck k (rd s c l a) then 1 else 0 }) [] } s

/-- The barrier and phase that a held fibre waits for. -/
def barHold (g : Gang) (l : Nat) : Option (Nat × Word × Nat) :=
  (tabFind g.fibres l).bind fun f => f.held.bind fun h => match h.why with
    | .barwait k p => some (k, p, h.seq)
    | _ => none

/-- BARWAIT_RELEASE (R226, R279): the phase is complete, and the lanes of the word whose phases are go on together; or the
barrier has an error, and the lane traps. -/
def execBarwaitRelease (gk lane : Nat) (s : State) : Host.Outcome State Fault Refusal :=
  let ck := crewOfGang gk
  match gangOf s gk with
  | none => .next s
  | some g =>
    match barHold g lane with
    | none => .next s
    | some (k, p, seq) =>
      if barDone s ck k p then
        .next (releaseLanes s gk ((tabKeys g.fibres).filter fun l => match barHold g l with
          | some (j, q, t) => t == seq && barDone s ck j q
          | none => false))
      else match barErrTrap s ck k p with
        | some t => .next (trapHeld s gk lane t)
        | none => .next s

end Sys2Proof.Machine
end

