-- ==== Sys2Proof/Machine/Handles.lean ====
section
/-! DEFINITION. Tensor handles: descriptors and their legality (R198 to R202), addressing by coordinates (R203), the
redirect unit (R206 to R208), and the bytes that engines and units read and write at their homes for a partition (R190). -/

namespace Sys2Proof.Machine

/-! ### Descriptors -/

/-- A little-endian field of a byte list. -/
def field (bs : List Byte) (at' n : Nat) : Nat := natOfBytes ((bs.drop at').take n)

/-- The fields of Table TENS-1. -/
def parseDesc (bs : List Byte) : Desc :=
  { base := field bs 0 8, newBase := field bs 8 8, dims := (List.range 5).map fun i => field bs (16 + 4 * i) 4,
    box := (List.range 5).map fun i => field bs (36 + i) 1, fmt := field bs 41 1, tag := field bs 42 1,
    newTag := field bs 43 1, tile := field bs 44 1, state := field bs 45 1, flags := field bs 46 1,
    errCause := field bs 47 1, bmap := field bs 48 8, cbook := field bs 56 8 }

/-- Extent of dimension `i`. -/
def dimOf (d : Desc) (i : Nat) : Nat := d.dims.getD i 1

/-- Box extent of dimension `i`. -/
def boxOf (d : Desc) (i : Nat) : Nat := d.box.getD i 0 + 1

/-- The element size of a format, in bits (R198). -/
def fmtBits (fmt : Nat) : Nat :=
  if fmt = 4 then 4 else if fmt = 0 || fmt = 1 || fmt = 6 || fmt = 7 then 8 else if fmt = 5 || fmt = 9 then 32 else 16

/-- The block depth of KPACK (R199). -/
def kDepth (fmt : Nat) : Nat := if fmt = 4 then 64 else if fmt ≤ 1 then 32 else 16

/-- The conditions of R200 that a layout tag brings. -/
def tagLegal (d : Desc) (tag : Nat) : Bool :=
  if tag = 0 then !(d.fmt == 4 && dimOf d 0 % 2 == 1)
  else if tag = 1 then !(d.fmt == 4 && dimOf d 1 % 2 == 1)
  else if tag = 2 || tag = 3 then
    2 ≤ d.tile && d.tile ≤ 8 && dimOf d 0 % 2 ^ d.tile == 0 && dimOf d 1 % 2 ^ d.tile == 0
  else d.fmt ≤ 4 && dimOf d 0 % 64 == 0 && dimOf d 1 % kDepth d.fmt == 0

/-- Is a handle legal (R200)? -/
def descLegal (d : Desc) : Bool :=
  d.fmt ≤ 9 && d.tag ≤ 4 && d.state ≤ 2 && d.flags < 4 && d.dims.all (· != 0) && d.base % 256 == 0 && tagLegal d d.tag &&
  (d.state != 1 || (d.newTag ≤ 4 && d.newBase % 256 == 0 && tagLegal d d.newTag))

/-- The cause 0x12 trap (R200). -/
def handleTrap (h reason dim : Nat) : TrapInfo :=
  { trapOf 0x12 with info := BitVec.ofNat 32 (h % 65536 + reason * 65536 + dim * 1048576) }

/-- The trap of a word that uses a handle: illegal, or STATE 2. -/
def descTrap (h : Nat) (d : Desc) : Option TrapInfo :=
  if !descLegal d then some (handleTrap h 1 0) else if d.state = 2 then some (handleTrap h 2 0) else none

/-- Bytes of device memory, of the host or of a peer. -/
def anyRead (s : State) (pa n : Nat) : List Byte :=
  if isHost pa then busRead s (hostBus pa) n else if isPeer pa then peerBytes s n else memRead s pa n

/-- The virtual address of descriptor `h` (R198). -/
def descVA (cr : Crew) (h : Nat) : DWord := cr.htab + 64 * BitVec.ofNat 64 (h % 65536)

/-- A conversion of the descriptor at an address, in progress. -/
def convAt (s : State) (addr : Nat) : Option (Nat × Conv) := s.convs.find? fun (_, v) => v.addr == addr

/-- A descriptor as a core uses it (R201, R210): as its conversion began, from the core's handle cache, or read at its home
(the last two by free choice where both are possible). -/
def getDesc (s : State) (core : Nat) (cr : Crew) (h : Nat) (k : AccessKind) (idx : Nat) :
    Except TrapInfo (Desc × Nat × Xl) :=
  let va := descVA cr h
  match translate s (core / 16) cr.part cr.svc k va idx with
  | .error t => .error t
  | .ok x =>
    match convAt s x.pa with
    | some (_, v) => .ok (v.desc, x.pa, x)
    | none =>
      match s.cache.handles.find? fun e => e.part == cr.part && e.core == core && e.addr == x.pa, Config.freeBool (idx + 1) with
      | some e, true => .ok (e.desc, x.pa, x)
      | _, _ =>
        if addrLost s x.pa || readsPoison s x.pa 64 then .error (addrTrap 0x0F va)
        else .ok (parseDesc (anyRead s x.pa 64), x.pa, x)

/-- A descriptor that a core has used is held in its handle cache. -/
def cacheDesc (s : State) (core part h addr : Nat) (d : Desc) : State :=
  if (convAt s addr).isSome then s else
  let here := fun (x : HCache) => x.part == part && x.core == core && x.addr == addr
  let levels := (s.cache.handles.find? fun x => here x && x.desc == d).bind (·.levels)
  let e : HCache := { part, core, handle := h % 65536, addr, desc := d, levels }
  let rest := s.cache.handles.filter fun x => !here x
  { s with cache := { s.cache with handles := e :: rest } }

/-- Is a cached descriptor that of handle `h`, by its address where that is known, else by its number? Crews with handle tables
of their own may reach one descriptor under several numbers. -/
def isHandle (h : Nat) (daddr : Option Nat) (number addr : Nat) : Bool := match daddr with
  | some a => addr == a
  | none => number == h % 65536

/-- A handle is dropped from every handle cache of a partition (R201). -/
def dropHandle (s : State) (part h : Nat) (daddr : Option Nat) : State :=
  { s with cache := { s.cache with handles := s.cache.handles.filter fun x => !(x.part == part && isHandle h daddr x.handle x.addr) } }

/-- A crew's cores drop the descriptors they hold for its partition: it has written CR.HTAB (R201). -/
def dropTable (s : State) (cr : Crew) : State :=
  { s with cache := { s.cache with handles := s.cache.handles.filter fun x => !(x.part == cr.part && (crewCores cr).contains x.core) } }

/-! ### Coordinates (R203) -/

/-- The Morton number of a tile. -/
def morton (x y : Nat) : Nat :=
  (List.range 32).foldl (fun acc b => acc + x / 2 ^ b % 2 * 4 ^ b + 2 * (y / 2 ^ b % 2) * 4 ^ b) 0

/-- The smallest power of two at or above a number. -/
def pow2Above (n : Nat) : Nat := if n ≤ 1 then 1 else 2 ^ (Nat.log2 (n - 1) + 1)

/-- hi of R203. -/
def hiIndex (d : Desc) (c : List Nat) : Nat := c.getD 2 0 + dimOf d 2 * (c.getD 3 0 + dimOf d 3 * c.getD 4 0)

/-- The element index i of R203 under a tag. -/
def elemIndex (d : Desc) (tag : Nat) (c : List Nat) : Nat :=
  let c0 := c.getD 0 0
  let c1 := c.getD 1 0
  let d0 := dimOf d 0
  let d1 := dimOf d 1
  let hi := hiIndex d c
  if tag = 0 then c0 + d0 * (c1 + d1 * hi)
  else if tag = 1 then c1 + d1 * (c0 + d0 * hi)
  else if tag = 2 || tag = 3 then
    let t := 2 ^ d.tile
    let w := c0 % t + t * (c1 % t)
    if tag = 2 then (c0 / t + d0 / t * (c1 / t)) * t * t + w + d0 * d1 * hi
    else
      let g := pow2Above (max d0 d1 / t)
      morton (c0 / t) (c1 / t) * t * t + w + g * g * t * t * hi
  else
    let k := kDepth d.fmt
    let blk := c1 / k + d1 / k * (c0 / 64)
    blk * 64 * k + c1 % k + k * (c0 % 64) + d0 * d1 * hi

/-- The byte address and nibble of an element, in the current layout or the new one. -/
def elemAddr (d : Desc) (new : Bool) (c : List Nat) : DWord × Nat :=
  let i := elemIndex d (if new then d.newTag else d.tag) c
  (BitVec.ofNat 64 ((if new then d.newBase else d.base) + i * fmtBits d.fmt / 8), i % 2)

/-- The lowest dimension in which coordinates reach the extent. -/
def outOfRange (d : Desc) (c : List Nat) : Option Nat := (List.range 5).find? fun i => dimOf d i ≤ c.getD i 0

/-- Bytes of an element's access. -/
def elemBytes (d : Desc) : Nat := max 1 (fmtBits d.fmt / 8)

/-- An element out of its bytes. -/
def elemOf (d : Desc) (nib : Nat) (bs : List Byte) : Nat :=
  if d.fmt = 4 then natOfBytes bs / 16 ^ nib % 16 else natOfBytes bs

/-- The bytes that hold an element after it has taken a value. -/
def elemInto (d : Desc) (nib v : Nat) (old : List Byte) : List Byte :=
  if d.fmt = 4 then
    let b := natOfBytes old
    bytesOfNat 1 (b - b / 16 ^ nib % 16 * 16 ^ nib + v % 16 * 16 ^ nib)
  else bytesOfNat (elemBytes d) v

/-! ### The redirect unit (R206, R208) -/

/-- Tiles of 256 along a dimension. -/
def tilesAlong (d : Desc) (i : Nat) : Nat := (dimOf d i + 255) / 256

/-- The number of the conversion tile that holds an element (R206). -/
def convTile (d : Desc) (c : List Nat) : Nat :=
  c.getD 0 0 / 256 + tilesAlong d 0 * (c.getD 1 0 / 256 + tilesAlong d 1 * hiIndex d c)

/-- The number of conversion tiles. -/
def convTiles (d : Desc) : Nat := tilesAlong d 0 * tilesAlong d 1 * dimOf d 2 * dimOf d 3 * dimOf d 4

/-- Where an access through a handle goes now. -/
inductive Routed where
  | there (va : DWord) (nib : Nat)
  | locked
  /-- The conversion has stopped: STATE is 2 (R209). -/
  | broken
  deriving DecidableEq, Repr

/-- An element's place as a pair. -/
def thereAt (p : DWord × Nat) : Routed := .there p.1 p.2

/-- The route of an element (R208): by its tile while the conversion runs; afterwards to the new layout, unless the
conversion has stopped; for a descriptor that software itself has marked CONVERTING, by the bitmap. -/
def routeElem (s : State) (pos part : Nat) (svc : Bool) (daddr : Nat) (d : Desc) (c : List Nat) (idx : Nat) : Routed :=
  if d.state ≠ 1 then thereAt (elemAddr d false c)
  else
    let n := convTile d c
    match convAt s daddr with
    | some (_, v) => if v.locked && v.tile = n then .locked else thereAt (elemAddr d (n < v.tile) c)
    | none =>
      let st := natOfBytes (anyRead s (daddr + 45) 1)
      if st = 2 then .broken
      else if st = 1 then
        match translate s pos part svc .read (BitVec.ofNat 64 (d.bmap + n / 8)) idx with
        | .error _ => .broken
        | .ok x => thereAt (elemAddr d (natOfBytes (anyRead s x.pa 1) / 2 ^ (n % 8) % 2 == 1) c)
      else thereAt (elemAddr d true c)

/-! ### Bytes for an engine (R190, R191) -/

/-- Whose bytes an engine moves: its die position, core, partition, and whether it works for a service crew. -/
structure Agent where
  pos : Nat
  part : Nat
  svc : Bool
  deriving DecidableEq, Repr

/-- A fault that an engine meets: cause and faulting address (R219). -/
abbrev EngFault := BitVec 8 × DWord

/-- The free choice for an engine's translation. -/
def engIdx (s : State) : Nat := s.free * 16777216 + 8700000

/-- An engine's translation; it moves the free values on. -/
def engXl (s : State) (g : Agent) (k : AccessKind) (va : DWord) : Except EngFault (State × Xl) :=
  match translate s g.pos g.part g.svc k va (engIdx s) with
  | .error t => .error (t.cause, va)
  | .ok x =>
    if addrLost s x.pa then .error (0x0F, va) else .ok ({ tlbAdd s g.pos g.part x with free := s.free + 1 }, x)

/-- Has the port of a peer address failed? -/
def peerDown (s : State) (pa : Nat) : Bool := match outWindow s pa with
  | some (port, _, _) => (peerOf s port).state == 3
  | none => true

/-- An engine's read at the home (R190). -/
def engRead (s : State) (g : Agent) (va : DWord) (n : Nat) : Except EngFault (State × Xl × List Byte) :=
  match engXl s g .read va with
  | .error e => .error e
  | .ok (s, x) =>
    if isHost x.pa then .ok (hostFill s (hostBus x.pa), x, busRead s (hostBus x.pa) n)
    else if isPeer x.pa then
      -- a failed port answers no read (R307)
      if peerDown s x.pa then .error (0x0F, va) else .ok ({ s with free := s.free + 1 }, x, peerBytes s n)
    else if readsPoison s x.pa n then .error (0x0F, va)
    else let s := recallRange s x.pa n; .ok (s, x, memRead s x.pa n)

/-- The settle time of several writes: the latest; none while one of them has still to be acknowledged by a window (R196). -/
def laterSettle : Option Nat → Option Nat → Option Nat
  | some a, some b => some (max a b)
  | _, _ => none

/-- The settle time of a write forwarded to a window: now through CXL.cache, else once it is acknowledged (R196). -/
def windowSettle (s : State) (pa : Nat) : Option Nat := if isCxl pa then some s.time.now else none

/-- An engine's write at the home: the state and the settle time, as far as it is known. -/
def engWrite (s : State) (g : Agent) (va : DWord) (bs : List Byte) : Except EngFault (State × Option Nat) :=
  match engXl s g .write va with
  | .error e => .error e
  | .ok (s, x) =>
    if isHost x.pa then .ok (busWrite s (hostBus x.pa) bs, windowSettle s x.pa)
    else if isPeer x.pa then .ok (s, none)
    else if partlyPoison s x.pa bs.length then .error (0x0F, va)
    else
      let s := recallRange s x.pa bs.length
      .ok (homeWrite s x.pa bs, some (settleNow s x.pa bs.length))

/-- A checked read of the block of an address (R153, R218): the fault, if it fails. -/
def checkedFault (s : State) (d : Desc) (pa : Nat) (va : DWord) : Option EngFault :=
  if d.flags % 2 = 0 then none
  else if !(frameOf s pa).chk then some (0x0B, va)
  else if readsPoison s (pa / 4096 * 4096) 4096 then some (0x0F, va)
  else if crcStored s (pa / 4096) ≠ crcKept s (pa / 4096) then some (0x11, 0)
  else none

/-- An element read through a route: state and value. -/
def engElem (s : State) (g : Agent) (d : Desc) (va : DWord) (nib : Nat) : Except EngFault (State × Nat) :=
  match engRead s g va (elemBytes d) with
  | .error e => .error e
  | .ok (s, x, bs) =>
    match checkedFault s d x.pa va with
    | some e => .error e
    | none => .ok (s, elemOf d nib bs)

/-- An element written through a route: a C4 element replaces its nibble as one update of its byte (R204). -/
def engPut (s : State) (g : Agent) (d : Desc) (va : DWord) (nib v : Nat) : Except EngFault (State × Option Nat) :=
  match engXl s g .write va with
  | .error e => .error e
  | .ok (s, x) => engWrite s g va (elemInto d nib v (anyRead s x.pa (elemBytes d)))

end Sys2Proof.Machine
end

