-- ==== Sys2Proof/Machine/Copies.lean ====
section
/-! DEFINITION. The copy engines (R189 to R191, R212 to R220): COPY, COPYW and COPYB at issue, and their parts as they land
or fault. -/

namespace Sys2Proof.Machine

/-! ### Words that act lane by lane, ascending (R212) -/

/-- What a lane-by-lane word has done so far. -/
structure LaneFold where
  st : State
  ends : List (Nat × LaneEnd)
  stop : Bool
  n : Nat

/-- One lane: after a lane that traps, later lanes do nothing and issue the word again. -/
def laneStep (f : State → Nat → Nat → Except TrapInfo State) (r : LaneFold) (l : Nat) : LaneFold :=
  if r.stop then { r with ends := r.ends ++ [(l, .stay)], n := r.n + 1 }
  else match f r.st l r.n with
    | .error t => { r with ends := r.ends ++ [(l, .trap t)], stop := true, n := r.n + 1 }
    | .ok s => { r with st := s, ends := r.ends ++ [(l, .next)], n := r.n + 1 }

/-- Every guard-true lane in ascending order. -/
def foldLanes (c : Ctx) (s : State) (f : State → Nat → Nat → Except TrapInfo State) : LaneFold :=
  c.on.foldl (laneStep f) { st := s, ends := [], stop := false, n := 0 }

/-! ### The box of a handle (R213) -/

/-- Elements of a box. -/
def boxCount (d : Desc) : Nat := boxOf d 0 * boxOf d 1 * boxOf d 2 * boxOf d 3 * boxOf d 4

/-- The packed length of a box in bytes, at `es` bits an element. -/
def boxBytes (d : Desc) (es : Nat) : Nat := 16 * ((boxCount d * es + 127) / 128)

/-- The index within the box of element `e` in destination order. -/
def boxIndex (d : Desc) (order1 : Bool) (e : Nat) : List Nat :=
  let b0 := boxOf d 0
  let b1 := boxOf d 1
  let b2 := boxOf d 2
  let b3 := boxOf d 3
  let hi := e / (b0 * b1)
  (if order1 then [e / b1 % b0, e % b1] else [e % b0, e / b0 % b1]) ++ [hi % b2, hi / b2 % b3, hi / (b2 * b3)]

/-- The coordinates of element `e`: the origin plus the index, or a row of the index list (R214). -/
def boxCoords (d : Desc) (order1 : Bool) (origin : List Nat) (rows : Option (List Nat)) (e : Nat) : List Nat :=
  let ix := boxIndex d order1 e
  let c := (ix.zip origin).map fun x => x.1 + x.2
  match rows with
  | none => c
  | some rs => c.set 1 (rs.getD (ix.getD 1 0) 0xFFFFFFFF)

/-- The elements of 16-byte granule `g`, at `es` bits an element. -/
def granElems (d : Desc) (es g : Nat) : List Nat :=
  ((List.range (128 / es)).map (g * (128 / es) + ·)).filter (· < boxCount d)

/-! ### Threads -/

/-- For whom an engine thread moves bytes. -/
def agentOf (s : State) (cp : Copy) : Agent :=
  { pos := cp.core / 16, part := cp.part, svc := ((crewOf s cp.crew).map (·.svc)).getD false }

/-- A new thread of a lane. -/
def newCopy (c : Ctx) (part l : Nat) (bar : Option Nat) (rel : Bool) (op : CopyOp) (n unread : Nat) : Copy :=
  { gang := c.gk, lane := l, crew := crewOfGang c.gk, core := c.g.core, part, gid := c.seq, seq := c.seq, bar, rel, op,
    parts := (List.range n).map fun i => (i, PartSt.todo), unread }

/-- Copies that a core's engine holds. -/
def coreCopies (s : State) (core : Nat) : Nat := (s.copies.filter fun (_, p) => p.core == core).length

/-- A copy word waits at issue: its engine has no place (R338), or a table in scratchpad that it reads at issue is behind
an earlier store of its fibre (R190). -/
def copyWait (tables : Bool) (c : Ctx) (s : State) : Bool :=
  acqWait c s || 256 < coreCopies s c.g.core + c.on.length || (tables && ownSpQueue s c.gk c.on s.nextId)

/-- The counter of a copy word: the parts whose sources are still to be read (R338). -/
def unreadParts (s : State) (gk seq : Nat) : Nat :=
  ((s.copies.filter fun (_, p) => p.gang == gk && p.seq == seq).map fun x => x.2.unread).foldl (· + ·) 0

/-- The plan of a copy word. -/
def copyPlan (s : State) (c : Ctx) (rel : Bool) (f : State → Nat → Nat → Except TrapInfo State) : Plan :=
  let r := foldLanes c (if rel then returnNear s c.gk c.on else s) f
  { st := r.st, ends := r.ends, comp := .lanes (unreadParts r.st c.gk c.seq) }

/-- The barrier index check of Table TENS-5. -/
def barCheckTrap (s : State) (c : Ctx) (k : Nat) : Option TrapInfo :=
  if (barOf s (crewOfGang c.gk) k).isSome then none else some (badBarTrap s (crewOfGang c.gk) k)

/-- A scratchpad range of the own allocation (R212). -/
def spTrap (cr : Crew) (off n : Nat) : Option TrapInfo :=
  if cr.spSize < off + n then some (addrTrap 0x0C (BitVec.ofNat 64 off)) else none

/-- A trap if an address is not a multiple of `m`. -/
def alignTrap (a : DWord) (m : Nat) : Option TrapInfo := if a.toNat % m = 0 then none else some (addrTrap 0x08 a)

/-- The byte-count check of R216 and R217. -/
def countTrap (n : Word) : Option TrapInfo :=
  if n.toNat % 16 = 0 && 16 ≤ n.toNat && n.toNat ≤ 16777216 then none else some { trapOf 0x08 with info := n }

/-- The first trap of a list of checks. -/
def firstOf (ts : List (Option TrapInfo)) : Option TrapInfo := ts.findSome? id

/-- A handle for a word: its descriptor, legal and not in error, with the word's own requirement (reason 4). -/
def handleFor (s : State) (c : Ctx) (l h : Nat) (k : AccessKind) (legal : Desc → Bool) : Except TrapInfo (Desc × Nat × Xl) :=
  match getDesc s c.g.core (crewD s c.gk) h k (xlIdx s l) with
  | .error t => .error t
  | .ok r =>
    match descTrap h r.1 with
    | some t => .error t
    | none => if legal r.1 then .ok r else .error (handleTrap h 4 0)

/-- Five coordinates from registers. -/
def coordsAt (s : State) (c : Ctx) (l : Nat) (b : Opnd) (n : Nat) : List Nat :=
  (List.range 5).map fun i => if i < n then (rd s c l { b with n := b.n + BitVec.ofNat 8 i }).toNat else 0

/-- Caches what a handle word has used. -/
def usedHandle (s : State) (c : Ctx) (h : Nat) (r : Desc × Nat × Xl) : State :=
  let part := (crewD s c.gk).part
  tlbAdd (cacheDesc s c.g.core part h r.2.1 r.1) (c.g.core / 16) part r.2.2

/-! ### COPY (R213 to R215) -/

/-- Is a copy kind legal for a format (Table TENS-6)? -/
def kindLegal (k : CopyKind) (d : Desc) : Bool :=
  match k with
  | .t8 => fmtBits d.fmt == 8
  | .t16 => fmtBits d.fmt == 16
  | _ => true

/-- A copy destination: an SP offset or an RS address (R213), as the key of its first byte. -/
def copyDest (s : State) (cr : Crew) (ck half : Nat) (v : Word) (n : Nat) : Except TrapInfo (Nat × Option Nat) :=
  if v.toNat < 8388608 then
    match spTrap cr v.toNat n with
    | some t => .error t
    | none => .ok (spadKey ck half v.toNat, none)
  else match rsTarget s cr v.toNat n with
    | none => .error (addrTrap 0x0C (v.zeroExtend 64))
    | some (key, _) => .ok (key, some v.toNat)

/-- 32-bit words of the crew's scratchpad. -/
def spadWords (s : State) (key n : Nat) : List Nat := (wordsOf (spadRead s key (4 * n)) n).map (·.toNat)

/-- Receivers of a COPY.MC: the entries that the mask selects (R215). -/
def mcReceivers (mask : Nat) (table : List Nat) : List Nat :=
  (table.zipIdx.filter fun x => mask / 2 ^ x.2 % 2 == 1).map (·.1)

/-- A receiver's destination, if R140 admits it. -/
def mcDest (s : State) (cr : Crew) (n a : Nat) : Option (Nat × Option Nat) :=
  if a % 16 ≠ 0 then none else (rsTarget s cr a n).map fun r => (r.1, some a)

/-- A copy fault's record and the barrier's error (R218, R219). -/
def recordFault (s : State) (crew : Nat) (bar : Option Nat) (handle : Nat) (cause : BitVec 8) (addr : DWord) : State :=
  let b := bar.getD 0
  let s := modCrew s crew fun c => { c with cfr := { addr, handle, cause, bar := b } }
  match bar with
  | some k => barError s crew k (if cause = 0x11 then 2 else 3)
  | none => s

/-- The extra operand's alignment and range, for the kinds that have one. -/
def copyTableTrap (cr : Crew) (k : CopyKind) (d : Desc) (t : Word) : Option TrapInfo × Option TrapInfo :=
  match k with
  | .gath => (alignTrap (t.zeroExtend 64) 4, spTrap cr t.toNat (4 * boxOf d 1))
  | .mc => (alignTrap (t.zeroExtend 64) 32, spTrap cr t.toNat 32)
  | _ => (none, none)

/-- A COPY in one lane: the checks of Table TENS-5, then the engine thread. -/
def copyLane (c : Ctx) (k : CopyKind) (d a : Opnd) (b : Reg) (bar : Nat) (s : State) (l i : Nat) : Except TrapInfo State :=
  let cr := crewD s c.gk
  let ck := crewOfGang c.gk
  let half := halfOf cr c.g.core
  let dest := rd s c l d
  let table := rd s c l { d with n := d.n + 1 }
  let h := (rd s c l a).toNat % 65536
  if k = .mc && dest.toNat % 256 = 0 then .error (trapOf 0x01) else
  match barCheckTrap s c bar with
  | some t => .error t
  | none =>
    match handleFor s c l h .read (kindLegal k) with
    | .error t => .error t
    | .ok r =>
      let desc := r.1
      let n := boxBytes desc (fmtBits desc.fmt)
      let tt := copyTableTrap cr k desc table
      let al := if k = .mc then none else alignTrap (dest.zeroExtend 64) 16
      let c4 := if desc.fmt = 4 && boxOf desc 0 % 2 = 1 then some (addrTrap 0x08 (dest.zeroExtend 64)) else none
      match firstOf [al, c4, tt.1, tt.2] with
      | some t => .error t
      | none =>
        let s' := usedHandle s c h r
        let origin := coordsAt s c l { s := false, n := b } 5
        let thread := fun (rows : Option (List Nat)) (dests : List (Nat × Option Nat)) (s : State) =>
          let op := CopyOp.box h r.2.1 desc origin (k == .t8 || k == .t16) rows dests (k != .mc) none
          let cp := newCopy c cr.part l (some bar) (k == .rel) op (n / 16 * dests.length) 0
          if dests.isEmpty then s else { s with copies := tabPut s.copies (c.seq + 1 + i) cp }
        if k = .mc then
          let rs := mcReceivers (dest.toNat % 256) (spadWords s (spadKey ck half table.toNat) 8)
          let bad := rs.filter fun a => (mcDest s cr n a).isNone
          let s' := thread none (rs.filterMap (mcDest s cr n)) s'
          .ok (bad.foldl (fun s a => recordFault s ck (some bar) h 0x0C (BitVec.ofNat 64 a)) s')
        else match copyDest s cr ck half dest n with
          | .error t => .error t
          | .ok x =>
            let rows := if k = .gath then some (spadWords s (spadKey ck half table.toNat) (boxOf desc 1)) else none
            .ok (thread rows [x] s')

/-- COPY (R213 to R215, R338). -/
def execCopy (h : Hdr) (k : CopyKind) (d a : Opnd) (b : Reg) (bar : BitVec 5) (s : State) :
    Host.Outcome State Fault Refusal :=
  let nd := if k = .gath ∨ k = .mc then 2 else 1
  runWord { hdr := h, names := opNames d nd ++ opNames a 1 ++ vNames b 5,
            reads := readsAll (opReads d nd ++ opReads a 1 ++ vReads b 5), early := noEarly,
            wait := copyWait (k == .gath || k == .mc),
            body := fun c s => copyPlan s c (k == .rel) (copyLane c k d a b bar.toNat) } s

/-! ### COPYW (R216) -/

/-- A COPYW of a box in one lane. -/
def copywBoxLane (c : Ctx) (rel : Bool) (d a b : Opnd) (bar : Nat) (s : State) (l i : Nat) : Except TrapInfo State :=
  let cr := crewD s c.gk
  let src := rd s c l d
  let h := (rd s c l a).toNat % 65536
  match barCheckTrap s c bar with
  | some t => .error t
  | none =>
    match handleFor s c l h .read (fun _ => true) with
    | .error t => .error t
    | .ok r =>
      let desc := r.1
      let n := boxBytes desc (fmtBits desc.fmt)
      let c4 := if desc.fmt = 4 && boxOf desc 0 % 2 = 1 then some (addrTrap 0x08 (src.zeroExtend 64)) else none
      match firstOf [alignTrap (src.zeroExtend 64) 16, c4, spTrap cr src.toNat n] with
      | some t => .error t
      | none =>
        let key := spadKey (crewOfGang c.gk) (halfOf cr c.g.core) src.toNat
        let op := CopyOp.boxOut h r.2.1 desc (coordsAt s c l b 5) key
        let cp := newCopy c cr.part l (some bar) rel op (n / 16) (n / 16)
        let s := usedHandle s c h r
        .ok { s with copies := tabPut s.copies (c.seq + 1 + i) cp }

/-- A COPYW.GLB in one lane. -/
def copywGlbLane (c : Ctx) (rel : Bool) (d a b : Opnd) (bar : Nat) (s : State) (l i : Nat) : Except TrapInfo State :=
  let cr := crewD s c.gk
  let src := rd s c l d
  let va := rd64 s c l a
  let n := rd s c l b
  match firstOf [barCheckTrap s c bar, alignTrap (src.zeroExtend 64) 16, alignTrap va 16, countTrap n,
      spTrap cr src.toNat n.toNat] with
  | some t => .error t
  | none =>
    let key := spadKey (crewOfGang c.gk) (halfOf cr c.g.core) src.toNat
    let cp := newCopy c cr.part l (some bar) rel (.glbOut va key) (n.toNat / 16) (n.toNat / 16)
    .ok { s with copies := tabPut s.copies (c.seq + 1 + i) cp }

/-- COPYW (R216, R338). -/
def execCopyw (h : Hdr) (k : CopywKind) (d a b : Opnd) (bar : BitVec 5) (s : State) : Host.Outcome State Fault Refusal :=
  let glb := k == .glb || k == .glbRel
  let rel := k == .rel || k == .glbRel
  let na := if glb then 2 else 1
  let nb := if glb then 1 else 5
  runWord { hdr := h, names := opNames d 1 ++ opNames a na ++ opNames b nb,
            reads := readsAll (opReads d 1 ++ opReads a na ++ opReads b nb), early := noEarly, wait := copyWait false,
            body := fun c s => copyPlan s c rel
              (if glb then copywGlbLane c rel d a b bar.toNat else copywBoxLane c rel d a b bar.toNat) } s

/-! ### COPYB (R217) -/

/-- A COPYB in one lane. -/
def copybLane (c : Ctx) (d a b : Opnd) (out sp rel : Bool) (bar : Nat) (s : State) (l i : Nat) : Except TrapInfo State :=
  let cr := crewD s c.gk
  let half := halfOf cr c.g.core
  let off := rd s c l d
  let va := if sp then (rd s c l a).zeroExtend 64 else rd64 s c l a
  let n := rd s c l b
  let cb : Option TrapInfo :=
    if cr.cbSize * 2048 < off.toNat + n.toNat then some (addrTrap 0x0D (off.zeroExtend 64))
    else if cbWithdrawn s c.g.core (cr.cbBase.getD half 0 * 2048 + off.toNat) n.toNat then some (addrTrap 0x0E (off.zeroExtend 64))
    else none
  match firstOf [barCheckTrap s c bar, alignTrap (off.zeroExtend 64) 16, alignTrap va 16, countTrap n,
      if sp then spTrap cr va.toNat n.toNat else none, cb] with
  | some t => .error t
  | none =>
    let bank := bankKey c.g.core (cr.cbBase.getD half 0 * 2048 + off.toNat)
    let op := if sp then CopyOp.bankSp out bank (spadKey (crewOfGang c.gk) half va.toNat) else .bankGl out bank va
    let k := n.toNat / 16
    let cp := newCopy c cr.part l (some bar) rel op k (if sp && !out then k else 0)
    .ok { s with copies := tabPut s.copies (c.seq + 1 + i) cp }

/-- COPYB (R217, R338): cause 0x01 on a geometry die. -/
def execCopyb (h : Hdr) (d a b : Opnd) (out spSide rel : Bool) (bar : BitVec 5) (s : State) :
    Host.Outcome State Fault Refusal :=
  let na := if spSide then 1 else 2
  runWord { hdr := h, names := opNames d 1 ++ opNames a na ++ opNames b 1,
            reads := readsAll (opReads d 1 ++ opReads a na ++ opReads b 1), early := geoEarly, wait := copyWait false,
            body := fun c s => copyPlan s c rel (copybLane c d a b out spSide rel bar.toNat) } s

/-! ### Conversion of elements (R220) -/

/-- The conversion type of a handle format; C4 is decoded first. -/
def fmtType (fmt : Nat) : CvtType :=
  match fmt with
  | 0 => .e4m3b8
  | 1 => .e5m2b16
  | 2 | 4 => .bf16
  | 3 => .fp16
  | 5 => .fp32
  | 6 => .s8
  | 7 => .un8
  | 8 => .s16
  | _ => .s32

/-- The value of an element as a conversion reads it: a C4 code goes through the table at CBOOK. -/
def decodeC4 (s : State) (g : Agent) (d : Desc) (v : Nat) : Except EngFault (State × Nat) :=
  if d.fmt ≠ 4 then .ok (s, v)
  else match engRead s g (BitVec.ofNat 64 (d.cbook + 2 * v)) 2 with
    | .error e => .error e
    | .ok (s, _, bs) => .ok (s, natOfBytes bs)

/-- An element in its destination format (R220). -/
def convertElem (s : State) (g : Agent) (d : Desc) (cv : Option Nat) (v : Nat) : Except EngFault (State × Nat) :=
  match cv with
  | none => .ok (s, v)
  | some f =>
    match decodeC4 s g d v with
    | .error e => .error e
    | .ok (s, v) => .ok (s, (cvtF (fmtType d.fmt) (fmtType f) .rne false v).1)

/-! ### Parts (R191, R219) -/

/-- What becomes of a part now. -/
inductive PartRes where
  | wait
  /-- It has landed. -/
  | landed (s : State)
  /-- Its global writes are applied, with this settle time, or forwarded to a window. -/
  | applied (s : State) (settle : Option Nat)
  /-- A ray's thread has read a part of the BVH, or applied an addition. -/
  | moved (s : State) (op : CopyOp)
  | bad (f : EngFault)

/-- Element `e` of a copy into scratchpad: the value, or zero beyond DIM. -/
def boxElem (s : State) (cp : Copy) (daddr : Nat) (d : Desc) (cv : Option Nat) (co : List Nat) :
    Except (Option EngFault) (State × Nat) :=
  if (outOfRange d co).isSome then .ok (s, 0)
  else
    let g := agentOf s cp
    match routeElem s g.pos g.part g.svc daddr d co (engIdx s) with
    | .locked => .error none
    | .broken => .error (some (0x12, 0))
    | .there va nib =>
      match engElem s g d va nib with
      | .error e => .error (some e)
      | .ok (s, v) =>
        match convertElem s g d cv v with
        | .error e => .error (some e)
        | .ok r => .ok r

/-- The elements of a granule, packed upwards at `es` bits. -/
def granValue (s : State) (cp : Copy) (daddr : Nat) (d : Desc) (cv : Option Nat) (es : Nat) :
    List (List Nat) → Except (Option EngFault) (State × Nat)
  | [] => .ok (s, 0)
  | co :: rest =>
    match boxElem s cp daddr d cv co with
    | .error e => .error e
    | .ok (s, v) =>
      match granValue s cp daddr d cv es rest with
      | .error e => .error e
      | .ok (s, w) => .ok (s, v % 2 ^ es + 2 ^ es * w)

/-- A part that reads or writes may not go yet, or faults. -/
def partErr : Option EngFault → PartRes
  | none => .wait
  | some e => .bad e

/-- A granule arrives in scratchpad: bytes, FULL, and its waiting LDC accesses (R191). -/
def landGran (s : State) (key : Nat) (bs : List Byte) : State := fillGran (spadWrite s key bs) (key / 16)

/-- The bytes of a granule of a copy: those that it has read for its other receivers already, or read now (R213). -/
def granBytes (s : State) (cp : Copy) (daddr : Nat) (d : Desc) (origin : List Nat) (order1 : Bool) (rows : Option (List Nat))
    (cv : Option Nat) (g : Nat) : Except (Option EngFault) (State × List Byte) :=
  let es := fmtBits (cv.getD d.fmt)
  match tabFind cp.read g with
  | some (some e, _) => .error (some e)
  | some (none, bs) => .ok (s, bs)
  | none =>
    match granValue s cp daddr d cv es ((granElems d es g).map (boxCoords d order1 origin rows)) with
    | .error e => .error e
    | .ok (s, v) => .ok (s, bytesOfNat 16 v)

/-- A part of a copy into scratchpad. -/
def partBox (s : State) (cp : Copy) (daddr : Nat) (d : Desc) (origin : List Nat) (order1 : Bool)
    (rows : Option (List Nat)) (dests : List (Nat × Option Nat)) (cv : Option Nat) (part : Nat) : PartRes :=
  let n := boxBytes d (fmtBits (cv.getD d.fmt)) / 16
  let g := part % n
  match dests[part / n]? with
  | none => .wait
  | some (key, ra) =>
    match granBytes s cp daddr d origin order1 rows cv g with
    | .error e => partErr e
    | .ok (s, bs) =>
      if (crewOf s (key / 16777216)).isNone then .bad (0x0C, BitVec.ofNat 64 (ra.getD 0 + 16 * g))
      else .landed (landGran s (key + 16 * g) bs)

/-- What a COPY.MC reads for a part serves its other receivers too (R213): noted while some of them wait for it. -/
def noteRead (s : State) (id part : Nat) : State :=
  match tabFind s.copies id with
  | none => s
  | some cp =>
    match cp.op with
    | .box _ daddr d origin order1 rows dests _ cv =>
      let n := boxBytes d (fmtBits (cv.getD d.fmt)) / 16
      let g := part % n
      if dests.length ≤ 1 || (tabFind cp.read g).isSome then s
      else
        let got := match granBytes s cp daddr d origin order1 rows cv g with
          | .ok (t, bs) => some (t, none, bs)
          | .error (some e) => some (s, some e, [])
          | .error none => none
        match got with
        | some (t, f, bs) => { t with copies := tabMod t.copies id fun p => { p with read := tabPut p.read g (f, bs) } }
        | none => s
    | _ => s

/-- The elements of a box that lie in the 32-byte sector of an address: where they go, and their values in the source. -/
def sectorElems (s : State) (cp : Copy) (daddr : Nat) (d : Desc) (origin : List Nat) (src : Nat) (va : DWord) :
    List (Nat × Nat × Nat) :=
  let es := fmtBits d.fmt
  let k := 128 / es
  (List.range (boxCount d)).filterMap fun e =>
    let co := boxCoords d false origin none e
    if (outOfRange d co).isSome then none
    else match routeElem s (agentOf s cp).pos (agentOf s cp).part (agentOf s cp).svc daddr d co (engIdx s) with
      | .there x nib =>
        if x.toNat / 32 = va.toNat / 32 then
          some (x.toNat % 32, nib, natOfBytes (spadRead s (src + 16 * (e / k)) 16) / 2 ^ (es * (e % k)) % 2 ^ es)
        else none
      | _ => none

/-- The 32 bytes that a box writes to a sector, if it writes the sector whole (R151). -/
def sectorWhole (s : State) (cp : Copy) (daddr : Nat) (d : Desc) (origin : List Nat) (src : Nat) (va : DWord) :
    Option (List Byte) :=
  let els := sectorElems s cp daddr d origin src va
  if els.length * fmtBits d.fmt = 256 then
    some (els.foldl (fun bs x => overlay bs x.1 (elemInto d x.2.1 x.2.2 ((bs.drop x.1).take (elemBytes d)))) (zeros 32))
  else none

/-- The elements of a granule go out to global memory: the latest settle time. A poisoned sector that the box overwrites
whole is overwritten in one write. -/
def putElems (s : State) (cp : Copy) (daddr : Nat) (d : Desc) (whole : State → DWord → Option (List Byte)) (settle : Option Nat) :
    List (List Nat × Nat) → Except (Option EngFault) (State × Option Nat)
  | [] => .ok (s, settle)
  | (co, v) :: rest =>
    if (outOfRange d co).isSome then putElems s cp daddr d whole settle rest
    else
      let g := agentOf s cp
      match routeElem s g.pos g.part g.svc daddr d co (engIdx s) with
      | .locked => .error none
      | .broken => .error (some (0x12, 0))
      | .there va nib =>
        match engPut s g d va nib v with
        | .ok (s, t) => putElems s cp daddr d whole (laterSettle settle t) rest
        | .error e =>
          match whole s va with
          | none => .error (some e)
          | some bs =>
            match engWrite s g (va - BitVec.ofNat 64 (va.toNat % 32)) bs with
            | .error _ => .error (some e)
            | .ok (s, t) => putElems s cp daddr d whole (laterSettle settle t) rest

/-- A part of COPYW from a box. -/
def partBoxOut (s : State) (cp : Copy) (daddr : Nat) (d : Desc) (origin : List Nat) (src part : Nat) : PartRes :=
  let es := fmtBits d.fmt
  let v := natOfBytes (spadRead s (src + 16 * part) 16)
  let k := 128 / es
  let els := (granElems d es part).map fun e => (boxCoords d false origin none e, v / 2 ^ (es * (e % k)) % 2 ^ es)
  match putElems s cp daddr d (fun s va => sectorWhole s cp daddr d origin src va) (some s.time.now) els with
  | .error e => partErr e
  | .ok (s, t) => .applied s t

/-- The other half of a part's 32-byte sector, if the copy still has it to do. -/
def mateOf (cp : Copy) (addr part : Nat) : Option Nat :=
  let m := if (addr / 16 + part) % 2 = 0 then some (part + 1) else if part = 0 then none else some (part - 1)
  m.bind fun k => if tabFind cp.parts k = some .todo then some k else none

/-- A part's 16 bytes go to global memory; a poisoned sector that the copy overwrites whole is overwritten in one write. -/
def partGlb (s : State) (cp : Copy) (va : DWord) (bytes : Nat → List Byte) (part : Nat) : PartRes :=
  let at' := fun (i : Nat) => va + BitVec.ofNat 64 (16 * i)
  match engWrite s (agentOf s cp) (at' part) (bytes part) with
  | .ok (s, t) => .applied s t
  | .error e =>
    match mateOf cp va.toNat part with
    | none => .bad e
    | some m =>
      let lo := min part m
      match engWrite s (agentOf s cp) (at' lo) (bytes lo ++ bytes (lo + 1)) with
      | .ok (s, t) => .applied s t
      | .error _ => .bad e

/-- The CB offset of a bank key, for a thread's crew. -/
def cbOffset (s : State) (cp : Copy) (bank : Nat) : DWord :=
  let cr := (crewOf s cp.crew).getD noCrew
  BitVec.ofNat 64 (bank % 4294967296 - cr.cbBase.getD (halfOf cr cp.core) 0 * 2048)

/-- Bytes of a bank for a part, or its fault (R154 to R157, R217). -/
def bankPart (s : State) (cp : Copy) (bank : Nat) : Except EngFault (List Byte) :=
  if cbWithdrawn s cp.core (bank % 4294967296) 16 then .error (0x0E, cbOffset s cp bank)
  else if bankPoisoned s bank 16 then .error (0x0F, cbOffset s cp bank)
  else .ok (bankRead s bank 16)

/-- A part's 16 bytes go to a bank; a poisoned sector is overwritten only whole. -/
def partBank (s : State) (cp : Copy) (bank : Nat) (bs : List Byte) (mate : Option (List Byte)) (low : Bool) : PartRes :=
  if cbWithdrawn s cp.core (bank % 4294967296) 16 then .bad (0x0E, cbOffset s cp bank)
  else if !bankPartly s bank 16 then .landed (bankWrite s bank bs)
  else match mate with
    | none => .bad (0x0F, cbOffset s cp bank)
    | some ms => .landed (if low then bankWrite s bank (bs ++ ms) else bankWrite s (bank - 16) (ms ++ bs))

/-- A part into the bank, with the bytes that each part of the copy brings. -/
def partBankIn (s : State) (cp : Copy) (bank part : Nat) (bytes : State → Nat → Except EngFault (State × List Byte)) : PartRes :=
  match bytes s part with
  | .error e => .bad e
  | .ok (s, bs) =>
    let mate := (mateOf cp bank part).bind fun m => match bytes s m with
      | .error _ => none
      | .ok r => some r.2
    partBank s cp (bank + 16 * part) bs mate ((bank / 16 + part) % 2 == 0)

/-- Has every earlier global store and atomic of the issuer been applied at its home (R190)? -/
def relMet (s : State) (gk l seq : Nat) : Bool :=
  s.accs.all fun (_, a) =>
    !(a.gang == gk && a.lanes.contains l && a.seq < seq && a.space == .gl && isStore a && (accWaits a || a.st == .near))

/-- Does a copy read the issuer's scratchpad? -/
def readsSpad (op : CopyOp) : Bool :=
  match op with
  | .boxOut .. | .glbOut .. | .bankSp false .. => true
  | _ => false

/-- What becomes of part `part` of a copy now. -/
def partNow (s : State) (cp : Copy) (part : Nat) : PartRes :=
  if cp.rel && !relMet s cp.gang cp.lane cp.seq then .wait
  else if readsSpad cp.op && ownSpQueue s cp.gang [cp.lane] cp.seq then .wait
  else
    match cp.op with
    | .box _ daddr d origin order1 rows dests _ cv => partBox s cp daddr d origin order1 rows dests cv part
    | .boxOut _ daddr d origin src => partBoxOut s cp daddr d origin src part
    | .glbOut va src => partGlb s cp va (fun i => spadRead s (src + 16 * i) 16) part
    | .bankGl false bank va => partBankIn s cp bank part fun s i =>
        match engRead s (agentOf s cp) (va + BitVec.ofNat 64 (16 * i)) 16 with
        | .error e => .error e
        | .ok r => .ok (r.1, r.2.2)
    | .bankGl true bank va =>
      match bankPart s cp (bank + 16 * part) with
      | .error e => .bad e
      | .ok bs => partGlb s cp va (fun i => if i = part then bs else bankRead s (bank + 16 * i) 16) part
    | .bankSp false bank key => partBankIn s cp bank part fun s i => .ok (s, spadRead s (key + 16 * i) 16)
    | .bankSp true bank key =>
      match bankPart s cp (bank + 16 * part) with
      | .error e => .bad e
      | .ok bs => .landed (landGran s (key + 16 * part) bs)
    | .ray .. => .wait

/-- Does a copy credit its barrier for each part (Table TENS-6)? -/
def creditsOf (op : CopyOp) : Nat :=
  match op with
  | .box _ _ _ _ _ _ _ credit _ => if credit then 16 else 0
  | _ => 16

/-- A part leaves its copy; with its last part the thread ends. -/
def dropPart (s : State) (id part : Nat) : State :=
  match tabFind s.copies id with
  | none => s
  | some cp =>
    let parts := tabDel cp.parts part
    { s with copies := if parts.isEmpty then tabDel s.copies id else tabPut s.copies id { cp with parts } }

/-- One more source part of a copy has been read (R338). -/
def readPart (s : State) (id : Nat) (cp : Copy) : State :=
  if cp.unread = 0 then s
  else
    let s := { s with copies := tabMod s.copies id fun p => { p with unread := p.unread - 1 } }
    complete s cp.gang cp.gid 1

/-- The survey counts the 16 bytes of a part: those of COPYB apart (R314). -/
def countBytes (s : State) (cp : Copy) : State :=
  match cp.op with
  | .ray .. => s
  | .bankGl .. | .bankSp .. => countCrew s cp.crew cp.core 49 16
  | _ => countCrew s cp.crew cp.core 48 16

/-- A part is done: its credit, and its place in the thread. -/
def creditPart (s : State) (id part : Nat) (cp : Copy) : State :=
  let s := countBytes (dropPart s id part) cp
  match cp.bar with
  | some k => if creditsOf cp.op = 0 then s else creditBytes s cp.crew k (creditsOf cp.op)
  | none => s

/-- The handle that a copy fault record names (R219). -/
def copyHandle (op : CopyOp) : Nat :=
  match op with
  | .box h .. | .boxOut h .. => h
  | _ => 0

/-- The scratchpad granule that a part would have filled. -/
def partGran (op : CopyOp) (part : Nat) : Option Nat :=
  match op with
  | .box _ _ d _ _ _ dests _ cv =>
    let n := boxBytes d (fmtBits (cv.getD d.fmt)) / 16
    (dests[part / n]?).map fun x => x.1 / 16 + part % n
  | .bankSp true _ key => some (key / 16 + part)
  | _ => none

/-- A part faults (R218, R219): its granule fails, the record and the barrier's error are written; a binding's fault halts
its crew (R74). -/
def faultPart (s : State) (id part : Nat) (cp : Copy) (f : EngFault) : State :=
  let s := dropPart (readPart s id cp) id part
  let s := countCrew (recordFault s cp.crew cp.bar (copyHandle cp.op) f.1 f.2) cp.crew cp.core 51 1
  let s := match partGran cp.op part with
    | some g => if (crewOf s (g / 1048576)).isSome then countCrew (failGran s g) cp.crew cp.core 50 1 else s
    | none => s
  match cp.bar with
  | some _ => s
  | none => modCrew s cp.crew (askHalt (.prologue cp.lane f.2
      (BitVec.ofNat 32 (copyHandle cp.op * 65536 + f.1.toNat * 256)) f.1))

end Sys2Proof.Machine
end

