-- ==== Sys2Proof/Machine/Tensor.lean ====
section
/-! DEFINITION. TLD and TST (R204), HSTAT and HINV (R202, R211), CBLD (R227), and RELAYOUT with the relayout engines (R205
to R210). -/

namespace Sys2Proof.Machine

/-! ### TLD and TST (R204, R404) -/

/-- A lane's element: its handle, where its bytes are now (a locked tile gives none), and its nibble. -/
structure ElemReq where
  lane : Nat
  handle : Nat
  desc : Desc
  daddr : Nat
  xl : Xl
  coords : List Nat
  nib : Nat
  addr : LaneAddr
  deriving DecidableEq, Repr

/-- The checks of a lane's access to the element of handle `h` at coordinates. -/
def elemFor (s : State) (c : Ctx) (k : AccessKind) (h : Nat) (coords : List Nat) (l : Nat) : Except TrapInfo ElemReq :=
  match handleFor s c l h .read (fun _ => true) with
  | .error t => .error t
  | .ok (desc, daddr, xl) =>
    match outOfRange desc coords with
    | some i => .error (handleTrap h 3 i)
    | none =>
      let cr := crewD s c.gk
      let none' : LaneAddr := { lane := l, space := .gl, va := 0, pa := 0, size := 0, xl := none, saved := false }
      match routeElem s (c.g.core / 16) cr.part cr.svc daddr desc coords (xlIdx s l + 2) with
      | .locked => .ok { lane := l, handle := h, desc, daddr, xl, coords, nib := 0, addr := none' }
      | .broken => .error (handleTrap h 2 0)
      | .there va nib =>
        match checkGL s c.g.core cr k (elemBytes desc) va l (xlIdx s l + 3) with
        | .error t => .error t
        | .ok la => .ok { lane := l, handle := h, desc, daddr, xl, coords, nib, addr := la }

/-- An element access's checks in a lane. -/
def elemReq (s : State) (c : Ctx) (k : AccessKind) (a b : Opnd) (n l : Nat) : Except TrapInfo ElemReq :=
  elemFor s c k ((rd s c l a).toNat % 65536) (coordsAt s c l b n) l

/-- The trap of an element access. -/
def elemErr (x : Except TrapInfo ElemReq) : Option TrapInfo := match x with
  | .error t => some t
  | .ok _ => none

/-- The accesses of a word. -/
def elemOks (c : Ctx) (req : Nat → Except TrapInfo ElemReq) : List ElemReq := c.on.filterMap fun l => match req l with
  | .error _ => none
  | .ok r => some r

/-- What using handles and translations leaves cached. -/
def usedElems (s : State) (c : Ctx) (rs : List ElemReq) : State :=
  let s := rs.foldl (fun s r => usedHandle s c r.handle (r.desc, r.daddr, r.xl)) s
  addTlbs s c.g.core (crewD s c.gk).part (rs.map (·.addr))

/-- TLD (R204). -/
def execTld (h : Hdr) (d : Reg) (a b : Opnd) (n : BitVec 3) (s : State) : Host.Outcome State Fault Refusal :=
  let k := n.toNat + 1
  runWord { hdr := h, names := vNames d 1 ++ opNames a 1 ++ opNames b k, reads := readsAll (opReads a 1 ++ opReads b k),
            early := noEarly, wait := acqWait,
            body := fun c s =>
              let req := elemReq s c .read a b k
              match trapEnds c fun l => elemErr (req l) with
              | some ends => trapPlan s ends
              | none =>
                let rs := elemOks c req
                let accs := rs.map fun r =>
                  newAcc c r.addr (.tld d.toNat r.handle r.daddr r.desc r.coords) (r.desc.state == 1 || !cacheable r.addr) false
                { st := addAccs (usedElems s c rs) (c.seq + 1) accs, ends := allNext c, comp := .lanes accs.length } } s

/-- A core's copy of a line takes an element (R170). -/
def l1Elem (s : State) (core pa : Nat) (d : Desc) (nib v : Nat) : State :=
  let l1 := s.cache.l1.map fun (x : L1Copy) =>
    if x.core = core && x.line = pa / 128 && x.fetch.isNone then
      { x with bytes := overlay x.bytes (pa % 128) (elemInto d nib v ((x.bytes.drop (pa % 128)).take (elemBytes d))) }
    else x
  { s with cache := { s.cache with l1 := l1 } }

/-- TST (R204). -/
def execTst (h : Hdr) (d : Reg) (a b : Opnd) (n : BitVec 3) (s : State) : Host.Outcome State Fault Refusal :=
  let k := n.toNat + 1
  let addr := fun (c : Ctx) (s : State) l => match elemReq s c .write a b k l with
    | .error t => Except.error t
    | .ok r => .ok r.addr
  runWord { hdr := h, names := vNames d 1 ++ opNames a 1 ++ opNames b k,
            reads := readsAll (opReads a 1 ++ opReads b k ++ vReads d 1), early := noEarly, wait := storeWait addr,
            body := fun c s =>
              let req := elemReq s c .write a b k
              match trapEnds c fun l => elemErr (req l) with
              | some ends => trapPlan s ends
              | none =>
                let rs := elemOks c req
                let v := fun (r : ElemReq) => readV s c.g r.lane d.toNat
                let s' := rs.foldl (fun t r =>
                  if r.desc.state = 1 then t else l1Elem t c.g.core r.addr.pa r.desc r.nib (v r).toNat) (usedElems s c rs)
                let accs := rs.map fun r => newAcc c r.addr (.tst (v r) r.handle r.daddr r.desc r.coords) true false
                { st := addAccs s' (c.seq + 1) accs, ends := allNext c, comp := .lanes accs.length } } s

/-- An element access through a converting handle is performed after every earlier access of its fibres (R172). -/
def convTurn (s : State) (id : Nat) (a : Acc) (d : Desc) : Bool :=
  d.state != 1 || !(s.accs.any fun (i, b) =>
    i < id && b.gang == a.gang && b.lanes.any a.lanes.contains && accWaits b && movesBytes b && b.space == .gl)

/-- The place of an element access when it is performed (R208), or the trap it meets late. -/
inductive ElemAt where
  | wait
  | late (t : TrapInfo)
  | there (a : Acc) (nib : Nat)

/-- An element access routed at the instant it is performed: unchanged unless its handle was converting. -/
def elemAt (s : State) (a : Acc) (k : AccessKind) (handle daddr : Nat) (d : Desc) (coords : List Nat) : ElemAt :=
  let cr := (crewOf s a.crew).getD noCrew
  if d.state ≠ 1 then .there a (elemAddr d false coords).2
  else
    let idx := s.free * 16777216 + 9500000
    match routeElem s (a.core / 16) cr.part cr.svc daddr d coords idx with
    | .locked => .wait
    | .broken => .late (handleTrap handle 2 0)
    | .there va nib =>
      match checkGL s a.core cr k (elemBytes d) va 0 (idx + 1) with
      | .error t => .late t
      | .ok la => .there { a with va, pa := la.pa, size := la.size, window := isHost la.pa || isPeer la.pa } nib

/-- TLD's value in D (R204): S8 and S16 sign-extended, else zero-extended. -/
def tldValue (d : Desc) (nib : Nat) (bs : List Byte) : Word :=
  let v := elemOf d nib bs
  if d.fmt = 6 then BitVec.ofInt 32 (toSigned 8 v) else if d.fmt = 8 then BitVec.ofInt 32 (toSigned 16 v) else BitVec.ofNat 32 v

/-- A TLD is performed and returns (R204). -/
def returnTld (s : State) (id : Nat) (a : Acc) (dst handle daddr : Nat) (d : Desc) (coords : List Nat) : State :=
  if !accReady s id a || !convTurn s id a d || landsLater s a.gang a.lanes a.seq (accDest a) then s else
  match elemAt s a .read handle daddr d coords with
  | .wait => s
  | .late t => finishAcc (lateAcc s a t) id a 1
  | .there b nib =>
    match readAcc s id b with
    | .notYet => s
    | .late t => finishAcc (lateAcc s a t) id a 1
    | .bytes s bs => finishAcc (a.lanes.foldl (fun s l => landWords s a.gang l a.seq dst [tldValue d nib bs]) s) id a 1

/-- A TST is applied at its home (R204). -/
def applyTst (s : State) (id : Nat) (a : Acc) (v : Word) (handle daddr : Nat) (d : Desc) (coords : List Nat) : State :=
  if !accReady s id a || !convTurn s id a d then s else
  match elemAt s a .write handle daddr d coords with
  | .wait => s
  | .late t => finishAcc (lateAcc s a t) id a 1
  | .there b nib =>
    let bs := elemInto d nib v.toNat (anyRead s b.pa (elemBytes d))
    let s := if d.state = 1 then l1Update s b.core b.pa bs else s
    applyStore s id b bs

/-! ### HSTAT and HINV -/

/-- HSTAT (R211, R358). -/
def execHstat (h : Hdr) (acq : Bool) (d a : Opnd) (s : State) : Host.Outcome State Fault Refusal :=
  runWord { hdr := h, names := opNames d 1 ++ opNames a 1, reads := readsAll (opReads a 1), early := noEarly, wait := acqWait,
            once := d.s,
            body := fun c s =>
              let ls := dstLanes c d
              let hd := fun l => (rd s c l a).toNat % 65536
              let req := fun l => checkGL s c.g.core (crewD s c.gk) .read 64 (descVA (crewD s c.gk) (hd l)) l (xlIdx s l)
              match trapEnds c fun l => if ls.contains l then errOf (req l) else none with
              | some ends => trapPlan s ends
              | none =>
                let las := ls.filterMap fun l => okOf (req l)
                let s' := addTlbs s c.g.core (crewD s c.gk).part las
                let also := if d.s then c.on.filter fun l => !ls.contains l else []
                let accs := las.map fun x => { newAcc c x (.hstat d acq (hd x.lane)) true false with also }
                let s' := addAccs s' (c.seq + 1) accs
                { st := if acq then addAcqs s' c.gk c.seq c.on else s', ends := allNext c, comp := .lanes accs.length } } s

/-- The word that HSTAT writes: STATE and ERRCAUSE. -/
def hstatWord (s : State) (pa : Nat) : Word :=
  BitVec.ofNat 32 (natOfBytes (anyRead s (pa + 45) 1) % 4 + natOfBytes (anyRead s (pa + 47) 1) * 256)

/-- An operand register of a lane takes late data. -/
def landOpnd (s : State) (gk l seq : Nat) (d : Opnd) (v : Word) : State :=
  modGang s gk fun g => landReg seq g (oneWrite d l v)

/-- A HSTAT reads the descriptor at its home and returns (R211); it is performed, as an acquire, in its own lane, or with an s
destination in every lane of its word (R80, R192, R358). -/
def returnHstat (s : State) (id : Nat) (a : Acc) (d : Opnd) : State :=
  let done := fun s => finishAcc (dropAcqs s a.gang a.seq a.also) id a 1
  if a.st ≠ .pending || coreStorePending s a.core (a.pa / 128) id || landsLater s a.gang a.lanes a.seq (accDest a) then s
  else if addrLost s a.pa || readsPoison s (a.pa + 45) 3 then done (lateAcc s a (addrTrap 0x0F (a.va + 45)))
  else
    let s := recallRange s a.pa 64
    let v := hstatWord s a.pa
    done (a.lanes.foldl (fun s l => landOpnd s a.gang l a.seq d v) s)

/-- HINV (R202, R357): the fibre is held. -/
def execHinv (h : Hdr) (a : Opnd) (s : State) : Host.Outcome State Fault Refusal :=
  runWord { hdr := h, names := opNames a 1, reads := readsAll (opReads a 1), early := noEarly, wait := noWait,
            body := fun c s =>
              { st := returnNear s c.gk c.on,
                ends := c.on.map fun l => (l, .hold (.hinv ((rd s c l a).toNat % 65536) none 0)), comp := .lanes c.on.length } } s

/-- The handle that an access goes through, and its descriptor's address. -/
def accHandle (a : Acc) : Option (Nat × Nat) :=
  match a.op with
  | .tld _ h da .. | .tst _ h da .. => some (h, da)
  | .sample _ h da .. => some (h, da)
  | _ => none

/-- The handle that a thread goes through, and its descriptor's address. -/
def threadHandle (cp : Copy) : Option (Nat × Nat) :=
  match cp.op with
  | .box h da .. | .boxOut h da .. => some (h, da)
  | _ => none

/-- Is a use of a handle one of handle `h`? -/
def usesHandle (h : Nat) (daddr : Option Nat) (u : Option (Nat × Nat)) : Bool := match u with
  | some (n, a) => isHandle h daddr n a
  | none => false

/-- An access through a handle of a partition, obtained before issue number `cut`, is still to be applied (R202). An abandoned load
has none (R287). -/
def handleBusy (s : State) (part h : Nat) (daddr : Option Nat) (cut : Nat) : Bool :=
  (s.accs.any fun (_, a) => usesHandle h daddr (accHandle a) && a.seq < cut && accWaits a &&
    !(crewAway s a.crew && !isStore a) && ((crewOf s a.crew).getD noCrew).part == part) ||
  s.copies.any fun (_, p) => usesHandle h daddr (threadHandle p) && p.seq < cut && p.part == part &&
    p.parts.any fun (_, t) => t == .todo

/-- The address of a crew's descriptor `h`, where it translates (R198). -/
def handleAddr (s : State) (core : Nat) (cr : Crew) (h : Nat) : Option Nat :=
  match translate s (core / 16) cr.part cr.svc .read (descVA cr h) (s.free * 16777216 + 9600000) with
  | .ok x => some x.pa
  | .error _ => none

/-- Every earlier global store of a fibre has been applied at its home (R202). -/
def storesApplied (s : State) (gk l seq : Nat) : Bool :=
  s.accs.all fun (_, a) =>
    !(a.gang == gk && a.lanes.contains l && a.seq < seq && a.space == .gl && isStore a) || (match a.st with
      | .applied _ | .forwarded => true
      | _ => false)

/-- The HINV that holds a fibre. -/
def hinvHold (g : Gang) (l : Nat) : Option (Nat × Option Nat × Nat × Held) :=
  (tabFind g.fibres l).bind fun f => f.held.bind fun h => match h.why with
    | .hinv x da cut => some (x, da, cut, h)
    | _ => none

/-- The lanes of one HINV that have all completed their drops (R357). -/
def hinvDone (s : State) (gk : Nat) (g : Gang) (seq : Nat) : Bool :=
  (tabKeys g.fibres).all fun l => match hinvHold g l with
    | some (x, da, cut, h) => h.seq != seq || (cut != 0 && !handleBusy s (crewD s gk).part x da cut)
    | none => true

/-- HINV_COMPLETION (R202): the drop, once the fibre's earlier stores are applied; then, when no access through the dropped
descriptor is left in any of the word's lanes, they go on together. -/
def execHinvCompletion (gk lane : Nat) (s : State) : Host.Outcome State Fault Refusal :=
  match gangOf s gk with
  | none => .next s
  | some g =>
    match hinvHold g lane with
    | none => .next s
    | some (x, _, cut, h) =>
      if cut = 0 then
        if storesApplied s gk lane h.seq then
          let da := handleAddr s g.core (crewD s gk) x
          let s := dropHandle s (crewD s gk).part x da
          let held : Held := { h with why := .hinv x da s.nextId }
          .next (modFibre { s with nextId := s.nextId + 1 } gk lane fun f => { f with held := some held })
        else .next s
      else if hinvDone s gk g h.seq then
        .next (releaseLanes s gk ((tabKeys g.fibres).filter fun l => match hinvHold g l with
          | some (_, _, _, k) => k.seq == h.seq
          | none => false))
      else .next s

/-! ### CBLD (R227, R333) -/

/-- The address of a CBLD. -/
def cbldReq (a : Opnd) (c : Ctx) (s : State) (_ : Nat) : Except TrapInfo LaneAddr :=
  checkGL s c.g.core (crewD s c.gk) .read 32 (rd64 s c (lowest c) a) (lowest c) (xlIdx s (lowest c))

/-- CBLD: 32 bytes at the home into a slot of the core, as one update. -/
def execCbld (h : Hdr) (a : Opnd) (slot : BitVec 8) (s : State) : Host.Outcome State Fault Refusal :=
  runWord { hdr := h, names := opNames a 2, reads := readsAll (opReads a 2), early := geoEarly,
            wait := fun c s => storeWait (cbldReq a) c s || (match cbldReq a c s 0 with
              | .error _ => false
              | .ok x => coreStorePending s c.g.core (x.pa / 128) s.nextId),
            body := fun c s =>
              match cbldReq a c s 0 with
              | .error t => trapPlan s (allTrap c t)
              | .ok x =>
                if addrLost s x.pa || readsPoison s x.pa 32 then trapPlan s (allTrap c (addrTrap 0x0F x.va))
                else
                  let ck := crewOfGang c.gk
                  let s := recallRange (addTlbs s c.g.core (crewD s c.gk).part [x]) x.pa 32
                  let bs := anyRead s x.pa 32
                  let s := if isPeer x.pa then { s with free := s.free + 1 } else s
                  let s := { s with slots := tabPut s.slots (c.g.core * 256 + slot.toNat) bs }
                  { st := modCrew s ck fun r => { r with slots := setIns r.slots (halfOf r c.g.core * 256 + slot.toNat) }, ends := allNext c,
                    comp := .issue } } s

/-! ### RELAYOUT (R205, R392) -/

/-- Bytes of a descriptor are written at its home. -/
def descWrite (s : State) (addr off : Nat) (bs : List Byte) : State :=
  if isHost addr then hostWrite s (hostBus (addr + off)) bs
  else if isPeer addr then s
  else homeWrite (recallRange s (addr + off) bs.length) (addr + off) bs

/-- A conversion stops (R209): ERRCAUSE and STATE 2; the handle leaves the caches. -/
def convStop (s : State) (part handle addr : Nat) (cause : BitVec 8) : State :=
  dropHandle (descWrite (descWrite s addr 47 [cause]) addr 45 [2#8]) part handle (some addr)

/-- Zeroes bytes for an engine, in pieces that lie in one 32-byte sector. -/
def engZero : Nat → State → Agent → Nat → Nat → Except EngFault State
  | 0, s, _, _, _ => .ok s
  | fuel + 1, s, g, va, n =>
    if n = 0 then .ok s
    else
      let k := min n (32 - va % 32)
      match engWrite s g (BitVec.ofNat 64 va) (zeros k) with
      | .error e => .error e
      | .ok (s, _) => engZero fuel s g (va + k) (n - k)

/-- RELAYOUT in one lane. -/
def relayoutLane (c : Ctx) (a b : Opnd) (tag : Nat) (s : State) (l i : Nat) : Except TrapInfo State :=
  let cr := crewD s c.gk
  let h := (rd s c l a).toNat % 65536
  match getDesc s c.g.core cr h .write (xlIdx s l) with
  | .error t => .error t
  | .ok (d, addr, x) =>
    let base := rd64 s c l b
    let new : Desc := { d with newTag := tag, newBase := base.toNat, state := 1, errCause := 0 }
    if d.state ≠ 0 || d.flags / 2 % 2 = 1 then .error (handleTrap h 5 0)
    else if !descLegal new then .error (handleTrap h 1 0)
    else
      let s := tlbAdd s (c.g.core / 16) cr.part x
      let s := descWrite s addr 8 (bytesOfNat 8 base.toNat)
      let s := descWrite s addr 43 [BitVec.ofNat 8 tag]
      let s := descWrite s addr 45 [1#8]
      let s := dropHandle (descWrite s addr 47 [0#8]) cr.part h (some addr)
      let pos := match groupAt s addr with
        | some g => g.1
        | none => 0
      let n := (convTiles new + 7) / 8
      match engZero (n + 1) s { pos, part := cr.part, svc := cr.svc } new.bmap n with
      | .error e => .ok (convStop s cr.part h addr e.1)
      | .ok s =>
        let v : Conv := { pos, part := cr.part, addr, handle := h, desc := new, tile := 0, locked := false, settle := some 0,
                          svc := cr.svc }
        .ok { s with convs := tabPut s.convs (c.seq + 1 + i) v }

/-- RELAYOUT is accepted when every access through the old descriptor has been applied: it waits for that at issue. -/
def relayoutWait (a : Opnd) (c : Ctx) (s : State) : Bool :=
  acqWait c s || c.on.any fun l =>
    let h := (rd s c l a).toNat % 65536
    handleBusy s (crewD s c.gk).part h (handleAddr s c.g.core (crewD s c.gk) h) s.nextId

/-- RELAYOUT (R205, R392). -/
def execRelayout (h : Hdr) (a b : Opnd) (tag : LayoutTag) (s : State) : Host.Outcome State Fault Refusal :=
  let t := match tag with
    | .row => 0
    | .col => 1
    | .tile => 2
    | .ztile => 3
    | .kpack => 4
  runWord { hdr := h, names := opNames a 1 ++ opNames b 2, reads := readsAll (opReads a 1 ++ opReads b 2), early := noEarly,
            wait := relayoutWait a,
            body := fun c s =>
              let r := foldLanes c s (relayoutLane c a b t)
              { st := r.st, ends := r.ends, comp := .issue } } s

/-! ### The relayout engine (R207 to R210) -/

/-- For whom a conversion moves bytes. -/
def convAgent (v : Conv) : Agent := { pos := v.pos, part := v.part, svc := v.svc }

/-- The elements of a conversion tile. -/
def tileElems (d : Desc) (n : Nat) : List (List Nat) :=
  let a0 := tilesAlong d 0
  let a1 := tilesAlong d 1
  let hi := n / (a0 * a1)
  let c0 := n % a0 * 256
  let c1 := n / a0 % a1 * 256
  (List.range (min 256 (dimOf d 1 - c1))).flatMap fun j => (List.range (min 256 (dimOf d 0 - c0))).map fun i =>
    [c0 + i, c1 + j, hi % dimOf d 2, hi / dimOf d 2 % dimOf d 3, hi / (dimOf d 2 * dimOf d 3)]

/-- The elements of a tile read in the old layout (R207). -/
def tileRead (g : Agent) (d : Desc) : State → List (List Nat) → Except EngFault (State × List (List Nat × Nat))
  | s, [] => .ok (s, [])
  | s, co :: rest =>
    let p := elemAddr d false co
    match engElem s g d p.1 p.2 with
    | .error e => .error e
    | .ok (s, v) =>
      match tileRead g d s rest with
      | .error e => .error e
      | .ok (s, vs) => .ok (s, (co, v) :: vs)

/-- The bytes that a tile's elements take in the new layout, by physical address. -/
def tileBytes (g : Agent) (d : Desc) : State → Tab Byte → List (List Nat × Nat) → Except EngFault (State × Tab Byte)
  | s, w, [] => .ok (s, w)
  | s, w, (co, v) :: rest =>
    let p := elemAddr d true co
    match engXl s g .write p.1 with
    | .error e => .error e
    | .ok (s, x) =>
      let n := elemBytes d
      let old := (List.range n).map fun i => (tabFind w (x.pa + i)).getD ((anyRead s (x.pa + i) 1).headD 0)
      let new := elemInto d p.2 v old
      let w := new.zipIdx.foldl (fun w b => tabPut w (x.pa + b.2) b.1) w
      tileBytes g d s w rest

/-- A poisoned sector that a set of bytes meets in part only. -/
def partPoisonIn (s : State) (w : Tab Byte) : Bool :=
  s.poison.any fun sec =>
    let n := ((List.range 32).filter fun i => (tabFind w (32 * sec + i)).isSome).length
    n != 0 && n != 32

/-- The bytes of a tile are written at their homes; the latest settle time, as far as it is known. -/
def tileWrite (s : State) (w : Tab Byte) : State × Option Nat :=
  let s := { s with poison := s.poison.filter fun sec => (tabFind w (32 * sec)).isNone }
  w.foldl (fun (r : State × Option Nat) b =>
    if isHost b.1 then (hostWrite r.1 (hostBus b.1) [b.2], laterSettle r.2 (windowSettle r.1 b.1))
    else if isPeer b.1 then (r.1, none)
    else
      let s := recallRange r.1 b.1 1
      (homeWrite s b.1 [b.2], laterSettle r.2 (some (settleNow s b.1 1)))) (s, some s.time.now)

/-- A tile is converted: its bytes are in the new layout, with their settle time. -/
def convertTile (s : State) (v : Conv) : Except EngFault (State × Option Nat) :=
  match tileRead (convAgent v) v.desc s (tileElems v.desc v.tile) with
  | .error e => .error e
  | .ok (s, vs) =>
    match tileBytes (convAgent v) v.desc s [] vs with
    | .error e => .error e
    | .ok (s, w) => if partPoisonIn s w then .error (0x0F, 0) else .ok (tileWrite s w)

/-- The bitmap bit of a tile is set (R206). -/
def setTileBit (s : State) (v : Conv) : Except EngFault State :=
  let va := BitVec.ofNat 64 (v.desc.bmap + v.tile / 8)
  match engXl s (convAgent v) .write va with
  | .error e => .error e
  | .ok (s, x) =>
    let b := ((anyRead s x.pa 1).headD 0) ||| (1#8 <<< (v.tile % 8))
    match engWrite s (convAgent v) va [b] with
    | .error e => .error e
    | .ok (s, _) => .ok s

/-- A conversion ends: TAG, BASE, then STATE (R209). -/
def convFinish (s : State) (v : Conv) : State :=
  let s := descWrite s v.addr 42 [BitVec.ofNat 8 v.desc.newTag]
  let s := descWrite s v.addr 0 (bytesOfNat 8 v.desc.newBase)
  dropHandle (descWrite s v.addr 45 [0#8]) v.part v.handle (some v.addr)

/-- Changes a die. -/
def modDie (s : State) (pos : Nat) (f : Die → Die) : State := { s with dies := tabMod s.dies pos f }

/-- A conversion's next move: to convert and lock its tile; once every window has acknowledged the tile's writes and they have
settled, to mark it NEW. A tile that is NEW, or a conversion that stops, passes the turn on. -/
def convMove (s : State) (key : Nat) (v : Conv) : State :=
  let pass := fun (s : State) => modDie s v.pos fun d => { d with turn := key }
  let stop := fun (s : State) (e : EngFault) => pass (convStop { s with convs := tabDel s.convs key } v.part v.handle v.addr e.1)
  if v.locked then
    match v.settle with
    | none =>
      let w : Conv := { v with settle := some s.time.now }
      { s with convs := tabPut s.convs key w }
    | some t =>
      if !timeReached s t then s
      else match setTileBit s v with
        | .error e => stop s e
        | .ok s =>
          if v.tile + 1 = convTiles v.desc then pass (convFinish { s with convs := tabDel s.convs key } v)
          else
            let w : Conv := { v with tile := v.tile + 1, locked := false }
            pass { s with convs := tabPut s.convs key w }
  else
    match convertTile s v with
    | .error e => stop s e
    | .ok (s, t) =>
      let w : Conv := { v with locked := true, settle := t }
      countPart { s with convs := tabPut s.convs key w } v.part (dieCounts v.pos) 52 1

/-- The conversion whose turn it is, of those that a die's engine may go on with: the next in the order of acceptance after the one
that had the last turn (R207). -/
def convTurnOf (turn : Nat) (mine : Tab Conv) : Option (Nat × Conv) :=
  match mine.find? fun (k, _) => turn < k with
  | some x => some x
  | none => mine.head?

/-- RELAYOUT_TILE_CONVERSION (R207 to R210): the die's engine goes on with the tile it has locked, else with the next
conversion in turn; conversions of a suspended partition are passed over. -/
def execRelayoutTileConversion (pos : Nat) (s : State) : Host.Outcome State Fault Refusal :=
  let mine := s.convs.filter fun (_, v) => v.pos == pos && !(partOf s v.part).susp
  match mine.find? fun (_, v) => v.locked with
  | some (k, v) => .next (convMove s k v)
  | none => match convTurnOf (((tabFind s.dies pos).map (·.turn)).getD 0) mine with
    | none => .next s
    | some (k, v) => .next (convMove s k v)

end Sys2Proof.Machine
end

