-- ==== Sys2Proof/Machine/Matrix.lean ====
section
/-! DEFINITION. The matrix engines (R37, R230 to R247): MMA, MMAZ, QLD, QST and QSCR at issue, the start governor, the
retirement of operations in their queue's order, and the wait for a tile. -/

namespace Sys2Proof.Machine

/-- An engine that has done nothing. -/
def newEngine : Engine := { queue := [], mapped := [], busyAt := none, latch := none, stallAt := none, tileWait := [] }

/-- An engine by its key: 8 × core + slice. -/
def engOf (s : State) (key : Nat) : Engine := (tabFind s.engines key).getD newEngine

/-- Changes an engine. -/
def modEng (s : State) (key : Nat) (f : Engine → Engine) : State :=
  { s with engines := tabPut s.engines key (f (engOf s key)) }

/-- The engine of a gang. -/
def engKey (g : Gang) : Nat := 8 * g.core + g.slice

/-- Logical tile `t` of a gang's tile set. -/
def tileKey (g : Gang) (t : Nat) : Nat := g.group * 16 + t

/-- An accumulator element (R240): sparse, +0 where nothing is listed. -/
def accAt (s : State) (tile i j : Nat) : Word := spGet 0 s.tiles ((tile * 64 + i) * 64 + j)

/-- An accumulator element takes a value. -/
def setAcc (s : State) (tile i j : Nat) (v : Word) : State := { s with tiles := spSet 0 s.tiles ((tile * 64 + i) * 64 + j) v }

/-- Every element of a tile is +0. -/
def zeroTile (s : State) (tile : Nat) : State := { s with tiles := s.tiles.filter fun (k, _) => k / 4096 != tile }

/-- Rows that a lane owns (R233). -/
def laneRows (gw : Nat) : Nat := 64 / gw

/-! ### Acceptance (R230, R231, R241) -/

/-- An engine has no physical tile for a word's tile. -/
def tileShort (e : Engine) (tile : Nat) : Bool := !e.mapped.contains tile && 16 ≤ e.mapped.length

/-- The word waits for a place in the queue or for a tile. -/
def engWait (c : Ctx) (s : State) (t : Nat) : Bool :=
  let e := engOf s (engKey c.g)
  16 ≤ e.queue.length || tileShort e (tileKey c.g t)

/-- A wait of the word at `pc` of a gang for a tile. -/
def waitsAt (gk tile : Nat) (pc : DWord) (w : TileWait) : Bool := w.gang == gk && w.tile == tile && w.pc == some pc

/-- A word that waits only for its tile: the wait is noted with its beginning (R241). -/
def noteTileWait (t : Nat) (c : Ctx) (s : State) : State :=
  let e := engOf s (engKey c.g)
  let tile := tileKey c.g t
  if acqWait c s || 16 ≤ e.queue.length || !tileShort e tile || e.tileWait.any (waitsAt c.gk tile c.pc) then s
  else modEng s (engKey c.g) fun e =>
    { e with tileWait := e.tileWait ++ [{ gang := c.gk, tile, pc := some c.pc, since := s.time.now }] }

/-- An operation enters its engine's queue; its tile is mapped. -/
def accept (s : State) (c : Ctx) (t : Nat) (op : EngOp) : State :=
  let tile := tileKey c.g t
  modEng s (engKey c.g) fun e =>
    { e with queue := e.queue ++ [{ gang := c.gk, gw := c.g.gw, lanes := c.on, gid := c.seq, seq := c.seq, pc := c.pc, op }],
             mapped := if e.mapped.contains tile then e.mapped else e.mapped ++ [tile],
             tileWait := e.tileWait.filter fun w => !waitsAt c.gk tile c.pc w }

/-- A queued operation is an MMA. -/
def isMma (q : EngEntry) : Bool := match q.op with
  | .mma .. => true
  | _ => false

/-- Is an engine idle for an MMA that reaches it (R37): none in progress for 256 clocks? -/
def engIdle (e : Engine) (cyc : Nat) : Bool :=
  !(e.queue.any isMma) && (match e.busyAt with
    | none => true
    | some t => t + 256 ≤ cyc)

/-- A start request joins those of its die, in order of instant, core and slice (R37). -/
def insertReq (r : Nat × Nat) : List (Nat × Nat) → List (Nat × Nat)
  | [] => [r]
  | x :: rest => if r.1 < x.1 || (r.1 == x.1 && r.2 < x.2) then r :: x :: rest else x :: insertReq r rest

/-- An MMA that reaches an idle engine raises a start request; unless the governor can grant it at once, the start waits (R37,
Table PKG-11). -/
def askStart (s : State) (c : Ctx) : State :=
  let k := engKey c.g
  if engIdle (engOf s k) c.cyc then
    modEng { s with dies := tabMod s.dies (c.g.core / 16) fun d =>
        { d with govReq := insertReq (s.time.now, k) d.govReq,
                 governed := d.governed || !d.govReq.isEmpty || d.govB < 4000 } } k fun e => { e with stallAt := some c.cyc }
  else s

/-- The crew of the MMA for which an engine's start waits. -/
def startCrew (e : Engine) : Nat := ((e.queue.find? isMma).map fun q => crewOfGang q.gang).getD 0

/-- The cycles for which an engine's start has waited are counted up to now (R38, R314). -/
def countStall (s : State) (key : Nat) : State :=
  let e := engOf s key
  match e.stallAt with
  | none => s
  | some t =>
    let cyc := cycOf s (key / 8)
    modEng (countCrew s (startCrew e) (key / 8) 26 (cyc - t)) key fun e => { e with stallAt := some cyc }

/-- START_GOVERNOR_GRANT (R37): the oldest request of the die, when B ≥ 2 A. -/
def execStartGovernorGrant (pos : Nat) (s : State) : Host.Outcome State Fault Refusal :=
  match tabFind s.dies pos with
  | none => .next s
  | some d =>
    match d.govReq with
    | [] => .next s
    | (_, k) :: rest =>
      if d.govB < 4000 then .next s
      else
        let s := { s with dies := tabPut s.dies pos { d with govReq := rest, govB := d.govB - 4000 } }
        .next (modEng (countStall s k) k fun e => { e with busyAt := some (cycOf s (k / 8)), stallAt := none })

/-! ### MMA (R232 to R239, R243, R373) -/

/-- Registers of the A operand (R234). -/
def aCount (gw : Nat) (w : Word) : Nat := laneRows gw * kBlock (fwA w) (fwB w) * opBits (fwA w) / 32

/-- The A registers and, with scale mode 1, the scale register of a format word. -/
def aRegs (gw a : Nat) (w : Word) : List Nat :=
  (List.range (aCount gw w + if fwScale w = 1 then 1 else 0)).map (a + ·)

/-- The bytes of the B block (R237). -/
def bBytes (w : Word) : Nat := 64 * kBlock (fwA w) (fwB w) * opBits (fwB w) / 8

/-- The trap of an MMA at issue, in the order of Table REFF-2. -/
def mmaTrap (a : Reg) (b f : Reg) (c : Ctx) (s : State) : Option TrapInfo :=
  let w := readV s c.g (lowest c) f.toNat
  match c.on.find? fun l => readV s c.g l f.toNat != w with
  | some l => some { trapOf 0x06 with info := BitVec.ofNat 32 l }
  | none =>
    if fwIllegal w then some { trapOf 0x07 with info := w }
    else match overWindow c.g.wsize (aRegs c.g.gw a.toNat w) with
      | some n => some { trapOf 0x05 with info := BitVec.ofNat 32 n }
      | none =>
        let off := readS s c.g (lowest c) b.toNat
        let n := bBytes w + if fwScale w = 1 then 64 else 0
        if off.toNat % 128 ≠ 0 then some (addrTrap 0x08 (off.zeroExtend 64))
        else spTrap (crewD s c.gk) off.toNat n

/-- A lane's A operand: its registers and the scale register. -/
def laneA (s : State) (c : Ctx) (a : Nat) (w : Word) (l : Nat) : Nat × List Word × Word :=
  let n := aCount c.g.gw w
  (l, (List.range n).map fun i => readV s c.g l (a + i), if fwScale w = 1 then readV s c.g l (a + n) else 0)

/-- The pool registers of the A operand and its row scales (R78, R236). -/
def poolRegs (c : Ctx) (a : Nat) (w : Word) : List Nat :=
  c.on.flatMap fun l => (aRegs c.g.gw a w).map ((((tabFind c.g.fibres l).map (·.wbase)).getD 0) + ·)

/-- The A operand: from the latch if that is valid for the gang, the pool registers, the format word and the lanes, else from the
registers (R236). -/
def latchRows (e : Engine) (c : Ctx) (a : Nat) (w : Word) (now : List (Nat × List Word × Word)) : List (Nat × List Word × Word) :=
  match e.latch with
  | some x =>
    if x.gang = c.gk && c.g.latch == x.regs && x.regs == poolRegs c a w && x.fmt = w && x.rows.map (·.1) == c.on then x.rows
    else now
  | none => now

/-- MMA (R243, R373): once per bundle, its A read at issue. -/
def execMma (h : Hdr) (tile : BitVec 4) (reuse : Bool) (a : Reg) (b : Reg) (f : Reg) (s : State) :
    Host.Outcome State Fault Refusal :=
  let t := tile.toNat
  runWord { hdr := h, names := vNames f 1,
            reads := fun s g l => vReads f 1 ++ [{ file := .s, n := b.toNat }] ++
              (let w := readV s g l f.toNat
               if fwIllegal w then [] else (aRegs g.gw a.toNat w).map vRef),
            early := geoEarly,
            wait := fun c s => !c.on.isEmpty && (mmaTrap a b f c s).isNone && (acqWait c s || engWait c s t),
            onWait := noteTileWait t,
            body := fun c s =>
              match mmaTrap a b f c s with
              | some x => trapPlan s (allTrap c x)
              | none =>
                let w := readV s c.g (lowest c) f.toNat
                let k := engKey c.g
                let rows := latchRows (engOf s k) c a.toNat w (c.on.map (laneA s c a.toNat w))
                let regs := poolRegs c a.toNat w
                let half := halfOf (crewD s c.gk) c.g.core
                let key := spadKey (crewOfGang c.gk) half (readS s c.g (lowest c) b.toNat).toNat
                let s := accept (askStart s c) c t (.mma w rows (tileKey c.g t) key [])
                let latch : Option ALatch := if reuse then some { gang := c.gk, regs, fmt := w, rows } else none
                let s := modGang s c.gk fun g => { g with latch := if reuse then regs else [] }
                { st := modEng s k fun e => { e with latch }, ends := allNext c, comp := .lanes 1 } } s

/-- The shape of the engine words that need no check but the geometry die's. -/
def engSpec (h : Hdr) (t : Nat) (names : Gang → List Nat) (reads : Gang → List RegRef) (trap : Ctx → State → Option TrapInfo)
    (op : Ctx → State → EngOp) : WordSpec :=
  { hdr := h, names := [], reads := fun _ g _ => reads g,
    early := fun s g ls => match geoEarly s g ls with
      | some x => some x
      | none => (overWindow g.wsize (names g)).map fun n => { trapOf 0x05 with info := BitVec.ofNat 32 n },
    wait := fun c s => !c.on.isEmpty && (trap c s).isNone && (acqWait c s || engWait c s t),
    onWait := noteTileWait t,
    body := fun c s =>
      match trap c s with
      | some x => trapPlan s (allTrap c x)
      | none => { st := accept s c t (op c s), ends := allNext c, comp := .lanes 1 } }

/-- MMAZ (R244). -/
def execMmaz (h : Hdr) (tile : BitVec 4) (s : State) : Host.Outcome State Fault Refusal :=
  runWord (engSpec h tile.toNat (fun _ => []) (fun _ => []) (fun _ _ => none) fun c _ =>
    .mmaz (tileKey c.g tile.toNat)) s

/-- The registers that QLD and QST move in a lane. -/
def colRegs (g : Gang) (d : Reg) (lg : BitVec 2) : List Nat := vNames d (laneRows g.gw * 2 ^ lg.toNat)

/-- The column of QLD and QST: misaligned to the number of columns, it traps (R245). -/
def colTrap (a : Opnd) (lg : BitVec 2) (c : Ctx) (s : State) : Option TrapInfo :=
  let v := rdU s c a
  if v.toNat % 64 % 2 ^ lg.toNat = 0 then none else some { trapOf 0x08 with info := v }

/-- QLD (R245, R384). -/
def execQld (h : Hdr) (d : Reg) (a : Opnd) (tile : BitVec 4) (lg : BitVec 2) (s : State) : Host.Outcome State Fault Refusal :=
  runWord (engSpec h tile.toNat (fun g => colRegs g d lg ++ opNames a 1) (fun _ => opReads a 1) (colTrap a lg)
    fun c s => .qld d.toNat (tileKey c.g tile.toNat) ((rdU s c a).toNat % 64) (2 ^ lg.toNat)) s

/-- QST (R245, R384): its sources are read at issue. -/
def execQst (h : Hdr) (d : Reg) (a : Opnd) (tile : BitVec 4) (lg : BitVec 2) (s : State) : Host.Outcome State Fault Refusal :=
  runWord (engSpec h tile.toNat (fun g => colRegs g d lg ++ opNames a 1)
    (fun g => opReads a 1 ++ (colRegs g d lg).map vRef) (colTrap a lg)
    fun c s => .qst (tileKey c.g tile.toNat) ((rdU s c a).toNat % 64) (2 ^ lg.toNat)
      (c.on.map fun l => (l, (colRegs c.g d lg).map fun n => readV s c.g l n))) s

/-- Bytes that QSCR writes. -/
def qscrBytes (f : QFmt) : Nat := match f with
  | .bf16 => 8192
  | _ => 4096

/-- QSCR's traps at issue (R246). -/
def qscrTrap (d : Reg) (f : QFmt) (c : Ctx) (s : State) : Option TrapInfo :=
  let off := readS s c.g (lowest c) d.toNat
  firstOf [alignTrap (off.zeroExtend 64) 16, spTrap (crewD s c.gk) off.toNat (qscrBytes f)]

/-- QSCR (R246, R385). -/
def execQscr (h : Hdr) (d : Reg) (tile : BitVec 4) (f : QFmt) (s : State) : Host.Outcome State Fault Refusal :=
  runWord (engSpec h tile.toNat (fun _ => []) (fun _ => [{ file := .s, n := d.toNat }]) (qscrTrap d f)
    fun c s => .qscr f (tileKey c.g tile.toNat)
      (spadKey (crewOfGang c.gk) (halfOf (crewD s c.gk) c.g.core) (readS s c.g (lowest c) d.toNat).toNat)) s

/-! ### Retirement (R231, R243 to R246) -/

/-- Element `k` of a packed list of words, at `es` bits from bit `at'` on. -/
def packedElem (ws : List Word) (at' es : Nat) : Nat := (ws.getD (at' / 32) 0).toNat / 2 ^ (at' % 32) % 2 ^ es

/-- The codebook table of a slot of a core (R227). -/
def slotOf (s : State) (core slot : Nat) : List Byte := (tabFind s.slots (core * 256 + slot)).getD (zeros 32)

/-- A 16-byte part of the B block as the engine reads it: as it is, or as it was before one of the stores made to it since the
MMA issued (R238). -/
def bPart (s : State) (olds : List (Nat × List Byte)) (key i : Nat) : List Byte :=
  let now := spadRead s (key + 16 * i) 16
  match (olds.filter fun x => x.1 == key + 16 * i).map (·.2) with
  | [] => now
  | was => (now :: was).getD (Config.freeNat (s.free * 16777216 + 8440000 + i) (was.length + 1)) now

/-- The B block and its column scales as the engine reads them. -/
def bBlock (s : State) (w : Word) (key : Nat) (olds : List (Nat × List Byte)) : List Byte :=
  (List.range (bSpan w / 16)).flatMap (bPart s olds key)

/-- Column `j` of the B block as values. -/
def bColumn (s : State) (core : Nat) (blk : List Byte) (w : Word) (j : Nat) : List FV :=
  let f := fwB w
  let es := opBits f
  let k := kBlock (fwA w) f
  let col := natOfBytes ((blk.drop (j * k * es / 8)).take (k * es / 8))
  (List.range k).map fun i => opValue f (slotOf s core (fwBSlot w)) (col / 2 ^ (i * es) % 2 ^ es)

/-- Row `r` of a lane's A operand as values. -/
def aRow (s : State) (core : Nat) (w : Word) (ws : List Word) (r : Nat) : List FV :=
  let f := fwA w
  let es := opBits f
  let k := kBlock f (fwB w)
  (List.range k).map fun i => opValue f (slotOf s core (fwASlot w)) (packedElem ws ((r * k + i) * es) es)

/-- The scales of an element, or none without scale mode (R134, R137). -/
def elemScale (blk : List Byte) (w : Word) (scale : Word) (r j : Nat) : Option (Option Int) :=
  if fwScale w ≠ 1 then none
  else
    let va := scaleExp (scale.toNat / 256 ^ r % 256)
    let vb := scaleExp (blk.getD (bBytes w + j) 0).toNat
    match va, vb with
    | some x, some y => some (some (x + y))
    | _, _ => some none

/-- An MMA's update of the elements of one row (R243). -/
def mmaRow (core tile : Nat) (blk : List Byte) (w : Word) (bs : List (Nat × List FV)) (x : Nat × List Word × Word) (q : Nat) (s : State)
    (r : Nat) : State :=
  let i := q * x.1 + r
  let as := aRow s core w x.2.1 r
  bs.foldl (fun s b =>
    setAcc s tile i b.1 (BitVec.ofNat 32 (blockSum (accAt s tile i b.1).toNat as b.2 (elemScale blk w x.2.2 r b.1)))) s

/-- An MMA retires (R243). -/
def runMma (s : State) (core gw : Nat) (w : Word) (rows : List (Nat × List Word × Word)) (tile key : Nat)
    (olds : List (Nat × List Byte)) : State :=
  let blk := bBlock s w key olds
  let bs := (List.range 64).map fun j => (j, bColumn s core blk w j)
  let q := laneRows gw
  rows.foldl (fun s x => (List.range q).foldl (mmaRow core tile blk w bs x q) s) s

/-- The words that QLD brings to a lane. -/
def qldWords (s : State) (gw tile col c l : Nat) : List Word :=
  let q := laneRows gw
  (List.range q).flatMap fun r => (List.range c).map fun m => accAt s tile (q * l + r) (col + m)

/-- A QST's lane is written to its tile. -/
def qstLane (gw tile col c : Nat) (s : State) (x : Nat × List Word) : State :=
  let q := laneRows gw
  (List.range q).foldl (fun s r => (List.range c).foldl (fun s m =>
    setAcc s tile (q * x.1 + r) (col + m) (x.2.getD (r * c + m) 0)) s) s

/-- A tile converted into scratchpad (R246). -/
def runQscr (s : State) (f : QFmt) (tile key : Nat) : State :=
  let n := match f with
    | .bf16 => 2
    | _ => 1
  (List.range 64).foldl (fun s i =>
    spadWrite s (key + 64 * i * n) ((List.range 64).flatMap fun j => bytesOfNat n (qscrCode f (accAt s tile i j).toNat))) s

/-- What a retiring operation does. -/
def runEngOp (s : State) (core gw : Nat) (q : EngEntry) : State :=
  match q.op with
  | .mma w rows tile key olds => runMma s core gw w rows tile key olds
  | .mmaz tile => zeroTile s tile
  | .qld d tile col c => q.lanes.foldl (fun s l => landWords s q.gang l q.seq d (qldWords s gw tile col c l)) s
  | .qst tile col c rows => rows.foldl (qstLane gw tile col c) s
  | .qscr f tile key => runQscr s f tile key

/-- May the head of a queue retire: a granted start for an MMA, the scratchpad stores of its fibres written, and for a QLD no
earlier data on its way to its registers (R99, R232, R238)? -/
def engReady (s : State) (key : Nat) (q : EngEntry) : Bool :=
  match q.op with
  | .mma .. =>
    !(((tabFind s.dies (key / 128)).map (·.govReq)).getD []).any (·.2 == key) && !ownSpQueue s q.gang q.lanes q.seq
  | .qscr .. => !ownSpQueue s q.gang q.lanes q.seq
  | .qld .. => !landsLater s q.gang q.lanes q.seq (qldDest q)
  | _ => true

/-- The survey counter of a retiring operation, of group 2 (Table OUT-10). -/
def engCounter (q : EngEntry) : Option Nat := match q.op with
  | .mma .. => some 24
  | .mmaz .. => none
  | .qscr .. => some 27
  | .qld .. => some 28
  | .qst .. => some 29

/-- ENGINE_OPERATION_RETIRE (R231): the oldest operation of the engine's queue takes effect, and its counter falls. -/
def execEngineOperationRetire (pos core slice : Nat) (s : State) : Host.Outcome State Fault Refusal :=
  let ck := coreKey pos core
  let key := 8 * ck + slice
  match (engOf s key).queue with
  | [] => .next s
  | q :: _ =>
    if !engReady s key q then .next s
    else
      let s := runEngOp s ck q.gw q
      let s := { s with free := s.free + 1 }
      let s := match engCounter q with
        | some n => countCrew s (crewOfGang q.gang) ck n 1
        | none => s
      let s := modEng s key fun e =>
        { e with queue := e.queue.tail, busyAt := if isMma q then some (cycOf s ck) else e.busyAt }
      .next (complete s q.gang q.gid 1)

/-! ### Tiles (R241, R242) -/

/-- The crew of a tile set. -/
def crewOfTile (tile : Nat) : Nat := tile / 4096

/-- The tiles of a crew are freed and lose their contents. -/
def freeTiles (s : State) (ck : Nat) : State :=
  { s with tiles := s.tiles.filter fun (k, _) => crewOfTile (k / 4096) != ck,
           engines := tabMap s.engines fun _ e => { e with mapped := e.mapped.filter fun t => crewOfTile t != ck } }

/-- The youngest other crew that holds tiles on an engine. -/
def tileHolder (s : State) (e : Engine) (ck : Nat) : Option Nat :=
  let cs := ((e.mapped.map crewOfTile).eraseDups.filter (· != ck)).filterMap fun k => (crewOf s k).map fun c => (k, c.born)
  (cs.foldl (fun (best : Option (Nat × Nat)) x => match best with
    | none => some x
    | some b => if b.2 < x.2 then some x else best) none).map (·.1)

/-- Does a wait for a tile go on: the tile is still wanting, and the word still waits, or the crew is still saved (R241, R242)? -/
def stillWaits (s : State) (e : Engine) (w : TileWait) : Bool :=
  tileShort e w.tile && match crewOf s (crewOfGang w.gang), w.pc with
    | none, _ => false
    | some c, none => c.phase == .saved
    | some c, some pc => c.phase == .running && (match gangOf s w.gang with
        | none => false
        | some g => g.fibres.any fun (_, f) => f.held.isNone && f.pc == pc)

/-- The waits of a crew for tiles are over. -/
def dropTileWaits (s : State) (ck : Nat) : State :=
  { s with engines := tabMap s.engines fun _ (e : Engine) => { e with tileWait := e.tileWait.filter fun w => crewOfGang w.gang != ck } }

/-- TILE_WAIT_TIMEOUT (R241, R242): a wait that has reached 100 µs pre-empts the youngest other crew with tiles there. -/
def execTileWaitTimeout (gang : Nat) (s : State) : Host.Outcome State Fault Refusal :=
  match s.engines.find? fun (_, e) => e.tileWait.any fun w =>
      w.gang == gang && w.since + 100000 ≤ s.time.now && stillWaits s e w with
  | none => .next s
  | some (_, e) =>
    match tileHolder s e (crewOfGang gang) with
    | none => .next s
    | some k => .next (beginPreempt s k)

end Sys2Proof.Machine
end

