-- ==== Sys2Proof/Machine/Shifts.lean ====
section
/-! DEFINITION. Shift records and their checks (R62 to R64), what cores have room for (R20, R52, R53, R156), and how a crew
is placed, starts its gangs, and retires (R41, R44, R51 to R55, R72, R75, R142). -/

namespace Sys2Proof.Machine

/-! ### Shift records (Tables EXEC-4, EXEC-5) -/

/-- A transform binding. -/
structure Binding where
  handle : Nat
  xform : Nat
  dfmt : Nat
  spOff : Nat
  c0 : Nat
  c1 : Nat
  gidx : Nat
  deriving DecidableEq, Repr

/-- Binding `k` of a record. -/
def bindingOf (bs : List Byte) (k : Nat) : Binding :=
  let o := 128 + 16 * k
  { handle := field bs o 2, xform := field bs (o + 2) 1, dfmt := field bs (o + 3) 1, spOff := field bs (o + 4) 4,
    c0 := field bs (o + 8) 2, c1 := field bs (o + 10) 2, gidx := field bs (o + 12) 4 }

/-- The fields of a record. -/
structure ShiftRec where
  entry : DWord
  attachPc : DWord
  trapPc : DWord
  htab : DWord
  gx : Nat
  gy : Nat
  gz : Nat
  gangMin : Nat
  gangMax : Nat
  gwc : Nat
  bars : Nat
  wsize : Nat
  sparse : Bool
  paired : Bool
  geo : Bool
  chkStall : Bool
  prio : Nat
  ndep : Nat
  part : Nat
  spBytes : Nat
  cbUnits : Nat
  startDt : Nat
  shiftId : Word
  deps : List Word
  depAddr : DWord
  depVal : Word
  depOp : Nat
  seq : Word
  args : List Word
  deriving DecidableEq, Repr

/-- Reads a record. -/
def recOf (bs : List Byte) : ShiftRec :=
  let w := fun o => BitVec.ofNat 32 (field bs o 4)
  let d := fun o => BitVec.ofNat 64 (field bs o 8)
  let fl := field bs 50 2
  { entry := d 0, attachPc := d 8, trapPc := d 16, htab := d 24, gx := field bs 32 4, gy := field bs 36 4,
    gz := field bs 40 4, gangMin := field bs 44 1, gangMax := field bs 45 1, gwc := field bs 46 1, bars := field bs 47 1,
    wsize := field bs 48 2, sparse := fl % 2 == 1, paired := fl / 2 % 2 == 1, geo := fl / 4 % 2 == 1,
    chkStall := fl / 8 % 2 == 1, prio := field bs 52 1 % 4, ndep := field bs 53 1, part := field bs 54 1,
    spBytes := field bs 56 4, cbUnits := field bs 60 4, startDt := field bs 64 8, shiftId := w 72,
    deps := (List.range 4).map fun i => w (80 + 4 * i), depAddr := d 96, depVal := w 104, depOp := field bs 108 1,
    seq := w 112, args := (List.range 16).map fun i => w (192 + 4 * i) }

/-- An elastic crew (R53). -/
def ShiftRec.elastic (r : ShiftRec) : Bool := r.gangMin < r.gangMax

/-- Gang width. -/
def ShiftRec.gw (r : ShiftRec) : Nat := 16 * 2 ^ r.gwc

/-- Scratchpad bytes of a crew on a core, rounded up to 4 KiB (R51). -/
def ShiftRec.sp (r : ShiftRec) : Nat := roundUp r.spBytes 4096

/-- Register bytes of a gang, rounded up to 2 KiB (R52). -/
def ShiftRec.gangBytes (r : ShiftRec) : Nat := roundUp (r.gw * r.wsize * 4) 2048

/-- Crews of the grid. -/
def ShiftRec.crews (r : ShiftRec) : Nat := r.gx * r.gy * r.gz

/-! ### What a core offers (Table EXEC-2) -/

/-- Slices of a kind of core. -/
def sliceCount (k : DieKind) : Nat := if k = .geometry then 4 else 6

/-- Is a slice in service (R20)? -/
def sliceOk (k : DieKind) (c : Core) (i : Nat) : Bool :=
  c.pipe.extractLsb' (3 * i) 3 != 0#3 && (k == .geometry || (c.eng.getLsbD i && c.tex.getLsbD i))

/-- Slices of a core in service. -/
def slicesOf (k : DieKind) (c : Core) : List Nat := (List.range (sliceCount k)).filter (sliceOk k c)

/-- The kind of die at a position. -/
def kindAt (s : State) (pos : Nat) : DieKind := ((tabFind s.dies pos).map (·.kind)).getD .none

/-- Slices in service of a core by its key, if the core is in service. -/
def coreSlices (s : State) (core : Nat) : List Nat :=
  match tabFind s.dies (core / 16), tabFind s.cores core with
  | some d, some c =>
    if d.inService && !d.isolated && d.health.getLsbD (core % 16) then slicesOf d.kind c else []
  | _, _ => []

/-- Register pool of a core. -/
def poolBytes (k : DieKind) : Nat := if k = .geometry then 8388608 else 16777216

/-- Scratchpad of a core. -/
def spadBytes (k : DieKind) : Nat := if k = .geometry then 2097152 else 6291456

/-- Column-bank units that may be allocated: those below the withdrawn range (R52, R156). -/
def bankUnits (s : State) (core : Nat) : Nat :=
  match tabFind s.cores core with
  | some c => if kindAt s (core / 16) = .shading then busCount c.vbus * 131072 else 0
  | none => 0

/-- Crews that hold a place on a core. -/
def residents (s : State) (core : Nat) : List (Nat × Crew) :=
  s.crews.filter fun (_, c) => !crewSaved c && (crewCores c).contains core

/-- Is a crew still to start its gangs? -/
def inPrologue (c : Crew) : Bool := match c.phase with
  | .prologue _ => true
  | _ => false

/-- The record of a crew's shift. -/
def crewRec (s : State) (c : Crew) : ShiftRec := recOf (((tabFind s.sched.shifts c.shift).map (·.record)).getD [])

/-- Gangs that a starting crew is to place on a core: alternately on the cores of a pair, the even one first (R53). -/
def gangShare (paired : Bool) (n half : Nat) : Nat := if paired then (if half = 0 then (n + 1) / 2 else n / 2) else n

/-- Gangs on a slice of a core. -/
def gangsOn (s : State) (core slice : Nat) : List (Nat × Gang) :=
  s.gangs.filter fun (k, g) => g.core == core && g.slice == slice && match crewOf s (crewOfGang k) with
    | some c => !crewSaved c
    | none => false

/-- Gangs on a core, those of starting crews counted. -/
def gangCount (s : State) (core : Nat) : Nat :=
  ((List.range 6).map fun i => (gangsOn s core i).length).foldl (· + ·) 0 +
    ((residents s core).map fun (_, c) =>
      if inPrologue c then gangShare c.paired c.gangMin (halfOf c core) else 0).foldl (· + ·) 0

/-- Register bytes taken on a core. -/
def poolUsed (s : State) (core : Nat) : Nat :=
  ((residents s core).map fun (k, c) =>
    let n := if inPrologue c then gangShare c.paired c.gangMin (halfOf c core)
      else (s.gangs.filter fun (gk, g) => crewOfGang gk == k && g.core == core).length
    n * (crewRec s c).gangBytes).foldl (· + ·) 0

/-- Barrier slots taken in a core's unit: all of a paired crew's are in the even core's (R53). -/
def barsUsed (s : State) (core : Nat) : Nat :=
  ((residents s core).map fun (_, c) => if c.core = core then c.bars.length else 0).foldl (· + ·) 0

/-- Ranges of a core's scratchpad, or of its column bank, that are taken: start and size, rising. -/
def takenRanges (s : State) (core : Nat) (bank : Bool) : Tab Nat :=
  let all := if bank then s.crews.filter fun (_, c) => (crewCores c).contains core else residents s core
  all.foldl (fun t (_, c) =>
    let h := halfOf c core
    let n := if bank then c.cbSize else c.spSize
    if n = 0 then t else tabPut t (if bank then c.cbBase.getD h 0 else c.spBase.getD h 0) n) []

/-- The free ranges below a limit, between those taken. -/
def freeRanges (limit : Nat) : Nat → Tab Nat → List (Nat × Nat)
  | at', [] => if at' < limit then [(at', limit - at')] else []
  | at', (b, n) :: rest =>
    (if at' < min b limit then [(at', min b limit - at')] else []) ++ freeRanges limit (max at' (b + n)) rest

/-- A place for `n` units in a core: which, is left open. -/
def placeFor (s : State) (idx core : Nat) (bank : Bool) (n : Nat) : Option Nat :=
  let step := if bank then 1 else 4096
  let limit := if bank then bankUnits s core else spadBytes (kindAt s (core / 16))
  let gaps := (freeRanges limit 0 (takenRanges s core bank)).filter fun g => n ≤ g.2
  if n = 0 then some 0
  else (gaps[Config.freeNat idx gaps.length]?).map fun g =>
    g.1 + step * Config.freeNat (idx + 1) ((g.2 - n) / step + 1)

/-- What a crew asks of each of its cores. -/
structure Need where
  paired : Bool
  geo : Bool
  gangs : Nat
  gangBytes : Nat
  sp : Nat
  bars : Nat
  cb : Nat
  deriving DecidableEq, Repr

/-- What a crew of a record needs to start. -/
def needOf (r : ShiftRec) : Need :=
  { paired := r.paired, geo := r.geo, gangs := r.gangMin, gangBytes := r.gangBytes, sp := r.sp, bars := r.bars,
    cb := r.cbUnits }

/-- Has a core room for `g` gangs of a crew, beside all that is resident there or about to start (R52)? -/
def coreHasRoom (s : State) (n : Need) (g half core : Nat) : Bool :=
  let k := kindAt s (core / 16)
  gangCount s core + g ≤ 48 * (coreSlices s core).length && poolUsed s core + g * n.gangBytes ≤ poolBytes k &&
    (placeFor s 0 core false n.sp).isSome && (placeFor s 0 core true n.cb).isSome &&
    (half = 1 || barsUsed s core + n.bars ≤ 256)

/-- The core, or pair, that a crew would take with its first core at `core` is in service for the partition and of the kind
wanted. -/
def coreServes (s : State) (n : Need) (part core : Nat) : Bool :=
  let cs := if n.paired then [core, core + 1] else [core]
  (!n.paired || core % 2 = 0) && kindAt s (core / 16) == (if n.geo then .geometry else .shading) &&
    cs.all fun c => !(coreSlices s c).isEmpty && pairHas s c part

/-- The state with no crew resident. -/
def emptied (s : State) : State := { s with crews := [], gangs := [] }

/-- Room on a core, or pair, for `gangs half` gangs on each. -/
def roomFor (s : State) (n : Need) (gangs : Nat → Nat) (core : Nat) : Bool :=
  coreHasRoom s n (gangs 0) 0 core && (!n.paired || coreHasRoom s n (gangs 1) 1 (core + 1))

/-- Room on a core, or pair, for a crew that starts. -/
def hasRoom (s : State) (n : Need) (core : Nat) : Bool := roomFor s n (gangShare n.paired n.gangs) core

/-! ### Rejection (Table EXEC-6) -/

/-- Bytes of a record that are to be 0. -/
def reservedZero (bs : List Byte) : Bool :=
  field bs 50 2 / 16 == 0 && field bs 52 1 / 4 == 0 && field bs 76 4 == 0 && field bs 109 3 == 0 && field bs 116 12 == 0 &&
    (List.range 4).all fun k =>
      let b := bindingOf bs k
      field bs (128 + 16 * k + 2) 1 != 0 || (b.handle == 0 && b.spOff == 0 && b.c0 == 0 && b.c1 == 0 && b.gidx == 0)

/-- Is a binding rejected with code 0x09? -/
def bindingBad (r : ShiftRec) (b : Binding) : Bool :=
  if b.xform = 0 then b.dfmt != 0
  else 5 < b.xform || (b.dfmt != 0 && b.xform != 2) || b.spOff % 16 != 0 || r.spBytes ≤ b.spOff

/-- Gang slots of one core, or of a pair, of the kind that GEO selects. -/
def slotLimit (r : ShiftRec) : Nat := (if r.geo then 192 else 288) * (if r.paired then 2 else 1)

/-- Is there a geometry die in the mix? -/
def hasGeometry (s : State) : Bool := s.dies.any fun (_, d) => d.kind == .geometry

/-- Does the record fit some core, or pair, in service in a partition? -/
def fitsSome (s : State) (r : ShiftRec) (part : Nat) : Bool :=
  (tabKeys s.cores).any fun c => coreServes s (needOf r) part c && hasRoom (emptied s) (needOf r) c

/-- The conditions of Table EXEC-6 that the record itself and the package decide, by code: `part` is the partition that it
is checked against, that of the function or queue it came from (R65); `own` says whether PART passes. -/
def rejections (s : State) (part : Nat) (own : Bool) (bs : List Byte) : List (Nat × Bool) :=
  let r := recOf bs
  [(1, !reservedZero bs), (2, 2 < r.gwc || r.wsize < 8 || 256 < r.wsize || r.wsize % 8 != 0),
    (3, r.gangMin = 0 || r.gangMax < r.gangMin || slotLimit r < r.gangMax),
    (4, r.crews = 0 || 0xFFFFFFFF < r.crews),
    (5, !fitsSome s r part), (6, 32 < r.bars || (r.elastic && r.bars = 0)), (7, !own),
    (8, r.geo && (r.cbUnits != 0 || !hasGeometry s)), (9, (List.range 4).any fun k => bindingBad r (bindingOf bs k)),
    (10, 4 < r.ndep || 3 < r.depOp || r.entry.toNat % 8 != 0 || (r.elastic && r.attachPc.toNat % 8 != 0) ||
      r.trapPc.toNat % 8 != 0 || r.depAddr.toNat % 4 != 0),
    (11, (partOf s part).failed)]

/-- The lowest code that applies. -/
def rejectCode (s : State) (part : Nat) (own : Bool) (bs : List Byte) : Option Nat :=
  ((rejections s part own bs).find? fun x => x.2).map (·.1)

/-! ### A crew starts (R41, R44, R54, R142, R221) -/

/-- A new crew of a shift, whose key is to be `s.nextId`. -/
def newCrew (s : State) (shift : Nat) (sh : Shift) (core : Nat) (index : Nat) : Crew :=
  let r := recOf sh.record
  let cs := if r.paired then [core, core + 1] else [core]
  let at' := fun bank n => cs.zipIdx.map fun x => (placeFor s (s.free * 16777216 + 9900000 + 4 * x.2 + (if bank then 2 else 0)) x.1 bank n).getD 0
  { shift, x := index % r.gx, y := index / r.gx % r.gy, z := index / (r.gx * r.gy), pos := core / 16, core, paired := r.paired,
    part := r.part, prio := r.prio, svc := (match sh.src with
      | .svc => true
      | .host fn _ => fn == 0
      | _ => false),
    spBase := at' false r.sp, spSize := r.sp, cbBase := at' true r.cbUnits, cbSize := r.cbUnits,
    bars := (List.range r.bars).map fun k => newBarrier r.gangMin (k == 0 && r.elastic) ((List.range r.gangMin).map (256 * s.nextId + ·)),
    gangMin := r.gangMin, gangMax := r.gangMax, crewN := r.gangMin, shrink := 0, tvec := r.trapPc, htab := r.htab &&& ~~~63,
    shiftId := r.shiftId, phase := .prologue 0, halt := [], cfr := { addr := 0, handle := 0, cause := 0, bar := 0 },
    slots := [], slotImage := [], settle := 0, born := s.time.now, pixel := [], armed := false, stepBar := none,
    trapStop := false, wasStopped := false, started := false,
    savedTiles := [], sets := [], attachDue := none }

/-- The slice of a core with the most free gang slots, ties to the lower (R52). -/
def bestSlice (s : State) (core : Nat) : Option Nat :=
  (coreSlices s core).foldl (fun best i =>
    match best with
    | none => if (gangsOn s core i).length < 48 then some i else none
    | some b => if (gangsOn s core i).length < (gangsOn s core b).length then some i else some b) none

/-- Where a crew lists the tile set of a slice of one of its cores. -/
def setKey (c : Crew) (core slice : Nat) : Nat := 8 * halfOf c core + slice

/-- The tile set that a crew's gangs on a slice share, for as long as the crew lives there: the one listed, or the first number
not in use (R240). -/
def groupFor (s : State) (ck core slice : Nat) : Nat :=
  match crewOf s ck with
  | none => ck * 256
  | some c =>
    let fresh := ((List.range 256).find? fun i => !(tabVals c.sets).contains (ck * 256 + i)).getD 0
    (tabFind c.sets (setKey c core slice)).getD (ck * 256 + fresh)

/-- The start registers of a quad's four lanes: v0 = x, v1 = y, v2 = primitive ID, v3 = coverage (R263). -/
def quadRegs (wsize : Nat) (t : Tab Word) (x : Quad × Nat) : Tab Word :=
  (List.range 4).foldl (fun t i =>
    let base := (4 * x.2 + i) * wsize
    let t := spSet 0#32 t base (BitVec.ofNat 32 (x.1.x + i % 2))
    let t := spSet 0#32 t (base + 1) (BitVec.ofNat 32 (x.1.y + i / 2))
    let t := spSet 0#32 t (base + 2) (BitVec.ofNat 32 (x.1.off % 33554432 * 128 + x.1.m))
    spSet 0#32 t (base + 3) (if x.1.cover.getLsbD i then 1 else 0)) t

/-- A gang as it starts. -/
def newGang (s : State) (r : ShiftRec) (gk core slice : Nat) (pc : DWord) (attaching : Bool) : Gang :=
  let quads := ((crewOf s (crewOfGang gk)).map (·.pixel)).getD []
  let lanes := if !quads.isEmpty then List.range (4 * quads.length) else if r.sparse then [0] else List.range r.gw
  { core, slice, gw := r.gw, wsize := r.wsize, pool := quads.zipIdx.foldl (quadRegs r.wsize) [],
    sregs := quads.foldl (fun t q => spSet 0#32 t 16 (BitVec.ofNat 32 q.region)) ((r.args.zipIdx).foldl (fun t x => spSet 0#32 t x.2 x.1) []), shaz := [], swseq := [], kmasks := [], klog := [],
    outs := [], zeroAt := [], chk := r.chkStall,
    fibres := lanes.map fun l => (l, { newFibre pc (l * r.wsize) with readyAt := cycOf s core, chk := r.chkStall }), born := s.time.now, attaching,
    begun := false, group := groupFor s (crewOfGang gk) core slice, latch := [], pixel := quads }

/-- A gang starts on a core, on its emptiest slice. -/
def startGang (s : State) (r : ShiftRec) (gk core : Nat) (pc : DWord) (attaching : Bool) : State :=
  match bestSlice s core with
  | none => s
  | some i =>
    let g := newGang s r gk core i pc attaching
    modCrew (setGang s gk g) (crewOfGang gk) fun c => { c with sets := tabPut c.sets (setKey c core i) g.group }

/-- Are there slots for all the gangs with which a crew starts? They start together or not at all (R54). -/
def gangsFit (s : State) (c : Crew) : Bool :=
  (crewCores c).all fun core =>
    gangShare c.paired c.gangMin (halfOf c core) +
      ((coreSlices s core).map fun i => (gangsOn s core i).length).foldl (· + ·) 0 ≤ 48 * (coreSlices s core).length

/-- The GANGMIN gangs start in one cycle (R54, R75), alternately on the cores of a pair. -/
def startGangs (s : State) (ck : Nat) (c : Crew) : State :=
  let r := crewRec s c
  let s := modCrew s ck fun c => { c with phase := .running, started := true }
  (List.range c.gangMin).foldl (fun s i =>
    startGang s r (ck * 256 + i) (if c.paired then c.core + i % 2 else c.core) r.entry false) s

/-! ### A crew leaves its core -/

/-- A crew's tiles leave its engines (R241). -/
def dropTiles (s : State) (ck : Nat) : State :=
  { s with engines := tabMap s.engines fun _ e =>
      { e with mapped := e.mapped.filter (· / 4096 != ck),
               latch := (match e.latch with
                 | some l => if crewOfGang l.gang = ck then none else some l
                 | none => none),
               tileWait := e.tileWait.filter fun w => crewOfGang w.gang != ck } }

/-- Monitors of a crew's fibres are disarmed. -/
def dropMons (s : State) (ck : Nat) : State :=
  { s with cache := { s.cache with mons := s.cache.mons.filter fun (_, m) => crewOfGang m.gang != ck } }

/-- Fibres of other crews held at a word that reaches a crew by an RS address which leads there no more: an LDC, and an arrival
that has not been credited, trap at once (R140, R224, R279). `arrivals` are those lost. -/
def strandHeld (s : State) (arrivals : List Arrival) : State :=
  let s := arrivals.foldl (fun s a => a.lanes.foldl (fun s l =>
    trapHeld s a.gang l (addrTrap 0x0C ((a.remote.getD 0).zeroExtend 64))) s) s
  (s.accs.filter fun (_, a) => (match a.op with
    | .ldc .. => true
    | _ => false) && rsLost s a).foldl (fun s x => rsStranded s x.1 x.2) s

/-- Arrivals of other crews at a crew's barriers that have not been credited. -/
def foreignArrivals (ck : Nat) (c : Crew) : List Arrival :=
  (c.bars.flatMap (·.waits)).filter fun a => crewOfGang a.gang != ck && a.credited.isNone

/-- A crew goes, with all that it holds (R51). Stores that a window has still to acknowledge stay until it does (R68, R196). -/
def removeCrew (s : State) (ck : Nat) : State :=
  let lost := ((crewOf s ck).map (foreignArrivals ck)).getD []
  let s := dropMons (dropTiles s ck) ck
  strandHeld
  { s with crews := tabDel s.crews ck, gangs := s.gangs.filter fun (k, _) => crewOfGang k != ck,
           accs := s.accs.filter fun (_, a) => a.crew != ck || a.st == .forwarded,
           copies := s.copies.filter fun (_, p) => p.crew != ck,
           tiles := s.tiles.filter fun (k, _) => k / 16777216 != ck,
           spad := s.spad.filter fun (k, _) => k / 16777216 != ck,
           gran := s.gran.filter fun (k, _) => k / 1048576 != ck } lost

/-- A crew counts as retired for its shift: with its stores' settle times, and those stores that are still to be acknowledged
(R68). -/
def countRetired (s : State) (ck : Nat) (c : Crew) : State :=
  let acks := (s.accs.filter fun (_, a) => a.crew == ck && a.st == .forwarded).map (·.1)
  { s with sched := { s.sched with shifts := tabMod s.sched.shifts c.shift fun (x : Shift) =>
      { x with retired := x.retired + 1, settle := max x.settle c.settle, acks := acks ++ x.acks } } }

/-- Stores of a crew that are still to be applied at their homes; one forwarded to a window has been (R51, R196), and one that
stalls on a saved crew has been abandoned at the halt (R287). -/
def crewStores (s : State) (ck : Nat) : Bool :=
  s.accs.any fun (_, a) => a.crew == ck && isStore a && match a.st with
    | .pending => !(a.space == .rs && (rsStalls s a || crewAway s ck))
    | .near => true
    | _ => false

/-- Stores of a crew that stall on a saved crew. -/
def crewStalls (s : State) (ck : Nat) : Bool :=
  s.accs.any fun (_, a) => a.crew == ck && isStore a && a.st == .pending && rsStalls s a

/-- Copies of a crew. -/
def crewCopies (s : State) (ck : Nat) : Bool := s.copies.any fun (_, p) => p.crew == ck

/-- Operations of a crew that its engines hold. -/
def crewEngOps (s : State) (ck : Nat) : Bool := s.engines.any fun (_, e) => e.queue.any fun q => crewOfGang q.gang == ck

/-- Has a crew nothing left to do (R51)? -/
def crewDone (s : State) (ck : Nat) (c : Crew) : Bool :=
  c.phase == .running && c.halt.isEmpty && !(s.gangs.any fun (k, _) => crewOfGang k == ck) && !crewCopies s ck &&
    !crewEngOps s ck && !crewStores s ck && !crewStalls s ck

end Sys2Proof.Machine
end

