-- ==== Sys2Proof/Machine/Sched.lean ====
section
/-! DEFINITION. The scheduler (R52 to R75): admission, dependences, device-side queues, dispatch with priorities and time
slices, the prologue, the start of gangs, shrink requests, retirement and completion. -/

namespace Sys2Proof.Machine

/-! ### Functions and statuses -/

/-- A function as it is at reset (Table OUT-2, R311, R316). -/
def newFunc : Func :=
  { sqBase := 0, sqLogn := 0, sqTail := 0, sqHead := 0, cqBase := 0, cqLogn := 0, cqHead := 0, cqTail := 0, en := false,
    err := false, errCode := 0, comps := [],
    dbg := { shiftId := 0, x := 0, y := 0, z := 0, bar := 0, cmd := 0, busy := false, stopped := false, stepping := false,
             armed := false, result := 0, buf := 0, stop := none },
    nonce := List.replicate 8 0, abuf := 0, apart := 0, abusy := false }

/-- A function's registers. -/
def funcOf (s : State) (fn : Nat) : Func := (tabFind s.funcs fn).getD newFunc

/-- Changes a function's registers. -/
def modFunc (s : State) (fn : Nat) (f : Func → Func) : State := { s with funcs := tabPut s.funcs fn (f (funcOf s fn)) }

/-- Entries of a ring: LOGN outside 4 to 12 acts as 4 (Table OUT-2). -/
def queueLen (logn : BitVec 4) : Nat := if 4 ≤ logn.toNat && logn.toNat ≤ 12 then 2 ^ logn.toNat else 16

/-- The partition that a virtual function's map entry names (R303). -/
def vfPart (s : State) (v : Nat) : Option Nat := ownerWord (cfgGet s (cfgAddr 0 (0x6000 + 4 * v)))

/-- The unit that reads and writes for the scheduler in a partition. -/
def schedAgent (part : Nat) (svc : Bool) : Agent := { pos := 0, part, svc }

/-- Is a shift one of service crews (R83, R300)? -/
def svcSrc (src : ShiftSrc) : Bool := match src with
  | .svc => true
  | .host fn _ => fn == 0
  | _ => false

/-- STATUS goes to a record's home: a host function's with its completion entry, a device-side record's at once (R64, R299). -/
def postStatus (s : State) (src : ShiftSrc) (shiftId : Word) (status : Byte) : State :=
  match src with
  | .host fn slot =>
    modFunc s fn fun f => { f with comps := f.comps ++ [{ slot, shiftId, status, dt := s.time.now, written := false }] }
  -- STATUS is the record's byte 55
  | .dev p _ va => match engWrite s (schedAgent p false) (va + 55) [status] with
    | .ok (s, _) => s
    | .error _ => s
  | .svc | .pixel => s

/-- A shift ID is recorded as completed for dependences; an entry that records a later ID keeps it (R64, R67). -/
def noteDone (s : State) (part : Nat) (id : Word) : State :=
  let key := part * 4096 + id.toNat % 4096
  let later := match tabFind s.sched.done key with
    | some e => e != id.toNat && (BitVec.ofNat 32 e - id).toNat < 2 ^ 31
    | none => false
  if later then s else { s with sched := { s.sched with done := tabPut s.sched.done key id.toNat } }

/-- A record is rejected (R64). DESIGN CHOICE: the spec does not say in which partition's IDs it then counts as completed; here in
that of its own PART field, even where that is not the submitter's partition (notes/assumptions/93.md). -/
def rejectRecord (s : State) (src : ShiftSrc) (r : ShiftRec) (code : Nat) : State :=
  noteDone (postStatus s src r.shiftId (BitVec.ofNat 8 (0x80 + code))) r.part r.shiftId

/-- Does a function's session name a crew? -/
def sessionNames (s : State) (fn : Nat) (f : Func) (c : Crew) : Bool :=
  f.dbg.shiftId == c.shiftId && f.dbg.x.toNat == c.x && f.dbg.y.toNat == c.y && f.dbg.z.toNat == c.z &&
    (fn == 0 || vfPart s (fn - 1) == some c.part)

/-- Does a function's session name a crew that its shift has still to dispatch? -/
def sessionAwaits (s : State) (fn : Nat) (f : Func) (sh : Shift) : Bool :=
  let r := recOf sh.record
  f.dbg.shiftId == r.shiftId && f.dbg.x.toNat < r.gx && f.dbg.y.toNat < r.gy && f.dbg.z.toNat < r.gz &&
    sh.next ≤ f.dbg.x.toNat + r.gx * (f.dbg.y.toNat + r.gy * f.dbg.z.toNat) && sh.src != .pixel &&
    (fn == 0 || vfPart s (fn - 1) == some sh.part)

/-- Does a STOP wait for a crew (R317)? -/
def sessionWaits (s : State) (c : Crew) : Bool := s.funcs.any fun (fn, f) => f.dbg.busy && sessionNames s fn f c

/-- A STOP that waits for a crew that will never come ends: there is no such crew (R316). -/
def settleSessions (s : State) : State :=
  { s with funcs := tabMap s.funcs fun fn (f : Func) =>
      if f.dbg.busy && !(s.crews.any fun (_, c) => sessionNames s fn f c) &&
          !(s.sched.shifts.any fun (_, sh) => sessionAwaits s fn f sh) then
        { f with dbg := { f.dbg with busy := false, result := 1 } }
      else f }

/-- A crew leaves the machine. -/
def retireCrew (s : State) (ck : Nat) : State := settleSessions (removeCrew s ck)

/-- An admitted shift is rejected. -/
def rejectShift (s : State) (id : Nat) (sh : Shift) (code : Nat) : State :=
  settleSessions <| rejectRecord { s with sched := { s.sched with shifts := tabDel s.sched.shifts id } } sh.src (recOf sh.record) code

/-! ### Admission and dependences (R64, R65, R67) -/

/-- Shifts of a partition admitted and not yet completed. -/
def admittedCount (s : State) (part : Nat) : Nat :=
  (s.sched.shifts.filter fun (_, x) => x.part == part && x.src != .pixel).length

/-- May the scheduler admit records of a partition (R67, R304)? -/
def admits (s : State) (part : Nat) : Bool := !(partOf s part).susp && admittedCount s part < 1024

/-- Changes a shift. -/
def modShift (s : State) (id : Nat) (f : Shift → Shift) : State :=
  { s with sched := { s.sched with shifts := tabMod s.sched.shifts id f } }

/-- Does a word satisfy DEPOP against DEPVAL? -/
def depHolds (op : Nat) (v x : Word) : Bool :=
  if op = 1 then v == x else if op = 2 then v != x else if op = 3 then x.toNat ≤ v.toNat else true

/-- The memory-word dependence is checked; a fault rejects the shift with code 0x0C (R67). -/
def checkDep (s : State) (id : Nat) (sh : Shift) : State :=
  let r := recOf sh.record
  if sh.depMet then s
  else match engRead s (schedAgent r.part (svcSrc sh.src)) r.depAddr 4 with
    | .error _ => rejectShift s id sh 0x0C
    | .ok (s, x, bs) =>
      modShift s id fun sh =>
        { sh with depPa := x.pa, depWake := false, depMet := depHolds r.depOp (BitVec.ofNat 32 (natOfBytes bs)) r.depVal }

/-- A record is admitted or rejected, checked against a partition; `own` says whether PART passes. -/
def admitRecord (s : State) (src : ShiftSrc) (part : Nat) (own : Bool) (bs : List Byte) : State :=
  let r := recOf bs
  match rejectCode s part own bs with
  | some code => rejectRecord s src r code
  | none =>
    let id := s.nextId
    let sh : Shift :=
      { record := bs, src, part := r.part, st := .admitted, depMet := r.depOp == 0, depPa := 0xFFFFFFFFFFFF, depWake := false,
        dtMet := r.startDt == 0, next := 0, retired := 0, settle := 0, acks := [] }
    let s := { s with nextId := s.nextId + 1, sched := { s.sched with shifts := tabPut s.sched.shifts id sh } }
    checkDep (traceShift s 1 r.part r.shiftId) id sh

/-- May a record of PF 0 name a partition: an enabled one, or one that has failed (R300, R35)? -/
def mgmtMay (s : State) (p : Nat) : Bool := (partOf s p).enabled || (partOf s p).failed

/-- The host bus address of a submission slot (R297). -/
def slotAddr (f : Func) : Nat := f.sqBase.toNat + 256 * (f.sqHead.toNat % queueLen f.sqLogn)

/-- Does the host serve a bus address? -/
def hostServes (s : State) (a : Nat) : Bool := !s.hostHoles.contains (a / 4096)

/-- Functions with a record to fetch whose partition admits; a record that cannot be fetched is found out. -/
def fetchable (s : State) : List Nat :=
  (s.funcs.filter fun (fn, f) =>
    f.en && !f.err && f.sqHead != f.sqTail &&
      (if !hostServes s (slotAddr f) then true
       else if fn = 0 then admits s (recOf (busRead s (slotAddr f) 256)).part
       else match vfPart s (fn - 1) with
        | some p => admits s p
        | none => false)).map (·.1)

/-- The record at a function's SQHEAD is fetched and admitted or rejected; a fetch that fails stops the queue. -/
def fetchRecord (s : State) (fn : Nat) : State :=
  let f := funcOf s fn
  if !hostServes s (slotAddr f) then modFunc { s with free := s.free + 1 } fn fun f => { f with err := true, errCode := 2 }
  else
    let bs := busRead s (slotAddr f) 256
    let s := modFunc { s with free := s.free + 1 } fn fun f => { f with sqHead := f.sqHead + 1 }
    let p := (recOf bs).part
    let part := if fn = 0 then p else (vfPart s (fn - 1)).getD p
    let own := if fn = 0 then mgmtMay s p else part == p
    admitRecord s (.host fn (BitVec.ofNat 64 (slotAddr f))) part own bs

/-- SHIFT_ADMISSION (R67, R298, R300): the next record of a function's queue. -/
def execShiftAdmission (s : State) : Host.Outcome State Fault Refusal :=
  let fns := fetchable s
  match fns[Config.freeNat (s.free * 16777216) fns.length]? with
  | none => .next s
  | some fn => .next (fetchRecord s fn)

/-- DEPENDENCE_WORD_CHECK (R67): a store has reached the line of an admitted shift's dependence word. -/
def execDependenceWordCheck (shift : Nat) (s : State) : Host.Outcome State Fault Refusal :=
  match tabFind s.sched.shifts shift with
  | none => .next s
  | some sh => .next (if sh.st == .admitted && sh.depWake then checkDep s shift sh else s)

/-- STARTDT_REACHED (R67, R69). -/
def execStartdtReached (shift : Nat) (s : State) : Host.Outcome State Fault Refusal :=
  match tabFind s.sched.shifts shift with
  | none => .next s
  | some sh => .next (if timeReached s (recOf sh.record).startDt then modShift s shift fun x => { x with dtMet := true } else s)

/-! ### Device-side queues (R65, R66) -/

/-- The physical address of a queue's descriptor (Table OUT-4). -/
def queueDesc (s : State) (part queue : Nat) : Nat :=
  let o := partOff part
  (cfgGet s (cfgAddr 0 (o + 0x18))).toNat % 65536 * 4294967296 + (cfgGet s (cfgAddr 0 (o + 0x14))).toNat / 32 * 32 + 32 * queue

/-- The scheduler writes bytes of a descriptor at its home: in device memory, in host memory, or through a peer window. -/
def descPut (s : State) (da off : Nat) (bs : List Byte) : State :=
  if isHost da then busWrite s (hostBus da + off) bs
  else if isPeer da then s
  else homeWrite (recallRange s da 32) (da + off) bs

/-- ERR of a descriptor takes a value. -/
def setQueueErr (s : State) (da old new : Nat) : State := if old = new then s else descPut s da 9 (bytesOfNat 1 new)

/-- Can the scheduler read a descriptor at its home (R66)? -/
def descReads (s : State) (da : Nat) : Bool :=
  if isHost da then true else if isPeer da then !peerDown s da else hasHome s da && !addrLost s da && !readsPoison s da 32

/-- The queue at a readable descriptor. -/
def queueTake (s : State) (part queue da : Nat) : State :=
  let bs := anyRead s da 32
  let base := field bs 0 8
  let logn := field bs 8 1
  let err := field bs 9 1
  let head := field bs 12 4
  let va : DWord := BitVec.ofNat 64 (base + 256 * (head % 2 ^ logn))
  if logn < 4 || 16 < logn then setQueueErr s da err 1
  else if base % 256 ≠ 0 then setQueueErr s da err 2
  else match engRead s (schedAgent part false) va 256 with
    | .error _ => setQueueErr s da err 3
    | .ok (s, _, rec') =>
      let s := setQueueErr s da err 0
      if field rec' 112 4 = head && admits s part then
        let s := descPut s da 12 (bytesOfNat 4 (head + 1))
        admitRecord s (.dev part queue va) part ((recOf rec').part == part) rec'
      else s

/-- DEVICE_QUEUE_TAKE (R65, R66): the record at HEAD is taken once its SEQ equals HEAD; a faulty queue is idle and says so. -/
def execDeviceQueueTake (part queue : Nat) (s : State) : Host.Outcome State Fault Refusal :=
  let n := min 16 ((cfgGet s (cfgAddr 0 (partOff part + 0x1C))).toNat % 32)
  let p := partOf s part
  let key := part * 16 + queue
  if n ≤ queue || !(p.enabled || p.failed) then .next s
  else
    let da := queueDesc s part queue
    if descReads s da then
      .next (queueTake { s with free := s.free + 1, sched := { s.sched with queueErr := tabDel s.sched.queueErr key } } part queue da)
    else if (tabFind s.sched.queueErr key).isSome then .next s
    else
      let s := raiseEvent s 0x0B 0 queue 0 da
      .next { s with sched := { s.sched with queueErr := tabPut s.sched.queueErr key 1 } }

/-! ### Eligibility, owners of shared pairs (R67, R70) -/

/-- Is a dependence on a shift ID met (R67)? -/
def depDone (s : State) (part : Nat) (d : Word) : Bool :=
  match tabFind s.sched.done (part * 4096 + d.toNat % 4096) with
  | some e => (BitVec.ofNat 32 e - d).toNat < 2 ^ 31
  | none => false

/-- Is a shift eligible, with crews still to dispatch, in a partition that runs? -/
def eligible (s : State) (sh : Shift) : Bool :=
  let r := recOf sh.record
  let p := partOf s sh.part
  (sh.st == .admitted || sh.st == .running) && sh.src != .pixel && sh.depMet && sh.dtMet && sh.next < r.crews &&
    (r.deps.take r.ndep).all (depDone s sh.part) && !p.susp && !p.failed && (p.enabled || sh.src == .svc)

/-- Position × 8 + pair of a core. -/
def pairKey (core : Nat) : Nat := core / 16 * 8 + core % 16 / 2

/-- PMASK of a core's pair. -/
def pairMask (s : State) (core : Nat) : Nat := (cfgGet s (cfgAddr (core / 16) (0x280 + 4 * (core % 16 / 2)))).toNat % 16777216

/-- Is a core's pair shared (R70, R301)? -/
def pairShared (s : State) (core : Nat) : Bool := 1 < ((List.range 24).filter fun p => pairMask s core / 2 ^ p % 2 == 1).length

/-- Crews on a core's pair. -/
def pairCrews (s : State) (core : Nat) : List (Nat × Crew) :=
  s.crews.filter fun (_, c) => !crewSaved c && (crewCores c).any fun k => pairKey k == pairKey core

/-- The highest priority at which a partition waits for a pair of a kind: eligible shifts, and saved crews. -/
def waitLevel (s : State) (core part : Nat) : Option Nat :=
  let geo := kindAt s (core / 16) == .geometry
  let a := (tabVals s.sched.shifts).filterMap fun sh =>
    if sh.part = part && eligible s sh && (recOf sh.record).geo == geo then some (recOf sh.record).prio else none
  let b := (tabVals s.crews).filterMap fun c =>
    if c.part = part && c.phase == .saved && !(partOf s part).susp && kindAt s c.pos == kindAt s (core / 16) &&
      (c.cbSize = 0 || pairKey c.core = pairKey core) then some c.prio else none
  match a ++ b with
  | [] => none
  | l => some (maxList l)

/-- The partition that a shared pair passes to: round-robin after the owner among those waiting at the highest level. DESIGN
CHOICE: a pair that has had no owner starts at partition 0, as if 23 had owned it (notes/assumptions/94.md). -/
def nextOwner (s : State) (core : Nat) : Option Nat :=
  let cur := ((tabFind s.sched.owner (pairKey core)).map (·.1)).getD 23
  let ps := ((List.range 24).map fun i => (cur + 1 + i) % 24).filter fun p => pairMask s core / 2 ^ p % 2 == 1
  let top := maxList (ps.filterMap (waitLevel s core))
  ps.find? fun p => waitLevel s core p == some top

/-- May a partition's crew be placed on a core's pair now? -/
def pairFree (s : State) (part core : Nat) : Bool :=
  !pairShared s core ||
    ((pairCrews s core).all (fun x => x.2.part == part) &&
      ((!(pairCrews s core).isEmpty && (tabFind s.sched.owner (pairKey core)).map (·.1) == some part) ||
        nextOwner s core == some part))

/-- The length of a partition's time slice, in ns (Table OUT-4). -/
def sliceNs (s : State) (part : Nat) : Nat := (cfgGet s (cfgAddr 0 (partOff part))).toNat % 1048576 * 1000

/-- A partition takes a shared pair, unless it runs there already. -/
def takePair (s : State) (part core : Nat) : State :=
  if !pairShared s core || !(pairCrews s core).isEmpty then s
  else { s with sched := { s.sched with owner := tabPut s.sched.owner (pairKey core) (part, s.time.now + sliceNs s part) } }

/-! ### Pre-emption requests (R75) -/

/-- A crew is asked to pre-empt; in its prologue it is pre-empted at once, and its prologue abandoned. -/
def askPreempt (s : State) (ck : Nat) : State :=
  match crewOf s ck with
  | none => s
  | some c =>
    if inPrologue c && c.halt.isEmpty then
      let s := { s with copies := s.copies.filter fun (_, p) => p.crew != ck,
                        spad := s.spad.filter fun (k, _) => k / 16777216 != ck,
                        gran := s.gran.filter fun (k, _) => k / 1048576 != ck }
      markInc (traceCrew (modCrew s ck fun c => { c with phase := .saved }) ck 6 0 0 0) (2 * ck)
    else if crewSaved c || c.halt.contains .preempt then s
    else beginPreempt s ck

/-! ### Dispatch (R70, R72) -/

/-- Resident gangs on the core, or pair, that a crew would take. -/
def loadOf (s : State) (n : Need) (core : Nat) : Nat := gangCount s core + if n.paired then gangCount s (core + 1) else 0

/-- The core of a list with the fewest resident gangs; the first of equals. -/
def leastLoaded (s : State) (n : Need) (cores : List Nat) : Option Nat :=
  cores.foldl (fun best c => match best with
    | none => some c
    | some b => if loadOf s n c < loadOf s n b then some c else best) none

/-- The core on which R72 places a crew. -/
def placeCrew (s : State) (n : Need) (part : Nat) : Option Nat :=
  leastLoaded s n ((tabKeys s.cores).filter fun c => coreServes s n part c && pairFree s part c && hasRoom s n c)

/-- The state without some crews. -/
def without (s : State) (p : Nat → Crew → Bool) : State := { s with crews := s.crews.filter fun (k, c) => !p k c }

/-- Crews of a pair that a shift of level `prio` may displace. -/
def lowerCrews (s : State) (prio core : Nat) : List (Nat × Crew) := (pairCrews s core).filter fun (_, c) => c.prio < prio

/-- Is a crew on its way out of its core? -/
def isLeaving (c : Crew) : Bool := c.halt.any fun w => retires w || w == .preempt

/-- Would a crew that `fit` describes find its place on a core with only crews of its partition on a shared pair? -/
def fitsAlone (s : State) (fit : State → Nat → Bool) (part core : Nat) : Bool :=
  fit s core && (!pairShared s core || (pairCrews s core).all fun x => x.2.part == part)

/-- The youngest of some crews. -/
def youngest (cs : List (Nat × Crew)) : Option Nat :=
  (cs.foldl (fun (best : Option (Nat × Crew)) x => match best with
    | none => some x
    | some b => if b.2.born < x.2.born || (b.2.born = x.2.born && b.1 < x.1) then some x else best) none).map (·.1)

/-- A crew of level `prio`, new or saved, that cannot be placed pre-empts lower-level crews of a pair that it may use, youngest
first, until those already leaving make room (R70). `serves` are the cores that may take it. -/
def forcePlace (s : State) (serves : Nat → Bool) (fit : State → Nat → Bool) (part prio : Nat) : State :=
  let cores := (tabKeys s.cores).filter fun c =>
    serves c && !(lowerCrews s prio c).isEmpty &&
      fitsAlone (without s fun k _ => (lowerCrews s prio c).any (·.1 == k)) fit part c
  if cores.any (fitsAlone (without s fun _ c => isLeaving c) fit part) then s
  else match cores[Config.freeNat (s.free * 16777216) cores.length]? with
    | none => s
    | some c =>
      match youngest ((lowerCrews s prio c).filter fun x => !isLeaving x.2) with
      | some k => askPreempt { s with free := s.free + 1 } k
      | none => s

/-- What a saved crew needs. -/
def savedNeed (s : State) (c : Crew) : Need := { needOf (crewRec s c) with cb := 0 }

/-- Gangs that a saved crew brings to each core (R73). -/
def savedGangs (s : State) (ck : Nat) (c : Crew) (half : Nat) : Nat :=
  if c.started then (s.gangs.filter fun (k, g) => crewOfGang k == ck && halfOf c g.core == half).length
  else gangShare c.paired c.gangMin half

/-- Gangs of a saved crew that shared a slice: which core of the pair, their tile set, and how many they are; a set whose gangs
have all ended is the last to choose. -/
def saveGroups (s : State) (ck : Nat) (c : Crew) : List (Nat × Nat × Nat) :=
  c.sets.map fun (k, grp) =>
    (k / 8, grp, (s.gangs.filter fun (gk, g) => crewOfGang gk == ck && g.group == grp).length)

/-- Groups with the larger first. -/
def bySize : List (Nat × Nat × Nat) → List (Nat × Nat × Nat)
  | [] => []
  | x :: xs => ins x (bySize xs)
where
  /-- Inserts a group. -/
  ins (x : Nat × Nat × Nat) : List (Nat × Nat × Nat) → List (Nat × Nat × Nat)
    | [] => [x]
    | y :: ys => if y.2.2 ≤ x.2.2 then x :: y :: ys else y :: ins x ys

/-- Slices for groups on a core whose first core is `core`: each group one slice of its own with room, the emptiest first. A set
without gangs that finds no slice of its own is left out. -/
def assignSlices (s : State) (core : Nat) : List (Nat × Nat × Nat) → List (Nat × Nat) → Option (List (Nat × Nat × Nat))
  | [], _ => some []
  | (h, g, n) :: rest, used =>
    let free := fun i => 48 - (gangsOn s (core + h) i).length
    let slices := (coreSlices s (core + h)).filter fun i => n ≤ free i && !used.contains (h, i)
    match slices.foldl (fun (best : Option Nat) i => match best with
        | none => some i
        | some b => if free b < free i then some i else some b) none with
    | none => if n = 0 then assignSlices s core rest used else none
    | some i => (assignSlices s core rest ((h, i) :: used)).map fun l => (h, g, i) :: l

/-- May a saved crew be restored on a core, as far as the core's kind, service and the crew's pin go (R73)? -/
def restoreServes (s : State) (c : Crew) (core : Nat) : Bool :=
  (c.cbSize = 0 || core = c.core) && coreServes s (savedNeed s c) c.part core

/-- Has a core room for a saved crew, its gangs that shared a slice together (R52, R73)? -/
def restoreFits (ck : Nat) (c : Crew) (s : State) (core : Nat) : Bool :=
  roomFor s (savedNeed s c) (savedGangs s ck c) core && (assignSlices s core (bySize (saveGroups s ck c)) []).isSome

/-- Does a waiting crew of a higher level than `prio`, new or saved, find its place on this core now? It then goes first (R70). -/
def outranked (s : State) (prio core : Nat) : Bool :=
  ((tabVals s.sched.shifts).any fun sh =>
    let r := recOf sh.record
    prio < r.prio && eligible s sh && coreServes s (needOf r) r.part core && pairFree s r.part core &&
      hasRoom s (needOf r) core) ||
  s.crews.any fun (k, c) => prio < c.prio && c.phase == .saved && !(partOf s c.part).susp && !(partOf s c.part).failed &&
    restoreServes s c core && pairFree s c.part core && restoreFits k c s core

/-- A crew of a shift takes its place: trace records 4, and 2 with the shift's first crew. -/
def launchCrew (s : State) (shift : Nat) (sh : Shift) (core : Nat) : State :=
  let r := recOf sh.record
  let ck := s.nextId
  let c := newCrew s shift sh core sh.next
  -- a STOP of a crew that was still to start waits for it (R317)
  let c := { c with wasStopped := sessionWaits s c }
  let s := takePair s r.part core
  let s := { s with crews := tabPut s.crews ck c, nextId := s.nextId + 1, free := s.free + 1 }
  let s := modShift s shift fun x => { x with next := x.next + 1, st := .running }
  let s := if sh.next = 0 then traceShift s 2 r.part r.shiftId else s
  traceCrew s ck 4 0 0 0

/-- CREW_DISPATCH of an ordinary shift (R70, R72). -/
def dispatchShift (s : State) (shift : Nat) (sh : Shift) : State :=
  let r := recOf sh.record
  if !eligible s sh then s
  else match placeCrew s (needOf r) r.part with
    | some core => if outranked s r.prio core then s else launchCrew s shift sh core
    | none => forcePlace s (coreServes s (needOf r) r.part) (fun s => hasRoom s (needOf r)) r.part r.prio

/-- TIME_SLICE_EXPIRY (R70, R71): if another partition waits, the owner's crews on the pair are pre-empted, but for those that
retire in this cycle, and ownership passes; else the slice renews. -/
def execTimeSliceExpiry (pos pair : Nat) (s : State) : Host.Outcome State Fault Refusal :=
  let core := coreKey pos (2 * pair)
  match tabFind s.sched.owner (pairKey core) with
  | none => .next s
  | some (p, upto) =>
    let own := (pairCrews s core).filter fun x => x.2.part == p
    if !timeReached s upto || own.isEmpty then .next s
    else if (List.range 24).any fun q => q != p && pairMask s core / 2 ^ q % 2 == 1 && (waitLevel s core q).isSome then
      .next ((own.filter fun x => !crewDone s x.1 x.2).foldl (fun s x => askPreempt s x.1) s)
    else .next { s with sched := { s.sched with owner := tabPut s.sched.owner (pairKey core) (p, s.time.now + sliceNs s p) } }

/-- HOT_DIE_MIGRATION (R73): at stack level 8 or above, a crew that is not pinned may be pre-empted. -/
def execHotDieMigration (crew : Nat) (s : State) : Host.Outcome State Fault Refusal :=
  match crewOf s crew with
  | none => .next s
  | some c =>
    let level := ((tabFind s.dies c.pos).map (·.level)).getD 0
    if 8 ≤ level && c.cbSize = 0 then .next (askPreempt s crew) else .next s

/-! ### The prologue (R74, R220) -/

/-- The thread of a binding: its handle, transform and destination, checked. -/
def bindingThread (s : State) (ck : Nat) (c : Crew) (b : Binding) : Except TrapInfo (State × Copy) :=
  match getDesc s c.core c b.handle .read (engIdx s) with
  | .error t => .error t
  | .ok (d, da, x) =>
    match descTrap b.handle d with
    | some t => .error t
    | none =>
      let legal := match b.xform with
        | 2 => b.dfmt ≤ 9 && b.dfmt != 4
        | 3 => fmtBits d.fmt == 8
        | 4 => fmtBits d.fmt == 16
        | _ => true
      let cv := if b.xform = 2 then some b.dfmt else none
      let n := boxBytes d (fmtBits (cv.getD d.fmt))
      if !legal then .error (handleTrap b.handle 4 0)
      else if c.spSize < b.spOff + n then .error (addrTrap 0x0C (BitVec.ofNat 64 b.spOff))
      else if b.xform = 5 && c.spSize < b.gidx + 4 * boxOf d 1 then .error (addrTrap 0x0C (BitVec.ofNat 64 b.gidx))
      else
        let rows := if b.xform = 5 then some (spadWords s (spadKey ck 0 b.gidx) (boxOf d 1)) else none
        let origin := [c.x * b.c0, c.y * b.c1, c.z, 0, 0]
        let op := CopyOp.box b.handle da d origin (b.xform == 3 || b.xform == 4) rows [(spadKey ck 0 b.spOff, none)] false cv
        let cp : Copy :=
          { gang := ck * 256, lane := 0, crew := ck, core := c.core, part := c.part, gid := 0, seq := 0, bar := none, rel := false,
            op, parts := (List.range (n / 16)).map fun i => (i, PartSt.todo), unread := 0 }
        .ok (tlbAdd (cacheDesc s c.core c.part b.handle da d) (c.core / 16) c.part x, cp)

/-- PROLOGUE_BINDING (R74): the next binding starts, once the one before it has landed. -/
def execPrologueBinding (crew : Nat) (s : State) : Host.Outcome State Fault Refusal :=
  match crewOf s crew with
  | none => .next s
  | some c =>
    match c.phase with
    | .prologue k =>
      if 4 ≤ k || crewCopies s crew || !c.halt.isEmpty then .next s
      else
        let b := bindingOf (((tabFind s.sched.shifts c.shift).map (·.record)).getD []) k
        let s := { s with free := s.free + 1 }
        if b.xform = 0 then .next (modCrew s crew fun c => { c with phase := .prologue (k + 1) })
        else match bindingThread s crew c b with
          | .error t => .next (modCrew s crew (askHalt (.prologue k t.addr t.info t.cause)))
          | .ok (s, cp) =>
            let s := modCrew s crew fun c => { c with phase := .prologue (k + 1) }
            .next { s with copies := tabPut s.copies s.nextId { cp with lane := k }, nextId := s.nextId + 1 }
    | _ => .next s

/-- The lowest gang index that no member and no attaching gang holds. -/
def freeIndex (s : State) (ck : Nat) (n : Nat) : Option Nat := (List.range n).find? fun i => (gangOf s (ck * 256 + i)).isNone

/-- Has a core a slot and registers for one more gang? -/
def gangRoom (s : State) (bytes core : Nat) : Bool :=
  gangCount s core + 1 ≤ 48 * (coreSlices s core).length && poolUsed s core + bytes ≤ poolBytes (kindAt s (core / 16)) &&
    (bestSlice s core).isSome

/-- ATTACHING_GANG_START (R53, R55): one more gang of an elastic crew starts at the attach entry. -/
def execAttachingGangStart (crew : Nat) (s : State) : Host.Outcome State Fault Refusal :=
  match crewOf s crew with
  | none => .next s
  | some c =>
    let r := crewRec s c
    let attaching := (s.gangs.filter fun (k, g) => crewOfGang k == crew && g.attaching).length
    if c.gangMin < c.gangMax && c.phase == .running && c.halt.isEmpty && c.crewN + attaching < c.gangMax &&
        !(memberGangs s crew).isEmpty then
      match freeIndex s crew c.gangMax, (crewCores c).find? (gangRoom s r.gangBytes) with
      | some i, some core => .next (startGang s r (crew * 256 + i) core r.attachPc true)
      | _, _ => .next s
    else .next s

/-- SHRINK_REQUEST (R60): the scheduler raises SR.SHRINK, never above SR.CREWN − GANGMIN. -/
def execShrinkRequest (crew n : Nat) (s : State) : Host.Outcome State Fault Refusal :=
  .next (modCrew s crew fun c => { c with shrink := max c.shrink (min n (c.crewN - c.gangMin)) })

/-! ### Retirement and completion (R51, R68) -/

/-- CREW_RETIREMENT (R51, R71). -/
def execCrewRetirement (crew : Nat) (s : State) : Host.Outcome State Fault Refusal :=
  match crewOf s crew with
  | none => .next s
  | some c =>
    if crewDone s crew c then .next (retireCrew (countRetired (traceCrew s crew 5 0 0 0) crew c) crew) else .next s

/-- SHIFT_COMPLETION (R68): the last crew has retired and the settle times have passed. -/
def execShiftCompletion (shift : Nat) (s : State) : Host.Outcome State Fault Refusal :=
  match tabFind s.sched.shifts shift with
  | none => .next s
  | some sh =>
    let r := recOf sh.record
    if sh.src != .pixel && r.crews ≤ sh.retired && timeReached s sh.settle && !(sh.acks.any fun id => (tabFind s.accs id).isSome) then
      let s := { s with sched := { s.sched with shifts := tabDel s.sched.shifts shift } }
      let s := noteDone (postStatus s sh.src r.shiftId 1) r.part r.shiftId
      .next (traceShift s 3 r.part r.shiftId)
    else .next s

end Sys2Proof.Machine
end

