-- ==== Sys2Proof/Machine/Texture.lean ====
section
/-! DEFINITION. Texture sampling (R267 to R269, R394): SAMPLE's checks, footprint and filter. -/

namespace Sys2Proof.Machine

/-- Table REND-6: the format and the channels of a texel format. -/
def texelKind (t : Nat) : Option (Nat × Nat) :=
  match t with
  | 0 | 3 => some (7, 1)
  | 1 | 4 => some (7, 2)
  | 2 | 5 => some (7, 4)
  | 6 => some (3, 1)
  | 7 => some (3, 2)
  | 8 => some (3, 4)
  | 9 => some (5, 1)
  | 10 => some (5, 4)
  | _ => none

/-- TFMT of a handle (R267). -/
def texelFmt (d : Desc) : Nat := d.cbook % 256

/-- Channels of a handle's texels. -/
def texelChans (d : Desc) : Nat := ((texelKind (texelFmt d)).map (·.2)).getD 1

/-- Does a handle meet the requirements of SAMPLE (R267)? -/
def sampleLegal (d : Desc) : Bool :=
  d.tag == 3 && (d.state != 1 || d.newTag == 3) && (match texelKind (texelFmt d) with
    | some (f, n) => d.fmt == f && dimOf d 0 % n == 0
    | none => false)

/-- A level: base, width and height in texels. -/
abbrev Level := Nat × Nat × Nat

/-- The levels of a mip chain out of its bytes; none if it is illegal (R268). -/
def chainLevels (d : Desc) (bs : List Byte) : Option (List Level) :=
  let n := field bs 0 1
  let zero := (bs.drop 1).take 15 |>.all (· == 0)
  let ls : List Level := (List.range (n - 1)).map fun i =>
    (field bs (16 * (i + 1)) 8, field bs (16 * (i + 1) + 8) 4, field bs (16 * (i + 1) + 12) 4)
  if 1 ≤ n && n ≤ 15 && zero && ls.all fun l => l.1 % 256 == 0 && l.2.1 != 0 && l.2.2 != 0 then
    some ((d.base, dimOf d 0 / texelChans d, dimOf d 1) :: ls)
  else none

/-- The levels of a handle, with the state after the chain's read at its home (R268). -/
def readLevels (s : State) (g : Agent) (h : Nat) (d : Desc) : Except TrapInfo (State × List Level) :=
  if d.flags / 2 % 2 = 0 then .ok (s, [(d.base, dimOf d 0 / texelChans d, dimOf d 1)])
  else
    let va := BitVec.ofNat 64 d.bmap
    -- byte 0 says how many 16-byte entries follow
    match engRead s g va 1 with
    | .error e => .error { trapOf e.1 with addr := e.2 }
    | .ok (s, _, b) =>
      let n := max 1 (min 15 (natOfBytes b))
      let parts := (List.range n).foldl (fun (r : Except EngFault (State × List Byte)) i => match r with
        | .error e => .error e
        | .ok (s, bs) => match engRead s g (va + BitVec.ofNat 64 (16 * i)) 16 with
          | .error e => .error e
          | .ok (s, _, b) => .ok (s, bs ++ b)) (.ok (s, []))
      match parts with
      | .error e => .error { trapOf e.1 with addr := e.2 }
      | .ok (s, bs) => match chainLevels d bs with
        | none => .error (handleTrap h 1 0)
        | some ls => .ok (s, ls)

/-- The descriptor that addresses level `i`: the handle itself, or its ZTILE image (R268). -/
def levelDesc (d : Desc) (ls : List Level) (i : Nat) : Desc :=
  if i = 0 then d
  else
    let l := ls.getD i (d.base, 1, 1)
    let t := 2 ^ d.tile
    { d with base := l.1, dims := [roundUp (l.2.1 * texelChans d) t, roundUp l.2.2 t, 1, 1, 1], state := 0 }

/-- The floor of a value; an infinity is beyond every index. -/
def floorV (x : FV) : Int := match x with
  | .nan => 0
  | .inf n => if n then -(2 ^ 200) else 2 ^ 200
  | v => floorAt 0 v

/-- floor(256 × (x − floor x)): the fraction in 256ths (0 for an infinity). -/
def frac256 (x : FV) : Nat := match x with
  | .fin n m e => ((floorAt (-8) (.fin n m e)) - 256 * floorAt 0 (.fin n m e)).toNat
  | _ => 0

/-- floor(x + 1/2). -/
def floorHalf (x : FV) : Int := match x with
  | .fin n m e => Int.fdiv (floorAt (-1) (.fin n m e) + 1) 2
  | v => floorV v

/-- RoundRNE(u × W − 1/2), with NaN read as 0: one rounding, whatever the width (R269). -/
def texCoord (u : Word) (w : Nat) : FV :=
  match v32 u with
  | .inf n => .inf n
  | x =>
    let r := (ratOf x).getD (ratInt 0)
    fmtFP32.value (ratRound fmtFP32 (ratSub (ratMul r (ratInt w)) { n := 1, d := 2 }))

/-- An index clamped to a level's extent. -/
def clampIx (i : Int) (n : Nat) : Nat := if i < 0 then 0 else min i.toNat (n - 1)

/-- A texel to read: level, x, y, and its weight in 2^−24. -/
structure Texel where
  level : Nat
  x : Nat
  y : Nat
  w : Nat
  deriving DecidableEq, Repr

/-- The texels of one level of weight `w` / 256. -/
def levelTexels (f : Filter) (u v : Word) (l : Nat) (lv : Level) (w : Nat) : List Texel :=
  let s := texCoord u lv.2.1
  let t := texCoord v lv.2.2
  if f = .nearest then
    [{ level := l, x := clampIx (floorHalf s) lv.2.1, y := clampIx (floorHalf t) lv.2.2, w := w * 65536 }]
  else
    let fx := frac256 s
    let fy := frac256 t
    [(0, 0), (1, 0), (0, 1), (1, 1)].map fun (i, j) =>
      { level := l, x := clampIx (floorV s + i) lv.2.1, y := clampIx (floorV t + j) lv.2.2,
        w := w * ((if i = 1 then fx else 256 - fx) * (if j = 1 then fy else 256 - fy)) }

/-- The lod clamped to [0, LEVELS − 1] (R269). -/
def clampLod (lod : Word) (n : Nat) : FV :=
  let top : FV := .fin false (n - 1) 0
  match v32 lod with
  | .nan => .fin false 0 0
  | x => if ltV x (.fin false 0 0) then .fin false 0 0 else if ltV top x then top else x

/-- The footprint of a sample (R269). -/
def footprint (f : Filter) (u v lod : Word) (ls : List Level) : List Texel :=
  let lo := clampLod lod ls.length
  let top := ls.length - 1
  let l0 := if f = .trilin then (floorV lo).toNat else min (floorHalf lo).toNat top
  let l1 := if f = .trilin then min (l0 + 1) top else l0
  let fl := if f = .trilin then frac256 lo else 0
  let lv := fun i => ls.getD i (0, 1, 1)
  levelTexels f u v l0 (lv l0) (256 - fl) ++ levelTexels f u v l1 (lv l1) fl

/-- A fifth root by bits: the largest r below 2^k + r₀ with r^5 ≤ n. -/
def root5 (n : Nat) : Nat → Nat → Nat
  | 0, r => r
  | k + 1, r => if (r + 2 ^ k) ^ 5 ≤ n then root5 n k (r + 2 ^ k) else root5 n k r

/-- The sRGB transfer function of c ÷ 255, rounded RNE to FP32 (R267; the function of IEC 61966-2-1,
notes/assumptions/29.md). -/
def srgbCode (c : Nat) : Nat :=
  -- below 0.04045 it is linear
  if c * 100000 ≤ 4045 * 255 then ratRound fmtFP32 { n := c * 100, d := 255 * 1292 }
  else
    -- ((c / 255 + 0.055) / 1.055)^(12/5): the fifth root, to 64 fraction bits, of the twelfth power
    let a := 1000 * c + 14025
    let b := 269025
    let n := a ^ 12 * 2 ^ 320 / b ^ 12
    let r := root5 n 65 0
    (fmtFP32.ofValue .rne false (withSticky false r (-64) (r ^ 5 * b ^ 12 != a ^ 12 * 2 ^ 320))).1

/-- The value of channel `k` of a texel (Table REND-6), as a ratio or a non-finite value. -/
def chanTerm (t k x : Nat) (w : Nat) : Term :=
  let weight : Ratio := { n := w, d := 16777216 }
  if t ≤ 2 || (t ≤ 5 && k = 3) then ({ n := w * x, d := 16777216 * 255 }, .fin false 1 0)
  else if t ≤ 5 then (weight, fmtFP32.value (srgbCode x))
  else if t ≤ 8 then (weight, fmtFP16.value x)
  else (weight, fmtFP32.value x)

/-- D to D + 3 out of the elements of the texels (R269): absent channels are +0, and A is 1.0. -/
def sampleWords (d : Desc) (px : List (Texel × List Nat)) : List Word :=
  let n := texelChans d
  let t := texelFmt d
  (List.range 4).map fun k =>
    if k < n then termWord (px.map fun p => chanTerm t k (p.2.getD k 0) p.1.w)
    else if k = 3 then 0x3F800000 else 0

/-- The elements of a texel, as coordinates in its level. -/
def texelElems (d : Desc) (p : Texel) : List (List Nat) :=
  (List.range (texelChans d)).map fun k => [texelChans d * p.x + k, p.y, 0, 0, 0]

/-- Where an element of a texel is read: level 0 through the redirect unit (R208), a locked tile giving no place; or the trap. -/
def samplePlace (s : State) (core : Nat) (cr : Crew) (h daddr : Nat) (d : Desc) (ls : List Level) (idx : Nat)
    (x : Nat × List Nat) : Except TrapInfo (Option LaneAddr) :=
  let ld := levelDesc d ls x.1
  match routeElem s (core / 16) cr.part cr.svc daddr ld x.2 idx with
  | .locked => .ok none
  | .broken => .error (handleTrap h 2 0)
  | .there va _ => match checkGL s core cr .read (elemBytes ld) va 0 (idx + 1) with
    | .error t => .error t
    | .ok a => .ok (some a)

/-- The elements that a sample reads: for each texel its channels, by level and coordinates. -/
def sampleElems (d : Desc) (px : List Texel) : List (Nat × List Nat) := px.flatMap fun p => (texelElems d p).map fun co => (p.level, co)

/-- The trap of a sample at issue: the first that one of its reads meets (R141, R269). -/
def sampleTrap (s : State) (core : Nat) (cr : Crew) (h daddr : Nat) (d : Desc) (ls : List Level) (px : List Texel) (idx : Nat) :
    Option TrapInfo :=
  (sampleElems d px).findSome? fun x => match samplePlace s core cr h daddr d ls idx x with
    | .error t => some t
    | .ok _ => none

/-- A lane's sample as it issues. -/
structure SampleReq where
  lane : Nat
  handle : Nat
  daddr : Nat
  desc : Desc
  xl : Xl
  levels : List Level
  u : Word
  v : Word
  lod : Word
  deriving DecidableEq, Repr

/-- The levels of a handle as a core uses them: with a cached descriptor those cached with it, else read at the chain's home
(R268). -/
def levelsFor (s : State) (core : Nat) (cr : Crew) (h daddr : Nat) (d : Desc) (idx : Nat) : Except TrapInfo (List Level) :=
  let cached := (s.cache.handles.find? fun e => e.part == cr.part && e.core == core && e.addr == daddr && e.desc == d).bind (·.levels)
  match cached, Config.freeBool (idx + 1) && (convAt s daddr).isNone with
  | some ls, true => .ok ls
  | _, _ => match readLevels s { pos := core / 16, part := cr.part, svc := cr.svc } h d with
    | .error t => .error t
    | .ok r => .ok r.2

/-- A core caches the levels of a descriptor that it holds. -/
def cacheLevels (s : State) (core part addr : Nat) (ls : List Level) : State :=
  { s with cache := { s.cache with handles := s.cache.handles.map fun x =>
      if x.part = part && x.core = core && x.addr = addr then { x with levels := some ls } else x } }

/-- SAMPLE's checks with its operands: the handle, its chain, and every texel's translation. -/
def sampleFor (s : State) (c : Ctx) (f : Filter) (h : Nat) (u v lod : Word) (l : Nat) : Except TrapInfo SampleReq :=
  let cr := crewD s c.gk
  match handleFor s c l h .read sampleLegal with
  | .error t => .error t
  | .ok (desc, daddr, xl) =>
    match levelsFor s c.g.core cr h daddr desc (xlIdx s l) with
    | .error t => .error t
    | .ok levels =>
      match sampleTrap s c.g.core cr h daddr desc levels (footprint f u v lod levels) (xlIdx s l + 8) with
      | some t => .error t
      | none => .ok { lane := l, handle := h, daddr, desc, xl, levels, u, v, lod }

/-- SAMPLE's checks in a lane. -/
def sampleReq (s : State) (c : Ctx) (f : Filter) (lod : Bool) (a : Opnd) (b : Reg) (l : Nat) : Except TrapInfo SampleReq :=
  sampleFor s c f ((rd s c l a).toNat % 65536) (readV s c.g l b.toNat) (readV s c.g l (b.toNat + 1))
    (if lod then readV s c.g l (b.toNat + 2) else 0) l

/-- What a sample leaves cached: the descriptor and its levels. -/
def usedSample (s : State) (c : Ctx) (r : SampleReq) : State :=
  cacheLevels (usedHandle s c r.handle (r.desc, r.daddr, r.xl)) c.g.core (crewD s c.gk).part r.daddr r.levels

/-- SAMPLE (R267 to R269, R394). -/
def execSample (h : Hdr) (f : Filter) (lod : Bool) (d : Reg) (a : Opnd) (b : Reg) (s : State) :
    Host.Outcome State Fault Refusal :=
  let n := if lod then 3 else 2
  runWord { hdr := h, names := vNames d 4 ++ opNames a 1 ++ vNames b n, reads := readsAll (opReads a 1 ++ vReads b n),
            early := geoEarly, wait := acqWait,
            body := fun c s =>
              let req := sampleReq s c f lod a b
              match trapEnds c fun l => (match req l with
                | .error t => some t
                | .ok _ => none) with
              | some ends => trapPlan s ends
              | none =>
                let rs := c.on.filterMap fun l => match req l with
                  | .error _ => none
                  | .ok r => some r
                let s := rs.foldl (fun s r => usedSample s c r) s
                let accs := rs.map fun r =>
                  let la : LaneAddr := { lane := r.lane, space := .gl, va := 0, pa := 0, size := 0, xl := none, saved := false }
                  newAcc c la (.sample d.toNat r.handle r.daddr r.desc r.levels f r.u r.v r.lod []) (r.desc.state == 1) false
                { st := addAccs s (c.seq + 1) accs, ends := allNext c, comp := .lanes accs.length } } s

/-- An access that reads many places goes after every earlier global access of its fibres (R172). -/
def manyTurn (s : State) (id : Nat) (a : Acc) : Bool :=
  a.st == .pending && !(s.accs.any fun (i, b) =>
    i < id && b.gang == a.gang && b.lanes.any a.lanes.contains && accWaits b && movesBytes b && b.space == .gl)

/-- The channels that a sample has read, texel by texel. -/
def sampleVals (d : Desc) (px : List Texel) (got : Tab (List Byte)) : List (Texel × List Nat) :=
  let n := texelChans d
  px.zipIdx.map fun p => (p.1, (List.range n).map fun k => natOfBytes ((tabFind got (p.2 * n + k)).getD []))

/-- A SAMPLE reads one of the elements that it has still to read, by free choice, as a plain load; with the last one its result
lands (R99, R269). -/
def returnSample (s : State) (id : Nat) (a : Acc) (dst h daddr : Nat) (d : Desc) (ls : List Level) (f : Filter)
    (u v lod : Word) (got : Tab (List Byte)) : State :=
  if !manyTurn s id a then s else
  let cr := (crewOf s a.crew).getD noCrew
  let px := footprint f u v lod ls
  let elems := sampleElems d px
  let todo := (List.range elems.length).filter fun i => (tabFind got i).isNone
  let idx := s.free * 16777216 + 9600000
  let i := todo.getD (Config.freeNat idx todo.length) 0
  match samplePlace s a.core cr h daddr d ls (idx + 1) (elems.getD i (0, [])) with
  | .error t => finishAcc (lateAcc s a t) id a 1
  | .ok none => s
  | .ok (some x) =>
    match readGL s a.core cr.part x.va x.pa x.size (a.atHome || !cacheable x) true id with
    | .notYet => s
    | .late t => finishAcc (lateAcc s a t) id a 1
    | .bytes s bs =>
      let s := { s with free := s.free + 1 }
      let got := tabPut got i bs
      if todo.length ≤ 1 then landLoad s id a dst (a.lanes.map fun l => (l, sampleWords d (sampleVals d px got)))
      else { s with accs := tabPut s.accs id { a with op := .sample dst h daddr d ls f u v lod got } }

end Sys2Proof.Machine
end

