-- ==== Sys2Proof/Machine/Halts.lean ====
section
/-! DEFINITION. Traps as events, halts, pre-emption with save and restore, and debug sessions (R73, R276 to R290, R316 to
R318). -/

namespace Sys2Proof.Machine

/-! ### Traps as events -/

/-- TRAP_ENTRY (R276, R279, R281): a fibre takes a trap at its word, a held one at the word that holds it. -/
def execTrapEntry (gang lane : Nat) (t : TrapInfo) (s : State) : Host.Outcome State Fault Refusal :=
  match (gangOf s gang).bind fun g => tabFind g.fibres lane with
  | none => .next s
  | some fb =>
    if fb.held.isSome then .next (trapHeld s gang lane t)
    else .next (takeTrap s gang lane fb.pc (returnPoint fb.pc t) t)

/-- Conditions found late that may be delivered to a fibre now (R278, R282). -/
def lateNow (fb : Fibre) : List LateTrap := fb.late.filter fun t => !t.waits || !fb.handler

/-- The first condition found late is delivered; others found before it wait for the handler's return. -/
def deliverLate (s : State) (gk l : Nat) : State :=
  match (gangOf s gk).bind fun g => tabFind g.fibres l with
  | none => s
  | some fb =>
    match lateNow fb with
    | [] => s
    | t :: _ =>
      let rest := (fb.late.filter fun x => x != t).map fun (x : LateTrap) => { x with waits := true }
      takeTrap (modFibre s gk l fun f => { f with late := rest }) gk l t.pc fb.pc t.info

/-- May traps be delivered to a crew's fibres: it runs, or its halt is not yet complete (R290)? -/
def crewTraps (s : State) (ck : Nat) : Bool := match crewOf s ck with
  | some c => c.phase == .running || c.phase == .halting
  | none => false

/-- LATE_TRAP_DELIVERY (R278): a condition found in the drain of a halt waits for the restore (R290). -/
def execLateTrapDelivery (gang lane : Nat) (s : State) : Host.Outcome State Fault Refusal :=
  match (gangOf s gang).bind fun g => tabFind g.fibres lane with
  | none => .next s
  | some fb => if fb.held.isSome || !crewTraps s (crewOfGang gang) then .next s else .next (deliverLate s gang lane)

/-! ### Abandoned words (R286, R287, R61) -/

/-- A fibre's hold is abandoned: its word issues again, its counter rises again then, and until then its raise stands (R287). -/
def abandonHold (s : State) (gk l : Nat) (h : Held) : State :=
  modGang s gk fun g => modFibreG g l fun f =>
    { f with held := none, bun := 0, acqs := f.acqs.filter (· != h.seq), owed := f.owed ++ [(f.pc, h.gid)] }

/-- Has an arrival of a held BARARV been credited to a later phase, so that it stands? -/
def arrivalStands (s : State) (gk seq : Nat) : Bool :=
  s.crews.any fun (_, c) => c.bars.any fun b => b.waits.any fun a => a.gang == gk && a.seq == seq && a.credited.isSome

/-- Arrivals of a word that have not been credited are taken back. -/
def withdrawArrival (s : State) (gk seq : Nat) : State :=
  { s with crews := tabMap s.crews fun _ (c : Crew) => { c with bars := c.bars.map fun (b : Barrier) =>
      { b with waits := b.waits.filter fun a => !(a.gang == gk && a.seq == seq && a.credited.isNone) } } }

/-- One held fibre at a halt (Table TRAP-4). -/
def abandonFibre (s : State) (gk l : Nat) (h : Held) : State :=
  match h.why with
  | .sleep _ => releaseLanes s gk [l]
  | .attach _ => s
  | .bararv => if arrivalStands s gk h.seq then s else withdrawArrival (abandonHold s gk l h) gk h.seq
  | .mwait m => abandonHold { s with cache := { s.cache with mons := tabDel s.cache.mons m } } gk l h
  | .ldc a => abandonHold { s with accs := tabDel s.accs a } gk l h
  | _ => abandonHold s gk l h

/-- Every held fibre of a gang. -/
def abandonGang (s : State) (gk : Nat) : State :=
  match gangOf s gk with
  | none => s
  | some g => g.fibres.foldl (fun s (l, f) => match f.held with
      | some h => abandonFibre s gk l h
      | none => s) s

/-- Gangs of a crew. -/
def crewGangs (s : State) (ck : Nat) : List Nat := (s.gangs.filter fun (k, _) => crewOfGang k == ck).map (·.1)

/-- The words that hold fibres of a crew are abandoned. -/
def abandonCrew (s : State) (ck : Nat) : State := (crewGangs s ck).foldl abandonGang s

/-- Conditions found late are delivered before the halt completes (R290). -/
def deliverAll (s : State) (ck : Nat) : State :=
  (crewGangs s ck).foldl (fun s gk => match gangOf s gk with
    | none => s
    | some g => g.fibres.foldl (fun s (l, f) => if f.held.isNone then deliverLate s gk l else s) s) s

/-- Has every word of the crew that completes at a halt completed (Table TRAP-4)? Atomics, window loads, stores to other crews'
scratchpads, and data that has been read and not yet written. An access that stalls on a saved crew is abandoned. -/
def haltReady (s : State) (ck : Nat) : Bool :=
  s.accs.all fun (_, a) => a.crew != ck || match a.st with
    | .done _ => false
    | .pending => rsStalls s a || (match a.op with
      | .rmw .. => false
      | _ => if isStore a then a.space != .rs else !a.window)
    | _ => true

/-- The crew's gangs stop at word boundaries. -/
def stopGangs (s : State) (ck : Nat) : State := deliverAll (abandonCrew s ck) ck

/-! ### Debug stops (R316 to R318) -/

/-- A stop is noted in the sessions over the crew, and its record is due. -/
def noteStop (s : State) (ck reason : Nat) (cause : BitVec 8) : State :=
  match crewOf s ck with
  | none => s
  | some c =>
    { s with funcs := tabMap s.funcs fun fn (f : Func) =>
        if sessionNames s fn f c && (f.dbg.busy || f.dbg.stepping || f.dbg.armed || f.dbg.stopped) then
          { f with dbg := { f.dbg with stopped := true, stepping := false, busy := false, stop := some (ck, reason, cause) } }
        else f }

/-- A crew whose gangs have just stopped: a STOP that was asked for is met, and a pre-emption goes on (R317). -/
def stopCrew (c : Crew) : Crew :=
  let halt := c.halt.filter fun w => match w with
    | .debug .. => false
    | _ => true
  { c with halt, stepBar := none, wasStopped := true, phase := if halt.contains .preempt then .halting else .stopped }

/-- The crew stops for its debug session: trace record 9. -/
def debugStop (s : State) (ck reason : Nat) (cause : BitVec 8) : State :=
  noteStop (traceCrew (modCrew s ck stopCrew) ck 9 0 0 0) ck reason cause

/-- GANG_START (R54, R75): the prologue is done, and the crew's initial gangs start together; a crew told to stop before then stops
before its first issue (R317). -/
def execGangStart (crew : Nat) (s : State) : Host.Outcome State Fault Refusal :=
  match crewOf s crew with
  | none => .next s
  | some c =>
    if c.phase == .prologue 4 && c.halt.isEmpty && !crewCopies s crew && gangsFit s c then
      let s := startGangs s crew c
      .next (if c.wasStopped then debugStop s crew 1 0 else s)
    else .next s

/-- Does a debug session hold a crew, so that a trap halt becomes a debug stop (R283, R317): a STOP, a STEP or armed
breakpoints? -/
def debugHeld (c : Crew) : Bool := c.armed || c.stepBar.isSome || c.halt.any fun w => match w with
  | .debug .. => true
  | _ => false

/-! ### CREW_HALT (R283, R284) -/

/-- The fault report that a halt writes, and its trace record. -/
def haltReport (s : State) (ck : Nat) (c : Crew) (why : HaltWhy) : State :=
  match why with
  | .trap g l t pc double =>
    traceCrew (reportFault s c t.cause g l (if double then 1 else 0) pc t.addr t.info) ck 10 0 t.cause 0
  | .prologue k addr info cause =>
    traceCrew (reportFault s c cause 0 0 2 (BitVec.ofNat 64 (0xFFFFFFF0 + k)) addr info) ck 10 0 cause 0
  | .lost cause => traceCrew (reportFault s c cause 0 0 0 0 0 0) ck 10 0 cause 0
  | .preempt | .debug .. => s

/-- The cause that a halt reports. -/
def haltCause : HaltWhy → BitVec 8
  | .trap _ _ t _ _ => t.cause
  | .prologue _ _ _ cause | .lost cause => cause
  | .preempt | .debug .. => 0

/-- The halt by which a crew is now to retire: one for a trap waits while the crew stands stopped (R283, R317). -/
def dueHalt (c : Crew) : Option HaltWhy := c.halt.find? fun w => retires w && !(ofTrap w && c.wasStopped)

/-- The gangs of a retiring crew have stopped: what they waited for is given up, and with it the accesses that stall on other
crews. -/
def beginEnd (s : State) (ck : Nat) : State :=
  let s := abandonCrew s ck
  modCrew { s with accs := s.accs.filter fun (_, a) => !(a.crew == ck && a.st == .pending && rsStalls s a) } ck fun c =>
    { c with phase := .ending }

/-- CREW_HALT (R283): the gangs stop under R287; then copies drain and stores are applied; then the report is written and the crew
retires. A crew that a debug session holds takes a debug stop for a trap instead, and halts at RESUME. -/
def execCrewHalt (crew : Nat) (s : State) : Host.Outcome State Fault Refusal :=
  match crewOf s crew with
  | none => .next s
  | some c =>
    match dueHalt c with
    | none => .next s
    | some why =>
      if c.phase == .ending then
        if crewCopies s crew || crewStores s crew || crewEngOps s crew then .next s
        else .next (retireCrew (countRetired (traceCrew (haltReport s crew c why) crew 5 0 0 0) crew c) crew)
      else if c.phase == .halting then
        if !haltReady s crew then .next s
        else if ofTrap why && debugHeld c && !c.trapStop then
          .next (debugStop (modCrew (abandonCrew s crew) crew fun c => { c with trapStop := true }) crew 4 (haltCause why))
        else .next (beginEnd s crew)
      -- a crew pre-empted already saves nothing more
      else if c.phase == .halted then .next (beginEnd s crew)
      else .next s

/-! ### Pre-emption (R286 to R290) -/

/-- What a halt comes to whose gangs have stopped: a halt that retires the crew goes first; then a debug stop; then the pre-emption
(R290, R317). -/
def settleHalt (s : State) (ck : Nat) : State :=
  match crewOf s ck with
  | none => s
  | some c =>
    if (dueHalt c).isSome then s
    else match c.halt.find? fun w => match w with
        | .debug .. => true
        | _ => false with
      | some (.debug _ _ reason _) => debugStop s ck reason 0
      | _ => modCrew s ck fun c =>
          { c with phase := if c.halt.contains .preempt then .halted else if c.wasStopped then .stopped else .running }

/-- PREEMPTION_HALT (R286, R287, R61): the halt of a pre-emption, or of a debug stop, is complete. -/
def execPreemptionHalt (crew : Nat) (s : State) : Host.Outcome State Fault Refusal :=
  match crewOf s crew with
  | none => .next s
  | some c =>
    if c.phase != .halting || (dueHalt c).isSome || !haltReady s crew then .next s
    else .next (settleHalt (stopGangs s crew) crew)

/-- The tiles that a crew has mapped. -/
def crewTiles (s : State) (ck : Nat) : List Nat := (s.engines.flatMap fun (_, e) => e.mapped).filter fun t => t / 4096 == ck

/-- The contents of the slots that a crew has loaded. -/
def slotImages (s : State) (c : Crew) : Tab (List Byte) :=
  c.slots.map fun k => (k, slotOf s (c.core + k / 256) (k % 256))

/-- The most bytes that a crew's save area takes (R288). -/
def saveBound (s : State) (ck : Nat) (c : Crew) : Nat :=
  let pools := (crewGangs s ck).length * (crewRec s c).gangBytes
  (4096 + pools + c.spSize + c.spSize / 128 + 16384 * (crewTiles s ck).length + 8192 * c.bars.length + 32 * c.slots.length) *
    if c.paired then 2 else 1

/-- The save area is written somewhere in the partition's save pool, in sectors of 32 bytes: its place, its length within the bound
and its bytes are free values, since its layout is private to the scheduler (R288, notes/assumptions/24.md). What lies outside
device memory with a home takes none. -/
def writeSave (s : State) (ck : Nat) (c : Crew) : State :=
  let reg := fun o => (cfgGet s (cfgAddr 0 (partOff c.part + o))).toNat
  let base := reg 0x0C % 65536 * 4294967296 + reg 0x08 / 4096 * 4096
  let pool := reg 0x10 % 65536 * 32768
  let idx := s.free * 16777216 + 9960000
  let n := Config.freeNat idx (min pool (saveBound s ck c / 32) + 1)
  let first := Config.freeNat (idx + 1) (pool - n + 1)
  (List.range n).foldl (fun s i =>
    let pa := base + 32 * (first + i)
    let bs := (List.range 32).map fun j => (Config.freeBits (idx + 18446744073709551616 * (32 * i + j + 1))).truncate 8
    if isHost pa || isPeer pa || !hasHome s pa || addrLost s pa then s else homeWrite (recallRange s pa 32) pa bs)
    { s with free := s.free + 1 }

/-- CONTEXT_SAVE (R288, R242, R228): once the crew has drained, its context is saved and its core is free. -/
def execContextSave (crew : Nat) (s : State) : Host.Outcome State Fault Refusal :=
  match crewOf s crew with
  | none => .next s
  | some c =>
    if c.phase != .halted || crewCopies s crew || crewEngOps s crew || crewStores s crew then .next s
    else
      let tiles := crewTiles s crew
      let image := slotImages s c
      let s := dropMons (dropTiles (writeSave s crew c) crew) crew
      let s := modCrew s crew fun c =>
        { c with phase := .saved, halt := c.halt.filter (· != .preempt), savedTiles := tiles, slotImage := image }
      .next (markInc (traceCrew s crew 6 0 0 0) (2 * crew))

/-! ### CONTEXT_RESTORE (R73, R228, R242, R289) -/

/-- The context of an access's word in the crew's new place. -/
def replayCtx (s : State) (a : Acc) (g : Gang) : Ctx :=
  { gk := a.gang, g, lanes := a.lanes, on := a.lanes, pc := a.pc, seq := a.seq, cyc := cycOf s g.core }

/-- An abandoned load of a texture or an element begins anew: its handle is looked up again, and a trap that it meets is found
late (R289). -/
def replayHandle (s : State) (id : Nat) (a : Acc) : State :=
  match gangOf s a.gang with
  | none => s
  | some g =>
    let c := replayCtx s a g
    let l := a.lanes.headD 0
    let s' := { s with free := s.free + 1 }
    match a.op with
    | .tld d h _ _ co => match elemFor s c .read h co l with
      | .error t => finishAcc (lateAcc s' a t) id a 1
      | .ok r =>
        let n := newAcc c r.addr (.tld d h r.daddr r.desc r.coords) (r.desc.state == 1 || !cacheable r.addr) false
        { usedElems s' c [r] with accs := tabPut s.accs id { n with gid := a.gid } }
    | .sample d h _ _ _ f u v lod _ => match sampleFor s c f h u v lod l with
      | .error t => finishAcc (lateAcc s' a t) id a 1
      | .ok r =>
        let n := { a with op := .sample d h r.daddr r.desc r.levels f u v lod [], atHome := r.desc.state == 1 }
        { usedSample s' c r with accs := tabPut s.accs id n }
    | _ => s

/-- An access that replays after a restore is formed anew in its crew's new place; a fault is found late (R289). -/
def replayAcc (core : Nat) (c : Crew) (s : State) (x : Nat × Acc) : State :=
  let a := { x.2 with core := core + halfOf c x.2.core }
  let s := { s with accs := tabPut s.accs x.1 a }
  if a.space != .gl || a.st != .pending || isStore a then s
  else match a.op with
    | .tld .. | .sample .. => replayHandle s x.1 a
    | .trace d any ray root _ => { s with accs := tabPut s.accs x.1 { a with op := .trace d any ray root [] } }
    | .cfgrd .. => s
    | _ => match translate s (core / 16) c.part c.svc .read a.va (engIdx s) with
      | .error t => finishAcc (lateAcc { s with free := s.free + 1 } a t) x.1 a 1
      | .ok y => { tlbAdd s (core / 16) c.part y with free := s.free + 1, accs := tabPut s.accs x.1 { a with pa := y.pa } }

/-- RS-addressed copy parts bound for a crew that has been restored elsewhere have no target any more (R289). -/
def strandCopies (s : State) (ck : Nat) : State :=
  { s with copies := tabMap s.copies fun _ (p : Copy) =>
      match p.op with
      | .box h da d co o1 rows dests cr cv =>
        let dests := dests.map fun x => if x.1 / 16777216 = ck && x.2.isSome then (x.1 % 16777216, x.2) else x
        { p with op := .box h da d co o1 rows dests cr cv }
      | _ => p }

/-- Words by which other crews reach a crew that has been restored elsewhere: copy parts have no target any more, and fibres held at
an LDC, or at an arrival that had not come to the barrier, trap (R140, R279, R289). -/
def strandOthers (s : State) (ck : Nat) : State :=
  let s := strandCopies s ck
  let away := fun (a : Arrival) => crewOfGang a.gang != ck && a.credited.isNone && !a.there
  let lost := ((crewOf s ck).map fun c => (c.bars.flatMap (·.waits)).filter away).getD []
  let s := modCrew s ck fun c => { c with bars := c.bars.map fun (b : Barrier) => { b with waits := b.waits.filter fun a => !away a } }
  strandHeld s lost

/-- A restored gang on its new slice; its clocks start anew, and the A latch no longer holds its registers (R236). -/
def movedGang (s : State) (core : Nat) (c : Crew) (plan : List (Nat × Nat × Nat)) (g : Gang) : Gang :=
  let h := halfOf c g.core
  let slice := ((plan.find? fun x => x.1 == h && x.2.1 == g.group).map (·.2.2)).getD g.slice
  let cyc := cycOf s (core + h)
  { g with core := core + h, slice, shaz := [], klog := [], latch := [], outs := g.outs.filter fun o => o.left != 0, zeroAt := [],
           fibres := tabMap g.fibres fun _ f => { f with readyAt := cyc, retry := 0, bun := 0 } }

/-- The phase in which a crew comes back: as it was, or stopped, or to halt where a halt still waits (R75, R317). -/
def restoredPhase (c : Crew) : CrewPhase :=
  if !c.started then .prologue 0 else if c.wasStopped then .stopped else if c.halt.isEmpty then .running else .halting

/-- A saved tile is mapped on the engine of the slice on which its set lives now (R242). -/
def mapTile (plan : List (Nat × Nat × Nat)) (core : Nat) (s : State) (t : Nat) : State :=
  match plan.find? fun x => x.2.1 == t / 16 with
  | some x => modEng s (8 * (core + x.1) + x.2.2) fun e => { e with mapped := e.mapped ++ [t] }
  | none => s

/-- A crew comes back on a core, its gangs on slices by `plan`. -/
def restoreCrew (s : State) (ck : Nat) (c : Crew) (core : Nat) (plan : List (Nat × Nat × Nat)) : State :=
  let s := dropTileWaits (takePair s c.part core) ck
  let idx := s.free * 16777216 + 9900000
  let cs := if c.paired then [core, core + 1] else [core]
  let bases := cs.zipIdx.map fun x => (placeFor s (idx + 4 * x.2) x.1 false c.spSize).getD 0
  let s := { s with free := s.free + 1 }
  let s := { s with gangs := tabMap s.gangs fun k g => if crewOfGang k = ck then movedGang s core c plan g else g }
  let s := c.savedTiles.foldl (mapTile plan core) s
  let s := c.slotImage.foldl (fun s (k, bs) =>
    { s with slots := tabPut s.slots ((core + k / 256) * 256 + k % 256) bs }) s
  let s := modCrew s ck fun c =>
    { c with core, pos := core / 16, spBase := bases, phase := restoredPhase c, shrink := 0, attachDue := none, savedTiles := [],
             slotImage := [], sets := plan.map fun x => (8 * x.1 + x.2.2, x.2.1) }
  let s := if core = c.core && bases = c.spBase then s else strandOthers s ck
  let s := (s.accs.filter fun (_, a) => a.crew == ck).foldl (replayAcc core c) s
  let s := markInc (traceCrew s ck 7 0 0 0) (2 * ck)
  if c.started && c.wasStopped && sessionWaits s c then debugStop s ck 1 0 else s

/-- A restore that finds too few physical tiles waits: the tile wait of R241, in the name of a gang of the crew. -/
def noteRestoreWait (s : State) (ck : Nat) (c : Crew) (key : Nat) (x : Nat × Nat × Nat) : State :=
  let gk := ((s.gangs.find? fun (k, g) => crewOfGang k == ck && g.group == x.2.1).map (·.1)).getD (ck * 256)
  let tile := (c.savedTiles.find? fun t => t / 16 == x.2.1).getD 0
  modEng s (8 * (key + x.1) + x.2.2) fun e =>
    if e.tileWait.any fun w => w.gang == gk && w.pc.isNone then e
    else { e with tileWait := e.tileWait ++ [{ gang := gk, tile, pc := none, since := s.time.now }] }

/-- CONTEXT_RESTORE (R70, R73, R289): on a core that R73 admits; where none has room, crews of lower levels are pre-empted for it;
with an engine short of tiles it waits (R242). -/
def execContextRestore (crew pos core : Nat) (s : State) : Host.Outcome State Fault Refusal :=
  match crewOf s crew with
  | none => .next s
  | some c =>
    let key := coreKey pos core
    let p := partOf s c.part
    let fit := restoreFits crew c
    let serves := fun k => restoreServes s c k
    if c.phase != .saved || p.susp || p.failed then .next s
    else if !((tabKeys s.cores).any fun k => serves k && pairFree s c.part k && fit s k) then
      .next (forcePlace s serves fit c.part c.prio)
    else if !serves key || !pairFree s c.part key || outranked s c.prio key || !fit s key then .next s
    else
      match assignSlices s key (bySize (saveGroups s crew c)) [] with
      | none => .next s
      | some plan =>
        match plan.find? fun x =>
            16 < (engOf s (8 * (key + x.1) + x.2.2)).mapped.length + (c.savedTiles.filter fun t => t / 16 == x.2.1).length with
        | none => .next (restoreCrew s crew c key plan)
        | some x => .next (noteRestoreWait s crew c key x)

/-! ### Debug commands (R316, R317) -/

/-- The crew that a function's session names. -/
def sessionCrew (s : State) (fn : Nat) : Option (Nat × Crew) := s.crews.find? fun (_, c) => sessionNames s fn (funcOf s fn) c

/-- May a function debug a partition's crews: PF 0 only where the policy has TRACE 3 (R316)? -/
def mayDebug (s : State) (fn part : Nat) : Bool := fn != 0 || policyTrace (partOf s part) == 3

/-- A command ends with a result. -/
def dbgResult (s : State) (fn r : Nat) : State :=
  modFunc s fn fun f => { f with dbg := { f.dbg with result := BitVec.ofNat 8 r, busy := false } }

/-- Changes the flags of a session. -/
def dbgMod (s : State) (fn : Nat) (f : DebugSt → DebugSt) : State := modFunc s fn fun x => { x with dbg := f x.dbg }

/-- A command on the crew it names, if there is one and the function may. -/
def dbgRun (s : State) (fn : Nat) (k : Nat → Crew → State) : Host.Outcome State Fault Refusal :=
  match sessionCrew s fn with
  | none => .next (dbgResult s fn 1)
  | some (ck, c) => if mayDebug s fn c.part then .next (k ck c) else .next (dbgResult s fn 2)

/-- Is a crew stopped, as far as a session goes: it stands stopped, or was pre-empted as it stood so (R317)? -/
def isStopped (s : State) (fn : Nat) (c : Crew) : Bool :=
  c.phase == .stopped || (c.wasStopped && (funcOf s fn).dbg.stopped)

/-- DEBUG_STOP_COMMAND (R317): the crew halts without a save; one not yet started, or dispatched, stops before its first issue, and
one that is saved as it is restored. -/
def execDebugStopCommand (fn : Nat) (s : State) : Host.Outcome State Fault Refusal :=
  let wait := fun s => dbgMod (dbgResult s fn 0) fn fun d => { d with busy := true }
  match sessionCrew s fn with
  | none =>
    match (tabVals s.sched.shifts).find? fun sh => sessionAwaits s fn (funcOf s fn) sh with
    | none => .next (dbgResult s fn 1)
    | some sh => if mayDebug s fn sh.part then .next (wait s) else .next (dbgResult s fn 2)
  | some (ck, c) =>
    if !mayDebug s fn c.part then .next (dbgResult s fn 2)
    else if isStopped s fn c then .next (dbgMod (dbgResult s fn 0) fn fun d => { d with stopped := true })
    else if !c.started || crewSaved c || c.phase == .halted then
      .next (modCrew (wait s) ck fun c => { c with wasStopped := true })
    else .next (modCrew (wait s) ck (askHalt (.debug 0 0 1 0)))

/-- A stopped crew goes on; a trap halt that its stop stood in for proceeds. One that has been pre-empted as it stood stopped goes on
once it is restored (notes/assumptions/96.md). -/
def resumeCrew (s : State) (ck : Nat) (step : Option (Nat × Nat)) : State :=
  modCrew s ck fun c =>
    { c with stepBar := step, wasStopped := false,
             phase := if c.phase != .stopped then c.phase else if c.halt.isEmpty then .running else .halting }

/-- DEBUG_RESUME_COMMAND (R317). -/
def execDebugResumeCommand (fn : Nat) (s : State) : Host.Outcome State Fault Refusal :=
  dbgRun s fn fun ck c =>
    if !isStopped s fn c then dbgResult s fn 3
    else dbgMod (dbgResult (resumeCrew s ck none) fn 0) fn fun d => { d with stopped := false, stepping := false }

/-- DEBUG_STEP_COMMAND (R317): on to the next phase change of barrier `bar`. -/
def execDebugStepCommand (fn bar : Nat) (s : State) : Host.Outcome State Fault Refusal :=
  dbgRun s fn fun ck c =>
    if !isStopped s fn c then dbgResult s fn 3
    else match c.bars[bar]? with
      | none => dbgResult s fn 4
      | some b => dbgMod (dbgResult (resumeCrew s ck (some (bar, b.phase))) fn 0) fn fun d =>
          { d with stopped := false, stepping := true }

/-- DEBUG_ARM_COMMAND (R317). -/
def execDebugArmCommand (fn : Nat) (s : State) : Host.Outcome State Fault Refusal :=
  dbgRun s fn fun ck _ =>
    dbgMod (dbgResult (modCrew s ck fun c => { c with armed := true }) fn 0) fn fun d => { d with armed := true }

/-- DEBUG_DISARM_COMMAND (R317). -/
def execDebugDisarmCommand (fn : Nat) (s : State) : Host.Outcome State Fault Refusal :=
  dbgRun s fn fun ck _ =>
    dbgMod (dbgResult (modCrew s ck fun c => { c with armed := false }) fn 0) fn fun d => { d with armed := false }

/-- A barrier's entry in a stop record. -/
def stopBar (b : Barrier) : List Byte :=
  bytesOfNat 4 b.phase ++ bytesOfNat 2 b.expectNow ++ bytesOfNat 2 b.arrived ++ bytesOfNat 5 b.bytes ++
    [if b.member then 1 else 0, BitVec.ofNat 8 b.err, 0]

/-- Has gang `gk` an arrival credited to the barrier's current phase? -/
def arrivedNow (gk : Nat) (b : Barrier) : Bool := match b.liveOf gk with
  | some m => m.arrived.contains b.phase
  | none => false

/-- A gang's entry in a stop record. -/
def stopGang (c : Crew) (pcs : Bool) (gk : Nat) (g : Gang) : List Byte :=
  let mask := (c.bars.zipIdx.map fun x => if arrivedNow gk x.1 then 2 ^ x.2 else 0).foldl (· + ·) 0
  let pc := ((g.fibres.head?).map fun x => x.2.pc.toNat).getD 0
  bytesOfNat 2 (gk % 256) ++ bytesOfNat 2 g.fibres.length ++ bytesOfNat 4 mask ++ bytesOfNat 8 (if pcs then pc else 0)

/-- A stop record (R318). -/
def stopRecord (s : State) (fn ck : Nat) (c : Crew) (reason : Nat) (cause : BitVec 8) : List Byte :=
  let full := fn != 0 || 1 ≤ policyDetail (partOf s c.part)
  let gs := s.gangs.filter fun (k, _) => crewOfGang k == ck
  bytesOfNat 8 s.time.now ++ bytesOfNat 4 c.shiftId.toNat ++ bytesOfNat 4 c.x ++ bytesOfNat 4 c.y ++ bytesOfNat 4 c.z ++
    [BitVec.ofNat 8 reason, if full then cause else 0, BitVec.ofNat 8 c.pos, BitVec.ofNat 8 (c.core % 16),
      BitVec.ofNat 8 c.bars.length] ++ bytesOfNat 2 gs.length ++ zeros 33 ++ c.bars.flatMap stopBar ++
    gs.flatMap fun (k, g) => stopGang c full k g

/-- An MSI-X message of a function (R296). -/
def raiseMsix (s : State) (fn vec : Nat) : State :=
  { s with msix := tabPut s.msix (fn * 4 + vec) ((tabFind s.msix (fn * 4 + vec)).getD 0 + 1) }

/-- DEBUG_STOP_RECORD (R318): the record of a stop goes to DBGBUF, and vector 3 is raised. -/
def execDebugStopRecord (fn : Nat) (s : State) : Host.Outcome State Fault Refusal :=
  let d := (funcOf s fn).dbg
  match d.stop with
  | none => .next s
  | some (ck, reason, cause) =>
    let s := dbgMod s fn fun d => { d with stop := none }
    match crewOf s ck with
    | none => .next s
    | some c => .next (raiseMsix (busWrite s d.buf.toNat (stopRecord s fn ck c reason cause)) fn 3)

end Sys2Proof.Machine
end

