-- ==== Sys2Proof/Machine/Ray.lean ====
section
/-! DEFINITION. Rays (R270 to R274, R405, R406): the walk of a BVH, the triangle test, TRACE, and TRACEF with its thread. -/

namespace Sys2Proof.Machine

/-! ### The ray and the boxes (R270, R271) -/

/-- A ray that does not miss at once: origin and direction as exact ratios and as FP32 codes, and the interval. -/
structure RayIn where
  o : List Word
  d : List Word
  tmin : Ratio
  tmax : Ratio
  deriving DecidableEq, Repr

/-- A finite FP32 code. -/
def isFin (w : Word) : Bool := match v32 w with
  | .fin .. => true
  | _ => false

/-- The ratio of a code that is no NaN. -/
def ratD (w : Word) : Ratio := (ratOf (v32 w)).getD (ratInt 0)

/-- A ray out of its eight registers; none if it misses at once (R271). -/
def rayOf (ws : List Word) : Option RayIn :=
  let w := fun i => ws.getD i 0
  let o := [w 0, w 1, w 2]
  let d := [w 4, w 5, w 6]
  let nan := ws.any fun x => v32 x == .nan
  let zero := d.all fun x => (ratD x).n == 0
  if nan || !(o.all isFin) || !(d.all isFin) || zero || ratLt (ratD (w 7)) (ratD (w 3)) then none
  else some { o, d, tmin := ratD (w 3), tmax := ratD (w 7) }

/-- A bound of a child's box on one axis: ORIGIN + n × 2^(EXP − 127), rounded down or up. -/
def boxBound (org : Word) (exp n : Nat) (up : Bool) : FV :=
  let step : FV := .fin false n (if exp = 0 then -127 else (exp : Int) - 127)
  fmtFP32.value (roundV fmtFP32 (if up then .ru else .rd) false (addV (if up then .ru else .rd) (v32 org) step)).1

/-- The part of an interval in which the ray lies between two bounds on one axis; none if it never does. -/
def slab (r : RayIn) (k : Nat) (lo hi : Ratio) (iv : Ratio × Ratio) : Option (Ratio × Ratio) :=
  let o := ratD (r.o.getD k 0)
  let d := ratD (r.d.getD k 0)
  if d.n = 0 then (if ratLe lo o && ratLe o hi then some iv else none)
  else
    let a := ratDiv (ratSub lo o) d
    let b := ratDiv (ratSub hi o) d
    let near := if d.n < 0 then b else a
    let far := if d.n < 0 then a else b
    let t0 := if ratLe iv.1 near then near else iv.1
    let t1 := if ratLe far iv.2 then far else iv.2
    if ratLe t0 t1 then some (t0, t1) else none

/-- Does the exact segment meet child `i`'s box (R270, R271)? A bound that is a NaN bounds nothing. -/
def meetsBox (r : RayIn) (node : List Byte) (i : Nat) : Bool :=
  let exps := (List.range 3).map fun k => field node (12 + k) 1
  if exps.contains 255 then true
  else
    ((List.range 3).foldl (fun (iv : Option (Ratio × Ratio)) k => iv.bind fun iv =>
      let org := BitVec.ofNat 32 (field node (4 * k) 4)
      let lo := boxBound org (exps.getD k 0) (field node (16 + 6 * i + k) 1) false
      let hi := boxBound org (exps.getD k 0) (field node (19 + 6 * i + k) 1) true
      match ratOf lo, ratOf hi with
      | some l, some h => slab r k l h iv
      | _, _ => some iv) (some (r.tmin, r.tmax))).isSome

/-! ### The triangle test (R271) -/

/-- A hit: T, det, V and W exactly, PRIM and the record's address. -/
structure Hit where
  t : Ratio
  v : Ratio
  w : Ratio
  prim : Word
  addr : Nat
  deriving DecidableEq, Repr

/-- RoundRNE of a quotient of two codes. -/
def quotCode (a b : Word) : Nat := ratRound fmtFP32 (ratDiv (ratD a) (ratD b))

/-- The axes kx, ky, kz of a ray (R271). -/
def rayAxes (r : RayIn) : Nat × Nat × Nat :=
  let mag := fun k => (let x := ratD (r.d.getD k 0); ({ n := x.n.natAbs, d := x.d } : Ratio))
  let kz := if ratLt (mag 0) (mag 1) then (if ratLt (mag 1) (mag 2) then 2 else 1)
    else if ratLt (mag 0) (mag 2) then 2 else 0
  let kx := (kz + 1) % 3
  let ky := (kx + 1) % 3
  if (ratD (r.d.getD kz 0)).n < 0 then (ky, kx, kz) else (kx, ky, kz)

/-- A vertex sheared into the ray's frame: x', y', z' as codes. -/
def shear (r : RayIn) (vtx : List Word) : List Nat :=
  let (kx, ky, kz) := rayAxes r
  let dz := r.d.getD kz 0
  let sx := quotCode (r.d.getD kx 0) dz
  let sy := quotCode (r.d.getD ky 0) dz
  let sz := quotCode 0x3F800000 dz
  let q := fun k => (subF fmtFP32 .rne false (vtx.getD k 0).toNat (r.o.getD k 0).toNat).1
  [(fmaF fmtFP32 .rne false true false sx (q kz) (q kx)).1, (fmaF fmtFP32 .rne false true false sy (q kz) (q ky)).1,
    (mulF fmtFP32 .rne false sz (q kz)).1]

/-- Is the edge from `a` to `b` owned, reversed if `rev` (R271)? -/
def edgeOwned (rev : Bool) (a b : Ratio × Ratio) : Bool :=
  let s : Int := if rev then -1 else 1
  let dx := (ratSub b.1 a.1).n * s
  let dy := (ratSub b.2 a.2).n * s
  dy < 0 || (dy == 0 && 0 < dx)

/-- The test of one triangle record (R271). -/
def testTri (r : RayIn) (rec' : List Byte) (addr : Nat) : Option Hit :=
  let vtx := fun k => (List.range 3).map fun i => BitVec.ofNat 32 (field rec' (12 * k + 4 * i) 4)
  let ps := (List.range 3).map fun k => (shear r (vtx k)).map fun c => BitVec.ofNat 32 c
  if ps.any fun p => !(p.all isFin) then none
  else
    let c := fun k i => ratD ((ps.getD k []).getD i 0)
    let cross := fun a b => ratSub (ratMul (c a 0) (c b 1)) (ratMul (c a 1) (c b 0))
    let u := cross 2 1
    let v := cross 0 2
    let w := cross 1 0
    let det := ratAdd (ratAdd u v) w
    let rev := det.n < 0
    let p := fun k => (c k 0, c k 1)
    let ok := fun (e : Ratio) a b => (if e.n = 0 then edgeOwned rev (p a) (p b) else decide (e.n < 0) == rev)
    if det.n = 0 then none
    else
      let t := ratAdd (ratAdd (ratMul u (c 0 2)) (ratMul v (c 1 2))) (ratMul w (c 2 2))
      let q := ratDiv t det
      if ok u 1 2 && ok v 2 0 && ok w 0 1 && ratLe r.tmin q && ratLe q r.tmax then
        some { t := q, v := ratDiv v det, w := ratDiv w det, prim := BitVec.ofNat 32 (field rec' 36 4), addr }
      else none

/-! ### The walk (R270, R271, R273) -/

/-- What is known of a walk from the parts read so far: the hits found, the 16-byte parts that it still wants, and a node that
lies deeper than 64 levels. -/
structure WalkOut where
  hits : List Hit
  want : List DWord
  deep : Option DWord

/-- Two parts of a walk together. -/
def WalkOut.join (a b : WalkOut) : WalkOut :=
  { hits := a.hits ++ b.hits, want := a.want ++ b.want, deep := if a.deep.isSome then a.deep else b.deep }

/-- A walk that has found nothing. -/
def WalkOut.none : WalkOut := { hits := [], want := [], deep := Option.none }

/-- `n` 16-byte parts from an address on: their bytes, or those that are still to be read. -/
def seenParts (seen : List (DWord × List Byte)) (va : DWord) (n : Nat) : Except (List DWord) (List Byte) :=
  let as := (List.range n).map fun i => va + BitVec.ofNat 64 (16 * i)
  let look := fun a => (seen.find? fun x => x.1 == a).map (·.2)
  match as.filter fun a => (look a).isNone with
  | [] => .ok (as.flatMap fun a => (look a).getD [])
  | w => .error w

/-- The records of a leaf. -/
def bvhLeaf (seen : List (DWord × List Byte)) (r : RayIn) (n : Nat) (va : DWord) : WalkOut :=
  (List.range n).foldl (fun acc i =>
    let a := va + BitVec.ofNat 64 (48 * i)
    acc.join (match seenParts seen a 3 with
      | .error w => { WalkOut.none with want := w }
      | .ok bs => { WalkOut.none with hits := (testTri r bs a.toNat).toList })) WalkOut.none

/-- A node and what lies below it, with the levels left (R273: at most 64). -/
def bvhNode (seen : List (DWord × List Byte)) (r : RayIn) (root : DWord) : Nat → DWord → WalkOut
  | 0, va => { WalkOut.none with deep := some va }
  | fuel + 1, va => match seenParts seen va 4 with
    | .error w => { WalkOut.none with want := w }
    | .ok node => (List.range 4).foldl (fun (acc : WalkOut) i =>
        let ref := field node (40 + 4 * i) 4
        let kind := ref / 1073741824
        if (kind != 1 && kind != 2) || !meetsBox r node i then acc
        else acc.join (if kind = 1 then bvhNode seen r root fuel (root + BitVec.ofNat 64 (64 * (ref % 1073741824)))
          else bvhLeaf seen r (ref / 67108864 % 16 + 1) (root + BitVec.ofNat 64 (16 * (ref % 67108864))))) WalkOut.none

/-- A ray traced through what has been read of a BVH. -/
def bvhWalk (seen : List (DWord × List Byte)) (ws : List Word) (root : DWord) : WalkOut :=
  match rayOf ws with
  | none => WalkOut.none
  | some r => bvhNode seen r root 64 root

/-- How a walk goes on: it ends, it meets a node too deep, or it reads a part. -/
inductive WalkNext where
  | done (hs : List Hit)
  | deep (va : DWord)
  | read (va : DWord)

/-- The next step of a walk. The order in which it reads its nodes is a free choice, and so, for any hit, is whether it looks on
once it has one (R273). -/
def walkNext (any : Bool) (idx : Nat) (w : WalkOut) : WalkNext :=
  if any && !w.hits.isEmpty && Config.freeBool idx then .done w.hits
  else match w.want, w.deep with
    | [], none => .done w.hits
    | [], some a => .deep a
    | v :: vs, d =>
      if d.isSome && Config.freeBool (idx + 1) then .deep (d.getD 0)
      else .read ((v :: vs).getD (Config.freeNat (idx + 2) (vs.length + 1)) v)

/-- The closer of two hits (R273). -/
def closer (a b : Hit) : Hit :=
  if ratLt a.t b.t then a else if ratLt b.t a.t then b
  else if a.prim.toNat < b.prim.toNat then a else if b.prim.toNat < a.prim.toNat then b
  else if a.addr ≤ b.addr then a else b

/-- The hit that TRACE reports: the closest, or any one with ANY (a free choice). -/
def chosenHit (any : Bool) (idx : Nat) (hs : List Hit) : Option Hit :=
  match hs with
  | [] => none
  | h :: rest => if any then hs[Config.freeNat idx hs.length]? else some (rest.foldl closer h)

/-- TRACE's four results (R273). -/
def traceWords (h : Option Hit) : List Word := match h with
  | none => [0x7F800000, 0xFFFFFFFF, 0, 0]
  | some h => [ratFP32 h.t, h.prim, ratFP32 h.v, ratFP32 h.w]

/-! ### TRACE -/

/-- TRACE (R273, R405): a root that is not a multiple of 64 traps; the walk itself follows. -/
def execTrace (h : Hdr) (any : Bool) (d a : Reg) (b : Opnd) (s : State) : Host.Outcome State Fault Refusal :=
  runWord { hdr := h, names := vNames d 4 ++ vNames a 8 ++ opNames b 2, reads := readsAll (vReads a 8 ++ opReads b 2),
            early := geoEarly, wait := acqWait,
            body := fun c s =>
              match trapEnds c fun l => alignTrap (rd64 s c l b) 64 with
              | some ends => trapPlan s ends
              | none =>
                let accs := c.on.map fun l =>
                  let la : LaneAddr := { lane := l, space := .gl, va := rd64 s c l b, pa := 0, size := 0, xl := none, saved := false }
                  let ray := (List.range 8).map fun i => readV s c.g l (a.toNat + i)
                  newAcc c la (.trace d.toNat any ray (rd64 s c l b) []) false false
                { st := addAccs s (c.seq + 1) accs, ends := allNext c, comp := .lanes accs.length } } s

/-- A TRACE goes on by one read of its BVH, a plain load of its fibre, or returns; a fault of the walk is found late (R273, R278). -/
def returnTrace (s : State) (id : Nat) (a : Acc) (dst : Nat) (any : Bool) (ray : List Word) (root : DWord)
    (seen : List (DWord × List Byte)) : State :=
  if !manyTurn s id a then s else
  let idx := s.free * 16777216 + 9700000
  let bad := fun (s : State) t => finishAcc (lateAcc { s with free := s.free + 1 } a t) id a 1
  match walkNext any idx (bvhWalk seen ray root) with
  | .done hs =>
    let ws := traceWords (chosenHit any (idx + 3) hs)
    landLoad { s with free := s.free + 1 } id a dst (a.lanes.map fun l => (l, ws))
  | .deep va => bad s { trapOf 0x09 with addr := va, info := 1 }
  | .read va =>
    let cr := (crewOf s a.crew).getD noCrew
    match checkGL s a.core cr .read 16 va 0 (idx + 4) with
    | .error t => bad s t
    | .ok x => match readGL s a.core cr.part va x.pa 16 (!cacheable x) true id with
      | .late t => bad s t
      | .notYet => s
      | .bytes s bs =>
        { s with free := s.free + 1, accs := tabPut s.accs id { a with op := .trace dst any ray root ((va, bs) :: seen) } }

/-! ### TRACEF (R274, R406) -/

/-- TRACEF's checks in a lane. -/
def tracefTrap (s : State) (c : Ctx) (d : Opnd) (b : Reg) (bar : Nat) (l : Nat) : Option TrapInfo :=
  firstOf [barCheckTrap s c bar, alignTrap (rd64 s c l d) 64, alignTrap (rdV64 s c l b) 4]

/-- TRACEF (R274): each lane forks a thread. -/
def execTracef (h : Hdr) (d : Opnd) (a b : Reg) (bar : BitVec 5) (s : State) : Host.Outcome State Fault Refusal :=
  runWord { hdr := h, names := opNames d 2 ++ vNames a 8 ++ vNames b 5,
            reads := readsAll (opReads d 2 ++ vReads a 8 ++ vReads b 5), early := geoEarly, wait := acqWait,
            body := fun c s =>
              match trapEnds c (tracefTrap s c d b bar.toNat) with
              | some ends => trapPlan s ends
              | none =>
                let part := (crewD s c.gk).part
                let st := c.on.zipIdx.foldl (fun (t : State) x =>
                  let l := x.1
                  let ray := (List.range 8).map fun i => readV s c.g l (a.toNat + i)
                  let rgb := (List.range 3).map fun i => readV s c.g l (b.toNat + 2 + i)
                  let op := CopyOp.ray ray (rd64 s c l d) (rdV64 s c l b) rgb [] 0 (some 0)
                  { t with copies := tabPut t.copies (c.seq + 1 + x.2) (newCopy c part l (some bar.toNat) false op 1 0) }) s
                { st, ends := allNext c, comp := .issue } } s

/-- A unit's atomic operation of `n` bytes at its home (R184, R261, R274): the state and the settle time, as far as it is known. -/
def engRmw (s : State) (g : Agent) (va : DWord) (o : AtomOp) (n x : Nat) : Except EngFault (State × Option Nat) :=
  match engXl s g .atomic va with
  | .error e => .error e
  | .ok (s, xl) =>
    if isHost xl.pa && !isCxl xl.pa then .error (0x0A, va)
    else if isHost xl.pa then
      let r := rmwOp (.op o) (8 * n) (natOfBytes (busRead s (hostBus xl.pa) n)) x 0
      .ok (busWrite s (hostBus xl.pa) (bytesOfNat n r), windowSettle s xl.pa)
    else if isPeer xl.pa then if peerDown s xl.pa then .error (0x0F, va) else .ok (s, none)
    else if readsPoison s xl.pa n then .error (0x0F, va)
    else
      let s := recallRange s xl.pa n
      let r := rmwOp (.op o) (8 * n) (natOfBytes (memRead s xl.pa n)) x 0
      .ok (homeWrite s xl.pa (bytesOfNat n r), some (settleNow s xl.pa n))

/-- What becomes of a TRACEF thread now: it reads a part of its BVH at the home (R190), or, after a miss, applies one of its three
additions, each an atomic of its own. -/
def rayNow (s : State) (cp : Copy) (ws : List Word) (root va : DWord) (rgb : List Word) (seen : List (DWord × List Byte))
    (k : Nat) (settle : Option Nat) : PartRes :=
  let g := agentOf s cp
  let idx := s.free * 16777216 + 9710000
  let s := { s with free := s.free + 1 }
  match walkNext true idx (bvhWalk seen ws root) with
  | .deep a => .bad (0x09, a)
  | .read a => match engRead s g a 16 with
    | .error e => .bad e
    | .ok (s, _, bs) => .moved s (.ray ws root va rgb ((a, bs) :: seen) k settle)
  | .done (_ :: _) => .applied s (some s.time.now)
  | .done [] => match rgb[k]? with
    | none => .applied s settle
    | some x => match engRmw s g (va + BitVec.ofNat 64 (4 * k)) .fadd 4 x.toNat with
      | .error e => .bad e
      | .ok (s, u) => .moved s (.ray ws root va rgb seen (k + 1) (laterSettle settle u))

/-- What becomes of a part of any thread now. -/
def anyPartNow (s : State) (cp : Copy) (part : Nat) : PartRes :=
  match cp.op with
  | .ray ws root va rgb seen k t => rayNow s cp ws root va rgb seen k t
  | _ => partNow s cp part

/-- The state of a part whose writes have been made. -/
def writtenPart : Option Nat → PartSt
  | some t => .applied t
  | none => .forwarded

/-- A part of an engine thread moves on: it lands; it applies its writes, and is credited once they have settled; writes to a window
settle as they are acknowledged (R191, R196, R274). -/
def movePart (s : State) (id part : Nat) : State :=
  let s := noteRead s id part
  match tabFind s.copies id with
  | none => s
  | some cp =>
    match tabFind cp.parts part with
    | none => s
    | some (.applied t) => if timeReached s t then creditPart s id part cp else s
    | some .forwarded =>
      let s := noteSettle s cp.crew s.time.now
      { s with copies := tabMod s.copies id fun p => { p with parts := tabPut p.parts part (.applied s.time.now) } }
    | some .todo =>
      match anyPartNow s cp part with
      | .landed s' => creditPart (readPart s' id cp) id part cp
      | .applied s' t =>
        let s' := match t with
          | some t => noteSettle s' cp.crew t
          | none => s'
        let s' := { s' with copies := tabMod s'.copies id fun p => { p with parts := tabPut p.parts part (writtenPart t) } }
        readPart s' id cp
      | .moved s' op => { s' with copies := tabMod s'.copies id fun p => { p with op } }
      | _ => s

/-- COPY_PART_LAND (R191). -/
def execCopyPartLand (copy part : Nat) (s : State) : Host.Outcome State Fault Refusal := .next (movePart s copy part)

/-- TRACEF_COMPLETION (R274): the ray is traced and its additions are applied; once they have settled, 16 bytes are
credited. -/
def execTracefCompletion (copy part : Nat) (s : State) : Host.Outcome State Fault Refusal :=
  match tabFind s.copies copy with
  | none => .next s
  | some cp => match cp.op with
    | .ray .. => .next (movePart s copy part)
    | _ => .next s

/-- COPY_FAULT (R218, R219): a part that meets a fault. -/
def execCopyFault (copy part : Nat) (s : State) : Host.Outcome State Fault Refusal :=
  let s := noteRead s copy part
  match tabFind s.copies copy with
  | none => .next s
  | some cp =>
    match tabFind cp.parts part with
    | some .todo => match anyPartNow s cp part with
      | .bad f => .next (faultPart s copy part cp f)
      | _ => .next s
    | _ => .next s

end Sys2Proof.Machine
end

