-- ==== Sys2Proof/Machine/Render.lean ====
section
/-! DEFINITION. The render pass (R249 to R266, R342, R343, R364, R424, R425): opening and closing, packets and their order,
claims and flushes, the rasteriser, micro-triangle queues, pixel gangs and blends. -/

namespace Sys2Proof.Machine

/-- Changes the render state. -/
def modRend (s : State) (f : RendSt → RendSt) : State := { s with rend := f s.rend }

/-- The unit that works for the pass at a position. -/
def passAgent (s : State) (pos : Nat) : Agent := { pos, part := passPart s, svc := false }

/-- Does a die of a kind serve in a partition: in service, with a core pair of it? -/
def dieServes (s : State) (kind : DieKind) (part pos : Nat) : Bool :=
  match tabFind s.dies pos with
  | none => false
  | some d => d.kind == kind && d.inService && !d.isolated && (List.range 8).any fun i => pairHas s (pos * 16 + 2 * i) part

/-! ### Sequence numbers (R252) -/

/-- Does the number with offset `off` belong to the geometry die of rank `g`? -/
def seqBelongs (s : State) (off g : Nat) : Bool := off / 2 ^ passCh s % s.rend.geo.length == g

/-- The next offset after `off` that belongs to the same die. -/
def seqNext (s : State) (off : Nat) : Nat :=
  let ch := passCh s
  if (off + 1) / 2 ^ ch = off / 2 ^ ch then off + 1 else (off / 2 ^ ch + s.rend.geo.length) * 2 ^ ch

/-- The watermark of rank `g` and the numbers emitted above it, as offsets. -/
def markOf (s : State) (g : Nat) : Nat × List Nat := (tabFind s.rend.marks g).getD (g * 2 ^ passCh s, [])

/-- A watermark passes the numbers already emitted. -/
def advanceMark (s : State) : Nat → Nat × List Nat → Nat × List Nat
  | 0, m => m
  | fuel + 1, m => if m.2.contains m.1 then advanceMark s fuel (seqNext s m.1, m.2.filter (· != m.1)) else m

/-- Number `off` is emitted by rank `g`. -/
def markEmitted (s : State) (g off : Nat) : State :=
  let m := markOf s g
  let m := (m.1, setIns m.2 off)
  modRend s fun r => { r with marks := tabPut r.marks g (advanceMark s (m.2.length + 1) m) }

/-- The horizon as an offset. -/
def horizonOff (s : State) : Nat :=
  match (List.range s.rend.geo.length).map fun g => (markOf s g).1 with
  | [] => 0
  | w :: ws => ws.foldl min w

/-! ### Claims (R254, R425) -/

/-- A claim entry. -/
def claimOf (s : State) (region : Nat) : Nat :=
  (cfgGet s (cfgAddr 0 (0x2000 + 4 * (region / 2)))).toNat / 65536 ^ (region % 2) % 65536

/-- The owner of a region and its queue; none if unclaimed or its die does not serve the pass. -/
def claimOwner (s : State) (region : Nat) : Option (Nat × Nat) :=
  let c := claimOf s region
  if c % 256 = 255 || !dieServes s .shading (passPart s) (c % 256) then none else some (c % 256, c / 256)

/-- Is the region held at the crossbar from offset `off` on (R258)? -/
def heldAt (s : State) (region off : Nat) : Bool := match tabFind s.rend.held region with
  | some (c, _) => c ≤ off
  | none => false

/-- A claim entry takes a value. -/
def setClaim (s : State) (region v : Nat) : State :=
  let a := cfgAddr 0 (0x2000 + 4 * (region / 2))
  let other := claimOf s (region + 1 - 2 * (region % 2))
  cfgSet s a (BitVec.ofNat 32 (if region % 2 = 0 then v + 65536 * other else other + 65536 * v))

/-- The queue that a region's claim names is one of the pass (R262): its triangles are numbered from 0. -/
def noteQueue (s : State) (region : Nat) : State :=
  match claimOwner s region with
  | none => s
  | some (pos, q) =>
    let key := pos * 256 + q
    if (tabFind s.rend.microN key).isSome then s else modRend s fun r => { r with microN := tabPut r.microN key 0 }

/-- One entry of a claim write: while a pass is open, only that of a region held after a completed flush. -/
def writeClaim (s : State) (region v : Nat) : State :=
  if !s.rend.passOpen then setClaim s region v
  else match tabFind s.rend.held region with
    | some (_, true) => noteQueue (modRend (setClaim s region v) fun r => { r with held := tabDel r.held region }) region
    | _ => s

/-- CLAIM_ENTRY_WRITE (R254, R425). -/
def execClaimEntryWrite (word : Nat) (v : Word) (s : State) : Host.Outcome State Fault Refusal :=
  if 2048 ≤ word then .next s
  else .next (writeClaim (writeClaim s (2 * word) (v.toNat % 65536)) (2 * word + 1) (v.toNat / 65536))

/-! ### Opening and closing (R250) -/

/-- The conditions on a pixel shift record, by code (R250, R263). -/
def pixelRejections (s : State) (bs : List Byte) : List (Nat × Bool) :=
  let r := recOf bs
  [(1, !reservedZero bs), (2, 2 < r.gwc || r.wsize < 8 || 256 < r.wsize || r.wsize % 8 != 0),
    (3, r.gangMin != 1 || r.gangMax != 1), (5, r.cbUnits != 0 || !fitsSome s r (passPart s)), (6, 32 < r.bars), (7, r.part != passPart s),
    (8, r.geo), (9, (List.range 4).any fun k => bindingBad r (bindingOf bs k)),
    (10, r.entry.toNat % 8 != 0 || r.trapPc.toNat % 8 != 0), (11, (partOf s r.part).failed)]

/-- A pass opens with its pixel shift. -/
def startPass (s : State) (geo : List Nat) (bs : List Byte) : State :=
  let sh : Shift :=
    { record := bs, src := .pixel, part := passPart s, st := .running, depMet := true, depPa := 0xFFFFFFFFFFFF, depWake := false,
      dtMet := true, next := 0, retired := 0, settle := 0, acks := [] }
  let s := { s with nextId := s.nextId + 1, sched := { s.sched with shifts := tabPut s.sched.shifts s.nextId sh } }
  let s := modRend s fun r =>
    { r with passOpen := true, closing := false, done := false, flushing := false, cut := r.cut, geo, marks := [], pkts := [],
             wins := [], sent := [], held := [], quads := [], frags := [], micro := [], microN := [], rcache := [],
             settle := [], ended := false, seq0 := passSeq0 s }
  (List.range 4096).foldl noteQueue s

/-- The open of R250: it fails unless every condition holds. The record is read, and a failed check reported in its STATUS, whatever
the other conditions. -/
def tryOpen (s : State) : State :=
  let part := passPart s
  let geo := (tabKeys s.dies).filter (dieServes s .geometry part)
  let w := passWidth s
  let h := passHeight s
  match engRead s (passAgent s 0) (pixRecord s) 256 with
  | .error _ => s
  | .ok (s, _, bs) =>
    match (pixelRejections s bs).find? fun x => x.2 with
    | some (code, _) => match engWrite s (passAgent s 0) (pixRecord s + 55) [BitVec.ofNat 8 (0x80 + code)] with
      | .ok (s, _) => s
      | .error _ => s
    | none => if geo.isEmpty || w < 1 || 16384 < w || h < 1 || 16384 < h then s else startPass s geo bs

/-- A write to CFG.RPASS. -/
def passWrite (v : Word) (s : State) : State :=
  let s := modRend s fun r => { r with qerr := r.qerr && !v.getLsbD 19, verr := r.verr && !v.getLsbD 18 }
  if s.rend.passOpen then
    (if v.getLsbD 31 then s else modRend s fun r => { r with closing := true })
  else
    let s := cfgSet s (cfgAddr 0 0x1000) (v &&& 0x3F00001F)
    if v.getLsbD 31 then tryOpen s else s

/-- PASS_OPEN (R250): CFG.RPASS is written with OPEN = 1. -/
def execPassOpen (v : Word) (s : State) : Host.Outcome State Fault Refusal := .next (passWrite (v ||| 0x80000000) s)

/-- PASS_CLOSE (R250): CFG.RPASS is written with OPEN = 0. -/
def execPassClose (v : Word) (s : State) : Host.Outcome State Fault Refusal := .next (passWrite (v &&& 0x7FFFFFFF) s)

/-! ### EMITM (R251 to R255) -/

/-- A packet as it lies in scratchpad, and the regions its mask names. -/
structure PacketIn where
  nv : Nat
  nt : Nat
  nattr : Nat
  zero : Bool
  abase : DWord
  verts : List Vertex
  tris : List (Nat × Nat × Nat)
  regions : List Nat
  deriving DecidableEq, Repr

/-- Regions that RMASK names: those with a column or row above 63 name none. -/
def maskRegions (rx ry mask : Nat) : List Nat :=
  (List.range 64).filterMap fun b =>
    let x := rx + b % 8
    let y := ry + b / 8
    if mask / 2 ^ b % 2 = 1 && x ≤ 63 && y ≤ 63 then some (x + 64 * y) else none

/-- Reads a packet (Table REND-2). -/
def parsePacket (bs : List Byte) : PacketIn :=
  let nv := field bs 0 1
  let nt := field bs 1 1
  { nv, nt, nattr := field bs 2 1, zero := field bs 3 1 == 0 && field bs 24 8 == 0, abase := BitVec.ofNat 64 (field bs 16 8),
    verts := (List.range (min nv 64)).map fun k =>
      { x := toSigned 32 (field bs (32 + 16 * k) 4), y := toSigned 32 (field bs (36 + 16 * k) 4), z := field bs (40 + 16 * k) 4,
        aref := field bs (44 + 16 * k) 4 },
    tris := (List.range nt).map fun m => (field bs (1056 + 3 * m) 1, field bs (1057 + 3 * m) 1, field bs (1058 + 3 * m) 1),
    regions := maskRegions (field bs 4 2) (field bs 6 2) (field bs 8 8) }

/-- Is a coordinate in range? -/
def coordOk (x : Int) : Bool := -8388608 ≤ x && x ≤ 8388607

/-- The first reason of Table REND-3 that applies, in the order of R253. -/
def emitmReason (s : State) (part pos off : Nat) (p : PacketIn) : Option Nat :=
  let g := s.rend.geo.findIdx (· == pos)
  let m := markOf s g
  [(7, !s.rend.passOpen || part != passPart s), (1, 64 < p.nv || 126 < p.nt || 8 < p.nattr || (0 < p.nt && p.nv = 0)),
    (2, !p.zero), (3, p.tris.any fun t => p.nv ≤ t.1 || p.nv ≤ t.2.1 || p.nv ≤ t.2.2),
    (8, p.verts.any fun v => !coordOk v.x || !coordOk v.y),
    (5, 65536 ≤ (off + 4294967296 - m.1 % 4294967296) % 4294967296 || passLen s ≤ off), (6, !seqBelongs s off g),
    (4, m.2.contains off)].find? (fun (x : Nat × Bool) => x.2) |>.map (·.1)

/-- The packet that an EMITM names, or its trap (R253). -/
def emitmReq (s : State) (c : Ctx) (a b : Reg) : Except TrapInfo (Nat × PacketIn) :=
  let cr := crewD s c.gk
  let at' := (readS s c.g (lowest c) a.toNat).toNat
  let n := readS s c.g (lowest c) b.toNat
  let key := spadKey (crewOfGang c.gk) (halfOf cr c.g.core) at'
  if at' % 16 ≠ 0 then .error (addrTrap 0x08 (BitVec.ofNat 64 at'))
  else if cr.spSize < at' + 1056 || cr.spSize < at' + roundUp (1056 + 3 * field (spadRead s (key + 1) 1) 0 1) 16 then
    .error (addrTrap 0x0C (BitVec.ofNat 64 at'))
  else
    let p := parsePacket (spadRead s key (1056 + 3 * field (spadRead s (key + 1) 1) 0 1))
    let off := (n.toNat + 4294967296 - passSeq0 s) % 4294967296
    match emitmReason s cr.part (c.g.core / 16) off p with
    | some r => .error { cause := 0x01, addr := n.zeroExtend 64, info := BitVec.ofNat 32 r, next := false }
    | none => .ok (off, p)

/-- EMITM exists on geometry dies only. -/
def emitmEarly (s : State) (g : Gang) (_ : List Nat) : Option TrapInfo := if onGeometry s g then none else some (trapOf 0x01)

/-- Packets in a region's window. -/
def winOf (s : State) (region : Nat) : List Nat := (tabFind s.rend.wins region).getD []

/-- EMITM waits for its fibre's earlier stores to scratchpad, and while a target region's window is full (R255). -/
def emitmWait (a b : Reg) (c : Ctx) (s : State) : Bool :=
  acqWait c s || ownSpQueue s c.gk c.on s.nextId || match emitmReq s { c with on := c.on } a b with
    | .error _ => false
    | .ok (_, p) => p.regions.any fun r => 4096 ≤ (winOf s r).length

/-- A packet is sent to the owners of its regions, and its number is emitted (R252, R253). -/
def emitPacket (s : State) (c : Ctx) (off : Nat) (p : PacketIn) : State :=
  let pos := c.g.core / 16
  let todo := p.regions.filter fun r => heldAt s r off || (claimOwner s r).isSome
  let pkt : Packet :=
    { off, pos, gang := c.gk, lanes := c.on, seq := c.seq, svc := (crewD s c.gk).svc, nattr := p.nattr, abase := p.abase,
      verts := p.verts, tris := p.tris, attrs := none, todo }
  let s := markEmitted s (s.rend.geo.findIdx (· == pos)) off
  modRend s fun r =>
    { r with pkts := if todo.isEmpty then r.pkts else tabPut r.pkts c.seq pkt,
             sent := (todo.filter fun x => !heldAt s x off).foldl (fun t x => tabPut t x (max ((tabFind t x).getD 0) (off + 1))) r.sent }

/-- EMITM (R253, R343): once per bundle. -/
def execEmitm (h : Hdr) (a b : Reg) (s : State) : Host.Outcome State Fault Refusal :=
  runWord { hdr := h, names := [], reads := readsAll [{ file := .s, n := a.toNat }, { file := .s, n := b.toNat }],
            early := emitmEarly, wait := emitmWait a b,
            body := fun c s => match emitmReq s c a b with
              | .error t => trapPlan s (allTrap c t)
              | .ok (off, p) => { st := emitPacket s c off p, ends := allNext c, comp := .issue } } s

/-! ### Delivery and release (R253 to R255) -/

/-- Quads that have not been blended: those to launch, and those of crews and gangs that live. -/
def liveQuads (s : State) : List Quad :=
  s.rend.quads ++ (s.crews.flatMap fun (_, c) => if c.started then [] else c.pixel) ++ s.gangs.flatMap fun (_, g) => g.pixel

/-- Packets that nothing refers to any more are forgotten. -/
def sweepPackets (s : State) : State :=
  modRend s fun r =>
    { r with pkts := r.pkts.filter fun (k, p) =>
        !p.todo.isEmpty || r.wins.any (fun (_, w) => w.contains k) || (liveQuads s).any fun q => q.pkt == k }

/-- A component of an attribute block; one that cannot be read takes a free value (the spec names no result). -/
def attrWord (g : Agent) (s : State) (va : DWord) : State × Word :=
  match engRead s g va 4 with
  | .ok (s, _, bs) => (s, BitVec.ofNat 32 (natOfBytes bs))
  | .error _ => ({ s with free := s.free + 1 }, Config.freeWord (s.free * 16777216 + 9940000))

/-- Successive components. -/
def attrWords (g : Agent) (va : DWord) : Nat → State → State × List Word
  | 0, s => (s, [])
  | n + 1, s =>
    let r := attrWord g s va
    let q := attrWords g (va + 4) n r.1
    (q.1, r.2 :: q.2)

/-- The attribute blocks of a packet's vertices, read at their homes. -/
def readAttrs (g : Agent) (p : Packet) : State → List Vertex → State × List (List Word)
  | s, [] => (s, [])
  | s, v :: rest =>
    let r := attrWords g (p.abase + 16 * BitVec.ofNat 64 (p.nattr * v.aref)) (4 * p.nattr) s
    let q := readAttrs g p r.1 rest
    (q.1, r.2 :: q.2)

/-- A packet with its attributes, which are read after the emitting fibres' earlier stores have their home times; none while
they have not (R253). -/
def withAttrs (s : State) (k : Nat) (p : Packet) : Option State :=
  if p.nattr = 0 || p.attrs.isSome then some s
  else if !p.lanes.all fun l => relMet s p.gang l p.seq then none
  else
    let r := readAttrs (passAgent s p.pos) p s p.verts
    some (modRend r.1 fun x => { x with pkts := tabMod x.pkts k fun p => { p with attrs := some r.2 } })

/-- PACKET_DELIVERY (R252, R254): the packet reaches the windows of the regions that a die owns; regions without an owner
drop it. -/
def execPacketDelivery (pkt pos : Nat) (s : State) : Host.Outcome State Fault Refusal :=
  match tabFind s.rend.pkts pkt with
  | none => .next s
  | some p =>
    match withAttrs s pkt p with
    | none => .next s
    | some s =>
      let free := p.todo.filter fun r => !heldAt s r p.off
      let here := free.filter fun r => (claimOwner s r).map (·.1) == some pos && (winOf s r).length < 4096
      let lost := free.filter fun r => (claimOwner s r).isNone
      let s := countPart s (passPart s) (dieCounts pos) 60 (if here.isEmpty then 0 else 1)
      let s := modRend s fun x =>
        { x with pkts := tabMod x.pkts pkt fun p => { p with todo := p.todo.filter fun r => !here.contains r && !lost.contains r },
                 wins := here.foldl (fun w r => tabPut w r (((tabFind w r).getD []) ++ [pkt])) x.wins,
                 sent := here.foldl (fun t r => tabPut t r (max ((tabFind t r).getD 0) (p.off + 1))) x.sent }
      .next (sweepPackets s)

/-- A UMAX on a pixel's visibility word, or its drop (R261). In a window it settles as it is acknowledged, at a time that is
free. -/
def visUmax (pos region off m : Nat) (t : TriSetup) (s : State) (q : Nat × Nat) : State :=
  match engRmw s (passAgent s pos) (visAddr s q.1 q.2) .umax 8 (depthKey t q.1 q.2 * 4294967296 + primId off m) with
  | .error _ => modRend s fun r => { r with verr := true }
  | .ok (s, settle) =>
    let settle := settle.getD (s.time.now + (Config.freeBits (s.free * 16777216 + 9980000)).toNat)
    modRend { s with free := s.free + 1 } fun r => { r with settle := tabPut r.settle region (max ((tabFind r.settle region).getD 0) settle) }

/-- A micro-triangle entry (Table REND-5). -/
def microEntry (s : State) (t : TriSetup) (region off m : Nat) : List Byte :=
  let v := fun (x : Vertex) => bytesOfNat 4 (ofInt 32 x.x) ++ bytesOfNat 4 (ofInt 32 x.y) ++ bytesOfNat 4 x.z
  v t.a ++ v t.b ++ v t.c ++ bytesOfNat 4 (primId off m) ++ bytesOfNat 4 region ++ bytesOfNat 4 (passSeq0 s + off) ++ zeros 16

/-- A released triangle in visibility mode (R261). -/
def visTriangle (s : State) (own : Nat × Nat) (region off m : Nat) (t : TriSetup) : State :=
  if t.d < 512 * ((partOf s (passPart s)).rasThr : Int) then
    modRend (countPart s (passPart s) (dieCounts own.1) 62 1) fun r => { r with micro := r.micro ++
      [{ pos := own.1, queue := own.2, region, bytes := microEntry s t region off m, slot := none }] }
  else (coveredIn s t region).foldl (visUmax own.1 region off m t) (countPart s (passPart s) (dieCounts own.1) 61 1)

/-- Does a pixel survive ZTEST? A read that faults culls nothing (R261). -/
def ztest (pos : Nat) (t : TriSetup) (s : State) (x y : Nat) : State × Bool :=
  if !passZtest s then (s, true)
  else match engRead s (passAgent s pos) (visAddr s x y) 8 with
    | .error _ => (modRend s fun r => { r with verr := true }, true)
    | .ok (s, _, bs) => (s, natOfBytes (bs.drop 4) ≤ depthKey t x y)

/-- The coverage of a quad's four pixels after ZTEST. -/
def quadCover (pos : Nat) (t : TriSetup) (px : List (Nat × Nat)) (x y : Nat) (s : State) : State × BitVec 4 :=
  (List.range 4).foldl (fun (r : State × BitVec 4) i =>
    let q := (x + i % 2, y + i / 2)
    if px.contains q then
      let z := ztest pos t r.1 q.1 q.2
      (z.1, if z.2 then r.2 ||| (1#4 <<< i) else r.2)
    else r) (s, 0#4)

/-- A released triangle in blend mode: its quads are queued for pixel crews (R263). -/
def blendTriangle (s : State) (pos pkt region off m : Nat) (t : TriSetup) : State :=
  let s := countPart s (passPart s) (dieCounts pos) 61 1
  let px := coveredIn s t region
  let corners := (px.map fun q => (q.1 / 2 * 2, q.2 / 2 * 2)).eraseDups
  corners.foldl (fun s q =>
    let r := quadCover pos t px q.1 q.2 s
    if r.2 = 0 then r.1
    else modRend r.1 fun x => { x with quads := x.quads ++ [{ pkt, off, m, region, x := q.1, y := q.2, cover := r.2 }] }) s

/-- Every triangle of a released packet, in ascending index. -/
def releaseTris (s : State) (own : Nat × Nat) (pkt region : Nat) (p : Packet) : State :=
  (List.range p.tris.length).foldl (fun s m => match triSetup p m with
    | none => s
    | some t => if passVis s then visTriangle s own region p.off m t else blendTriangle s own.1 pkt region p.off m t) s

/-- Is a packet with a lower number still on its way to the region? -/
def earlierOnWay (s : State) (region off : Nat) : Bool :=
  s.rend.pkts.any fun (_, p) => p.off < off && p.todo.contains region

/-- The packet of a region's window with the lowest number. -/
def firstPacket (s : State) (region : Nat) : Option (Nat × Packet) :=
  (winOf s region).foldl (fun (best : Option (Nat × Packet)) k =>
    match tabFind s.rend.pkts k, best with
    | none, _ => best
    | some p, none => some (k, p)
    | some p, some b => if p.off < b.2.off then some (k, p) else some b) none

/-- PACKET_RELEASE (R255, R259 to R263): in ascending sequence order, below the horizon. -/
def execPacketRelease (region : Nat) (s : State) : Host.Outcome State Fault Refusal :=
  match firstPacket s region with
  | none => .next s
  | some (k, p) =>
    if horizonOff s ≤ p.off || earlierOnWay s region p.off then .next s
    else
      let s := modRend s fun r => { r with wins := tabPut r.wins region ((winOf s region).filter (· != k)) }
      match claimOwner s region with
      | none => .next (sweepPackets s)
      | some own => .next (sweepPackets (releaseTris s own k region p))

/-! ### Micro-triangle queues (R262) -/

/-- log2 of a die's entries per queue; none if it has no queue. -/
def microLogn (s : State) (pos : Nat) : Option Nat :=
  let n := (cfgGet s (cfgAddr pos 0x1104)).toNat % 16
  if 2 ≤ n && n ≤ 12 then some n else none

/-- What an RS address of the raster unit reaches: an allocation of a crew of the pass's partition. -/
def rsUnit (s : State) (addr n : Nat) : Option Nat :=
  s.crews.findSome? fun (_, c) =>
    if c.part = passPart s then (rsTarget s c addr n).map (·.1) else none

/-- The granules of a slot are empty. -/
def slotEmpty (s : State) (key : Nat) : Bool := (List.range 4).all fun i => granOf s (key / 16 + i) == .empty

/-- Entries that have been taken from their queue are forgotten. -/
def takenEntries (s : State) : State :=
  modRend s fun r => { r with micro := r.micro.filter fun e => match e.slot with
    | some key => !slotEmpty s key
    | none => true }

/-- The first entry of a queue still to be written. -/
def nextEntry (s : State) (pos queue : Nat) : Option MicroTri :=
  s.rend.micro.find? fun e => e.pos == pos && e.queue == queue && e.slot.isNone

/-- Replaces the first occurrence of an entry. -/
def replaceFirst (e : MicroTri) (f : Option MicroTri) : List MicroTri → List MicroTri
  | [] => []
  | x :: xs => if x = e then f.toList ++ xs else x :: replaceFirst e f xs

/-- The region number that marks an end entry. -/
def endRegion : Nat := 4096

/-- MICRO_TRIANGLE_ENQUEUE (R262): the next entry of a queue is written once its slot is empty; without a queue it is dropped,
and QERR is set for a triangle. -/
def execMicroTriangleEnqueue (pos queue : Nat) (s : State) : Host.Outcome State Fault Refusal :=
  let s := takenEntries s
  match nextEntry s pos queue with
  | none => .next s
  | some e =>
    let drop := modRend s fun r => { r with micro := replaceFirst e none r.micro, qerr := r.qerr || e.region != endRegion }
    match microLogn s pos with
    | none => .next drop
    | some n =>
      let k := (tabFind s.rend.microN (pos * 256 + queue)).getD 0
      let addr := (cfgGet s (cfgAddr pos 0x1100)).toNat + queue * 64 * 2 ^ n + 64 * (k % 2 ^ n)
      match rsUnit s addr 64 with
      | none => .next drop
      | some key =>
        if !slotEmpty s key then .next s
        else
          let s := (List.range 4).foldl (fun s i => landGran s (key + 16 * i) ((e.bytes.drop (16 * i)).take 16)) s
          .next (modRend s fun r =>
            { r with micro := replaceFirst e (some { e with slot := some key }) r.micro,
                     microN := tabPut r.microN (pos * 256 + queue) (k + 1) })

/-! ### Pixel gangs (R263 to R265) -/

/-- The quad of a lane of a pixel gang, with the lane's pixel. -/
def laneQuad (g : Gang) (l : Nat) : Option (Quad × Nat × Nat) :=
  (g.pixel[l / 4]?).map fun q => (q, q.x + l % 2, q.y + l / 2 % 2)

/-- Cause 0x01 in a gang that is not a pixel gang (R264, R342). -/
def pixelEarly (_ : State) (g : Gang) (_ : List Nat) : Option TrapInfo := if g.pixel.isEmpty then some (trapOf 0x01) else none

/-- One component of an attribute for a lane (R264). A lane without a quad takes a free value: the spec names none. -/
def ipaWord (s : State) (g : Gang) (flat : Bool) (k : Nat) (l : Nat) (index : Word) : Word :=
  match laneQuad g l with
  | none => Config.freeWord (s.free * 16777216 + 9950000 + l)
  | some (q, x, y) =>
    match tabFind s.rend.pkts q.pkt with
    | none => 0
    | some p =>
      match triOrder p q.m, triSetup p q.m with
      | some (a, b, c), some t =>
        if p.nattr ≤ index.toNat then 0
        else
          let at' := fun v => (((p.attrs.getD []).getD v []).getD (4 * index.toNat + k) 0)
          interpolate t flat x y (at' a) (at' b) (at' c)
      | _, _ => 0

/-- IPA (R264, R364). -/
def execIpa (h : Hdr) (flat : Bool) (k : BitVec 2) (d : Reg) (a : Opnd) (s : State) : Host.Outcome State Fault Refusal :=
  runWord { laneSpec h 8 { s := false, n := d } (opNames a 1) (opReads a 1)
              (fun s c l => (ipaWord s c.g flat k.toNat l (if a.s then rdU s c a else rd s c l a), 0#4)) with early := pixelEarly } s

/-- An export of a lane, unless its coverage is 0 or the target is disabled (R265). -/
def exportOf (s : State) (c : Ctx) (a : Reg) (tgt n l : Nat) : Option Fragment :=
  match laneQuad c.g l with
  | none => none
  | some (q, x, y) =>
    if !q.cover.getLsbD (l % 4) || (targetOf s tgt).isNone then none
    else
      let v := fun i => if i < n then readV s c.g l (a.toNat + i) else if i = 3 then 0x3F800000 else 0
      some { off := q.off, m := q.m, region := q.region, gang := c.gk, lane := l, seq := c.seq, x, y, tgt,
             val := (List.range 4).map v }

/-- EMITF (R265, R342). -/
def execEmitf (h : Hdr) (a : Reg) (tgt n : BitVec 3) (s : State) : Host.Outcome State Fault Refusal :=
  runWord { hdr := h, names := vNames a (n.toNat + 1), reads := readsAll (vReads a (n.toNat + 1)),
            early := fun s g ls => if 3 < n.toNat then some (trapOf 0x01) else pixelEarly s g ls, wait := noWait,
            body := fun c s =>
              let fs := c.on.filterMap (exportOf s c a tgt.toNat (n.toNat + 1))
              { st := modRend (countCrew s (crewOfGang c.gk) c.g.core 63 fs.length) fun r => { r with frags := r.frags ++ fs }, ends := allNext c, comp := .issue } } s

/-- A pixel crew of a region is launched on its owner's die, with as many of the region's first quads as one gang holds. -/
def launchPixels (s : State) (shift : Nat) (sh : Shift) (q : Quad) (pos : Nat) : State :=
  let r := recOf sh.record
  let n := needOf r
  let cores := (tabKeys s.cores).filter fun c => c / 16 == pos && coreServes s n sh.part c && pairFree s sh.part c && hasRoom s n c
  match leastLoaded s n cores with
  | none => forcePlace s (fun c => c / 16 == pos && coreServes s n sh.part c) (fun s => hasRoom s n) sh.part r.prio
  | some core =>
    if outranked s r.prio core then s else
    let mine := (s.rend.quads.filter fun x => x.region == q.region).take (r.gw / 4)
    let s := modRend s fun x => { x with quads := x.quads.filter fun y => !mine.contains y }
    let ck := s.nextId
    let c : Crew := { newCrew s shift sh core 0 with pixel := mine, x := 0, y := 0, z := 0 }
    let c := { c with wasStopped := sessionWaits s c }
    let s := takePair s sh.part core
    let s := { s with crews := tabPut s.crews ck c, nextId := s.nextId + 1, free := s.free + 1 }
    traceCrew s ck 4 0 0 0

/-- The pixel shift's next crew. -/
def dispatchPixels (s : State) (shift : Nat) (sh : Shift) : State :=
  match s.rend.quads with
  | [] => s
  | q :: _ =>
    match claimOwner s q.region with
    | none => modRend s fun r => { r with quads := r.quads.filter fun x => x.region != q.region }
    | some (pos, _) => if (partOf s sh.part).susp then s else launchPixels s shift sh q pos

/-- CREW_DISPATCH (R70, R72, R263). -/
def execCrewDispatch (shift : Nat) (s : State) : Host.Outcome State Fault Refusal :=
  match tabFind s.sched.shifts shift with
  | none => .next s
  | some sh => .next (if sh.src == .pixel then dispatchPixels s shift sh else dispatchShift s shift sh)

/-! ### Blends (R256, R257, R265, R266) -/

/-- Is order key (a, b) below (c, d)? -/
def keyLt (a b c d : Nat) : Bool := a < c || (a == c && b < d)

/-- Has the fibre of an export ended? -/
def fibreEnded (s : State) (f : Fragment) : Bool :=
  match gangOf s f.gang with
  | none => true
  | some g => (tabFind g.fibres f.lane).isNone

/-- Does a quad with a lower key still cover the pixel? -/
def pixelBusy (s : State) (f : Fragment) : Bool :=
  (liveQuads s).any fun q => keyLt q.off q.m f.off f.m && q.x ≤ f.x && f.x ≤ q.x + 1 && q.y ≤ f.y && f.y ≤ q.y + 1 &&
    q.cover.getLsbD (f.x - q.x + 2 * (f.y - q.y))

/-- The first export of a pixel in primitive order, and of one fibre in issue order. -/
def firstFragment (s : State) (x y : Nat) : Option Fragment :=
  (s.rend.frags.filter fun f => f.x == x && f.y == y).foldl (fun (best : Option Fragment) f => match best with
    | none => some f
    | some b => if keyLt f.off f.m b.off b.m || (f.off = b.off && f.m = b.m && f.seq < b.seq) then some f else some b) none

/-- The key of a byte of a region cache. -/
def rcKey (region pa : Nat) : Nat := region * 281474976710656 + pa

/-- The bytes of a target as the region's cache, or else memory, holds them. -/
def rcRead (s : State) (region pa n : Nat) : List Byte :=
  (anyRead s pa n).zipIdx.map fun x => (tabFind s.rend.rcache (rcKey region (pa + x.2))).getD x.1

/-- A blend into the region cache; an access that faults drops it. -/
def blendInto (s : State) (pos : Nat) (f : Fragment) (t : Target) : State :=
  let va := pixelAddr t f.x f.y
  let n := pixelBytes t.fmt
  match engXl s (passAgent s pos) .write va with
  | .error _ => s
  | .ok (s, xl) =>
    if isPeer xl.pa || readsPoison s xl.pa n then s
    else
      let free := fun k => (Config.freeBits (s.free * 16777216 + 9960000 + k)).toNat % 256
      let bs := blendBytes t f.val (rcRead s f.region xl.pa n) free
      let s := countPart { s with free := s.free + 1 } (passPart s) (dieCounts pos) 64 1
      modRend s fun r => { r with rcache := bs.zipIdx.foldl (fun m x => tabPut m (rcKey f.region (xl.pa + x.2)) x.1) r.rcache }

/-- FRAGMENT_BLEND (R256, R265, R266): the next export of a pixel, once its fibre has ended and no earlier primitive is still
to be applied there. -/
def execFragmentBlend (x y : Nat) (s : State) : Host.Outcome State Fault Refusal :=
  match firstFragment s x y with
  | none => .next s
  | some f =>
    if !fibreEnded s f || pixelBusy s f then .next s
    else
      let s := modRend s fun r => { r with frags := r.frags.filter (· != f) }
      match claimOwner s f.region, targetOf s f.tgt with
      | some (pos, _), some t => .next (blendInto s pos f t)
      | _, _ => .next s

/-- Bytes of the region caches that satisfy a test are written to memory. -/
def writeBack' (s : State) (p : Nat → Nat → Bool) : State :=
  let out := s.rend.rcache.filter fun (k, _) => p (k / 281474976710656) (k % 281474976710656)
  let s := modRend s fun r => { r with rcache := r.rcache.filter fun (k, _) => !p (k / 281474976710656) (k % 281474976710656) }
  out.foldl (fun s (k, b) =>
    let pa := k % 281474976710656
    let region := k / 281474976710656
    if isHost pa then busWrite s (hostBus pa) [b]
    else if partlyPoison s pa 1 then s
    else
      let s := homeWrite (recallRange s pa 1) pa [b]
      let t := settleNow s pa 1
      modRend s fun r => { r with settle := tabPut r.settle region (max ((tabFind r.settle region).getD 0) t) }) s

/-- REGION_CACHE_EVICTION (R257): a line leaves the region caches. -/
def execRegionCacheEviction (line : Nat) (s : State) : Host.Outcome State Fault Refusal :=
  .next (writeBack' s fun _ pa => pa / 128 == line)

/-! ### Flushes and the close (R250, R258, R424) -/

/-- A write to CFG.RFLUSH: a GO that starts no flush changes nothing. -/
def flushWrite (v : Word) (s : State) : State :=
  if v.getLsbD 31 then
    if !s.rend.passOpen || s.rend.flushing then s
    else
      let region := v.toNat % 4096
      let c := max (horizonOff s) ((tabFind s.rend.sent region).getD 0)
      modRend (cfgSet s (cfgAddr 0 0x1014) (v &&& 0xFFF)) fun r =>
        { r with flushing := true, fdone := r.fdone && !v.getLsbD 30, flushRegion := region,
                 cut := BitVec.ofNat 32 (passSeq0 s + c), held := tabPut r.held region (c, false) }
  else modRend (cfgSet s (cfgAddr 0 0x1014) (v &&& 0xFFF)) fun r => { r with fdone := r.fdone && !v.getLsbD 30 }

/-- REGION_FLUSH_GO (R258). -/
def execRegionFlushGo (v : Word) (s : State) : Host.Outcome State Fault Refusal := .next (flushWrite (v ||| 0x80000000) s)

/-- Has every primitive with an offset below `cut` of the regions that satisfy a test been blended, and have its crews ended
(R258, R424)? -/
def regionsQuiet (s : State) (p : Nat → Bool) (cut : Nat) : Bool :=
  !(s.rend.pkts.any fun (_, k) => k.off < cut && k.todo.any p) &&
    (s.rend.wins.all fun (r, w) => !p r || w.all fun k => match tabFind s.rend.pkts k with
      | some x => cut ≤ x.off
      | none => true) &&
    ((liveQuads s).all fun q => !p q.region || cut ≤ q.off) &&
    (s.crews.all fun (_, c) => c.pixel.all fun q => !p q.region || cut ≤ q.off) && (s.rend.frags.all fun f => !p f.region || cut ≤ f.off) &&
    s.rend.micro.all fun e => !p e.region

/-- Have the writes of the regions that satisfy a test settled? -/
def regionsSettled (s : State) (p : Nat → Bool) : Bool := s.rend.settle.all fun (r, t) => !p r || timeReached s t

/-- Are bytes of such regions still cached? -/
def regionsDirty (s : State) (p : Nat → Bool) : Bool := s.rend.rcache.any fun (k, _) => p (k / 281474976710656)

/-- REGION_FLUSH_COMPLETION (R258): the region's lines are written, and once they have settled the flush is done; the region
stays held. -/
def execRegionFlushCompletion (s : State) : Host.Outcome State Fault Refusal :=
  let s := takenEntries s
  let region := s.rend.flushRegion
  let p := fun r => r == region
  match tabFind s.rend.held region with
  | none => .next s
  | some (c, _) =>
    if !s.rend.flushing || horizonOff s < c || !regionsQuiet s p c then .next s
    else if regionsDirty s p then .next (writeBack' s fun r _ => p r)
    else if !regionsSettled s p then .next s
    else .next (modRend s fun r => { r with flushing := false, fdone := true, held := tabPut r.held region (c, true) })

/-- An end entry for every queue that a claim of the pass has named, on the dies that still serve it (R262). -/
def endEntries (s : State) : List MicroTri :=
  let s := (List.range 4096).foldl noteQueue s
  let qs := (tabKeys s.rend.microN).map fun k => (k / 256, k % 256)
  (qs.filter fun q => dieServes s .shading (passPart s) q.1 && (microLogn s q.1).isSome).map fun q =>
    { pos := q.1, queue := q.2, region := endRegion, bytes := zeros 40 ++ bytesOfNat 4 0x80000000 ++ zeros 20, slot := none }

/-- PASS_CLOSE_COMPLETION (R250, R262): the horizon has reached SEQE, every region is complete as after a flush, a flush
that runs has ended, and every queue has its end entry. -/
def execPassCloseCompletion (s : State) : Host.Outcome State Fault Refusal :=
  let s := takenEntries s
  let all := fun (r : Nat) => r != endRegion
  if !s.rend.closing || s.rend.flushing || horizonOff s < passLen s || !regionsQuiet s all 4294967296 then .next s
  else if regionsDirty s all then .next (writeBack' s fun r _ => all r)
  else if !regionsSettled s all then .next s
  else if !s.rend.ended then .next (modRend s fun r => { r with ended := true, micro := r.micro ++ endEntries s })
  else if s.rend.micro.any fun e => e.slot.isNone then .next s
  else
    let s := { s with sched := { s.sched with shifts := s.sched.shifts.filter fun (_, x) => x.src != .pixel } }
    .next (modRend s fun r =>
      { r with passOpen := false, closing := false, done := true, flushing := false, held := [], micro := [], wins := [], pkts := [] })

/-- CFG.HZN as it reads. -/
def horizonWord (s : State) : Word := if s.rend.geo.isEmpty then 0 else BitVec.ofNat 32 (s.rend.seq0 + horizonOff s)

/-- CFG.RPASS as it reads. -/
def passStatus (s : State) : Word :=
  let r := s.rend
  BitVec.ofNat 32 (passReg s 0x1000 + (if r.passOpen then 2147483648 else 0) + (if r.done then 1073741824 else 0) +
    (if r.qerr then 524288 else 0) + (if r.verr then 262144 else 0))

/-- CFG.RFLUSH as it reads. -/
def flushStatus (s : State) : Word :=
  BitVec.ofNat 32 (passReg s 0x1014 + (if s.rend.flushing then 2147483648 else 0) + (if s.rend.fdone then 1073741824 else 0))

end Sys2Proof.Machine
end

