-- ==== Sys2Proof/Machine/Package.lean ====
section
/-! DEFINITION. The package: its start and its resets (R22 to R30), canaries, stack levels, trips and links (R13, R14, R32 to
R35), the slope register and power samples (R36, R39, R40), the column bank's transfers, retirement and backfill (R155 to R159,
R293), scrubs and power gating (R151, R160). -/

namespace Sys2Proof.Machine

/-! ### Positions -/

/-- Changes a core. -/
def modCore (s : State) (core : Nat) (f : Core → Core) : State := { s with cores := tabMod s.cores core f }

/-- The neighbour of a position on a side: 0 north, 1 east, 2 south, 3 west. -/
def neighbour (pos side : Nat) : Option Nat :=
  if side = 0 then (if 7 ≤ pos then some (pos - 7) else none)
  else if side = 1 then (if pos % 7 < 6 then some (pos + 1) else none)
  else if side = 2 then (if pos < 21 then some (pos + 7) else none)
  else if side = 3 then (if 0 < pos % 7 then some (pos - 1) else none)
  else none

/-- The state of a link (Table PKG-5). -/
def linkState (links : BitVec 8) (side : Nat) : Nat := links.toNat / 4 ^ side % 4

/-- CFG.LINKS with the state of one link changed. -/
def setLink (links : BitVec 8) (side v : Nat) : BitVec 8 :=
  BitVec.ofNat 8 (links.toNat - linkState links side * 4 ^ side + v % 4 * 4 ^ side)

/-- Links in training come up. -/
def trainLinks (links : BitVec 8) : BitVec 8 :=
  (List.range 4).foldl (fun l k => if linkState l k = 3 then setLink l k 1 else l) links

/-- Positions next to one over trained links. -/
def linked (s : State) (pos : Nat) : List Nat :=
  match tabFind s.dies pos with
  | none => []
  | some d => (List.range 4).filterMap fun k => if linkState d.links k = 1 then neighbour pos k else none

/-- Positions with a route to position 0, by so many rounds. -/
def reachable (s : State) : Nat → List Nat → List Nat
  | 0, l => l
  | n + 1, l => reachable s n ((l ++ l.flatMap (linked s)).eraseDups)

/-! ### Reset and start (R22 to R30) -/

/-- The default slope of a die (Table PKG-10). -/
def slopeOf (m : Manifest) (pos : Nat) : BitVec 8 := spGet 0x10#8 m.slope pos

/-- A die as a reset leaves it: what it is physically, with its registers at their reset values. -/
def freshDie (dies : Tab Die) (m : Manifest) (pos : Nat) (d : Die) : Die :=
  { newDie d.kind (resetLinks (fun p => ((tabFind dies p).map (·.kind)).getD .none) pos) with
    dieRev := d.dieRev, baseRev := d.baseRev, test := d.test, llcPass := d.llcPass, chanPass := d.chanPass, bankPass := d.bankPass,
    temp := d.temp,
    slope := slopeOf m pos }

/-- A core as a reset leaves it: its self-test results stand, whatever the manifest has disabled. -/
def freshCore (kind : DieKind) (c : Core) : Core :=
  { newCore kind with pipePass := c.pipePass, engPass := c.engPass, texPass := c.texPass, rayPass := c.rayPass,
                      pipe := c.pipePass, eng := c.engPass, tex := c.texPass, ray := c.rayPass }

/-- A package reset (R30): a power-on reset that keeps the flash. -/
def packageReset (s : State) : State :=
  let dies := tabMap s.dies (freshDie s.dies s.flash.manifest)
  let cores := tabMap s.cores fun k c => freshCore (kindAt s (k / 16)) c
  { State.fresh dies cores s.flash s.hostMem s.agenda s.free s.nextId with hostHoles := s.hostHoles }

/-- A failed start, up to the next one (R26): a boot-log record, one more failure, a package reset. -/
def failedReset (s : State) (cause : BitVec 8) (detail : Nat) : State :=
  let f := s.flash
  packageReset { s with flash := { f with log := f.log ++ [{ cause, detail }], fails := min 255 (f.fails + 1) } }

/-- The units of a die that are in service: those that pass and that the manifest does not disable (R18, R20, R22). -/
def startHealth (m : Manifest) (cores : Tab Core) (pos : Nat) (d : Die) : BitVec 32 :=
  let off := spGet 0#32 m.offHealth pos
  let up := fun k c => (slicesOf k (((tabFind cores (coreKey pos c)).getD (newCore k)))).isEmpty
  let bit := fun (b : Bool) (n : Nat) => if b then 1#32 <<< n else 0#32
  let cores := fun k n => (List.range n).foldl (fun h c => h ||| bit (!up k c) c) 0#32
  match d.kind with
  | .none => 0
  | .memory => d.llcPass &&& ~~~off
  | .geometry => cores .geometry 16 &&& ~~~off
  | .shading => (cores .shading 8 ||| (d.bankPass.zeroExtend 32 <<< 8)) &&& ~~~off

/-- A core's units after the manifest's masks: those that pass and that it does not disable (R20, R22). -/
def maskCore (m : Manifest) (key : Nat) (c : Core) : Core :=
  let off := spGet 0#32 m.offCore key
  { c with pipe := c.pipePass &&& ~~~(off.extractLsb' 0 18), eng := c.engPass &&& ~~~(off.extractLsb' 18 6),
           tex := c.texPass &&& ~~~(spGet 0#6 m.offTex key), ray := c.rayPass &&& ~~~(off.extractLsb' 30 2) }

/-- Is a die in service after its self-test (R23)? -/
def startsUp (d : Die) : Bool :=
  match d.kind with
  | .none => false
  | .memory => d.health != 0 && d.chan != 0
  | .geometry => d.health.extractLsb' 0 16 != 0
  | .shading => d.health.extractLsb' 0 8 != 0

/-- Step 3 of R25: each base tile tests itself and its die and fills its health registers. -/
def testDie (m : Manifest) (cores : Tab Core) (pos : Nat) (d : Die) : Die :=
  let d := { d with health := startHealth m cores pos d, chan := d.chanPass &&& ~~~(spGet 0#24 m.offChan pos) }
  { d with inService := startsUp d, whole := startsUp d }

/-- A column bank at the start: a core whose bank is out of service has no bus. -/
def startBank (dies : Tab Die) (key : Nat) (c : Core) : Core :=
  match tabFind dies (key / 16) with
  | some d =>
    if d.kind = .shading && !d.health.getLsbD (8 + key % 16) then { c with vbus := 0, mapBuses := 0, fill := .gone } else c
  | none => c

/-- Steps 2 and 3 of R25. -/
def bringUp (s : State) : State :=
  let m := s.flash.manifest
  let cores := tabMap s.cores (maskCore m)
  let dies := tabMap s.dies fun p d => testDie m cores p { d with links := trainLinks d.links, slope := slopeOf m p }
  { s with dies, cores := tabMap cores (startBank dies) }

/-- The lowest core in service on the lowest shading position in service. -/
def firstCore (s : State) : Option Nat :=
  (tabKeys s.cores).find? fun c => kindAt s (c / 16) == .shading && !(coreSlices s c).isEmpty

/-- Every granule of the dies in service goes to a partition, which is enabled: what the root of trust sets up for the service
crew (notes/assumptions/3.md). -/
def grantAll (s : State) (p : Nat) : State :=
  let s := s.dies.foldl (fun s (pos, d) =>
    let word : Word := if d.kind = .memory then 0x80000000#32 ||| BitVec.ofNat 32 p else 1#32 <<< p
    let offs := match d.kind with
      | .memory => (List.range 8).map (0x280 + 4 * ·) ++ (List.range 3).map (0x2A0 + 4 * ·)
      | .shading => (List.range 4).map (0x280 + 4 * ·)
      | .geometry => (List.range 8).map (0x280 + 4 * ·)
      | .none => []
    if d.inService then offs.foldl (fun s o => cfgSet s (cfgAddr pos o) word) s else s) s
  modPart s p fun x => { x with enabled := true }

/-- The service crew's shift record: the first 256 bytes of the first firmware image (notes/assumptions/6.md). -/
def serviceRecord (f : FlashSt) : List Byte := fitBytes 256 ((f.images.head?.map (·.body)).getD [])

/-- Step 4 of R25: the service crew starts from the record in its image; the code of Table EXEC-6 if it is rejected. DESIGN CHOICE:
a record that R64 accepts and that the first healthy core cannot take fails the start with detail 5
(notes/assumptions/89.md). -/
def startService (s : State) : Except Nat State :=
  let bs := serviceRecord s.flash
  let r := recOf bs
  let s := grantAll s (r.part % 24)
  match rejectCode s r.part (r.part < 24) bs with
  | some code => .error code
  | none =>
    match firstCore s with
    | none => .error 5
    | some core =>
      if !coreServes s (needOf r) r.part core || !hasRoom s (needOf r) core then .error 5
      else
        let id := s.nextId
        let sh : Shift :=
          { record := bs, src := .svc, part := r.part, st := .admitted, depMet := r.depOp == 0, depPa := 0xFFFFFFFFFFFF,
            depWake := false, dtMet := r.startDt == 0, next := 0, retired := 0, settle := 0, acks := [] }
        let s := { s with nextId := id + 1, sched := { s.sched with shifts := tabPut s.sched.shifts id sh } }
        .ok (launchCrew (traceShift s 1 r.part r.shiftId) id sh core)

/-- The positions on a shortest route between two positions, both included: along trained links. -/
def routeTo (s : State) (from' : Nat) : Nat → Nat → List Nat
  | 0, _ => []
  | n + 1, dest =>
    if dest = from' then [dest]
    else
      let near := fun k => reachable s k [from']
      match (linked s dest).find? fun p => (near n).contains p with
      | some p => dest :: routeTo s from' n p
      | none => []

/-- The length of a shortest route from position 0. -/
def routeLen (s : State) (dest : Nat) : Nat := ((List.range 28).find? fun k => (reachable s k [0]).contains dest).getD 27

/-- A start in refuge mode (R27): base tile 0, the first shading die that passes, and the tiles on the way. DESIGN CHOICE: the
manifest's masks apply and the service crew starts whether or not the flash verifies, and a record that is rejected leaves
refuge mode without a crew (notes/assumptions/90.md); the links of the tiles that stay up read as trained towards powered-down
neighbours too (notes/assumptions/91.md). -/
def startRefuge (s : State) : State :=
  let s := bringUp s
  let pick := (s.dies.find? fun (_, d) => d.kind == .shading && d.test == 0 && d.inService).map (·.1)
  let route := match pick with
    | some p => routeTo s 0 (routeLen s p) p
    | none => [0]
  let dies := tabMap s.dies fun p (d : Die) =>
    if some p = pick then d
    else { d with inService := false, whole := false, health := 0, chan := 0, links := if p = 0 || route.contains p then d.links else 0 }
  let s := { s with dies, boot := { s.boot with refuge := true, refugePos := pick } }
  match startService s with
  | .ok t => t
  | .error _ => s

/-- Does a link that the manifest requires fail to be up? -/
def linkDown (s : State) (x : Nat × Nat) : Bool := match tabFind s.dies x.1 with
  | some d => linkState d.links x.2 != 1
  | none => true

/-- The manifest requires a link that has not come up. -/
def linkMissing (s : State) : Option (Nat × Nat) := s.flash.manifest.links.find? (linkDown s)

/-- Is some memory die in service? -/
def memoryUp (s : State) : Bool := s.dies.any fun (_, d) => d.kind == .memory && d.inService

/-- The manifest's bytes (R22): their layout is uninterpreted, and they hold every number that the model keeps of it. -/
def manifestBytes (m : Manifest) : List Byte :=
  let nums := fun {w : Nat} (l : List (Nat × BitVec w)) => l.length :: l.flatMap fun x => [x.1, x.2.toNat]
  let bytes := fun (l : List Byte) => l.length :: l.map (·.toNat)
  Config.manifestImage (bytes m.product ++ bytes m.binding ++ [m.throttle, m.trip] ++ nums m.kinds ++ nums m.minDie ++
    nums m.minBase ++ nums m.offHealth ++ nums m.offChan ++ nums m.offCore ++ nums m.offTex ++ nums m.slope ++
    m.links.flatMap fun x => [x.1, x.2])

/-- Does every firmware image verify under the key in the ROM (R25, R310)? -/
def imagesOk (f : FlashSt) : Bool := f.images.all fun i => Config.verify Config.romKey i.body i.sig

/-- Does the manifest verify under the key in the ROM (R25, R310)? -/
def manifestOk (f : FlashSt) : Bool := Config.verify Config.romKey (manifestBytes f.manifest) f.manifest.sig

/-- A start as it begins: what CFG.REFUGE is to read, and the watchdog (R26, R28). -/
def startBegun (s : State) : State :=
  let f := s.flash
  let cause := if 3 ≤ f.fails then ((f.log.getLast?).map (·.cause)).getD 0 else 0
  { s with boot := { s.boot with started := true, startAt := s.time.now, cause, fails := f.fails } }

/-- One start (R25, R27): the machine with its service crew, or the state, cause and detail with which it fails. DESIGN CHOICE: the
images are verified before the manifest, so that cause 0x01 is recorded where both fail (notes/assumptions/88.md). -/
def startOnce (s : State) : Except (State × BitVec 8 × Nat) State :=
  let s := startBegun s
  if 3 ≤ s.flash.fails then .ok (startRefuge s)
  else if !imagesOk s.flash then .error (s, 0x01, 0)
  else if !manifestOk s.flash then .error (s, 0x02, 0)
  else
    let s := bringUp s
    match linkMissing s with
    | some x => .error (s, 0x04, x.1)
    | none =>
      if !memoryUp s then .error (s, 0x06, 0)
      else if (firstCore s).isNone then .error (s, 0x05, 0)
      else match startService s with
        | .ok t => .ok t
        | .error code => .error (s, 0xFF, code)

/-- Starts follow each other at once until one does not fail (R26): the fourth, in refuge mode, at the latest. -/
def runStarts : Nat → State → State
  | 0, s => s
  | n + 1, s => match startOnce s with
    | .ok t => t
    | .error (t, cause, detail) => runStarts n (failedReset t cause detail)

/-- A start begins (R25, R26). -/
def beginStart (s : State) : State := runStarts 4 s

/-- A start fails, and a new one begins at once (R26). -/
def failStart (s : State) (cause : BitVec 8) (detail : Nat) : State := beginStart (failedReset s cause detail)

/-- POWER_ON (R25): the start of a package that has not started; else an external module reset, with which a start begins. -/
def execPowerOn (s : State) : Host.Outcome State Fault Refusal :=
  .next (beginStart (if s.boot.started then packageReset s else s))

/-- Is a start under way that has not been marked successful? -/
def starting (s : State) : Bool := s.boot.started && !s.boot.ok && !s.boot.refuge

/-- BOOT_WATCHDOG_EXPIRY (R26): 20 s of device time without CFG.BOOTOK. -/
def execBootWatchdogExpiry (s : State) : Host.Outcome State Fault Refusal :=
  .next (if starting s && timeReached s (s.boot.startAt + 20000000000) then failStart s 0x07 0 else s)

/-- Does a position disagree with the manifest (R23)? -/
def disagrees (s : State) (pos : Nat) : Bool :=
  let m := s.flash.manifest
  spGet 0#2 m.kinds pos != kindBits (kindAt s pos) || match tabFind s.dies pos with
    | some d => d.dieRev.toNat < (spGet 0#8 m.minDie pos).toNat || d.baseRev.toNat < (spGet 0#8 m.minBase pos).toNat
    | none => false

/-- What the boot log names of a disagreement (R23): the position, and the revisions found there, from bits 8 and 16 up. -/
def foundAt (s : State) (pos : Nat) : Nat :=
  match tabFind s.dies pos with
  | some d => pos + 256 * d.dieRev.toNat + 65536 * d.baseRev.toNat
  | none => pos

/-- Does the condition of a cause of Table PKG-8 hold? A power trip (0x08), the derivation of the identity (0x09) and causes that
only the boot log names (0xFF) show themselves in the event alone; 0x00 and the reserved codes are no causes. -/
def causeHolds (s : State) (cause : BitVec 8) (detail : Nat) : Bool :=
  match cause.toNat with
  | 0x01 => !imagesOk s.flash
  | 0x02 => !manifestOk s.flash
  | 0x03 => disagrees s detail
  | 0x04 => s.flash.manifest.links.any fun x => x.1 == detail && linkDown s x
  | 0x05 => (firstCore s).isNone
  | 0x06 => !memoryUp s
  | 0x07 => timeReached s (s.boot.startAt + 20000000000)
  | 0x08 | 0x09 | 0xFF => true
  | _ => false

/-- FAILED_START (R23, R26, R29): a step of the start fails, with a cause that holds. -/
def execFailedStart (cause : BitVec 8) (detail : Nat) (s : State) : Host.Outcome State Fault Refusal :=
  .next (if starting s && causeHolds s cause detail then
    failStart s cause (if cause = 0x03 then foundAt s detail else detail) else s)

/-- The first position that disagrees with the manifest. -/
def firstDisagreement (s : State) : Option Nat := (List.range 28).find? (disagrees s)

/-- A write to CFG.BOOTOK (R26): it marks the start successful, unless the enumeration disagrees with the manifest, which fails
it (R23). -/
def bootokWrite (v : Word) (s : State) : State :=
  if v.getLsbD 0 && s.boot.started && !s.boot.refuge then
    match if starting s then firstDisagreement s else none with
    | some pos => failStart s 0x03 (foundAt s pos)
    | none => { s with boot := { s.boot with ok := true }, flash := { s.flash with fails := 0 } }
  else s

/-- CFG_BOOTOK_WRITE (R26). -/
def execCfgBootokWrite (v : Word) (s : State) : Host.Outcome State Fault Refusal := .next (bootokWrite v s)

/-- A write to CFG.BOOTCTL (R30): in refuge mode the package is reset, and a new start begins at once. -/
def bootctlWrite (v : Word) (s : State) : State :=
  if v.getLsbD 0 && s.boot.refuge then beginStart (packageReset { s with flash := { s.flash with fails := 0 } }) else s

/-- CFG_BOOTCTL_WRITE (R30). -/
def execCfgBootctlWrite (v : Word) (s : State) : Host.Outcome State Fault Refusal := .next (bootctlWrite v s)

/-- FIRMWARE_IMAGE_INSTALL (R30): in refuge mode, corrected images or a corrected manifest. -/
def execFirmwareImageInstall (i : Install) (s : State) : Host.Outcome State Fault Refusal :=
  if !s.boot.refuge then .next s
  else match i with
    | .images is => .next { s with flash := { s.flash with images := is } }
    | .manifest m => .next { s with flash := { s.flash with manifest := m } }

/-- A write to CFG.SLOPE (R36). -/
def slopeWrite (pos : Nat) (v : Word) (s : State) : State :=
  modDie s pos fun d => { d with slope := BitVec.ofNat 8 (max 1 (min 100 (v.toNat % 256))) }

/-- CFG_SLOPE_WRITE (R36). -/
def execCfgSlopeWrite (pos : Nat) (v : Word) (s : State) : Host.Outcome State Fault Refusal := .next (slopeWrite pos v s)

/-! ### Canaries and stack levels (R31 to R33) -/

/-- CANARY_WARNING (R32). -/
def execCanaryWarning (pos core : Nat) (s : State) : Host.Outcome State Fault Refusal :=
  let key := coreKey pos core
  match tabFind s.cores key with
  | none => .next s
  | some c =>
    let n := min 0xFFFF (c.canaryEvents + 1)
    let s := modCore s key fun c =>
      { c with canary := min 4 (c.canary + 1), canaryPend := true, canaryEvents := n, canaryAt := s.time.now }
    .next (if c.canary = 4 then raiseEvent s 0x07 pos core n 0 else s)

/-- CANARY_DECAY (R32): 10 ms without a warning. DESIGN CHOICE: each further fall takes another 10 ms without a warning
(notes/assumptions/92.md). -/
def execCanaryDecay (pos core : Nat) (s : State) : Host.Outcome State Fault Refusal :=
  .next (modCore s (coreKey pos core) fun c =>
    if c.canary ≠ 0 && timeReached s (c.canaryAt + 10000000) then { c with canary := c.canary - 1, canaryAt := s.time.now }
    else c)

/-- The power limit of a die in mW (Table PKG-2). -/
def powerLimit : DieKind → Nat
  | .none => 0
  | .shading => 620000
  | .geometry => 350000
  | .memory => 260000

/-- The power limit of a base tile in mW (Table PKG-2). -/
def tileLimit : Nat := 40000

/-- The rating of the module in mW (Table PKG-2). -/
def moduleRating : Nat := 15000000

/-- What the dies and base tiles of a mix draw at most, in mW (R11). -/
def mixLimit (x : Mix) : Nat :=
  ((List.range 28).map fun p => if x.kind p = .none then 0 else powerLimit (x.kind p) + tileLimit).sum

/-- The next stack level (R33). -/
def nextLevel (k : DieKind) (throttle temp mw level : Nat) : Nat :=
  if throttle ≤ temp || powerLimit k < mw then min 14 (level + 1)
  else if temp + 5 ≤ throttle && mw * 100 ≤ powerLimit k * 95 then level - 1
  else level

/-- STACK_LEVEL_EVALUATION (R33): once at a multiple of 100 µs, with the hottest sensor of the die and the hottest below it in its
stack; the average is that of the last power sample. -/
def execStackLevelEvaluation (pos temp below : Nat) (s : State) : Host.Outcome State Fault Refusal :=
  if s.time.now % 100000 ≠ 0 then .next s
  else .next (modDie s pos fun d =>
    let temp := max temp below
    if (d.kind = .shading || d.kind = .geometry) && d.evalAt != some s.time.now then
      let l := nextLevel d.kind s.flash.manifest.throttle temp d.mw d.level
      { d with level := l, temp, stepped := d.stepped || l != d.level, evalAt := some s.time.now }
    else d)

/-! ### Loss of a memory die (R35) -/

/-- The partitions that own an LLC group or a channel group of a die. -/
def dieOwners (s : State) (pos : Nat) : List Nat :=
  ((List.range 8).map (0x280 + 4 * ·) ++ (List.range 3).map (0x2A0 + 4 * ·)).filterMap (fun o =>
    ownerWord (cfgGet s (cfgAddr pos o))) |>.eraseDups

/-- A saved crew is discarded with a fault report. -/
def discardSaved (s : State) (ck : Nat) (c : Crew) : State :=
  retireCrew (countRetired (haltReport s ck c (.lost 0x0F)) ck c) ck

/-- A partition fails (R35). -/
def failPart (s : State) (p : Nat) : State :=
  let s := modPart s p fun x => { x with failed := true }
  let crews := s.crews.filter fun (_, c) => c.part == p
  let s := crews.foldl (fun s (k, c) => if crewSaved c then discardSaved s k c else modCrew s k (askHalt (.lost 0x0F))) s
  let early := s.sched.shifts.filter fun (_, sh) => sh.part == p && sh.st == .admitted && sh.src != .pixel
  let s := early.foldl (fun s (k, sh) => rejectShift s k sh 0x0B) s
  { s with convs := s.convs.filter fun (_, v) => v.part != p }

/-- Is a line homed in a slice of a position (R148)? -/
def homedAt (s : State) (pos line : Nat) : Bool := (homeOf s line).map (· / 32) == some pos

/-- What the slices of a lost die held: the leases and monitors of the lines homed there. A fibre asleep on such a monitor wakes, and
its read meets cause 0x0F. -/
def loseHomes (s : State) (pos : Nat) : State :=
  let lost := homedAt s pos
  let lines := (s.cache.dir.filter fun (k, _) => lost k).map (·.1)
  let s := lines.foldl returnLine s
  { s with cache := { s.cache with
      dir := s.cache.dir.filter fun (k, _) => !lost k, l1 := s.cache.l1.filter fun x => !lost x.line,
      mons := tabMap s.cache.mons fun _ (m : Monitor) => if lost (m.pa / 128) then { m with woken := true } else m } }

/-- Dirty lines of a lost die's slices are lost (R35): which of the lines homed there were dirty, and what the memory behind them
holds instead, is left open, so that every byte written there takes a free value. -/
def loseDirty (s : State) (pos : Nat) : State :=
  let cells := s.mem.filter fun c => homedAt s pos (c.1 / 128)
  { s with mem := (cells.zipIdx).foldl (fun m (c, i) =>
             spSet 0#8 m c.1 ((Config.freeBits (s.free * 16777216 + i)).truncate 8)) s.mem,
           free := s.free + cells.length / 16777216 + 1 }

/-- A memory die goes out of service until the next start (R35). -/
def loseMemory (s : State) (pos : Nat) : State :=
  let temp := ((tabFind s.dies pos).map (·.temp)).getD 0
  let s := raiseEvent s 0x05 pos 0 temp 0
  let ps := dieOwners s pos
  ps.foldl failPart (loseDirty (loseHomes s pos) pos)

/-! ### Trips (R34) -/

/-- Crews on a die. -/
def crewsAt (s : State) (pos : Nat) : List (Nat × Crew) := s.crews.filter fun (_, c) => c.pos == pos && !crewSaved c

/-- DIE_THERMAL_TRIP (R34): a sensor at or above the trip temperature. During a start it fails the start (Table PKG-8). -/
def execDieThermalTrip (pos temp : Nat) (s : State) : Host.Outcome State Fault Refusal :=
  match tabFind s.dies pos with
  | none => .next s
  | some d =>
    if temp < s.flash.manifest.trip || d.tripped || !d.inService then .next s
    else if starting s then .next (failStart s 0x08 pos)
    else
      let s := modDie s pos fun d => { d with inService := false, tripped := true, temp, incomplete := true }
      if d.kind = .memory then .next (loseMemory s pos)
      else .next (raiseEvent ((crewsAt s pos).foldl (fun s x => askPreempt s x.1) s) 0x05 pos 0 temp 0)

/-- DIE_RETURN_TO_SERVICE (R34): a tripped shading or geometry die below the throttle temperature, at S = 14. -/
def execDieReturnToService (pos temp : Nat) (s : State) : Host.Outcome State Fault Refusal :=
  match tabFind s.dies pos with
  | none => .next s
  | some d =>
    if !d.tripped || d.isolated || d.kind = .memory || s.flash.manifest.throttle ≤ temp then .next s
    else
      let s := modDie s pos fun d =>
        { d with inService := true, tripped := false, temp, level := 14, incomplete := true, stepped := d.stepped || d.level != 14 }
      .next (raiseEvent (markInc s (2 * pos + 1)) 0x06 pos 0 temp 0)

/-! ### Links (R13, R14) -/

/-- The fault report of a crew lost with its die. -/
def lostReport (s : State) (c : Crew) : State :=
  let bs := faultBytes s.time.now c 0x0F 0 0 0 8 0 0 0
  report (report s (partOff c.part + 0x20) bs) opFaultRing bs

/-- The work of a lost crew that has not landed faults at every receiver (R14, R219). -/
def faultCopies (s : State) (ck : Nat) : State :=
  (s.copies.filter fun (_, cp) => cp.crew == ck).foldl (fun s (id, cp) =>
    cp.parts.foldl (fun s (part, _) => match tabFind s.copies id with
      | some cp => faultPart s id part cp (0x0F, 0)
      | none => s) s) s

/-- A crew is lost where it stands: it counts as retired, and nothing of it is saved (R14). -/
def loseCrew (s : State) (ck : Nat) (c : Crew) : State :=
  retireCrew (countRetired (lostReport (faultCopies s ck) c) ck c) ck

/-- Stores that the cores of a position had applied to lines they held exclusively, and not yet returned, are lost: the home's
bytes stand (R14, R185). -/
def loseNear (s : State) (pos : Nat) : State :=
  (s.cache.dir.filter fun (_, r) => (r.holder.map fun h => h.1 / 16) == some pos).foldl (fun s (line, r) =>
    setDir { putBytes s (128 * line) r.was with poison := s.poison } line { r with holder := none, was := [] })
    { s with cache := { s.cache with l1 := s.cache.l1.filter fun x => x.core / 16 != pos } }

/-- What a render pass has in flight to or from a position is discarded: packets that its die emitted and that have not arrived,
micro-triangle entries that it has still to write, blended bytes in its region cache (R13, R14). -/
def losePackets (s : State) (pos : Nat) : State :=
  sweepPackets (modRend s fun r =>
    { r with pkts := tabMap r.pkts fun _ (p : Packet) => if p.pos = pos then { p with todo := [] } else p,
             micro := r.micro.filter fun e => e.pos != pos || e.slot.isSome,
             rcache := r.rcache.filter fun (k, _) => claimOf s (k / 281474976710656) % 256 != pos })

/-- A position has no route to position 0 any more (R14). -/
def isolate (s : State) (pos : Nat) : State :=
  let s := modDie s pos fun d => { d with isolated := true, inService := false, incomplete := true }
  let crews := crewsAt s pos
  let s := losePackets (loseNear s pos) pos
  let s := crews.foldl (fun s x => loseCrew s x.1 x.2) s
  let s := raiseEvent s 0x0A pos 0 crews.length 0
  if kindAt s pos = .memory then loseMemory s pos else s

/-- The side that faces a side. -/
def facing (side : Nat) : Nat := (side + 2) % 4

/-- LINK_RETIREMENT (R13, R14). -/
def execLinkRetirement (pos side : Nat) (s : State) : Host.Outcome State Fault Refusal :=
  match tabFind s.dies pos, neighbour pos side with
  | some d, some q =>
    if linkState d.links side ≠ 1 then .next s
    else
      let s := modDie s pos fun d => { d with links := setLink d.links side 2 }
      let s := modDie s q fun d => { d with links := setLink d.links (facing side) 2 }
      let s := raiseEvent s 0x04 pos side 0 0
      let there := reachable s 27 [0]
      let gone := (tabKeys s.dies).filter fun p => !there.contains p && match tabFind s.dies p with
        | some d => !d.isolated
        | none => false
      .next (gone.foldl isolate s)
  | _, _ => .next s

/-! ### Power samples (R39, R40) -/

/-- Has some region of a die had C > 0 in the last millisecond? -/
def canaryRaised (s : State) (pos : Nat) : Bool :=
  s.cores.any fun (k, c) => k / 16 == pos && (c.canary != 0 || (c.canaryEvents != 0 && s.time.now < c.canaryAt + 1000000))

/-- A power sample (Table PKG-11). -/
def sampleBytes (s : State) (pos mw : Nat) (d : Die) : List Byte :=
  bytesOfNat 8 s.time.now ++ bytesOfNat 4 mw ++
    [BitVec.ofNat 8 pos, (kindBits d.kind).zeroExtend 8, BitVec.ofNat 8 d.level,
      BitVec.ofNat 8 ((if d.governed || !d.govReq.isEmpty then 1 else 0) + (if canaryRaised s pos then 2 else 0) + (if d.stepped then 4 else 0) +
        (if d.incomplete || !d.inService then 8 else 0))]

/-- POWER_SAMPLE_TICK (R39): at a multiple of 1,000,000 ns, once, every present die latches a sample of the average power that
its sensors report, of the die and of its base tile; a position that `mw` does not name keeps the last average of its die. -/
def execPowerSampleTick (mw : List (Nat × Nat × Nat)) (s : State) : Host.Outcome State Fault Refusal :=
  let tick := bytesOfNat 8 s.time.now
  if s.time.now % 1000000 ≠ 0 || s.telemetry.any (fun r => r.take 8 == tick) then .next s
  else
    let at' := fun p (d : Die) => ((mw.find? fun x => x.1 == p).map (·.2)).getD (d.mw, 0)
    let recs := s.dies.map fun (p, d) => sampleBytes s p ((at' p d).1 + (at' p d).2) d
    .next { s with telemetry := s.telemetry ++ recs,
                   dies := tabMap s.dies fun p (d : Die) =>
                     { d with mw := (at' p d).1, governed := false, stepped := false, incomplete := !d.inService } }

/-! ### The column bank (R154 to R159) -/

/-- The buses of a list in ascending order. -/
def busList (b : BitVec 16) : List Nat := (List.range 16).filter fun i => b.getLsbD i

/-- The bus of a 2 KiB unit (R154, R157). -/
def busOf (c : Core) (unit : Nat) : Nat :=
  let bs := busList (if c.fill == FillState.backfill && c.wmark ≤ unit then c.oldBuses else c.mapBuses)
  bs.getD (unit % bs.length) 0

/-- A record joins a die's bus log (R159). -/
def busLog (s : State) (pos core outcome retries beat bus addr : Nat) : State :=
  let w := outcome * 1073741824 + min 255 retries * 65536 + beat % 64 * 1024 + bus * 64 + core
  let ws := [BitVec.ofNat 32 w, BitVec.ofNat 32 addr, BitVec.ofNat 32 s.time.now, BitVec.ofNat 32 (s.time.now / 4294967296)]
  modDie s pos fun d => { d with blog := tabPut d.blog (d.blogN % 64) ws, blogN := min 0xFFFFFFFF (d.blogN + 1) }

/-- A record joins a die's array log (R159). -/
def arrayLog (s : State) (pos core : Nat) (unc : Bool) (synd addr : Nat) : State :=
  let w := (if unc then 2147483648 else 0) + core * 65536 + synd % 1024
  let ws := [BitVec.ofNat 32 w, BitVec.ofNat 32 addr, BitVec.ofNat 32 s.time.now, BitVec.ofNat 32 (s.time.now / 4294967296)]
  modDie s pos fun d => { d with alog := tabPut d.alog (d.alogN % 64) ws, alogN := min 0xFFFFFFFF (d.alogN + 1) }

/-- A sector of a bank becomes poisoned, with its event (R151). -/
def poisonBank (s : State) (pos core addr : Nat) : State :=
  let sec := bankKey (coreKey pos core) addr / 32
  if s.bankPoison.contains sec then s
  else raiseEvent { s with bankPoison := setIns s.bankPoison sec } 0x08 pos (1 + core) 0 (addr / 32 * 32)

/-- The notice to a crew whose allocation meets the withdrawn range (R293). -/
def noticeBytes (now kind pos core n fold lo hi : Nat) (c : Crew) : List Byte :=
  bytesOfNat 8 now ++ bytesOfNat 4 c.shiftId.toNat ++ bytesOfNat 4 c.x ++ bytesOfNat 4 c.y ++ bytesOfNat 4 c.z ++
    [0, BitVec.ofNat 8 kind, BitVec.ofNat 8 pos, BitVec.ofNat 8 core] ++ bytesOfNat 2 n ++ [4, 0] ++
    bytesOfNat 8 (if kind = 1 then fold else 0) ++ bytesOfNat 8 lo ++ bytesOfNat 8 hi ++ zeros 8

/-- Notices to every crew whose allocation on the core meets the range from `n` buses up (R293). -/
def sendNotices (s : State) (kind pos core n fold : Nat) : State :=
  let key := coreKey pos core
  s.crews.foldl (fun s (_, c) =>
    if !(crewCores c).contains key || c.cbSize = 0 then s
    else
      let base := c.cbBase.getD (halfOf c key) 0 * 2048
      let hi := base + c.cbSize * 2048
      let lo := max base (n * 268435456)
      if hi ≤ lo then s else report s (partOff c.part + 0x20) (noticeBytes s.time.now kind pos core n fold lo hi c)) s

/-- A capacity event with its notices (R292, R293). -/
def capacityEvent (s : State) (kind pos core n arg : Nat) : State :=
  sendNotices (raiseEvent s kind pos core n arg) kind pos core n arg

/-- Bits of a bus list without one bus. -/
def withoutBus (b : BitVec 16) (bus : Nat) : BitVec 16 := b &&& ~~~(1#16 <<< bus)

/-- The bank has no bus left (R157). -/
def bankGone (s : State) (pos core : Nat) : State :=
  let s := modCore s (coreKey pos core) fun c => { c with fill := .gone, wmark := 0, lateBuses := [] }
  let s := modDie s pos fun d => { d with health := d.health &&& ~~~(1#32 <<< (8 + core)) }
  capacityEvent s 0x03 pos core 0 0

/-- The bank begins to wait for its backfill (R156, R157). -/
def startVacate (s : State) (pos core : Nat) (events : Nat) : State :=
  let wait := ((tabFind s.dies pos).map (·.cbFoldWait.toNat)).getD 0
  let fold := s.time.now + wait * 1000
  let n := busCount (((tabFind s.cores (coreKey pos core)).map (·.vbus)).getD 0)
  let s := modCore s (coreKey pos core) fun c => { c with fill := .vacate, foldAt := fold, lateBuses := [] }
  (List.range events).foldl (fun s _ => capacityEvent s 0x01 pos core n fold) s

/-- A bus retires (R156, R157). -/
def retireBus (s : State) (pos core bus : Nat) : State :=
  let key := coreKey pos core
  let s := modCore s key fun c => { c with vbus := withoutBus c.vbus bus }
  match tabFind s.cores key with
  | none => s
  | some c =>
    if c.vbus = 0 then bankGone s pos core
    else if c.fill = .backfill then modCore s key fun c => { c with lateBuses := c.lateBuses ++ [bus] }
    else startVacate s pos core 1

/-- Is a beat, or a sector, one of a transfer that starts at an address: within its 2 KiB unit (R155)? -/
def inUnit (addr beat : Nat) : Bool := addr % 2048 / 32 + beat < 64

/-- The attempts that deep retry makes of a beat: those until it passes, or 64 (R156). -/
def deepTries (x : Nat × Option Nat) : Nat := match x.2 with
  | some k => min 64 k
  | none => 64

/-- Does a beat never pass in deep retry? -/
def neverPasses (x : Nat × Option Nat) : Bool := match x.2 with
  | some k => 64 < k
  | none => true

/-- The beats of a transfer that deep retry repeats. -/
def deepBeats (addr : Nat) (f : BusFate) : List (Nat × Option Nat) := f.deep.filter fun x => inUnit addr x.1

/-- The beats of a transfer that fail at least once in deep retry. -/
def deepFails (addr : Nat) (f : BusFate) : List (Nat × Option Nat) :=
  (deepBeats addr f).filter fun x => neverPasses x || 1 < deepTries x

/-- Beats that deep retry never recovers poison their sectors (R156). -/
def poisonBeats (s : State) (pos core addr : Nat) (f : BusFate) : State :=
  ((deepBeats addr f).filter neverPasses).foldl (fun s x => poisonBank s pos core (addr + 32 * x.1)) s

/-- The crew whose allocation holds a bank address. -/
def bankCrew (s : State) (key addr : Nat) : Nat :=
  ((s.crews.find? fun (_, c) => (crewCores c).contains key && !crewSaved c &&
    c.cbBase.getD (halfOf c key) 0 ≤ addr / 2048 && addr / 2048 < c.cbBase.getD (halfOf c key) 0 + c.cbSize).map (·.1)).getD 0

/-- A bus-log record of a transfer, whose retries the survey counts (R159, R314). -/
def transferLog (s : State) (pos core addr outcome retries beat bus : Nat) : State :=
  let key := coreKey pos core
  busLog (countCrew s (bankCrew s key addr) key 86 retries) pos core outcome retries beat bus addr

/-- A transfer on its bus: retries, retirement, deep retry (R155 to R157). A transfer made by deep retry from the start is recorded
where some beat of it fails, with the attempts of those beats as its retries (notes/assumptions/98.md). -/
def busTransfer (s : State) (pos core addr : Nat) (f : BusFate) (c : Core) (limit : Nat) : State :=
  let bus := busOf c (addr / 2048)
  let tries := fun l => (l.map deepTries).sum
  if c.vbus.getLsbD bus then
    if f.fails = 0 || !inUnit addr f.beat then s
    else if f.fails ≤ limit then transferLog s pos core addr 0 f.fails f.beat bus
    else
      let s := transferLog s pos core addr 1 (limit + tries (deepBeats addr f)) f.beat bus
      retireBus (poisonBeats s pos core addr f) pos core bus
  else match (deepFails addr f).map (·.1) with
    | [] => s
    | b :: rest =>
      let lost := (deepBeats addr f).any neverPasses
      poisonBeats (transferLog s pos core addr (if lost then 3 else 2) (tries (deepFails addr f)) (rest.foldl min b) bus) pos core addr f

/-- A cell error that the array's code finds in a sector of a transfer (R155). -/
def cellError (s : State) (pos core addr : Nat) : Option (Nat × Nat × Bool) → State
  | none => s
  | some (k, synd, double) =>
    if !inUnit addr k then s
    else
      let key := coreKey pos core
      let at' := addr / 32 * 32 + 32 * k
      let s := arrayLog s pos core double synd at'
      if double then poisonBank s pos core at' else countCrew s (bankCrew s key at') key 87 1

/-- CB_TRANSFER (R155, R156): one transfer of at most 2 KiB at a bank address, with what its bus and the array do to it. -/
def execCbTransfer (pos core addr : Nat) (fate : BusFate) (s : State) : Host.Outcome State Fault Refusal :=
  match tabFind s.dies pos, tabFind s.cores (coreKey pos core) with
  | some d, some c =>
    if d.kind ≠ .shading || cbWithdrawn s (coreKey pos core) addr 1 then .next s
    else .next (cellError (busTransfer s pos core addr fate c d.cbRetry.toNat) pos core addr fate.cell)
  | _, _ => .next s

/-- BACKFILL_BEGIN (R157): CR.CBFOLDWAIT has elapsed since the last capacity event. -/
def execBackfillBegin (pos core : Nat) (s : State) : Host.Outcome State Fault Refusal :=
  .next (modCore s (coreKey pos core) fun c =>
    if c.fill = .vacate && timeReached s c.foldAt then
      { c with fill := .backfill, oldBuses := c.mapBuses, mapBuses := c.vbus, wmark := 0 }
    else c)

/-- Sectors of the unit being moved that deep retry does not recover (R157). -/
def loseSectors (s : State) (pos core bus unit : Nat) (lost : List Nat) : State :=
  lost.foldl (fun s k =>
    let s := busLog s pos core 3 64 (k % 64) bus (2048 * unit)
    poisonBank s pos core (2048 * unit + 32 * (k % 64))) s

/-- The backfill is complete (R157). -/
def backfillDone (s : State) (pos core : Nat) (c : Core) : State :=
  let n := busCount c.mapBuses
  let s := modCore s (coreKey pos core) fun c => { c with fill := .reduced, wmark := 0 }
  let s := capacityEvent s 0x02 pos core n (n * 268435456)
  if c.lateBuses.isEmpty then s else startVacate s pos core c.lateBuses.length

/-- BACKFILL_UNIT_MOVE (R157): one unit is moved and W rises by one; `lost` names the sectors of the unit, 0 to 63, that are
not recovered from a retired bus. -/
def execBackfillUnitMove (pos core : Nat) (lost : List Nat) (s : State) : Host.Outcome State Fault Refusal :=
  let key := coreKey pos core
  match tabFind s.cores key with
  | none => .next s
  | some c =>
    if c.fill ≠ .backfill then .next s
    else
      let bus := busOf c c.wmark
      let s := if c.vbus.getLsbD bus then s else loseSectors s pos core bus c.wmark lost.eraseDups
      let s := modCore s key fun c => { c with wmark := c.wmark + 1 }
      .next (if c.wmark + 1 = busCount c.mapBuses * 131072 then backfillDone s pos core c else s)

/-! ### Scrubs and power gating (R151, R160) -/

/-- MEMORY_SCRUB (R151): an uncorrectable sector of device memory is found. DESIGN CHOICE: a corrected single-bit error of device
memory leaves no mark, since no register and no event KIND is named for it (notes/assumptions/95.md). -/
def execMemoryScrub (sector : Nat) (s : State) : Host.Outcome State Fault Refusal :=
  match groupAt s (32 * sector) with
  | none => .next s
  | some g =>
    if s.poison.contains sector then .next s
    else .next (raiseEvent { s with poison := setIns s.poison sector } 0x08 g.1 0 0 (32 * sector))

/-- Does no allocation of a core meet scratchpad tile `tile`, its bytes 4096 × tile on (R143)? -/
def tileFree (s : State) (core tile : Nat) : Bool :=
  (takenRanges s core false).all fun x => x.1 + x.2 ≤ 4096 * tile || 4096 * (tile + 1) ≤ x.1

/-- RESOURCE_POWER_GATING (R160): which copies an L1 way holds is left open; an exclusive line in it is returned first. -/
def execResourcePowerGating (r : GateRes) (s : State) : Host.Outcome State Fault Refusal :=
  if s.gated.contains r then .next s
  else
    let t := { s with gated := r :: s.gated }
    match r with
    | .llcWay _ _ => .next t
    | .spTile core tile => .next (if tileFree s core tile then t else s)
    | .regSram core => .next (if (List.range 6).all (fun k => (gangsOn s core k).isEmpty) then t else s)
    | .accTiles core slice => .next (if (engOf s (8 * core + slice)).mapped.isEmpty then t else s)
    | .l1Way core _ =>
      let pick := fun k => Config.freeBool (s.free * 16777216 + 8388608 + k)
      let held := (s.cache.dir.filter fun (_, r) => (r.holder.map (·.1)) == some core).map (·.1)
      let t := (held.zipIdx.filter fun x => pick (2 * x.2)).foldl (fun t x => returnLine t x.1) t
      let l1 := (t.cache.l1.zipIdx.filter fun x => x.1.core != core || pick (2 * x.2 + 1)).map (·.1)
      .next { t with cache := { t.cache with l1 := l1 }, free := t.free + 1 }

/-- POWER_GATED_WAKE (R160). -/
def execPowerGatedWake (r : GateRes) (s : State) : Host.Outcome State Fault Refusal :=
  .next { s with gated := s.gated.filter (· != r) }

end Sys2Proof.Machine
end

