-- ==== Sys2Proof/Machine/Queues.lean ====
section
/-! DEFINITION. The host's queues (R297 to R299), inbound traffic (R194, R305, R432), the host-line cache (R197), peer ports
(R306, R307), device time (R308, R309), and the rings of the management plane (R291, R303, R314). -/

namespace Sys2Proof.Machine

/-! ### The host link (R294) -/

/-- A feature of the host link (Table OUT-1). -/
inductive LinkFeature where
  | flitMode | sriov | ari | msix | aer | cxlIo | cxlCache | cxlMem
  | ats | pri | pasid | ide | backInvalidate | pooling
  deriving DecidableEq, Repr

/-- Does a capability list name a feature (R294)? The others are absent, and a TLP that would use one is no access of the package. -/
def linkHas : LinkFeature → Bool
  | .flitMode | .sriov | .ari | .msix | .aer | .cxlIo | .cxlCache | .cxlMem => true
  | .ats | .pri | .pasid | .ide | .backInvalidate | .pooling => false

/-- Functions: PF 0 and 192 virtual functions. -/
def linkFunctions : Nat := 193

/-- MSI-X vectors of each function. -/
def linkVectors : Nat := 4

/-- HDM decoders over device memory (notes/assumptions/99.md). -/
def hdmDecoders : Nat := 2

/-! ### Shaesque queues (R297 to R299) -/

/-- A write to SQTAIL (R298). -/
def sqtailWrite (fn : Nat) (v : Word) (s : State) : State :=
  modFunc s fn fun f =>
    let f := { f with sqTail := v }
    if f.en && queueLen f.sqLogn < (v - f.sqHead).toNat then { f with err := true, errCode := 1 } else f

/-- SQTAIL_DOORBELL (R298). -/
def execSqtailDoorbell (fn : Nat) (v : Word) (s : State) : Host.Outcome State Fault Refusal := .next (sqtailWrite fn v s)

/-- A write of 1 to EN (R298). -/
def queueOn (fn : Nat) (s : State) : State :=
  modFunc s fn fun f =>
    { f with en := true, err := false, errCode := 0, sqHead := 0, sqTail := 0, cqHead := 0, cqTail := 0 }

/-- QUEUE_PAIR_ENABLE (R298). -/
def execQueuePairEnable (fn : Nat) (s : State) : Host.Outcome State Fault Refusal := .next (queueOn fn s)

/-- A write of 0 to EN (R298): every fetched record has been admitted. -/
def queueOff (fn : Nat) (s : State) : State := modFunc s fn fun f => { f with en := false }

/-- QUEUE_PAIR_DISABLE (R298). -/
def execQueuePairDisable (fn : Nat) (s : State) : Host.Outcome State Fault Refusal := .next (queueOff fn s)

/-- A completion entry (R299). -/
def entryBytes (f : Func) (c : Completion) : List Byte :=
  let phase := if f.cqTail.toNat / queueLen f.cqLogn % 2 = 0 then 1#8 else 0#8
  bytesOfNat 4 c.shiftId.toNat ++ [c.status, phase] ++ bytesOfNat 2 f.sqHead.toNat ++ bytesOfNat 8 c.dt

/-- The host bus address of a function's next completion entry (R299). -/
def compAddr (f : Func) : Nat := f.cqBase.toNat + 16 * (f.cqTail.toNat % queueLen f.cqLogn)

/-- STATUS of every completed or rejected record is written into its submission slot, whether or not the completion ring has room;
a write that fails stops the queue with ERRCODE 3 (R299, Table OUT-2). -/
def writeStatuses (fn : Nat) (s : State) : State :=
  (funcOf s fn).comps.zipIdx.foldl (fun s (c, k) =>
    if c.written || (funcOf s fn).errCode == 3 then s
    else if !hostServes s (c.slot.toNat + 55) then modFunc s fn fun f => { f with err := true, errCode := 3 }
    else modFunc (busWrite s (c.slot.toNat + 55) [c.status]) fn fun f =>
      { f with comps := f.comps.modify k fun c => { c with written := true } }) s

/-- COMPLETION_ENTRY_POST (R299): the statuses, then the next entry, unless the ring is full; a write that fails stops the queue with
ERRCODE 3 (Table OUT-2). -/
def execCompletionEntryPost (fn : Nat) (s : State) : Host.Outcome State Fault Refusal :=
  if (funcOf s fn).err && (funcOf s fn).errCode == 3 then .next s
  else
    let s := writeStatuses fn s
    let f := funcOf s fn
    match f.comps with
    | [] => .next s
    | c :: rest =>
      if !c.written || (f.cqTail - f.cqHead).toNat = queueLen f.cqLogn then .next s
      else if !hostServes s (compAddr f) then .next (modFunc s fn fun f => { f with err := true, errCode := 3 })
      else
        let s := busWrite s (compAddr f) (entryBytes f c)
        .next (raiseMsix (modFunc s fn fun f => { f with comps := rest, cqTail := f.cqTail + 1 }) fn 0)

/-- CQHEAD_WRITE (R299). -/
def execCqheadWrite (fn : Nat) (v : Word) (s : State) : Host.Outcome State Fault Refusal :=
  .next (modFunc s fn fun f => { f with cqHead := v })

/-! ### Inbound traffic (R149, R194, R305, R306, R432) -/

/-- An enabled inbound window of a port holds the bytes (R306). -/
def inWindow (s : State) (port pa n : Nat) : Bool :=
  (List.range 32).any fun w => match peerWindowAt s 0xB00 pa w with
    | some (p, _, _) => p == port && (peerWindowAt s 0xB00 (pa + n - 1) w).isSome
    | none => false

/-- A READ of Table OUT-5: 8 to 256 bytes, naturally aligned. -/
def peerReadOk (pa n : Nat) : Bool := [8, 16, 32, 64, 128, 256].contains n && pa % n == 0

/-- A WRITE of Table OUT-5: 1 to 256 bytes within one 256-byte block. -/
def peerWriteOk (pa n : Nat) : Bool := 0 < n && (pa + n - 1) / 256 == pa / 256

/-- May a request reach device memory at these bytes: each has a home, and a peer's falls within its window? -/
def inboundOk (s : State) (req : Requester) (pa n : Nat) : Bool :=
  n != 0 && hasHome s pa && hasHome s (pa + n - 1) && match req with
    | .peer port => inWindow s port pa n
    | _ => true

/-- Changes a peer port. -/
def modPeer (s : State) (port : Nat) (f : Peer → Peer) : State := { s with peers := tabPut s.peers port (f (peerOf s port)) }

/-- A refused request: logged through AER if it is a posted PCIe write, counted if it is a peer's. -/
def refuseInbound (s : State) (req : Requester) (write : Bool) : State :=
  match req with
  | .pcie _ => if write then { s with aer := s.aer + 1 } else s
  | .cxlMem => s
  | .peer port => modPeer s port fun p => { p with refused := min 0xFFFFFFFF (p.refused + 1) }

/-- Is a request well formed: a peer's is a transaction of Table OUT-5? -/
def inboundShape (req : Requester) (p : Bool) : Bool := match req with
  | .peer _ => p
  | _ => true

/-- The runs of bytes that a write's mask leaves: the place of each in the write, and its bytes (Table OUT-5). -/
def maskRuns : Nat → List (Option Byte) → List (Nat × List Byte)
  | _, [] => []
  | k, none :: rest => maskRuns (k + 1) rest
  | k, some b :: rest =>
    match maskRuns (k + 1) rest with
    | (j, bs) :: more => if j = k + 1 then (k, b :: bs) :: more else (k, [b]) :: (j, bs) :: more
    | [] => [(k, [b])]

/-- INBOUND_WRITE (R194, R305): applied at its home, but for the bytes that its mask leaves out, or refused. A write that covers a
poisoned sector in part is not applied. -/
def execInboundWrite (req : Requester) (pa : Nat) (bytes : List (Option Byte)) (s : State) : Host.Outcome State Fault Refusal :=
  let n := bytes.length
  let runs := maskRuns 0 bytes
  if inboundOk s req pa n && inboundShape req (peerWriteOk pa n) && !(runs.any fun x => partlyPoison s (pa + x.1) x.2.length) then
    .next (runs.foldl (fun s x => homeWrite s (pa + x.1) x.2) (recallRange s pa n))
  else .next (refuseInbound s req true)

/-- INBOUND_READ (R194, R305): performed at its home, or refused; the data goes to the requester. -/
def execInboundRead (req : Requester) (pa n : Nat) (s : State) : Host.Outcome State Fault Refusal :=
  if inboundOk s req pa n && inboundShape req (peerReadOk pa n) then .next (recallRange s pa n)
  else .next (refuseInbound s req false)

/-- INBOUND_ATOMIC (R305): one operation of Table ORD-5, ATOMCAS among them, at its home, or refused. -/
def execInboundAtomic (port pa : Nat) (op : InboundOp) (wide : Bool) (v : DWord) (s : State) :
    Host.Outcome State Fault Refusal :=
  let n := if wide then 8 else 4
  let cut := fun (x : DWord) => x.toNat % 2 ^ (8 * n)
  let (o, cmp) : RmwOp × DWord := match op with
    | .op o => (.op o, 0)
    | .cas x => (.cas, x)
  if inboundOk s (.peer port) pa n && pa % n = 0 && !readsPoison s pa n then
    let s := recallRange s pa n
    let bs := memRead s pa n
    let args := [(0, cut v, cut cmp)]
    .next (if rmwIdle o bs args then s else homeWrite s pa (rmwBytes o bs args).1)
  else .next (refuseInbound s (.peer port) true)

/-- CXL_CACHE_SNOOP (R197): the host recalls a line of the host-line cache, or changes it. A change of a line that the cache
does not hold is the host's own write to its memory. -/
def execCxlCacheSnoop (line : Nat) (k : SnoopKind) (s : State) : Host.Outcome State Fault Refusal :=
  let bs := match k with
    | .recall => hostLine s line
    | .change bytes => overlay (hostLine s line) 0 (bytes.take 64)
  let t := { s with hostMem := spPutList 0#8 s.hostMem (64 * line) bs, cache := { s.cache with hlc := tabDel s.cache.hlc line } }
  .next (match k with
    | .recall => t
    | .change _ => wakeLines t (0x800000000000 + 64 * line) 64)

/-! ### Peer ports (R305 to R307) -/

/-- Accesses through a port's windows that are not over: its writes, an atomic that has its answer and waits to be acknowledged among
them, or its reads and other atomics. -/
def portAccs (s : State) (port : Nat) (store : Bool) : List (Nat × Acc) :=
  s.accs.filter fun (_, a) => a.window && isPeer a.pa && ((outWindow s a.pa).map (·.1)) == some port &&
    (a.st == .forwarded || match a.op with
    | .store _ | .tst .. => true
    | _ => false) == store && (match a.st with
    | .forwarded | .pending => true
    | _ => false)

/-- A write through a failed port is lost, and counts as acknowledged. -/
def loseWrite (s : State) (x : Nat × Acc) : State :=
  if x.2.st == .forwarded then noteSettle { s with accs := tabDel s.accs x.1 } x.2.crew s.time.now
  else finishAcc s x.1 x.2 1

/-- A read or atomic through a failed port traps late (R278). -/
def failRead (s : State) (x : Nat × Acc) : State :=
  finishAcc (lateAcc s x.2 (addrTrap 0x0F x.2.va)) x.1 x.2 (accCount x.2)

/-- PEER_PORT_FAILURE (R307). -/
def execPeerPortFailure (port : Nat) (s : State) : Host.Outcome State Fault Refusal :=
  if (peerOf s port).state = 3 || 12 ≤ port then .next s
  else
    let writes := portAccs s port true
    let reads := portAccs s port false
    let s := modPeer s port fun p => { p with state := 3 }
    let s := reads.foldl failRead (writes.foldl loseWrite s)
    .next (raiseEvent s 0x09 0 port writes.length 0)

/-- PEER_PORT_TRAINED (R306). -/
def execPeerPortTrained (port : Nat) (s : State) : Host.Outcome State Fault Refusal :=
  if 12 ≤ port || 2 ≤ (peerOf s port).state then .next s else .next (modPeer s port fun p => { p with state := 2 })

/-! ### Device time (R308, R309) -/

/-- The servo corrects DT towards a reference: a step forward if DT is behind by more than 1 µs, else a slew. -/
def correctTime (s : State) (ref : Nat) : State :=
  let off : Int := (ref : Int) - s.time.now
  if 1000 < off then { s with time := { s.time with now := ref, offset := off, slew := 0 } }
  else { s with time := { s.time with offset := off, slew := off } }

/-- TIME_FLIT (R309): a package without lock follows a port that carries the time base; one with lock follows it if the peer
stands lower in the chain, which is not known here: a free choice. -/
def execTimeFlit (port : Nat) (dt : DWord) (s : State) : Host.Outcome State Fault Refusal :=
  let shared := (cfgGet s (cfgAddr 0 (0x500 + 0x20 * port))).getLsbD 29
  if !shared || (peerOf s port).state != 2 then .next s
  else if !s.time.lock then .next (correctTime s dt.toNat)
  else
    let t := { s with free := s.free + 1 }
    .next (if Config.freeBool (s.free * 16777216 + 8388640) then correctTime t dt.toNat else t)

/-- The instant that a 1PPS edge marks: the second that PTP has supplied, or else the nearest. -/
def ppsRef (s : State) : Nat := match s.time.ptpSec with
  | some sec => sec * 1000000000
  | none => (s.time.now + 500000000) / 1000000000 * 1000000000

/-- PPS_EDGE (R308): DT mod 10^9 is 0 at the edge. LOCK needs the offset within 100 ns for 16 consecutive seconds. -/
def execPpsEdge (s : State) : Host.Outcome State Fault Refusal :=
  let ref := ppsRef s
  let near : Bool := ((ref : Int) - s.time.now).natAbs ≤ 100
  let s := correctTime s ref
  let good := if near then s.time.goodSecs + 1 else 0
  .next { s with time := { s.time with ppsAt := some s.time.now, goodSecs := min 16 good, lock := 16 ≤ good,
                                       ptpSec := s.time.ptpSec.map (· + 1) } }

/-- PTP_MESSAGE (R308): the second of the next 1PPS edge. -/
def execPtpMessage (sec : Nat) (s : State) : Host.Outcome State Fault Refusal :=
  .next { s with time := { s.time with ptpAt := some s.time.now, ptpSec := some sec } }

/-- Has an input been silent for 2 s? -/
def silent (s : State) (t : Option Nat) : Bool := match t with
  | some t => t + 2000000000 ≤ s.time.now
  | none => false

/-- TIMING_INPUT_LOSS (R308, Table OUT-7): without edges the offset is no longer known, and lock is lost. -/
def execTimingInputLoss (pps ptp : Bool) (s : State) : Host.Outcome State Fault Refusal :=
  let t := s.time
  let t := if pps && silent s t.ppsAt then { t with ppsAt := none, lock := false, goodSecs := 0 } else t
  let t := if ptp && silent s t.ptpAt then { t with ptpAt := none, ptpSec := none } else t
  .next { s with time := t }

/-! ### Rings (R291, R303, R314) -/

/-- The partition of a tenant ring, by its offset; none for the operator's rings. -/
def ringPart (ring : Nat) : Option Nat := if 0x4000 ≤ ring then some ((ring - 0x4000) / 256) else none

/-- log2 of a ring's records; none if it acts as 0. -/
def ringLogn (s : State) (ring : Nat) : Option Nat :=
  let n := (cfgGet s (cfgAddr 0 (ring + 8))).toNat % 16
  if 4 ≤ n && n ≤ 12 then some n else none

/-- The address of a ring. -/
def ringBase (s : State) (ring : Nat) : Nat :=
  (cfgGet s (cfgAddr 0 (ring + 4))).toNat % 32768 * 4294967296 + (cfgGet s (cfgAddr 0 ring)).toNat

/-- Is a ring a survey ring, whose records carry the LOST flag? -/
def surveyRing (ring : Nat) : Bool := ring == opSurveyRing || (0x4000 ≤ ring && ring % 256 == 0x40)

/-- A record is dropped and counted. -/
def loseRecord (s : State) (ring : Nat) : State :=
  let a := cfgAddr 0 (ring + 0x14)
  let n := (cfgGet s a).toNat
  let s := cfgSet s a (BitVec.ofNat 32 (min 0xFFFFFFFF (n + 1)))
  if surveyRing ring && !s.lostMark.contains ring then { s with lostMark := ring :: s.lostMark } else s

/-- Virtual functions that are enabled for a partition. -/
def vfsOf (s : State) (part : Nat) : List Nat := (List.range 192).filter fun v => vfPart s v == some part

/-- The MSI-X messages of a record (R296). -/
def ringMsix (s : State) (ring : Nat) : State :=
  match ringPart ring with
  | none => if ring = eventRing then raiseMsix s 0 1 else if ring = opSurveyRing then raiseMsix s 0 2 else s
  | some p =>
    let vec := if ring % 256 = 0x20 then 1 else if ring % 256 = 0x40 then 2 else 0
    if vec = 0 then s else (vfsOf s p).foldl (fun s v => raiseMsix s (1 + v) vec) s

/-- The bytes as they are written: a survey record after a lost one says so. -/
def markLost (s : State) (ring : Nat) (bs : List Byte) : List Byte :=
  if s.lostMark.contains ring then (bs.zipIdx).map fun x => if x.2 = 13 then x.1 ||| 4 else x.1 else bs

/-- A record is written at its place: the state and the settle time, or none if the write faults. -/
def writeRecord (s : State) (ring addr : Nat) (bs : List Byte) : Option (State × Nat) :=
  match ringPart ring with
  | none =>
    if hasHome s addr && !partlyPoison s addr bs.length then
      let s := recallRange s addr bs.length
      some (homeWrite s addr bs, settleNow s addr bs.length)
    else none
  | some p => match engWrite s (schedAgent p false) (BitVec.ofNat 64 addr) bs with
    -- a window acknowledges the record at a time that is free (R196)
    | .ok (s, t) =>
      some ({ s with free := s.free + 1 }, t.getD (s.time.now + (Config.freeBits (s.free * 16777216 + 9985000)).toNat))
    | .error _ => none

/-- The oldest record that the management plane holds moves on: it is written to its ring, and once it has settled the tail
rises; a record that its ring cannot take is dropped (R291, R303, R314). -/
def drainRings (s : State) : State :=
  match s.outbox with
  | [] => s
  | r :: rest =>
    let tailA := cfgAddr 0 (r.ring + 0x10)
    let tail := cfgGet s tailA
    let drop := loseRecord { s with outbox := rest } r.ring
    match r.upto with
    | some t =>
      if timeReached s t then ringMsix (cfgSet { s with outbox := rest } tailA (tail + 1)) r.ring else s
    | none =>
      match ringLogn s r.ring with
      | none => drop
      | some n =>
        let head := cfgGet s (cfgAddr 0 (r.ring + 0xC))
        if (tail - head).toNat = 2 ^ n then drop
        else
          let bs := markLost s r.ring r.bytes
          match writeRecord s r.ring (ringBase s r.ring + r.bytes.length * (tail.toNat % 2 ^ n)) bs with
          | none => drop
          | some (s, t) =>
            { s with outbox := { r with upto := some t } :: rest, lostMark := s.lostMark.filter (· != r.ring) }

end Sys2Proof.Machine
end

