-- ==== Sys2Proof/Machine/Partitions.lean ====
section
/-! DEFINITION. Partitions and what they own (R301 to R304, R149), frame attributes and invalidations (R152, R164), policies
and attestation (R310 to R313), the survey stream (R314). -/

namespace Sys2Proof.Machine

/-! ### Ownership (R301, R302) -/

/-- What an ownership register covers. -/
inductive OwnKind where
  | pair | llc | chan
  deriving DecidableEq, Repr

/-- The ownership register at an address (Table OUT-3). -/
def ownKind (s : State) (addr : Nat) : Option OwnKind :=
  let pos := addr / 67108864
  let off := addr % 67108864
  let k := kindAt s pos
  if off % 4 ≠ 0 then none
  else if 0x280 ≤ off && off < 0x280 + (if k = .shading then 16 else if k = .geometry || k = .memory then 32 else 0) then
    some (if k = .memory then .llc else .pair)
  else if 0x2A0 ≤ off && off < 0x2AC && k = .memory then some .chan
  else none

/-- The bits that an ownership register keeps. -/
def ownMask : OwnKind → Word
  | .pair => 0x00FFFFFF
  | .llc | .chan => 0x8000001F

/-- The partitions that a register's value names. -/
def namedParts (k : OwnKind) (w : Word) : List Nat :=
  match k with
  | .pair => (List.range 24).filter fun p => w.getLsbD p
  | .llc | .chan => match ownerWord w with
    | some p => [p]
    | none => []

/-- No crew of the partition is resident, saving or restoring (Table OUT-4). -/
def partIdle (s : State) (p : Nat) : Bool := s.crews.all fun (_, c) => c.part != p || c.phase == .saved

/-- EN as it reads: a failed partition's falls once it is idle (R35). -/
def partEn (s : State) (p : Nat) : Bool :=
  let x := partOf s p
  x.enabled && !(x.failed && partIdle s p)

/-- The ownership registers of a die: address and kind. -/
def ownRegs (pos : Nat) (d : Die) : List (Nat × OwnKind) :=
  match d.kind with
  | .none => []
  | .shading => (List.range 4).map fun i => (cfgAddr pos (0x280 + 4 * i), OwnKind.pair)
  | .geometry => (List.range 8).map fun i => (cfgAddr pos (0x280 + 4 * i), OwnKind.pair)
  | .memory => ((List.range 8).map fun i => (cfgAddr pos (0x280 + 4 * i), OwnKind.llc)) ++
      (List.range 3).map fun i => (cfgAddr pos (0x2A0 + 4 * i), OwnKind.chan)

/-- Is an LLC group in service with some slice? -/
def llcUp (d : Die) (g : Nat) : Bool := d.inService && d.health.extractLsb' (4 * g) 4 != 0#4

/-- Does a partition own a channel group? -/
def ownsChan (s : State) (p : Nat) : Bool :=
  s.dies.any fun (pos, d) => d.kind == .memory &&
    (List.range 3).any fun g => ownerWord (cfgGet s (cfgAddr pos (0x2A0 + 4 * g))) == some p

/-- Does a partition own an LLC group in service? -/
def ownsLlc (s : State) (p : Nat) : Bool :=
  s.dies.any fun (pos, d) => d.kind == .memory &&
    (List.range 8).any fun g => llcUp d g && ownerWord (cfgGet s (cfgAddr pos (0x280 + 4 * g))) == some p

/-- R149: a partition with a channel group has an LLC group. -/
def homesOk (s : State) (p : Nat) : Bool := !ownsChan s p || ownsLlc s p

/-- The ownership registers once every change in preparation has taken effect. -/
def ownPending (s : State) : State := s.own.foldl (fun s x => cfgSet s x.1 x.2.val) s

/-- May a write to an ownership register take effect: each partition that it removes or adds is idle or disabled, and no
enabled partition is left without a home for its lines, now or once the changes in preparation have been made (R149, R302)? -/
def ownAllowed (s : State) (addr : Nat) (k : OwnKind) (v : Word) : Bool :=
  let old := namedParts k (cfgGet s addr)
  let new := namedParts k v
  let moved := (old.filter fun p => !new.contains p) ++ new.filter fun p => !old.contains p
  (moved.all fun p => partIdle s p || !partEn s p) && (List.range 24).all fun p =>
    !partEn s p || (homesOk (cfgSet s addr v) p && homesOk (cfgSet (ownPending s) addr v) p)

/-- A write to an ownership register, for the issue `waits` of a CFGWR: whether the change is still being prepared. -/
def ownWrite (addr : Nat) (v : Word) (waits : List (Nat × Nat × Nat)) (s : State) : State × Bool :=
  match ownKind s addr with
  | none => (s, false)
  | some k =>
    let v := v &&& ownMask k
    if (tabFind s.own addr).isSome || v = cfgGet s addr || !ownAllowed s addr k v then (s, false)
    else if k = .llc then ({ s with own := tabPut s.own addr { val := v, waits } }, true)
    else (cfgSet s addr v, false)

/-- OWNERSHIP_WRITE (R302). -/
def execOwnershipWrite (addr v : Word) (s : State) : Host.Outcome State Fault Refusal :=
  .next (ownWrite addr.toNat v [] s).1

/-- Does a line belong to a channel group of one of some partitions? -/
def lineOf (s : State) (ps : List Nat) (line : Nat) : Bool :=
  match groupAt s (128 * line) with
  | none => false
  | some g => match groupOwner s g with
    | some p => ps.contains p
    | none => false

/-- The largest EMAX and HORIZON that the slices of some partitions hold have passed (R302). -/
def leasesOver (s : State) (ps : List Nat) : Bool :=
  (ps.all fun p => (llcSlices s p).all fun h => timeReached s (spGet 0 s.cache.horizon h)) && s.cache.dir.all fun (line, r) => !lineOf s ps line || timeReached s r.emax

/-- The slices of some partitions return exclusive lines and recall their monitors (R302, R187). -/
def recallHomes (s : State) (ps : List Nat) : State :=
  let s := ((s.cache.dir.filter fun (line, _) => lineOf s ps line).map (·.1)).foldl (fun s l => recallFrom s none l) s
  let wake := fun (_ : Nat) (m : Monitor) => if lineOf s ps (m.pa / 128) then { m with woken := true } else m
  { s with cache := { s.cache with mons := tabMap s.cache.mons wake } }

/-- OWNERSHIP_CHANGE_EFFECT (R302): the slices have let go of their lines; the register reads the new value, and a CFGWR that
made the change completes. A change that R149 or R302 would no longer let take effect is discarded. -/
def execOwnershipChangeEffect (addr : Word) (s : State) : Host.Outcome State Fault Refusal :=
  let a := addr.toNat
  match tabFind s.own a with
  | none => .next s
  | some w =>
    let ps := namedParts .llc (cfgGet s a) ++ namedParts .llc w.val
    if !leasesOver s ps then .next s
    else
      let s := { s with own := tabDel s.own a }
      let s := if ownAllowed s a .llc w.val then cfgSet (recallHomes s ps) a w.val else s
      .next (w.waits.foldl (fun s x => complete s x.1 x.2.2 1) s)

/-! ### Enabling, disabling, suspending (R304) -/

/-- Does a partition own a granule of a die out of service? -/
def ownsLost (s : State) (p : Nat) : Bool :=
  s.dies.any fun (pos, d) => !d.inService &&
    (ownRegs pos d).any fun x => (namedParts x.2 (cfgGet s x.1)).contains p

/-- A write of 1 to EN (R304, R149). -/
def partOn (p : Nat) (s : State) : State :=
  if 24 ≤ p || partEn s p || (partOf s p).scrub || ownsLost s p || !homesOk s p then s
  else modPart s p fun x => { x with enabled := false, failed := false, scrub := true }

/-- PARTITION_ENABLE (R304). -/
def execPartitionEnable (p : Nat) (s : State) : Host.Outcome State Fault Refusal := .next (partOn p s)

/-- The channel groups of a partition, by their place in the address space. -/
def groupsOf (s : State) (p : Nat) : List Nat :=
  ((chanGroups s).zipIdx.filter fun x => groupOwner s x.1 == some p).map (·.2)

/-- Does an address lie in one of some channel groups? -/
def inGroups (gs : List Nat) (pa : Nat) : Bool := gs.contains (pa / 34359738368)

/-- The channel groups of a partition become zero; kept CRCs follow the bytes (R153, R304). -/
def zeroMemory (s : State) (p : Nat) : State :=
  let gs := groupsOf s p
  let blocks := ((s.mem.map fun (x : Host.Cell) => x.1 / 4096) ++ tabKeys s.crcs).eraseDups.filter fun b =>
    inGroups gs (4096 * b) && (frameOf s (4096 * b)).chk
  let after := { s with mem := s.mem.filter (fun x => !inGroups gs x.1), poison := s.poison.filter fun sec => !inGroups gs (32 * sec) }
  let t := crcFollow s after blocks
  { t with cache := { t.cache with
      l1 := t.cache.l1.filter fun x => !inGroups gs (128 * x.line),
      dir := t.cache.dir.filter fun (line, _) => !inGroups gs (128 * line) } }

/-- Is a core's pair dedicated to a partition (R301)? -/
def dedicated (s : State) (core p : Nat) : Bool := pairMask s core == 2 ^ p

/-- The column banks of the dedicated pairs become zero. -/
def zeroBanks (s : State) (p : Nat) : State :=
  { s with bank := s.bank.filter fun (k, _) => !dedicated s (k / 4294967296) p,
           bankPoison := s.bankPoison.filter fun sec => !dedicated s (sec / 134217728) p }

/-- PARTITION_SCRUB_COMPLETION (R304): the scrub has zeroed what the partition owns; EN reads 1. -/
def execPartitionScrubCompletion (p : Nat) (s : State) : Host.Outcome State Fault Refusal :=
  if !(partOf s p).scrub || !leasesOver s [p] then .next s
  else .next (modPart (zeroBanks (zeroMemory (recallHomes s [p]) p) p) p fun x => { x with scrub := false, enabled := true })

/-- A write of 0 to EN (R304). -/
def partOff' (p : Nat) (s : State) : State := if partIdle s p then modPart s p fun x => { x with enabled := false } else s

/-- PARTITION_DISABLE (R304). -/
def execPartitionDisable (p : Nat) (s : State) : Host.Outcome State Fault Refusal := .next (partOff' p s)

/-- A write of 1 to SUSP (R304). -/
def partSuspend (p : Nat) (s : State) : State :=
  let s := modPart s p fun x => { x with susp := true }
  (s.crews.filter fun (_, c) => c.part == p).foldl (fun s x => askPreempt s x.1) s

/-- PARTITION_SUSPEND (R304). -/
def execPartitionSuspend (p : Nat) (s : State) : Host.Outcome State Fault Refusal := .next (partSuspend p s)

/-- A write of 0 to SUSP (R304): saved crews restore by CONTEXT_RESTORE. -/
def partResume (p : Nat) (s : State) : State := modPart s p fun x => { x with susp := false }

/-- PARTITION_RESUME (R304). -/
def execPartitionResume (p : Nat) (s : State) : Host.Outcome State Fault Refusal := .next (partResume p s)

/-- A write to the virtual-function map (R303): at most 8 enabled functions name one partition. -/
def vfMapSet (v : Nat) (w : Word) (s : State) : State :=
  let w := w &&& 0x8000001F
  let others := (List.range 192).filter fun u => u != v && vfPart s u == some (w.toNat % 32)
  if w.getLsbD 31 && 8 ≤ others.length then s else cfgSet s (cfgAddr 0 (0x6000 + 4 * v)) w

/-- VF_MAP_WRITE (R303). -/
def execVfMapWrite (v : Nat) (w : Word) (s : State) : Host.Outcome State Fault Refusal :=
  .next (if v < 192 then vfMapSet v w s else s)

/-! ### Frame attributes (R152, R153) -/

/-- A write to CFG.FATTR starts a change of the selected frame, unless one is in progress. -/
def fattrWrite (v : Word) (s : State) : State :=
  let f := (cfgGet s 0x248).toNat
  let new : Frame := { packed := v.getLsbD 0, chk := v.getLsbD 1 }
  if s.fattr.isSome || (groupAt s (524288 * f)).isNone || new = frameOf s (524288 * f) then s
  else { s with fattr := some (f, new) }

/-- CFG_FATTR_WRITE (R152). -/
def execCfgFattrWrite (v : Word) (s : State) : Host.Outcome State Fault Refusal := .next (fattrWrite v s)

/-- FRAME_ATTRIBUTE_CHANGE_DONE (R152). -/
def execFrameAttributeChangeDone (s : State) : Host.Outcome State Fault Refusal := .next (frameDone s)

/-! ### Invalidation (R164) -/

/-- The scope of an invalidation command. -/
def invHits (s : State) (cmd : Word) (part page size : Nat) : Bool :=
  let scope := cmd.toNat / 32 % 8
  let p := cmd.toNat % 32
  let va := (cfgGet s 0x254).toNat % 32768 * 4294967296 + (cfgGet s 0x250).toNat / 524288 * 524288
  if 2 ≤ scope then true
  else p < 24 && part == p && (scope == 1 || (page ≤ va && va < page + size))

/-- A write to CFG.XINVCMD (R164): no TLB keeps a translation in the scope; the accesses that may have used one are noted. -/
def xinvWrite (v : Word) (s : State) : State :=
  let v := v &&& 0xFF
  if s.cache.inv.isSome then s
  else
    let s := cfgSet s 0x258 v
    let accs := (s.accs.filter fun (_, a) => a.space == .gl && (2 ≤ v.toNat / 32 % 8 ||
      ((crewOf s a.crew).map (·.part)).getD 24 == v.toNat % 32)).map (·.1)
    { s with cache := { s.cache with tlb := s.cache.tlb.filter (fun e => !invHits s v e.part e.page e.size),
                                     inv := some (v, accs, []) } }

/-- CFG_XINVCMD_WRITE (R164). -/
def execCfgXinvcmdWrite (v : Word) (s : State) : Host.Outcome State Fault Refusal := .next (xinvWrite v s)

/-- Is an access over, or applied at its home? -/
def accOver (s : State) (id : Nat) : Bool := match tabFind s.accs id with
  | none => true
  | some a => match a.st with
    | .applied _ | .done _ => true
    | _ => false

/-- INVALIDATION_COMPLETION (R164): BUSY clears. -/
def execInvalidationCompletion (s : State) : Host.Outcome State Fault Refusal :=
  match s.cache.inv with
  | none => .next s
  | some (v, accs, _) =>
    if (accs.all (accOver s)) && !s.cache.tlb.any fun e => invHits s v e.part e.page e.size then
      .next { s with cache := { s.cache with inv := none } }
    else .next { s with cache := { s.cache with tlb := s.cache.tlb.filter fun e => !invHits s v e.part e.page e.size } }

/-! ### Policies (R312) -/

/-- A partition's tenant key: eight words at +0x60 (Table OUT-4). -/
def tenantKey (s : State) (p : Nat) : List Byte :=
  (List.range 8).flatMap fun i => bytesOfNat 4 (cfgGet s (cfgAddr 0 (partOff p + 0x60 + 4 * i))).toNat

/-- Successive bytes of a partition's memory, one by one; none if one cannot be read. -/
def partBytes (g : Agent) : Nat → DWord → State → Option (State × List Byte)
  | 0, _, s => some (s, [])
  | n + 1, va, s =>
    match engRead s g va 1 with
    | .error _ => none
    | .ok (s, _, bs) => (partBytes g n (va + 1) s).map fun r => (r.1, bs ++ r.2)

/-- Is a group entry of a policy legal (Table OUT-9)? -/
def entryLegal (bs : List Byte) (j : Nat) : Bool :=
  let o := 48 + 4 * j
  field bs o 1 ≤ 7 && field bs (o + 1) 1 ≤ 4 && 20 ≤ field bs (o + 2) 1 && field bs (o + 2) 1 ≤ 30 && field bs (o + 3) 1 == 0

/-- Is every field of a policy image legal? -/
def policyLegal (key bs : List Byte) : Bool :=
  field bs 0 2 == 1 && field bs 3 1 ≤ 8 && field bs 8 1 ≤ 3 && field bs 9 1 ≤ 2 && field bs 10 6 == 0 &&
    (bs.drop 16).take 32 == key && (List.range (field bs 3 1)).all (entryLegal bs) && field bs 80 32 == 0

/-- RESULT of an installation (R312): the signature, the partition, the serial, the fields. -/
def policyResult (key : List Byte) (p : Nat) (cur : Option (List Byte)) (bs : List Byte) : Nat :=
  let newer := match cur with
    | none => true
    | some old => field old 4 4 < field bs 4 4
  if !Config.verify key (bs.take 112) ((bs.drop 112).take 64) then 2
  else if field bs 2 1 ≠ p then 4
  else if !newer then 5
  else if !policyLegal key bs then 3
  else 1

/-- A write of 1 to GO of a partition block (R312): a policy that passes takes its place at the next survey tick. -/
def policyGo (p : Nat) (s : State) : State :=
  let va : DWord := BitVec.ofNat 64 ((cfgGet s (cfgAddr 0 (partOff p + 0x84))).toNat * 4294967296 +
    (cfgGet s (cfgAddr 0 (partOff p + 0x80))).toNat)
  match partBytes (schedAgent p false) 176 va s with
  | none => modPart s p fun x => { x with result := 3 }
  | some (s, bs) =>
    let r := policyResult (tenantKey s p) p (partOf s p).policy bs
    modPart s p fun x => { x with result := r, nextPolicy := if r = 1 then some bs else x.nextPolicy }

/-- POLICY_INSTALL (R312). -/
def execPolicyInstall (p : Nat) (s : State) : Host.Outcome State Fault Refusal :=
  .next (if p < 24 then policyGo p s else s)

/-! ### Attestation (R311) -/

/-- An attestation report (Table OUT-8): the measurements of the manifest and of the images in load order (R310). -/
def attestBytes (s : State) (fn p : Nat) : List Byte :=
  let m := fitBytes 64 (Config.sha512 (manifestBytes s.flash.manifest))
  let body := bytesOfNat 4 1 ++ bytesOfNat 4 p ++ ((funcOf s fn).nonce.flatMap fun w => bytesOfNat 4 w.toNat) ++ m ++
    fitBytes 64 (Config.sha512 (s.flash.images.flatMap fun i => fitBytes 64 (Config.sha512 i.body))) ++
    (match (partOf s p).policy with
     | some bs => fitBytes 64 (Config.sha512 bs)
     | none => zeros 64) ++
    tenantKey s p ++ bytesOfNat 8 s.time.now ++ fitBytes 32 (Config.identity m)
  body ++ fitBytes 64 (Config.sign m body)

/-- A write of 1 to GO of ACMD (R311): the report is written before BUSY clears. -/
def attestGo (fn p : Nat) (s : State) : State := busWrite s (funcOf s fn).abuf.toNat (attestBytes s fn p)

/-- ATTESTATION_REQUEST (R311): PF 0 names the partition; a virtual function's is its own. -/
def execAttestationRequest (fn part : Nat) (s : State) : Host.Outcome State Fault Refusal :=
  if fn = 0 then .next (attestGo 0 part s)
  else match vfPart s (fn - 1) with
    | some p => .next (attestGo fn p s)
    | none => .next s

/-! ### The survey stream (R313, R314) -/

/-- Counters that a group lists (Table OUT-10). -/
def groupCounters (g : Nat) : Nat := [6, 9, 6, 8, 5, 5, 6, 4].getD g 0

/-- The counters that the model counts, as 12 × group + counter. The others measure what it leaves open, such as stall cycles and
cache hits (notes/assumptions/72.md). -/
def counted : List Nat :=
  [1, 2, 3, 4, 5, 24, 26, 27, 28, 29, 42, 43, 48, 49, 50, 51, 52, 60, 61, 62, 63, 64, 72, 73, 76, 86, 87]

/-- The counters of a word that issues (R314): bundles, lanes, pair words, FORK, END: group 0, counters 1 to 5; TRACE, TRACEF and
SAMPLE: group 6. -/
def wordCounts (i : Instr) (lanes : Nat) : List (Nat × Nat) :=
  [(1, 1), (2, lanes)] ++ match i with
    | .pairWord .. => [(3, 1)]
    | .fork .. => [(4, 1)]
    | .endFibre .. => [(5, 1)]
    | .trace .. => [(72, 1)]
    | .tracef .. => [(73, 1)]
    | .sample .. => [(76, 1)]
    | _ => []

/-- A word has issued: the survey counters of its crew rise. -/
def countWord (b : Bundle) (i : Instr) (s : State) (t : State) : State :=
  match gangOf s b.gang with
  | some g => (wordCounts i b.lanes.length).foldl (fun t x => countCrew t (crewOfGang b.gang) g.core x.1 x.2) t
  | none => t

/-- The first bin of the interval (DT − 2^q, DT]. -/
def firstBin (s : State) (q : Nat) : Nat := (s.time.now - 2 ^ q) / 256 + 1

/-- The counts of a partition in the interval of 2^q ns that ends now. -/
def countsIn (s : State) (part q : Nat) : List SurveyCount :=
  s.survey.counts.filter fun x => x.part == part && firstBin s q ≤ x.bin && x.bin ≤ s.time.now / 256

/-- The crews of a partition that an interval counts: those that live, and those with a count in it. -/
def surveyCrews (s : State) (p q : Nat) : List (Nat × Word × Nat × Nat × Nat) :=
  let cs := countsIn s p q
  let new := s.crews.filterMap fun (k, c) => if c.part = p then some (k, c.shiftId, c.x, c.y, c.z) else none
  new ++ s.survey.who.filterMap fun (k, w) =>
    if w.1 = p && !(new.any fun y => y.1 == k) && cs.any fun x => x.crew == k then some (k, w.2) else none

/-- The sum of a counter over the counts that a test admits. -/
def sumCounts (cs : List SurveyCount) (ctr : Nat) (p : Nat → Nat → Bool) : Nat :=
  (cs.map fun x => if x.ctr = ctr && p x.crew x.core then x.n else 0).sum

/-- A survey record (Table OUT-11). -/
def surveyBytes (now group gran pos core part flags : Nat) (who : Option (Word × Nat × Nat × Nat)) (counts : List Nat) : List Byte :=
  let id := who.getD (0, 0, 0, 0)
  bytesOfNat 8 now ++ [BitVec.ofNat 8 group, BitVec.ofNat 8 gran, BitVec.ofNat 8 pos, BitVec.ofNat 8 core, BitVec.ofNat 8 part,
    BitVec.ofNat 8 flags] ++ zeros 2 ++ bytesOfNat 4 id.1.toNat ++ bytesOfNat 4 id.2.1 ++ bytesOfNat 4 id.2.2.1 ++
    bytesOfNat 4 id.2.2.2 ++ counts.flatMap (bytesOfNat 8)

/-- The twelve counts of a record: those counted, free values for the other listed ones, and 0. -/
def countsOf (s : State) (group : Nat) (exact : Nat → Nat) : List Nat :=
  (List.range 12).map fun n =>
    if groupCounters group ≤ n then 0
    else if counted.contains (12 * group + n) then exact (12 * group + n)
    else (Config.freeBits (s.free * 16777216 + 9970000 + group * 16 + n)).toNat

/-- Is a crew's or a die's interval of 2^q ns incomplete: it was away within it, or is away now (Table OUT-11)? -/
def awayIn (s : State) (q key : Nat) (now : Bool) : Bool :=
  now || s.survey.inc.any fun x => x.2 == key && firstBin s q ≤ x.1

/-- INC of a record over crews and dies. -/
def incOf (s : State) (q : Nat) (crews dies : List Nat) : Bool :=
  (crews.any fun ck => awayIn s q (2 * ck) ((crewOf s ck).any crewSaved)) ||
    dies.any fun p => awayIn s q (2 * p + 1) ((tabFind s.dies p).any fun d => !d.inService)

/-- What a stream's record is about: the ring, the partition, q of R314 and whether it exceeds K. -/
structure StreamAt where
  ring : Nat
  part : Nat
  q : Nat
  coarse : Bool
  deriving DecidableEq, Repr

/-- A record about some of a partition's crews and cores goes to a ring. -/
def surveyRecord (x : StreamAt) (group gran pos core : Nat) (who : Option (Word × Nat × Nat × Nat)) (p : Nat → Nat → Bool)
    (crews dies : List Nat) (s : State) : State :=
  let flags := (if incOf s x.q crews dies then 1 else 0) + if x.coarse then 2 else 0
  let cs := countsIn s x.part x.q
  let s := report s x.ring (surveyBytes s.time.now group gran pos core x.part flags who (countsOf s group fun c => sumCounts cs c p))
  { s with free := s.free + 1 }

/-- Where a crew is: its position and core, or 0xFF for one that is gone. -/
def placeOf (s : State) (ck : Nat) : Nat × Nat := match crewOf s ck with
  | some c => (c.pos, c.core % 16)
  | none => (255, 255)

/-- The records of one group per crew. -/
def crewRecords (x : StreamAt) (group : Nat) (s : State) : State :=
  (surveyCrews s x.part x.q).foldl (fun s w =>
    let at' := placeOf s w.1
    surveyRecord x group 4 at'.1 at'.2 (some w.2) (fun ck _ => ck == w.1) [w.1] [] s) s

/-- The period that a survey register gives. DESIGN CHOICE: K of CFG offset 0x390 keeps any value written to it, and outside 8 to 20
the period is that of the nearest bound (notes/assumptions/97.md). -/
def clampK (k : Nat) : Nat := max 8 (min 20 k)

/-- The tick of a tenant's stream: every group, per crew (R313). -/
def tenantTick (p : Nat) (s : State) : State :=
  let ctl := cfgGet s (cfgAddr 0 (partOff p + 0xC0))
  let k := clampK (ctl.toNat % 32)
  if !ctl.getLsbD 31 || !partEn s p || s.time.now % 2 ^ k ≠ 0 then s
  else (List.range 8).foldl (fun s g => crewRecords { ring := partOff p + 0x40, part := p, q := k, coarse := false } g s) s

/-- The granularity and resolution at which the operator sees a group of a partition: none for a group in no record (R313). -/
def groupView (p : Partition) (g : Nat) : Option (Nat × Nat) :=
  match p.policy with
  | none => some (1, 20)
  | some bs =>
    match (List.range (min 8 (field bs 3 1))).find? fun j => field bs (48 + 4 * j) 1 == g with
    | some j => let gran := field bs (49 + 4 * j) 1
      if gran = 0 then none else some (gran, field bs (50 + 4 * j) 1)
    | none => none

/-- Cores whose pair a partition may run on. -/
def coresFor (s : State) (p : Nat) : List Nat := (tabKeys s.cores).filter fun c => pairHas s c p

/-- The position that a count's core stands for: a core's die, or the die itself. -/
def countPos (core : Nat) : Nat := if 512 ≤ core then core - 512 else core / 16

/-- The operator's records of one group of a partition (R313, R314). -/
def operatorGroup (x : StreamAt) (gran g : Nat) (s : State) : State :=
  let crews := (surveyCrews s x.part x.q).map (·.1)
  let cores := coresFor s x.part
  let dies := (cores.map (· / 16)).eraseDups
  let on := fun (f : Nat → Bool) => crews.filter fun ck => match crewOf s ck with
    | some c => (crewCores c).any f
    | none => false
  if gran = 1 then surveyRecord x g 1 255 255 none (fun _ _ => true) crews dies s
  else if gran = 2 then
    dies.foldl (fun s pos =>
      surveyRecord x g 2 pos 255 none (fun _ c => countPos c == pos) (on fun c => c / 16 == pos) [pos] s) s
  else if gran = 3 then
    cores.foldl (fun s core =>
      surveyRecord x g 3 (core / 16) (core % 16) none (fun _ c => c == core) (on fun c => c == core) [core / 16] s) s
  else crewRecords x g s

/-- The operator's stream over one partition at this tick: each group over its own aligned interval of 2^max(r, K) ns. -/
def operatorPart (k p : Nat) (s : State) : State :=
  if !partEn s p then s
  else (List.range 8).foldl (fun s g => match groupView (partOf s p) g with
    | some (gran, r) =>
      let q := max r k
      if s.time.now % 2 ^ q ≠ 0 then s
      else operatorGroup { ring := opSurveyRing, part := p, q, coarse := decide (k < q) } gran g s
    | none => s) s

/-- The longest interval of a stream is over: what is older is forgotten, and the bins up to now take no more counts. -/
def closeBins (s : State) : State :=
  let young := fun (b : Nat) => s.time.now < 256 * b + 2 ^ 30
  let counts := s.survey.counts.filter fun x => young x.bin
  { s with survey :=
      { counts, who := s.survey.who.filter fun (k, _) => counts.any fun x => x.crew == k,
        inc := s.survey.inc.filter fun x => young x.1, opened := s.time.now / 256 + 1 } }

/-- Policies that wait for a survey tick come into force (R312). -/
def policiesInForce (s : State) : State :=
  { s with parts := tabMap s.parts fun _ (x : Partition) => match x.nextPolicy with
      | some bs => { x with policy := some bs, nextPolicy := none }
      | none => x }

/-- SURVEY_TICK (R314): the streams whose tick this is, once. -/
def execSurveyTick (s : State) : Host.Outcome State Fault Refusal :=
  let k := clampK ((cfgGet s (cfgAddr 0 0x390)).toNat % 32)
  if s.time.now % 256 ≠ 0 || s.time.now / 256 < s.survey.opened then .next s
  else
    let s := (tabKeys s.engines).foldl countStall s
    let s := (List.range 24).foldl (fun s p => tenantTick p s) s
    if s.time.now % 2 ^ k ≠ 0 then .next (closeBins s)
    else .next (closeBins ((List.range 24).foldl (fun s p => operatorPart k p s) (policiesInForce s)))

end Sys2Proof.Machine
end

