-- ==== Sys2Proof/Machine/CfgSpace.lean ====
section
/-! DEFINITION. The configuration space as software reads and writes it (R4, R15, R16 and the register tables of every
chapter), the functions' BAR0 registers (Tables OUT-2, OUT-4; R311, R316), and BAR2 (R296). -/

namespace Sys2Proof.Machine

/-- A word out of fields at bit positions. -/
def packFields (fs : List (Nat × Nat)) : Word := BitVec.ofNat 32 ((fs.map fun x => x.1 * 2 ^ x.2).foldl (· + ·) 0)

/-- 1 or 0. -/
def bit01 (b : Bool) : Nat := if b then 1 else 0

/-! ### Reads below offset 0x200 (Table PKG-3) -/

/-- The index of a register of an array of `n` registers at `base`. -/
def regIndex (base n off : Nat) : Option Nat := if base ≤ off && off < base + 4 * n then some ((off - base) / 4) else none

/-- CFG.CORE[c] (Table PKG-6). -/
def coreWord (k : DieKind) (c : Core) : Word :=
  let slices := (slicesOf k c).foldl (fun a i => a + 2 ^ i) 0
  packFields [(c.ray.toNat, 30), (slices, 24), (c.eng.toNat, 18), (c.pipe.toNat, 0)]

/-- CFG.CANARY[c] (Table PKG-9). -/
def canaryWord (c : Core) : Word := packFields [(bit01 c.canaryPend, 31), (c.canary, 16), (c.canaryEvents, 0)]

/-- STATE of CFG.CBFILL (Table MEM-6). -/
def fillCode : FillState → Nat
  | .normal => 0
  | .vacate => 1
  | .backfill => 2
  | .reduced => 3
  | .gone => 4

/-- CFG.CBFILL[c]. -/
def fillWord (c : Core) : Word := packFields [(fillCode c.fill, 29), (busCount c.vbus, 24), (c.wmark, 0)]

/-- A word of an error log (R159). -/
def logWord (log : Tab (List Word)) (off : Nat) : Word := ((tabFind log (off / 16 % 64)).getD []).getD (off / 4 % 4) 0

/-- A register of a die's window that is not position 0's alone. The units of a die out of service are not in service (R18). -/
def dieRead (s : State) (pos off : Nat) (d : Die) : Word :=
  let core := fun base n (f : Core → Word) => (regIndex base n off).bind fun c => (tabFind s.cores (coreKey pos c)).map f
  let n := coresOf d.kind
  let sh := if d.kind = .shading then 8 else 0
  if off = 0 then packFields [(d.dieRev.toNat, 16), (d.baseRev.toNat, 8), (pos, 3), (1, 2), ((kindBits d.kind).toNat, 0)]
  else if off = 4 then (if d.inService then d.health else 0)
  else if off = 8 then (if d.inService && d.kind == .memory then d.chan.zeroExtend 32 else 0)
  else if off = 0xC then d.links.zeroExtend 32
  else if off = 0x10 then d.test.zeroExtend 32
  else if off = 0x20 then d.slope.zeroExtend 32
  else if off = 0x24 then packFields [(d.temp % 256, 8), (d.level, 0)]
  else
    let found := [core 0x40 n (coreWord d.kind), core 0x80 sh fun c => c.vbus.zeroExtend 32,
      core 0xA0 sh fun c => c.tex.zeroExtend 32, core 0xC0 n canaryWord, core 0x220 sh fillWord]
    match found.findSome? id with
    | some w => w
    | none =>
      if (ownKind s (cfgAddr pos off)).isSome then cfgGet s (cfgAddr pos off)
      else if d.kind ≠ .shading then 0
      else if off = 0x200 then BitVec.ofNat 32 d.alogN
      else if off = 0x204 then BitVec.ofNat 32 d.blogN
      else if 0x400 ≤ off && off < 0x800 then logWord d.alog off
      else if 0x800 ≤ off && off < 0xC00 then logWord d.blog off
      else if off = 0x1100 || off = 0x1104 then cfgGet s (cfgAddr pos off)
      else 0

/-! ### Registers of position 0 -/

/-- A signed number of 16 bits that saturates. -/
def sat16 (x : Int) : Nat := ofInt 16 (if x < -32768 then -32768 else if 32767 < x then 32767 else x)

/-- Was an instant in the last 2 s? -/
def recent (s : State) (t : Option Nat) : Bool := match t with
  | some t => s.time.now < t + 2000000000
  | none => false

/-- Time status (Table OUT-7). -/
def timeWord (s : State) : Word :=
  packFields [(bit01 s.time.lock, 31), (bit01 (recent s s.time.ppsAt), 30), (bit01 (recent s s.time.ptpAt), 29),
    (sat16 s.time.offset, 0)]

/-- CFG.FATTR (Table MEM-5): BUSY while the selected frame changes. -/
def fattrWord (s : State) : Word :=
  let f := (cfgGet s 0x248).toNat
  let a := frameOf s (524288 * f)
  packFields [(bit01 ((s.fattr.map (·.1)) == some f), 31), (bit01 a.chk, 1), (bit01 a.packed, 0)]

/-- A partition block's first word (Table OUT-4). -/
def partWord (s : State) (p : Nat) : Word :=
  let x := partOf s p
  packFields [(bit01 (partEn s p), 31), (bit01 x.susp, 30), (bit01 (partIdle s p), 29), (bit01 x.scrub, 28),
    (bit01 x.failed, 27), ((cfgGet s (cfgAddr 0 (partOff p))).toNat % 1048576, 0)]

/-- The plain registers of position 0: the bits that software writes; none at an offset without one. -/
def plainMask (off : Nat) : Option Word :=
  let ring := fun (low : Word) (o : Nat) =>
    if o = 0 then some low else if o = 4 then some 0x7FFF#32 else if o = 8 then some 0xF#32
    else if o = 0xC then some 0xFFFFFFFF#32 else if o = 0x10 || o = 0x14 then some 0#32 else none
  let window := fun (o : Nat) =>
    if o = 0 || o = 4 then some 0x1FFFF#32 else if o = 8 then some 0xFFFFFFFF#32
    else if o = 0xC then some 0x80000F1F#32 else none
  if off % 4 ≠ 0 then none
  else if off = 0x240 then some 0xFFFFFE00
  else if off = 0x244 then some 0xFFFF
  else if off = 0x248 then some 0x1FFFFFFF
  else if off = 0x250 then some 0xFFF80000
  else if off = 0x254 then some 0x7FFF
  else if 0x300 ≤ off && off < 0x318 then ring 0xFFFFFFE0 (off - 0x300)
  else if 0x320 ≤ off && off < 0x338 then ring 0xFFFFFFC0 (off - 0x320)
  else if 0x340 ≤ off && off < 0x358 then ring 0xFFFFFF80 (off - 0x340)
  else if 0x360 ≤ off && off < 0x378 then ring 0xFFFFFFC0 (off - 0x360)
  else if off = 0x384 then some 0xFF
  else if off = 0x390 then some 0x1F
  else if 0x700 ≤ off && off < 0xF00 then window (off % 0x20)
  else if 0x4000 ≤ off && off < 0x5800 then
    let o := off % 256
    if o = 0x08 then some 0xFFFFF000
    else if o = 0x0C || o = 0x10 || o = 0x18 then some 0xFFFF
    else if o = 0x14 then some 0xFFFFFFE0
    else if o = 0x1C then some 0x1F
    else if 0x20 ≤ o && o < 0x38 then ring 0xFFFFFFC0 (o - 0x20)
    else if 0x40 ≤ o && o < 0x58 then ring 0xFFFFFF80 (o - 0x40)
    else if 0x60 ≤ o && o < 0x80 then some 0xFFFFFFFF
    else if o = 0x80 || o = 0x84 then some 0xFFFFFFFF
    else if 0xA0 ≤ o && o < 0xB8 then ring 0xFFFFFFC0 (o - 0xA0)
    else none
  else none

/-- The pass registers that hold what software writes, and their bits (Table REND-1). -/
def passMask (off : Nat) : Option Word :=
  if off % 4 ≠ 0 then none
  else if off = 0x1004 || off = 0x1008 || off = 0x100C then some 0xFFFFFFFF
  else if off = 0x101C then some 0xFFFFFFF8
  else if off = 0x1020 || off = 0x1028 then some 0xFFFF
  else if off = 0x1024 then some 0xFFFFFF00
  else if 0x1040 ≤ off && off < 0x10C0 then
    let o := off % 16
    if o = 0 then some 0xFFFFFF00 else if o = 4 then some 0xFFFF else if o = 8 then some 0xFFFFFFFF else some 0x1FF
  else none

/-- A register of position 0 alone. -/
def zeroRead (s : State) (off : Nat) : Option Word :=
  if off = 0x100 then some (packFields [(s.boot.fails, 8), (s.boot.cause.toNat, 0)])
  else if off = 0x104 || off = 0x108 then some 0
  else if off = 0x24C then some (fattrWord s)
  else if off = 0x258 then some (cfgGet s 0x258 ||| if s.cache.inv.isSome then 0x80000000 else 0)
  else if off = 0x380 then some (timeWord s)
  else if off = 0x388 then some (BitVec.ofNat 32 s.time.now)
  else if off = 0x38C then some (s.time.thi.getD (BitVec.ofNat 32 (s.time.now / 4294967296)))
  else if 0x500 ≤ off && off < 0x680 then
    let p := peerOf s ((off - 0x500) / 0x20)
    if off % 0x20 = 0 then some (packFields [(p.state, 30), (bit01 ((cfgGet s off).getLsbD 29), 29)])
    else if off % 0x20 = 4 then some (BitVec.ofNat 32 p.refused)
    else none
  else if off = 0x1000 then some (passStatus s)
  else if off = 0x1010 then some (horizonWord s)
  else if off = 0x1014 then some (flushStatus s)
  else if off = 0x1018 then some s.rend.cut
  else if 0x2000 ≤ off && off < 0x4000 then some (cfgGet s off)
  else if 0x4000 ≤ off && off < 0x5800 && off % 256 = 0 then some (partWord s ((off - 0x4000) / 256))
  else if 0x4000 ≤ off && off < 0x5800 && off % 256 = 0x88 then
    let x := partOf s ((off - 0x4000) / 256)
    some (packFields [(bit01 x.busy, 30), (x.result, 0)])
  else if 0x4000 ≤ off && off < 0x5800 && off % 256 = 0xC0 then some (cfgGet s off)
  else if 0x6000 ≤ off && off < 0x6300 then some (cfgGet s off)
  else if (plainMask off).isSome || (passMask off).isSome then some (cfgGet s off)
  else none

/-! ### The space as a whole (R15, R27) -/

/-- Is a position's window there: a present position, in refuge mode only position 0 and the refuge die's? -/
def windowThere (s : State) (pos : Nat) : Bool :=
  (tabFind s.dies pos).isSome && (!s.boot.refuge || pos == 0 || s.boot.refugePos == some pos)

/-- A configuration read: an address that reads no register reads 0; a read of TLO latches THI. -/
def cfgRead (s : State) (addr : Nat) : State × Word :=
  let pos := addr / 67108864
  let off := addr % 67108864
  match tabFind s.dies pos with
  | none => (s, 0)
  | some d =>
    if !windowThere s pos || off % 4 ≠ 0 then (s, 0)
    else if pos = 0 then
      match zeroRead s off with
      | some w =>
        if off = 0x388 then ({ s with time := { s.time with thi := some (BitVec.ofNat 32 (s.time.now / 4294967296)) } }, w)
        else (s, w)
      | none => (s, dieRead s 0 off d)
    else (s, dieRead s pos off d)

/-- A write to a partition block's first word by the operator (Table OUT-4, R304). -/
def partControl (p : Nat) (v : Word) (s : State) : State :=
  let slice := max 100 (min 100000 (v.toNat % 1048576))
  let s := cfgSet s (cfgAddr 0 (partOff p)) (BitVec.ofNat 32 slice)
  let s := if v.getLsbD 31 then partOn p s else if partEn s p then partOff' p s else s
  if v.getLsbD 30 && !(partOf s p).susp then partSuspend p s
  else if !v.getLsbD 30 && (partOf s p).susp then partResume p s
  else s

/-- A write to a partition block at offset `o`; `tenant` if a virtual function makes it (R303). -/
def blockWrite (p o : Nat) (v : Word) (tenant : Bool) (s : State) : State :=
  let a := partOff p + o
  if o = 0 then (if tenant then s else partControl p v s)
  else if o = 0x88 then (if v.getLsbD 31 then policyGo p s else s)
  else if o = 0xC0 then cfgSet s a (packFields [(bit01 (v.getLsbD 31), 31), (clampK (v.toNat % 32), 0)])
  else
    match plainMask a with
    | none => s
    | some m =>
      let ro := m = 0
      let operator := o < 0x20
      let key := 0x60 ≤ o && o < 0x80
      if ro || (tenant && (operator || key)) || (key && partEn s p) then s else cfgSet s a (v &&& m)

/-- A write to a register of position 0 alone. -/
def zeroWrite (off : Nat) (v : Word) (s : State) : State :=
  if off = 0x104 then bootokWrite v s
  else if off = 0x108 then bootctlWrite v s
  else if off = 0x24C then fattrWrite v s
  else if off = 0x258 then xinvWrite v s
  else if 0x500 ≤ off && off < 0x680 then (if off % 0x20 = 0 then cfgSet s off (v &&& 0x20000000) else s)
  else if off = 0x1000 then passWrite v s
  else if off = 0x1014 then flushWrite v s
  else if 0x2000 ≤ off && off < 0x4000 then
    let r := (off - 0x2000) / 2
    writeClaim (writeClaim s r (v.toNat % 65536)) (r + 1) (v.toNat / 65536)
  else if 0x4000 ≤ off && off < 0x5800 then blockWrite ((off - 0x4000) / 256) (off % 256) v false s
  else if 0x6000 ≤ off && off < 0x6300 then vfMapSet ((off - 0x6000) / 4) v s
  else match passMask off with
    | some m => if s.rend.passOpen then s else cfgSet s off (v &&& m)
    | none => match plainMask off with
      | some m => if m = 0 then s else cfgSet s off (v &&& m)
      | none => s

/-- A write to a register of a die that is not position 0's alone. -/
def dieWrite (pos off : Nat) (d : Die) (v : Word) (s : State) : State :=
  if off = 0x20 then slopeWrite pos v s
  else match regIndex 0xC0 (coresOf d.kind) off with
    | some c => if v.getLsbD 31 then modCore s (coreKey pos c) fun c => { c with canaryPend := false } else s
    | none =>
      if d.kind = .shading && (off = 0x1100 || off = 0x1104) && !s.rend.passOpen then
        cfgSet s (cfgAddr pos off) (if off = 0x1100 then v else v &&& 0xF)
      else s

/-- A configuration write (R4, R15, R335), for the issue `waits` of a CFGWR: whether it is still to be applied. -/
def cfgWrite (addr : Nat) (v : Word) (waits : List (Nat × Nat × Nat)) (s : State) : State × Bool :=
  let pos := addr / 67108864
  let off := addr % 67108864
  match tabFind s.dies pos with
  | none => (s, false)
  | some d =>
    if !windowThere s pos || off % 4 ≠ 0 then (s, false)
    else if (ownKind s addr).isSome then ownWrite addr v waits s
    else if pos = 0 && (zeroRead s off).isSome then (zeroWrite off v s, false)
    else (dieWrite pos off d v s, false)

/-- CFG_REGISTER_WRITE (R4): a write to a configuration register under its access codes. -/
def execCfgRegisterWrite (addr v : Word) (s : State) : Host.Outcome State Fault Refusal :=
  .next (cfgWrite addr.toNat v [] s).1

/-- BAR2_CONFIG_ACCESS (R296): a 32-bit access acts as CFGRD or CFGWR; of the others a posted write is logged through AER. -/
def execBar2ConfigAccess (write : Bool) (off size : Nat) (v : Word) (s : State) : Host.Outcome State Fault Refusal :=
  if size = 4 && off % 4 = 0 then
    .next (if 2147483648 ≤ off then s else if write then (cfgWrite off v [] s).1 else (cfgRead s off).1)
  else .next (if write then { s with aer := s.aer + 1 } else s)

/-! ### BAR0 (Tables OUT-2, OUT-4; R311, R316) -/

/-- The outcome of an event as a state. -/
def stateOf (s : State) (o : Host.Outcome State Fault Refusal) : State := match o with
  | .next t => t
  | _ => s

/-- A write to DBGCMD (R316, R317): with GO it starts the command. Other command codes start none. -/
def dbgCmdWrite (fn : Nat) (v : Word) (s : State) : State :=
  let cmd := v.toNat % 256
  let bar := v.toNat / 256 % 32
  let s := dbgMod s fn fun d => { d with cmd := BitVec.ofNat 8 cmd, bar := BitVec.ofNat 5 bar }
  if !v.getLsbD 31 then s
  else if cmd = 1 then stateOf s (execDebugStopCommand fn s)
  else if cmd = 2 then stateOf s (execDebugResumeCommand fn s)
  else if cmd = 3 then stateOf s (execDebugStepCommand fn bar s)
  else if cmd = 4 then stateOf s (execDebugArmCommand fn s)
  else if cmd = 5 then stateOf s (execDebugDisarmCommand fn s)
  else s

/-- A 64-bit register with its low, or high, word changed. -/
def setLow (d : DWord) (v : Word) : DWord := d.extractLsb' 32 32 ++ v
/-- The high word. -/
def setHigh (d : DWord) (v : Word) : DWord := v ++ d.extractLsb' 0 32

/-- A write to a queue register (Table OUT-2): base and size fields stand while EN is 1. -/
def queueWrite (fn off : Nat) (v : Word) (s : State) : State :=
  let base := fun (f : Func → Func) => if (funcOf s fn).en then s else modFunc s fn f
  if off = 0x00 then base fun f => { f with sqBase := setLow f.sqBase (v &&& 0xFFFFFF00) }
  else if off = 0x04 then base fun f => { f with sqBase := setHigh f.sqBase v }
  else if off = 0x08 then base fun f => { f with sqLogn := v.truncate 4 }
  else if off = 0x0C then sqtailWrite fn v s
  else if off = 0x14 then base fun f => { f with cqBase := setLow f.cqBase (v &&& 0xFFFFFFF0) }
  else if off = 0x18 then base fun f => { f with cqBase := setHigh f.cqBase v }
  else if off = 0x1C then base fun f => { f with cqLogn := v.truncate 4 }
  else if off = 0x20 then modFunc s fn fun f => { f with cqHead := v }
  else if off = 0x24 then (if v.getLsbD 31 then queueOn fn s else queueOff fn s)
  else s

/-- A write to a debug register (R316). -/
def debugWrite (fn off : Nat) (v : Word) (s : State) : State :=
  if off = 0x00 then dbgMod s fn fun d => { d with shiftId := v }
  else if off = 0x04 then dbgMod s fn fun d => { d with x := v }
  else if off = 0x08 then dbgMod s fn fun d => { d with y := v }
  else if off = 0x0C then dbgMod s fn fun d => { d with z := v }
  else if off = 0x10 then dbgCmdWrite fn v s
  else if off = 0x18 then dbgMod s fn fun d => { d with buf := setLow d.buf v }
  else if off = 0x1C then dbgMod s fn fun d => { d with buf := setHigh d.buf v }
  else s

/-- A write to an attestation register (R311). -/
def attestWrite (fn off : Nat) (v : Word) (s : State) : State :=
  if off < 0x20 then modFunc s fn fun f => { f with nonce := f.nonce.set (off / 4) v }
  else if off = 0x20 then modFunc s fn fun f => { f with abuf := setLow f.abuf v }
  else if off = 0x24 then modFunc s fn fun f => { f with abuf := setHigh f.abuf v }
  else if off = 0x28 then
    let s := modFunc s fn fun f => { f with apart := v.truncate 5 }
    if v.getLsbD 31 then stateOf s (execAttestationRequest fn (v.toNat % 32) s) else s
  else s

/-- FUNCTION_REGISTER_WRITE (R296, R297): a write to a BAR0 register of a function. -/
def execFunctionRegisterWrite (fn off : Nat) (v : Word) (s : State) : Host.Outcome State Fault Refusal :=
  if 192 < fn || off % 4 ≠ 0 then .next s
  else if off < 0x1000 then .next (queueWrite fn off v s)
  else if off < 0x1100 then .next (match if fn = 0 then none else vfPart s (fn - 1) with
    | some p => blockWrite p (off - 0x1000) v true s
    | none => s)
  else if 0x2000 ≤ off && off < 0x2020 then .next (debugWrite fn (off - 0x2000) v s)
  else if 0x3000 ≤ off && off < 0x302C then .next (attestWrite fn (off - 0x3000) v s)
  else .next s

end Sys2Proof.Machine
end

