-- ==== Sys2Proof/Machine/Special.lean ====
section
/-! DEFINITION. The words that read and write status, control and configuration registers, and SLEEP (R82 to R86, R334, R335,
R386, R398, R410, R411). -/

namespace Sys2Proof.Machine

/-! ### RDSR (R82 to R84, R386) -/

/-- The free value of a register that Table WORD-6 gives no geometry die. -/
def geoValue (s : State) (num : Nat) : Word := Config.freeWord (s.free * 16777216 + 9980000 + num)

/-- The latched high word, or the current one. -/
def highOf (latch : Option Word) (v : Nat) : Word := latch.getD (BitVec.ofNat 32 (v / 4294967296))

/-- A status or control register as a lane's fibre reads it; a reserved number reads 0 (Table WORD-3). -/
def srValue (s : State) (c : Ctx) (l num : Nat) : Word :=
  let cr := crewD s c.gk
  let fb := (tabFind c.g.fibres l).getD (newFibre 0 0)
  let half := halfOf cr c.g.core
  let n := fun k : Nat => BitVec.ofNat 32 k
  let die := tabFind s.dies cr.pos
  let p := partOf s cr.part
  match num with
  | 0x00 => n l
  | 0x01 => n c.g.gw
  | 0x02 => 32
  | 0x03 => n (c.gk % 256)
  | 0x04 => n cr.x
  | 0x05 => n cr.y
  | 0x06 => n cr.z
  | 0x07 => n cr.crewN
  | 0x08 => cr.shiftId
  | 0x09 => n (c.g.core % 16)
  | 0x0A => n (c.g.core / 16)
  | 0x0B => n cr.part
  | 0x0C => n (readingOf s c.g.core)
  | 0x0D => highOf fb.timeHi (readingOf s c.g.core)
  | 0x0E => n c.cyc
  | 0x0F => highOf fb.cycHi c.cyc
  | 0x10 => n fb.wbase
  | 0x11 => n c.g.wsize
  | 0x12 => n cr.shrink
  | 0x14 => (flagsRead (s.free * 16777216 + 9990000 + 4096 * l) fb.sum fb.flBase fb.flq).zeroExtend 32
  | 0x18 => fb.tcause.zeroExtend 32
  | 0x19 => fb.tpc
  | 0x1A => fb.taddr.truncate 32
  | 0x1B => fb.taddr.extractLsb' 32 32
  | 0x1C => fb.tinfo
  | 0x20 => n (cr.spBase.getD half 0)
  | 0x21 => n cr.spSize
  | 0x22 => n (cr.cbBase.getD half 0)
  | 0x23 => n cr.cbSize
  | 0x40 => cr.tvec.truncate 32 &&& 0xFFFFFFF8
  | 0x41 => cr.tvec.extractLsb' 32 32
  | 0x42 => fb.fmode.zeroExtend 32
  | 0x43 => if c.g.chk then 1 else 0
  | 0x44 => cr.htab.truncate 32 &&& 0xFFFFFFC0
  | 0x45 => cr.htab.extractLsb' 32 32
  | 0x46 => n p.leaseMax
  | 0x48 => n p.rasThr
  | 0x49 => if onGeometry s c.g then geoValue s num else n ((die.map (·.cbRetry.toNat)).getD 0)
  | 0x4A => if onGeometry s c.g then geoValue s num else n ((die.map (·.cbFoldWait.toNat)).getD 0)
  | _ => 0

/-- The latches that a read sets (R84). -/
def srLatch (s : State) (c : Ctx) (num : Nat) (ls : List Nat) : State :=
  let hi := fun v : Nat => some (BitVec.ofNat 32 (v / 4294967296))
  modGang s c.gk fun g => ls.foldl (fun g l => modFibreG g l fun f =>
    if num = 0x0C then { f with timeHi := hi (readingOf s c.g.core) } else if num = 0x0E then { f with cycHi := hi c.cyc } else f) g

/-- RDSR (R386). -/
def execRdsr (h : Hdr) (d : Opnd) (num : BitVec 8) (s : State) : Host.Outcome State Fault Refusal :=
  let n := num.toNat
  runWord { hdr := h, names := opNames d 1, reads := readsAll [], early := noEarly, wait := noWait,
            body := fun c s =>
              let ls := dstLanes c d
              regPlan (srLatch s c n ls) c 4 (ls.map fun l => oneWrite d l (srValue s c l n)) [] } s

/-! ### WRSR (R83, R85, R86, R410) -/

/-- Privileged registers (Table WORD-3). -/
def srPrivileged (n : Nat) : Bool := [0x40, 0x41, 0x44, 0x45, 0x46, 0x48, 0x49, 0x4A].contains n

/-- Registers that every crew may write. -/
def srOpen (n : Nat) : Bool := [0x14, 0x42, 0x43].contains n

/-- The decode trap of a WRSR (R83). -/
def wrsrEarly (n : Nat) (s : State) (_ : Gang) (_ : List Nat) : Option TrapInfo :=
  let svc := match s.issue with
    | some b => (crewD s b.gang).svc
    | none => false
  if srOpen n || (srPrivileged n && svc) then none else some { trapOf 0x02 with info := BitVec.ofNat 32 n }

/-- A fibre's SR.FFLAGS takes a value once its earlier words have merged their flags (R121). -/
def setFlags (l : Nat) (v : Word) (g : Gang) : Gang :=
  modFibreG g l fun f =>
    let v : Flags := v.truncate 4
    match (f.flq.filter fun e => f.sum < e.due).map (·.due) with
    | [] => { f with fflags := v, flBase := v, flq := [] }
    | d :: ds => { f with fflags := v, flq := f.flq ++ [{ write := true, val := v, due := ds.foldl max d }] }

/-- A register that the crew, gang, partition or die holds takes the value of the lowest lane; a write to CR.HTAB drops the
descriptors that the crew's cores hold (R201). -/
def srWrite (s : State) (c : Ctx) (n : Nat) (v : Word) : State :=
  let ck := crewOfGang c.gk
  let cr := crewD s c.gk
  let die := fun f => if onGeometry s c.g then s else modDie s cr.pos f
  if n = 0x40 then modCrew s ck fun x => { x with tvec := setLow x.tvec (v &&& 0xFFFFFFF8) }
  else if n = 0x41 then modCrew s ck fun x => { x with tvec := setHigh x.tvec v }
  else if n = 0x43 then
    modGang s c.gk fun g => c.on.foldl (fun g l => modFibreG g l fun f => { f with chk := v.getLsbD 0 }) { g with chk := v.getLsbD 0 }
  else if n = 0x44 then dropTable (modCrew s ck fun x => { x with htab := setLow x.htab (v &&& 0xFFFFFFC0) }) cr
  else if n = 0x45 then dropTable (modCrew s ck fun x => { x with htab := setHigh x.htab v }) cr
  else if n = 0x46 then modPart s cr.part fun x => { x with leaseMax := max 256 (min 16384 (v.toNat % 65536)) }
  else if n = 0x48 then modPart s cr.part fun x => { x with rasThr := v.toNat % 16777216 }
  else if n = 0x49 then die fun d => { d with cbRetry := v.truncate 4 }
  else if n = 0x4A then die fun d => { d with cbFoldWait := BitVec.ofNat 24 (v.toNat % 16777216) }
  else s

/-- WRSR (R410): SR.FFLAGS and CR.FMODE in each lane, every other register once. -/
def execWrsr (h : Hdr) (a : Opnd) (num : BitVec 8) (s : State) : Host.Outcome State Fault Refusal :=
  let n := num.toNat
  runWord { hdr := h, names := opNames a 1, reads := readsAll (opReads a 1), early := wrsrEarly n, wait := noWait,
            body := fun c s =>
              let st :=
                if n = 0x14 then modGang s c.gk fun g => c.on.foldl (fun g l => setFlags l (rd s c l a) g) g
                else if n = 0x42 then
                  modGang s c.gk fun g => c.on.foldl (fun g l => modFibreG g l fun f =>
                    { f with fmode := (rd s c l a).truncate 2 }) g
                else srWrite s c n (rdU s c a)
              { st, ends := allNext c, comp := .issue } } s

/-! ### SLEEP (R398) -/

/-- SLEEP: the fibre is held until its reading reaches d + A. -/
def execSleep (h : Hdr) (a : Opnd) (s : State) : Host.Outcome State Fault Refusal :=
  runWord { hdr := h, names := opNames a 1, reads := readsAll (opReads a 1), early := noEarly, wait := noWait,
            body := fun c s =>
              { st := s, ends := c.on.map fun l => (l, .hold (.sleep (readingOf s c.g.core + (rd s c l a).toNat))),
                comp := .lanes c.on.length } } s

/-- Until when a fibre sleeps. -/
def sleepHold (g : Gang) (l : Nat) : Option Nat :=
  (tabFind g.fibres l).bind fun f => f.held.bind fun h => match h.why with
    | .sleep t => some t
    | _ => none

/-- SLEEP_EXPIRY (R398): the sleeper's time has come; the gang's other sleepers whose time has come go on in the same cycle. -/
def execSleepExpiry (gang lane : Nat) (s : State) : Host.Outcome State Fault Refusal :=
  match gangOf s gang with
  | none => .next s
  | some g =>
    let due := fun l => match sleepHold g l with
      | some t => decide (t ≤ readingOf s g.core)
      | none => false
    .next (if due lane then releaseLanes s gang ((tabKeys g.fibres).filter due) else s)

/-! ### CFGRD and CFGWR (R334, R335) -/

/-- The decode trap of CFGRD and CFGWR in a crew that is not a service crew. -/
def cfgEarly (s : State) (_ : Gang) (_ : List Nat) : Option TrapInfo :=
  match s.issue with
  | some b => if (crewD s b.gang).svc then none else some (trapOf 0x02)
  | none => none

/-- The alignment trap of a lane. -/
def cfgTrap (s : State) (c : Ctx) (a : Opnd) (l : Nat) : Option TrapInfo :=
  let x := rd s c l a
  if x.toNat % 4 = 0 then none else some (addrTrap 0x08 (x.zeroExtend 64))

/-- The position of a configuration address (R15). -/
def cfgPos (a : Word) : Nat := a.toNat / 67108864

/-- Has a fibre an earlier CFGRD of a position still to be performed (R335)? -/
def readsCfg (s : State) (gk l before pos : Nat) : Bool :=
  s.accs.any fun (id, b) => id < before && b.gang == gk && b.lanes.contains l && accWaits b && match b.op with
    | .cfgrd _ addr => cfgPos addr == pos
    | _ => false

/-- Has a fibre an earlier CFGWR of a position that is still to take effect (R302, R335)? -/
def writesCfg (s : State) (gk l before pos : Nat) : Bool :=
  s.own.any fun (k, w) => k / 67108864 == pos && w.waits.any fun x => x.1 == gk && x.2.1 == l && x.2.2 < before

/-- A CFGWR waits for its fibres' earlier accesses to the positions it writes (R335). -/
def cfgWait (a : Opnd) (c : Ctx) (s : State) : Bool :=
  c.on.any fun l => readsCfg s c.gk l s.nextId (cfgPos (rd s c l a)) || writesCfg s c.gk l s.nextId (cfgPos (rd s c l a))

/-- CFGRD (R334): each lane's read, or that of the lowest lane for an s destination (R80), is performed later, in ascending lane
order. -/
def execCfgrd (h : Hdr) (d a : Opnd) (s : State) : Host.Outcome State Fault Refusal :=
  runWord { hdr := h, names := opNames d 1 ++ opNames a 1, reads := readsAll (opReads a 1), early := cfgEarly, wait := noWait,
            once := d.s,
            body := fun c s =>
              let ls := dstLanes c d
              match trapEnds c fun l => if ls.contains l then cfgTrap s c a l else none with
              | some ends => trapPlan s ends
              | none =>
                let also := if d.s then c.on.filter fun l => !ls.contains l else []
                let accs := ls.map fun l =>
                  let la : LaneAddr := { lane := l, space := .gl, va := 0, pa := 0, size := 4, xl := none, saved := false }
                  { newAcc c la (.cfgrd d (rd s c l a)) true false with also }
                { st := addAccs s (c.seq + 1) accs, ends := allNext c, comp := .lanes accs.length } } s

/-- A CFGRD of one lane is performed (R334): after those of lower lanes of its word, and after its fibre's earlier accesses to the
position; the register's value at this instant lands. -/
def returnCfgrd (s : State) (id : Nat) (a : Acc) (d : Opnd) (addr : Word) : State :=
  let lower := s.accs.any fun (k, b) => k < id && b.gang == a.gang && b.seq == a.seq && accWaits b
  let ahead := a.lanes.any fun l => readsCfg s a.gang l id (cfgPos addr) || writesCfg s a.gang l a.seq (cfgPos addr)
  if lower || ahead || landsLater s a.gang a.lanes a.seq (accDest a) then s
  else
    let r := cfgRead s addr.toNat
    finishAcc (a.lanes.foldl (fun s l => landOpnd s a.gang l a.seq d r.2) r.1) id a 1

/-- CFGWR in one lane: the state, and how many writes are still to take effect. A write that resets the package ends the
word with its gang. -/
def cfgwrLane (c : Ctx) (s0 : State) (a b : Opnd) (r : State × Nat) (l : Nat) : State × Nat :=
  if (gangOf r.1 c.gk).isNone then r
  else
    let x := cfgWrite (rd s0 c l a).toNat (rd s0 c l b) [(c.gk, l, c.seq)] r.1
    (x.1, if x.2 then r.2 + 1 else r.2)

/-- CFGWR (R335): the lanes write in ascending order; the counter completes when each write is applied. -/
def execCfgwr (h : Hdr) (a b : Opnd) (s : State) : Host.Outcome State Fault Refusal :=
  runWord { hdr := h, names := opNames a 1 ++ opNames b 1, reads := readsAll (opReads a 1 ++ opReads b 1), early := cfgEarly,
            wait := cfgWait a,
            body := fun c s =>
              match trapEnds c (cfgTrap s c a) with
              | some ends => trapPlan s ends
              | none =>
                let r := c.on.foldl (cfgwrLane c s a b) (s, 0)
                { st := r.1, ends := allNext c, comp := .lanes r.2 } } s

end Sys2Proof.Machine
end

