-- ==== Sys2Proof/Machine/Returns.lean ====
section
/-! DEFINITION. The events by which accesses of fibres are performed and return: LOAD_DATA_RETURN and STORE_APPLIED_AT_HOME
(R99, R101, R170, R173, R182 to R185, R278). -/

namespace Sys2Proof.Machine

/-- Values that an access has taken are written to its lanes' registers, and the access is over; they wait while an earlier word of
a fibre has still to write one of the registers (R99). -/
def landDone (s : State) (id : Nat) (a : Acc) (vals : List (Nat × List Word)) : State :=
  match a.op with
  | .load d _ | .loadLine d _ | .ldc d _ | .sample d .. | .trace d .. => landLoad s id a d vals
  | .rmw _ _ (some d) _ =>
    if landsLater s a.gang a.lanes a.seq (accDest a) then s else finishAcc (landResults s a d vals) id a (accCount a)
  | _ => finishAcc s id a (accCount a)

/-- Whether a pending access reads or writes its frame's bytes in one piece at its own address: a read of configuration
    space has no frame, and the engines' reads find theirs line by line. -/
def atFrame (a : Acc) : Bool :=
  a.space == .gl && match a.op with
    | .cfgrd .. | .sample .. | .trace .. => false
    | _ => true

/-- A prefetch of a line into L1 (R383): it faults nothing. -/
def prefetchNow (s : State) (id : Nat) (a : Acc) : State :=
  let line := a.pa / 128
  let s := { s with accs := tabDel s.accs id }
  if addrLost s a.pa || (holderOf s line).isSome || fetchWaits s a.core line id then s
  else leaseFetch s a.core ((crewOf s a.crew).getD noCrew).part line none

/-- An atomic is performed: at the home or near, or at its scratchpad; not while an earlier word has still to write its D (R99). -/
def performRmw (s : State) (id : Nat) (a : Acc) (o : RmwOp) (args : List (Nat × Nat × Nat)) (ret : Option Nat) : State :=
  if !accReady s id a || landsLater s a.gang a.lanes a.seq (accDest a) then s
  else if a.space = .gl then applyRmw s id a o args ret
  else if rsLost s a then finishAcc (rsGone s a) id a args.length
  else
    let r := rmwThere s a.pa a.size o args
    let s := match ret with
      | some d => landResults r.1 a d r.2
      | none => r.1
    finishAcc s id a args.length

/-- A pending access is performed, if its turn has come; a change of its frame's attributes is done first (R152). -/
def performAcc (s : State) (id : Nat) (a : Acc) : State :=
  let s := if atFrame a then frameFirst s a.pa else s
  match a.op with
  | .load d _ => returnLoad s id a d
  | .loadLine d keys => returnLine16 s id a d keys
  | .store bs =>
    if !accReady s id a then s
    else if a.space = .gl then applyStore s id a bs
    else finishAcc (storeThere s a) id a 1
  | .rmw o args ret _ => performRmw s id a o args ret
  | .ldc .. => s
  | .tld d h da desc co => returnTld s id a d h da desc co
  | .tst v h da desc co => applyTst s id a v h da desc co
  | .hstat d _ _ => returnHstat s id a d
  | .cfgrd d addr => returnCfgrd s id a d addr
  | .sample d h da desc ls f u v lod got => returnSample s id a d h da desc ls f u v lod got
  | .trace d any ray root seen => returnTrace s id a d any ray root seen
  | .stf _ => if accReady s id a then finishAcc (storeThere s a) id a (accCount a) else s
  | .pref => prefetchNow s id a

/-- An event about an access: data that has been read lands, a pending access is performed. -/
def accEvent (s : State) (id : Nat) : State :=
  match tabFind s.accs id with
  | none => s
  | some a =>
    match a.st with
    | .done vals => landDone s id a vals
    -- what a halt has abandoned waits for its replay (R287)
    | .pending => if crewAway s a.crew && (!isStore a || a.space == .rs) then s else performAcc s id a
    | _ => s

/-- LOAD_DATA_RETURN (R101, R278): a word of variable latency returns. -/
def execLoadDataReturn (acc : Nat) (s : State) : Host.Outcome State Fault Refusal :=
  match tabFind s.accs acc with
  | none => .next s
  | some a => match a.op with
    | .store _ | .stf _ | .tst .. | .rmw _ _ none _ => .next s
    | _ => .next (purgeAccs (accEvent s acc))

/-- STORE_APPLIED_AT_HOME (R170): a store, or an atomic, reaches its home; the store's settle time is now known. -/
def execStoreAppliedAtHome (acc : Nat) (s : State) : Host.Outcome State Fault Refusal :=
  match tabFind s.accs acc with
  | none => .next s
  | some a => if isStore a then .next (purgeAccs (accEvent s acc)) else .next s

end Sys2Proof.Machine
end

