-- ==== Sys2Proof/Machine/Bundle.lean ====
section
/-! DEFINITION. The formation of bundles, their choice by the pipes, and the fetch of their words (R45, R46, R100, R147,
R166, R169). -/

namespace Sys2Proof.Machine

/-! ### Fetching a word (R166, R169) -/

/-- What a fetch gives. -/
inductive Fetched where
  | word (s : State) (w : DWord)
  | trap (t : TrapInfo)
  | notYet

/-- The word of a line's 128 bytes at an address. -/
def wordIn (bytes : List Byte) (pa : Nat) : DWord := wordOfBytes ((bytes.drop (pa % 128)).take 8)

/-- The words that a gang has fetched ahead, or those of the core's copy of the line, or those that the home gives under a
lease: by free choice, each while it may be used (R147, R169). A fetch fills the core's L1 or the gang's fetch path. -/
def fetchLine (s : State) (gk core part : Nat) (pc : DWord) (pa : Nat) : Fetched :=
  let line := pa / 128
  let pick := Config.freeNat (s.free * 16777216 + 8388620) 4
  let s' := { s with free := s.free + 1 }
  match l1Live s core line (some gk), l1Live s core line none, decide (pick = 0), decide (pick ≤ 1) with
  | some x, _, true, _ => .word s' (wordIn x.bytes pa)
  | _, some x, _, true => .word s' (wordIn x.bytes pa)
  | _, _, _, _ =>
    if fetchWaits s core line s.nextId then .notYet
    else if readsPoison s pa 8 then .trap (addrTrap 0x0F pc)
    else .word (leaseFetch s core part line (if pick = 2 then some gk else none)) (wordOfBytes (memRead s pa 8))

/-- The word at an address that a fetch has translated to. -/
def fetchAt (s : State) (gk : Nat) (g : Gang) (cr : Crew) (pc : DWord) (x : Xl) : Fetched :=
  let lost : Fetched := .trap (addrTrap 0x0F pc)
  if isHost x.pa then .word (hostFill s (hostBus x.pa)) (wordOfBytes (hostRead s (hostBus x.pa) 8))
  else if isPeer x.pa then
    if peerDown s x.pa then lost else .word { s with free := s.free + 1 } (wordOfBytes (peerBytes s 8))
  else if addrLost s x.pa then lost
  else if holderOf s (x.pa / 128) = some g.core || !x.leaf.getLsbD 4 then
    -- an exclusive line, or a page with C = 0, behind the core's own stores to the line (R171, R185)
    if fetchWaits s g.core (x.pa / 128) s.nextId then .notYet else
    let s := if holderOf s (x.pa / 128) = some g.core then s else recallFrom s none (x.pa / 128)
    if readsPoison s x.pa 8 then lost else .word s (wordOfBytes (memRead s x.pa 8))
  else fetchLine s gk g.core cr.part pc x.pa

/-- The fetch of the word at a program counter, with its faults in the order of R89. -/
def fetchWord (s : State) (gk : Nat) (g : Gang) (cr : Crew) (pc : DWord) : Fetched :=
  match translate s (g.core / 16) cr.part cr.svc .fetch pc (xlIdx s 64) with
  | .error t => .trap t
  | .ok x =>
    if pc.toNat % 8 ≠ 0 then .trap (trapOf 0x08)
    else fetchAt (tlbAdd s (g.core / 16) cr.part x) gk g cr pc x

/-- The counters that the next word of a bundle waits for (R100): none of a word that cannot be fetched or of a pair word. -/
def nextWaitm (s : State) (gk : Nat) (g : Gang) (pc : DWord) : BitVec 6 :=
  match fetchWord s gk g (crewD s gk) pc with
  | .word _ w => if w.getLsbD 63 then 0 else w.extractLsb' 51 6
  | _ => 0

/-! ### Bundles (R45, R46) -/

/-- May the gangs of a crew issue? -/
def crewIssues (s : State) (ck : Nat) : Bool := match crewOf s ck with
  | some c => c.phase == .running && c.halt.isEmpty
  | none => false

/-- A fibre that may issue: not held, no condition found late to be delivered first (R278), its obligation elapsed. -/
def fibreReady (cyc : Nat) (fb : Fibre) : Bool := fb.held.isNone && (lateNow fb).isEmpty && fb.readyAt ≤ cyc

/-- The gangs of a slice. -/
def sliceGangs (s : State) (core slice : Nat) : Tab Gang := s.gangs.filter fun (_, g) => g.core == core && g.slice == slice

/-- A gang's ready fibres form bundles, one for each program counter; every fibre obeys CR.CHKSTALL from now (R45, R85). -/
def regroupGang (s : State) (gk : Nat) (g : Gang) : Gang :=
  let cyc := cycOf s g.core
  let ready := (g.fibres.filter fun (l, fb) =>
    fibreReady cyc fb && waitmMet cyc (dropOwed cyc fb.pc g [l]) (nextWaitm s gk g fb.pc)).map fun (l, fb) => (l, fb.pc)
  let pcs := (ready.map (·.2)).eraseDups
  let bunOf := fun (l : Nat) (fb : Fibre) =>
    if ready.any (·.1 == l) then s.nextId + pcs.findIdx (· == fb.pc) else fb.bun
  { g with fibres := tabMap g.fibres fun l fb => { fb with chk := g.chk, bun := bunOf l fb } }

/-- One gang of a slice regroups; a gang with no fibre and no count left ends (R43). -/
def regroupOne (s : State) (gk : Nat) : State :=
  match gangOf s gk with
  | none => s
  | some g =>
    if crewIssues s (crewOfGang gk) && !detaching g then
      let s := { setGang s gk (regroupGang s gk g) with nextId := s.nextId + 66 }
      tryEndGang s gk
    else s

/-- BUNDLE_REGROUP (R45). -/
def execBundleRegroup (pos core slice : Nat) (s : State) : Host.Outcome State Fault Refusal :=
  .next ((tabKeys (sliceGangs s (coreKey pos core) slice)).foldl regroupOne s)

/-- A bundle that might issue: its age, and for ties the birth of its gang and its lowest lane (R46). -/
structure Candidate where
  age : Nat
  born : Nat
  low : Nat
  bundle : Bundle
  deriving DecidableEq, Repr

/-- The order of R46. DESIGN CHOICE: of bundles of two gangs of equal age, start and lowest lane, which the rule leaves open, the
one of the lower gang key goes first, since `sliceGangs` lists it first (notes/assumptions/86.md). -/
def olderThan (a b : Candidate) : Bool :=
  a.age < b.age || (a.age == b.age && (a.born < b.born || (a.born == b.born && a.low < b.low)))

/-- The cycle at which a fibre became ready (R45, R46): its stall obligation had elapsed, and the counters of its next word's WAITM
were zero. -/
def readySince (g : Gang) (fb : Fibre) (m : BitVec 6) : Nat :=
  (List.range 6).foldl (fun n c => if m.getLsbD c then max n (zeroSince g c) else n) fb.readyAt

/-- The bundles of a gang whose every member's obligation has elapsed and whose counters are 0. A bundle that has waited at issue
keeps its age. -/
def gangCandidates (s : State) (gk : Nat) (g : Gang) : List Candidate :=
  let cyc := cycOf s g.core
  let free := g.fibres.filter fun (_, fb) => fb.bun != 0 && fb.held.isNone && (lateNow fb).isEmpty
  let keys := (free.map fun (_, fb) => (fb.bun, fb.pc)).eraseDups
  keys.filterMap fun (bun, pc) =>
    let mem := free.filter fun (_, fb) => fb.bun == bun && fb.pc == pc
    let m := nextWaitm s gk g pc
    let g0 := dropOwed cyc pc g (tabKeys mem)
    if mem.all (fun (_, fb) => fb.readyAt ≤ cyc && fb.retry ≤ cyc) && waitmMet cyc g0 m then
      let ages := mem.map fun (_, fb) => readySince g0 fb m
      some { age := ages.foldl min (ages.headD 0), born := g.born, low := (tabKeys mem).headD 0,
             bundle := { gang := gk, lanes := tabKeys mem, pc } }
    else none

/-- The oldest of a list of bundles. -/
def oldest : List Candidate → Option Candidate
  | [] => none
  | c :: rest => match oldest rest with
    | none => some c
    | some d => if olderThan d c then some d else some c

/-- The oldest ready bundle of a slice (R46). -/
def pickBundle (s : State) (core slice : Nat) : Option Candidate :=
  oldest ((sliceGangs s core slice).flatMap fun (gk, g) =>
    if crewIssues s (crewOfGang gk) && !detaching g then gangCandidates s gk g else [])

/-- A pipe of the slice that passes self-test and is free in this cycle (R20, R45). -/
def freePipe (c : Core) (slice : Nat) : Option Nat :=
  (List.range 3).find? fun j => c.pipe.getLsbD (3 * slice + j) && spGet 0 c.pipes (slice * 4 + j) ≤ c.cyc

/-- BUNDLE_ISSUE (R46): a free pipe of the slice takes its oldest ready bundle, for one cycle, or two above 32 lanes. The
bundle's word issues in the machine's next step. -/
def execBundleIssue (pos core slice : Nat) (s : State) : Host.Outcome State Fault Refusal :=
  let key := coreKey pos core
  match tabFind s.cores key with
  | none => .next s
  | some c =>
    match freePipe c slice, pickBundle s key slice with
    | some j, some b =>
      let c := { c with pipes := tabPut c.pipes (slice * 4 + j) (c.cyc + if b.bundle.lanes.length ≤ 32 then 1 else 2) }
      .next { s with cores := tabPut s.cores key c, issue := some b.bundle }
    | _, _ => .next s

/-! ### The issue of a fetched word -/

/-- The trap with which a word that is no instruction traps at decode (R89, R92). -/
def decodeTrapOf : DecodeErr → TrapInfo
  | .illegal => trapOf 0x01
  | .pairRule n => { trapOf 0x04 with info := BitVec.ofNat 32 n }

/-- A bundle's word cannot be fetched, or is no instruction: every fibre traps at it, whatever the guard (R89, R93). -/
def issueTrap (s : State) (b : Bundle) (g : Gang) (t : TrapInfo) : State := trapAllLanes (ctxOf s b g) t s

/-- After a word's meaning: if it issued, the survey counts it (R313). -/
def afterIssue (b : Bundle) (i : Instr) (s : State) : Host.Outcome State Fault Refusal → Host.Outcome State Fault Refusal
  | .next t => .next (if t.nextId = s.nextId then t else countWord b i s t)
  | o => o

end Sys2Proof.Machine
end

