-- ==== Sys2Proof/Machine/Agenda.lean ====
section
/-! DEFINITION. Which unit moves next when no bundle is issuing: the first entry of the agenda, or, with the agenda empty, one
of the moves that the units of the package can make by themselves, by free choice (notes/assumptions/3.md). What comes from
outside the package (the host, peers, software on the configuration space, PPS and PTP) happens only through the agenda. -/

namespace Sys2Proof.Machine

/-- Moves of the package, its dies and its cores. What sensors and meters read is free. -/
def diesMoves (s : State) : List Instr :=
  let n := fun k b => Config.freeNat (s.free * 16777216 + 8388630 + k) b
  let found := if starting s then (firstDisagreement s).toList.map (.failedStart 0x03) else []
  let metered := (tabKeys s.dies).map fun p => (p, n (100 + 2 * p) 1000000, n (101 + 2 * p) 100000)
  (if s.boot.started then [.bootWatchdogExpiry, .surveyTick, .powerSampleTick metered] else [.powerOn]) ++ found ++
    (tabKeys s.dies).flatMap fun p =>
      [.startGovernorGrant p, .stackLevelEvaluation p (n (10 + p) 200) (n (40 + p) 200), .dieThermalTrip p (n 0 200),
       .dieReturnToService p (n 0 200), .relayoutTileConversion p]

/-- Moves of cores, their slices and their pairs. -/
def coreMoves (s : State) : List Instr :=
  (tabKeys s.cores).flatMap fun k =>
    let p := k / 16
    let c := k % 16
    [.canaryWarning p c, .canaryDecay p c, .backfillBegin p c, .backfillUnitMove p c [], .timeSliceExpiry p (c / 2)] ++
      (List.range 6).flatMap fun i => [.bundleRegroup p c i, .bundleIssue p c i, .engineOperationRetire p c i]

/-- Moves about the fibres of a gang. -/
def gangMoves (x : Nat × Gang) : List Instr :=
  [.detachCompletion x.1, .tileWaitTimeout x.1] ++ (List.range 12).map (.waitkRelease x.1) ++
    (tabKeys x.2.fibres).flatMap fun l =>
      [.lateTrapDelivery x.1 l, .barwaitRelease x.1 l, .fenceRelease x.1 l, .hinvCompletion x.1 l, .sleepExpiry x.1 l]

/-- Moves about a crew. A saved crew may be restored on any core. -/
def crewMoves (s : State) (x : Nat × Crew) : List Instr :=
  [.crewHalt x.1, .prologueBinding x.1, .gangStart x.1, .attachingGangStart x.1, .gangAttach x.1, .crewRetirement x.1,
   .hotDieMigration x.1, .preemptionHalt x.1, .contextSave x.1] ++
    (List.range x.2.bars.length).map (.bararvCredit x.1) ++
    (if x.2.phase == .saved then (tabKeys s.cores).map fun k => .contextRestore x.1 (k / 16) (k % 16) else [])

/-- Moves of the scheduler about shifts and queues. -/
def shiftMoves (s : State) : List Instr :=
  [.shiftAdmission] ++
    ((tabKeys s.sched.shifts).flatMap fun k =>
      [.dependenceWordCheck k, .startdtReached k, .crewDispatch k, .shiftCompletion k]) ++
    ((tabKeys s.parts).flatMap fun p =>
      .partitionScrubCompletion p :: (List.range 16).map (.deviceQueueTake p)) ++
    (tabKeys s.funcs).map .completionEntryPost

/-- Moves about accesses, copies, leases and monitors. -/
def memoryMoves (s : State) : List Instr :=
  ((tabKeys s.accs).flatMap fun k => [.loadDataReturn k, .storeAppliedAtHome k, .rsTargetRestored k, .hostStoreAcknowledge k]) ++
    (s.copies.flatMap fun (k, c) => (tabKeys c.parts).flatMap fun p => [.copyPartLand k p, .copyFault k p, .tracefCompletion k p]) ++
    (s.cache.l1.map fun x => .readLeaseExpiry x.core x.line) ++
    (s.accs.map fun (_, a) => .exclusiveLeaseGrant a.core (a.pa / 128)) ++
    ((tabKeys s.cache.dir).flatMap fun l => [.exclusiveLeaseRecall l, .exclusiveLeaseExpiry l]) ++
    ((tabKeys s.cache.mons).flatMap fun m => [.monitorWake m, .monitorTimeout m]) ++
    [.invalidationCompletion, .frameAttributeChangeDone] ++ (tabKeys s.own).map fun a => .ownershipChangeEffect (BitVec.ofNat 32 a)

/-- Moves of the render pass. -/
def renderMoves (s : State) : List Instr :=
  [.passCloseCompletion, .regionFlushCompletion] ++
    (s.rend.pkts.flatMap fun (k, _) => (tabKeys s.dies).map (.packetDelivery k)) ++
    (tabKeys s.rend.wins).map .packetRelease ++
    (s.rend.micro.map fun e => .microTriangleEnqueue e.pos e.queue) ++
    (s.rend.frags.map fun f => .fragmentBlend f.x f.y) ++
    (tabKeys s.rend.rcache).map fun k => .regionCacheEviction (k % 281474976710656 / 128)

/-- Every move that a unit of the package may make by itself. A move whose conditions are not met changes nothing. -/
def moves (s : State) : List Instr :=
  diesMoves s ++ coreMoves s ++ s.gangs.flatMap gangMoves ++ s.crews.flatMap (crewMoves s) ++ shiftMoves s ++ memoryMoves s ++
    renderMoves s

/-- A move by free choice, after a free time. -/
def freeTick (s : State) : Tick :=
  let ms := moves s
  { ns := (Config.freeBits (s.free * 16777216 + 8388628)).toNat,
    ev := ms.getD (Config.freeNat (s.free * 16777216 + 8388629) ms.length) .surveyTick }

/-- A move that the spec ties to an instant already reached, and that goes before every other: the attachment that a phase change
has brought about (R59), the check of a dependence word whose line a store has reached (R67), the backfill whose wait has elapsed
(R157). -/
def forced (s : State) : Option Instr :=
  match s.crews.find? fun (_, c) => c.attachDue.isSome with
  | some (ck, _) => some (.gangAttach ck)
  | none => match s.sched.shifts.find? fun (_, x) => x.st == .admitted && x.depWake && !x.depMet with
    | some (k, _) => some (.dependenceWordCheck k)
    | none => (s.cores.find? fun (_, c) => c.fill == .vacate && timeReached s c.foldAt).map fun (k, _) =>
        .backfillBegin (k / 16) (k % 16)

/-- The next move, with the state that it finds: time has passed; the management plane may have written a record. What that
time has brought about comes before the move itself. -/
def nextMove (s : State) : Instr × State :=
  match forced s with
  | some i => (i, s)
  | none =>
    let t := match s.agenda with
      | t :: _ => t
      | [] => freeTick s
    let drain := Config.freeBool (s.free * 16777216 + 8388627)
    let s := { advanceTime t.ns s with agenda := s.agenda.drop 1, free := s.free + 1 }
    let s := if drain then drainRings s else s
    match forced s with
    | some i => (i, { s with agenda := { t with ns := 0 } :: s.agenda })
    | none => (t.ev, s)

end Sys2Proof.Machine
end

