-- ==== Sys2Proof/Machine/Launch.lean ====
section
/-! DEFINITION. What a step finds at the program counter of a bundle that is issuing, and how a word is placed there
(R166, R89; notes/assumptions/4.md). -/

namespace Sys2Proof.Machine

/-! ### The word of the issuing bundle -/

/-- What issuing leads to before any meaning: an instruction to run, a state in which nothing is left to run (a trap at
decode, a wait), or a latch that names no gang. -/
inductive Issuing where
  | run (i : Instr) (s : State)
  | settled (s : State)
  | noGang

/-- The fetched word of a bundle: nothing is left to issue if its gang ended as the fetch recalled a line (R43, R58, R185). -/
def decodeFor (b : Bundle) (g : Gang) (s : State) (w : DWord) : Issuing :=
  match decode w with
  | .ok i => if (gangOf s b.gang).isSome then .run i s else .settled { s with issue := none }
  | .error e => .settled (issueTrap s b g (decodeTrapOf e))

/-- The word at the program counter of the issuing bundle is fetched and decoded (R89, R166). -/
def issueOf (s : State) (b : Bundle) : Issuing :=
  match gangOf s b.gang with
  | none => .noGang
  | some g =>
    match fetchWord s b.gang g (crewD s b.gang) b.pc with
    | .notYet => .settled (waitAtIssue s)
    | .trap t => .settled (issueTrap (recallTraps s (crewD s b.gang).part [(0, .trap t)]) b g t)
    | .word s w => decodeFor b g s w

/-! ### Placing a word -/

/-- The physical address from which the issuing bundle fetches, if its page is one of device memory read at the home. -/
def fetchHome (s : State) : Option Nat :=
  match s.issue with
  | none => none
  | some b =>
    match gangOf s b.gang with
    | none => none
    | some g =>
      if b.pc.toNat % 8 ≠ 0 then none
      else match translate s (g.core / 16) (crewD s b.gang).part (crewD s b.gang).svc .fetch b.pc (xlIdx s 64) with
        | .ok x => if isHost x.pa || isPeer x.pa || addrLost s x.pa || x.leaf.getLsbD 4 then none else some x.pa
        | .error _ => none

/-- Device memory at an address takes bytes, and nothing else of the machine changes but poison that they cover. -/
def placeBytes (s : State) (pa : Nat) (bs : List Byte) : State :=
  { s with mem := spPutList 0#8 s.mem pa bs, poison := s.poison.filter (· != pa / 32) }

/-- A crew for the placed word: of partition 0, on core 0 of the die at position 1, with no handler. -/
def placedCrew : Crew := { noCrew with pos := 1, core := 16, gangMin := 1, gangMax := 1, crewN := 1, started := true }

/-- The program counter of a placed word. -/
def placedPc : DWord := 0x10000

/-- A gang of one fibre at the placed word. -/
def placedGang (gk : Nat) : Gang :=
  { core := 16, slice := 0, gw := 32, wsize := 256, pool := [], sregs := [], shaz := [], swseq := [], kmasks := [], klog := [],
    outs := [], zeroAt := [], chk := false, fibres := [(0, { newFibre placedPc 0 with bun := 1 })], born := 0, attaching := false, begun := true,
    group := gk, latch := [], pixel := [] }

/-- A page table for partition 0, whose one leaf maps the first 2 GiB of device memory to the same virtual addresses,
executable, writable and not cacheable; the channel group that holds it belongs to partition 0. -/
def placedPages (s : State) : State :=
  let s := { s with dies := tabMod s.dies 0 (fun d => { d with chan := d.chan ||| 0xFF, whole := true, tripped := false, isolated := false }),
                    boot := { s.boot with started := true }, frames := tabDel s.frames 0 }
  let s := cfgSet (cfgSet (cfgSet s 0x240 0x1000) 0x244 0) (cfgAddr 0 0x2A0) 0x80000000
  placeBytes (placeBytes s 0x1000 (bytesOfWord 0x2001)) 0x2000 (bytesOfWord 0xF)

/-- A gang of one fibre stands at a placed word and its bundle is issuing. -/
def placedStart (s : State) : State :=
  let ck := s.nextId
  let s := placedPages s
  { s with crews := tabPut s.crews ck placedCrew, gangs := tabPut s.gangs (256 * ck) (placedGang (256 * ck)),
           issue := some { gang := 256 * ck, lanes := [0], pc := placedPc }, nextId := s.nextId + 66 }

/-- A word where the next step fetches: at the issuing bundle's own program counter where that can be written, else at that
of a gang started for it. -/
def placeWord (s : State) (w : DWord) : State :=
  match fetchHome s with
  | some pa => placeBytes s pa (bytesOfWord w)
  | none => placeBytes (placedStart s) 0x10000 (bytesOfWord w)

end Sys2Proof.Machine
end

