-- ==== Sys2Proof/Machine/Dispatch.lean ====
section
/-! DEFINITION. The meaning of each instruction: one direct call for each constructor of `Instr`. -/

namespace Sys2Proof.Machine

/-- What an instruction, or an event of a unit, does at a state. -/
def exec (i : Instr) (s : State) : Host.Outcome State Fault Refusal :=
  match i with
  | .powerOn => Sys2Proof.Machine.execPowerOn s
  | .failedStart cause detail => Sys2Proof.Machine.execFailedStart cause detail s
  | .cfgBootokWrite v => Sys2Proof.Machine.execCfgBootokWrite v s
  | .cfgBootctlWrite v => Sys2Proof.Machine.execCfgBootctlWrite v s
  | .cfgSlopeWrite pos v => Sys2Proof.Machine.execCfgSlopeWrite pos v s
  | .cfgRegisterWrite addr v => Sys2Proof.Machine.execCfgRegisterWrite addr v s
  | .startGovernorGrant pos => Sys2Proof.Machine.execStartGovernorGrant pos s
  | .canaryWarning pos core => Sys2Proof.Machine.execCanaryWarning pos core s
  | .canaryDecay pos core => Sys2Proof.Machine.execCanaryDecay pos core s
  | .stackLevelEvaluation pos temp below => Sys2Proof.Machine.execStackLevelEvaluation pos temp below s
  | .dieThermalTrip pos temp => Sys2Proof.Machine.execDieThermalTrip pos temp s
  | .dieReturnToService pos temp => Sys2Proof.Machine.execDieReturnToService pos temp s
  | .powerSampleTick mw => Sys2Proof.Machine.execPowerSampleTick mw s
  | .linkRetirement pos side => Sys2Proof.Machine.execLinkRetirement pos side s
  | .bundleRegroup pos core slice => Sys2Proof.Machine.execBundleRegroup pos core slice s
  | .bundleIssue pos core slice => Sys2Proof.Machine.execBundleIssue pos core slice s
  | .trapEntry gang lane t => Sys2Proof.Machine.execTrapEntry gang lane t s
  | .lateTrapDelivery gang lane => Sys2Proof.Machine.execLateTrapDelivery gang lane s
  | .crewHalt crew => Sys2Proof.Machine.execCrewHalt crew s
  | .dependenceWordCheck shift => Sys2Proof.Machine.execDependenceWordCheck shift s
  | .startdtReached shift => Sys2Proof.Machine.execStartdtReached shift s
  | .deviceQueueTake part queue => Sys2Proof.Machine.execDeviceQueueTake part queue s
  | .crewDispatch shift => Sys2Proof.Machine.execCrewDispatch shift s
  | .prologueBinding crew => Sys2Proof.Machine.execPrologueBinding crew s
  | .gangStart crew => Sys2Proof.Machine.execGangStart crew s
  | .attachingGangStart crew => Sys2Proof.Machine.execAttachingGangStart crew s
  | .gangAttach crew => Sys2Proof.Machine.execGangAttach crew s
  | .shrinkRequest crew n => Sys2Proof.Machine.execShrinkRequest crew n s
  | .crewRetirement crew => Sys2Proof.Machine.execCrewRetirement crew s
  | .shiftCompletion shift => Sys2Proof.Machine.execShiftCompletion shift s
  | .timeSliceExpiry pos pair => Sys2Proof.Machine.execTimeSliceExpiry pos pair s
  | .hotDieMigration crew => Sys2Proof.Machine.execHotDieMigration crew s
  | .tileWaitTimeout gang => Sys2Proof.Machine.execTileWaitTimeout gang s
  | .preemptionHalt crew => Sys2Proof.Machine.execPreemptionHalt crew s
  | .contextSave crew => Sys2Proof.Machine.execContextSave crew s
  | .contextRestore crew pos core => Sys2Proof.Machine.execContextRestore crew pos core s
  | .loadDataReturn acc => Sys2Proof.Machine.execLoadDataReturn acc s
  | .storeAppliedAtHome acc => Sys2Proof.Machine.execStoreAppliedAtHome acc s
  | .readLeaseExpiry core line => Sys2Proof.Machine.execReadLeaseExpiry core line s
  | .exclusiveLeaseGrant core line => Sys2Proof.Machine.execExclusiveLeaseGrant core line s
  | .exclusiveLeaseRecall line => Sys2Proof.Machine.execExclusiveLeaseRecall line s
  | .exclusiveLeaseExpiry line => Sys2Proof.Machine.execExclusiveLeaseExpiry line s
  | .monitorWake mon => Sys2Proof.Machine.execMonitorWake mon s
  | .monitorTimeout mon => Sys2Proof.Machine.execMonitorTimeout mon s
  | .copyPartLand copy part => Sys2Proof.Machine.execCopyPartLand copy part s
  | .copyFault copy part => Sys2Proof.Machine.execCopyFault copy part s
  | .relayoutTileConversion pos => Sys2Proof.Machine.execRelayoutTileConversion pos s
  | .engineOperationRetire pos core slice => Sys2Proof.Machine.execEngineOperationRetire pos core slice s
  | .cbTransfer pos core addr fate => Sys2Proof.Machine.execCbTransfer pos core addr fate s
  | .backfillBegin pos core => Sys2Proof.Machine.execBackfillBegin pos core s
  | .backfillUnitMove pos core lost => Sys2Proof.Machine.execBackfillUnitMove pos core lost s
  | .powerGatedWake r => Sys2Proof.Machine.execPowerGatedWake r s
  | .cfgFattrWrite v => Sys2Proof.Machine.execCfgFattrWrite v s
  | .cfgXinvcmdWrite v => Sys2Proof.Machine.execCfgXinvcmdWrite v s
  | .passOpen v => Sys2Proof.Machine.execPassOpen v s
  | .passClose v => Sys2Proof.Machine.execPassClose v s
  | .regionFlushGo v => Sys2Proof.Machine.execRegionFlushGo v s
  | .claimEntryWrite word v => Sys2Proof.Machine.execClaimEntryWrite word v s
  | .packetDelivery pkt pos => Sys2Proof.Machine.execPacketDelivery pkt pos s
  | .packetRelease region => Sys2Proof.Machine.execPacketRelease region s
  | .microTriangleEnqueue pos queue => Sys2Proof.Machine.execMicroTriangleEnqueue pos queue s
  | .fragmentBlend x y => Sys2Proof.Machine.execFragmentBlend x y s
  | .regionCacheEviction line => Sys2Proof.Machine.execRegionCacheEviction line s
  | .tracefCompletion copy part => Sys2Proof.Machine.execTracefCompletion copy part s
  | .sqtailDoorbell fn v => Sys2Proof.Machine.execSqtailDoorbell fn v s
  | .queuePairEnable fn => Sys2Proof.Machine.execQueuePairEnable fn s
  | .queuePairDisable fn => Sys2Proof.Machine.execQueuePairDisable fn s
  | .completionEntryPost fn => Sys2Proof.Machine.execCompletionEntryPost fn s
  | .inboundWrite req pa bytes => Sys2Proof.Machine.execInboundWrite req pa bytes s
  | .inboundRead req pa n => Sys2Proof.Machine.execInboundRead req pa n s
  | .bar2ConfigAccess write off size v => Sys2Proof.Machine.execBar2ConfigAccess write off size v s
  | .hostStoreAcknowledge acc => Sys2Proof.Machine.execHostStoreAcknowledge acc s
  | .peerPortFailure port => Sys2Proof.Machine.execPeerPortFailure port s
  | .timeFlit port dt => Sys2Proof.Machine.execTimeFlit port dt s
  | .ptpMessage sec => Sys2Proof.Machine.execPtpMessage sec s
  | .ownershipWrite addr v => Sys2Proof.Machine.execOwnershipWrite addr v s
  | .partitionEnable part => Sys2Proof.Machine.execPartitionEnable part s
  | .partitionDisable part => Sys2Proof.Machine.execPartitionDisable part s
  | .partitionSuspend part => Sys2Proof.Machine.execPartitionSuspend part s
  | .partitionResume part => Sys2Proof.Machine.execPartitionResume part s
  | .vfMapWrite vf v => Sys2Proof.Machine.execVfMapWrite vf v s
  | .policyInstall part => Sys2Proof.Machine.execPolicyInstall part s
  | .attestationRequest fn part => Sys2Proof.Machine.execAttestationRequest fn part s
  | .debugStopCommand fn => Sys2Proof.Machine.execDebugStopCommand fn s
  | .debugResumeCommand fn => Sys2Proof.Machine.execDebugResumeCommand fn s
  | .debugStepCommand fn bar => Sys2Proof.Machine.execDebugStepCommand fn bar s
  | .debugArmCommand fn => Sys2Proof.Machine.execDebugArmCommand fn s
  | .debugDisarmCommand fn => Sys2Proof.Machine.execDebugDisarmCommand fn s
  | .debugStopRecord fn => Sys2Proof.Machine.execDebugStopRecord fn s
  | .waitkRelease gang k => Sys2Proof.Machine.execWaitkRelease gang k s
  | .barwaitRelease gang lane => Sys2Proof.Machine.execBarwaitRelease gang lane s
  | .bararvCredit crew bar => Sys2Proof.Machine.execBararvCredit crew bar s
  | .ldcFill crew granule => Sys2Proof.Machine.execLdcFill crew granule s
  | .fenceRelease gang lane => Sys2Proof.Machine.execFenceRelease gang lane s
  | .hinvCompletion gang lane => Sys2Proof.Machine.execHinvCompletion gang lane s
  | .detachCompletion gang => Sys2Proof.Machine.execDetachCompletion gang s
  | .sleepExpiry gang lane => Sys2Proof.Machine.execSleepExpiry gang lane s
  | .rsTargetRestored acc => Sys2Proof.Machine.execRsTargetRestored acc s
  | .pairWord stall s0 s1 => Sys2Proof.Machine.execPairWord stall s0 s1 s
  | .atom h op d a sp wide ord => Sys2Proof.Machine.execAtom h op d a sp wide ord s
  | .atomcas h d a b sp wide ord => Sys2Proof.Machine.execAtomcas h d a b sp wide ord s
  | .attach h d => Sys2Proof.Machine.execAttach h d s
  | .badd2 h m d a b => Sys2Proof.Machine.execBadd2 h m d a b s
  | .bmul2 h m d a b => Sys2Proof.Machine.execBmul2 h m d a b s
  | .bfma2 h m d a b => Sys2Proof.Machine.execBfma2 h m d a b s
  | .bararv h f bar => Sys2Proof.Machine.execBararv h f bar s
  | .barinit h a member bar => Sys2Proof.Machine.execBarinit h a member bar s
  | .bartst h p a bar => Sys2Proof.Machine.execBartst h p a bar s
  | .barwait h a bar => Sys2Proof.Machine.execBarwait h a bar s
  | .bcast h d a b => Sys2Proof.Machine.execBcast h d a b s
  | .bfx h signed d a b => Sys2Proof.Machine.execBfx h signed d a b s
  | .bfi h d a b => Sys2Proof.Machine.execBfi h d a b s
  | .bkpt h code => Sys2Proof.Machine.execBkpt h code s
  | .br h f => Sys2Proof.Machine.execBr h f s
  | .brev h d a => Sys2Proof.Machine.execBrev h d a s
  | .brx h a => Sys2Proof.Machine.execBrx h a s
  | .call h f => Sys2Proof.Machine.execCall h f s
  | .cbld h a slot => Sys2Proof.Machine.execCbld h a slot s
  | .cfgrd h d a => Sys2Proof.Machine.execCfgrd h d a s
  | .cfgwr h a b => Sys2Proof.Machine.execCfgwr h a b s
  | .clz h d a => Sys2Proof.Machine.execClz h d a s
  | .compress h d a p => Sys2Proof.Machine.execCompress h d a p s
  | .copy h k d a b bar => Sys2Proof.Machine.execCopy h k d a b bar s
  | .copyb h d a b out spSide rel bar => Sys2Proof.Machine.execCopyb h d a b out spSide rel bar s
  | .copyw h k d a b bar => Sys2Proof.Machine.execCopyw h k d a b bar s
  | .cvt h src dst rm ftz d a => Sys2Proof.Machine.execCvt h src dst rm ftz d a s
  | .detach h => Sys2Proof.Machine.execDetach h s
  | .elect h p => Sys2Proof.Machine.execElect h p s
  | .emitf h a tgt n => Sys2Proof.Machine.execEmitf h a tgt n s
  | .emitm h a b => Sys2Proof.Machine.execEmitm h a b s
  | .endFibre h => Sys2Proof.Machine.execEndFibre h s
  | .eret h => Sys2Proof.Machine.execEret h s
  | .expand h d a p => Sys2Proof.Machine.execExpand h d a p s
  | .fadd h m d a b => Sys2Proof.Machine.execFadd h m d a b s
  | .fmul h m d a b => Sys2Proof.Machine.execFmul h m d a b s
  | .fsub h m d a b => Sys2Proof.Machine.execFsub h m d a b s
  | .frcp h ftz d a => Sys2Proof.Machine.execFrcp h ftz d a s
  | .frsq h ftz d a => Sys2Proof.Machine.execFrsq h ftz d a s
  | .fsqrt h ftz d a => Sys2Proof.Machine.execFsqrt h ftz d a s
  | .fex2 h ftz d a => Sys2Proof.Machine.execFex2 h ftz d a s
  | .flg2 h ftz d a => Sys2Proof.Machine.execFlg2 h ftz d a s
  | .fsin h ftz d a => Sys2Proof.Machine.execFsin h ftz d a s
  | .fcos h ftz d a => Sys2Proof.Machine.execFcos h ftz d a s
  | .fence h scope => Sys2Proof.Machine.execFence h scope s
  | .ffma h m d a b => Sys2Proof.Machine.execFfma h m d a b s
  | .fmax h m d a b => Sys2Proof.Machine.execFmax h m d a b s
  | .fmin h m d a b => Sys2Proof.Machine.execFmin h m d a b s
  | .fork h d a imm => Sys2Proof.Machine.execFork h d a imm s
  | .frnd h absA negA ftz rm d a => Sys2Proof.Machine.execFrnd h absA negA ftz rm d a s
  | .fset h c d a b => Sys2Proof.Machine.execFset h c d a b s
  | .hadd2 h m d a b => Sys2Proof.Machine.execHadd2 h m d a b s
  | .hfma2 h m d a b => Sys2Proof.Machine.execHfma2 h m d a b s
  | .hmul2 h m d a b => Sys2Proof.Machine.execHmul2 h m d a b s
  | .hinv h a => Sys2Proof.Machine.execHinv h a s
  | .hstat h acq d a => Sys2Proof.Machine.execHstat h acq d a s
  | .iabs h d a => Sys2Proof.Machine.execIabs h d a s
  | .iadd h d a b => Sys2Proof.Machine.execIadd h d a b s
  | .iaddi h d a imm => Sys2Proof.Machine.execIaddi h d a imm s
  | .isub h d a b => Sys2Proof.Machine.execIsub h d a b s
  | .iadd64 h d a b => Sys2Proof.Machine.execIadd64 h d a b s
  | .iadd64i h d a imm => Sys2Proof.Machine.execIadd64i h d a imm s
  | .imad h d a b => Sys2Proof.Machine.execImad h d a b s
  | .imul h d a b => Sys2Proof.Machine.execImul h d a b s
  | .imulh h u d a b => Sys2Proof.Machine.execImulh h u d a b s
  | .imax h u d a b => Sys2Proof.Machine.execImax h u d a b s
  | .imin h u d a b => Sys2Proof.Machine.execImin h u d a b s
  | .ipa h flat c d a => Sys2Proof.Machine.execIpa h flat c d a s
  | .iset h c u d a b => Sys2Proof.Machine.execIset h c u d a b s
  | .iseti h c u p a imm => Sys2Proof.Machine.execIseti h c u p a imm s
  | .joinMask h k => Sys2Proof.Machine.execJoinMask h k s
  | .leaveMask h k => Sys2Proof.Machine.execLeaveMask h k s
  | .kmovToScalar h hi d k => Sys2Proof.Machine.execKmovToScalar h hi d k s
  | .kmovToMask h hi a k => Sys2Proof.Machine.execKmovToMask h hi a k s
  | .ld h d m ord => Sys2Proof.Machine.execLd h d m ord s
  | .ldc h d m clr => Sys2Proof.Machine.execLdc h d m clr s
  | .ldt h d a col rs => Sys2Proof.Machine.execLdt h d a col rs s
  | .matchLanes h hi d a => Sys2Proof.Machine.execMatchLanes h hi d a s
  | .mma h tile reuse a b f => Sys2Proof.Machine.execMma h tile reuse a b f s
  | .mmaz h tile => Sys2Proof.Machine.execMmaz h tile s
  | .mov h d a => Sys2Proof.Machine.execMov h d a s
  | .movhi h d a imm => Sys2Proof.Machine.execMovhi h d a imm s
  | .movi h d imm => Sys2Proof.Machine.execMovi h d imm s
  | .mwait h wide d a b => Sys2Proof.Machine.execMwait h wide d a b s
  | .nop h => Sys2Proof.Machine.execNop h s
  | .and h d a b => Sys2Proof.Machine.execAnd h d a b s
  | .andi h d a imm => Sys2Proof.Machine.execAndi h d a imm s
  | .or h d a b => Sys2Proof.Machine.execOr h d a b s
  | .ori h d a imm => Sys2Proof.Machine.execOri h d a imm s
  | .xor h d a b => Sys2Proof.Machine.execXor h d a b s
  | .xori h d a imm => Sys2Proof.Machine.execXori h d a imm s
  | .not h d a => Sys2Proof.Machine.execNot h d a s
  | .pack h t s32 hi d a b => Sys2Proof.Machine.execPack h t s32 hi d a b s
  | .plop h d a b table => Sys2Proof.Machine.execPlop h d a b table s
  | .pmov h d => Sys2Proof.Machine.execPmov h d s
  | .pmovTop h a => Sys2Proof.Machine.execPmovTop h a s
  | .popc h d a => Sys2Proof.Machine.execPopc h d a s
  | .pref h llc a off => Sys2Proof.Machine.execPref h llc a off s
  | .qld h d a tile lg => Sys2Proof.Machine.execQld h d a tile lg s
  | .qst h d a tile lg => Sys2Proof.Machine.execQst h d a tile lg s
  | .qscr h d tile f => Sys2Proof.Machine.execQscr h d tile f s
  | .rdsr h d num => Sys2Proof.Machine.execRdsr h d num s
  | .rdx h d n imm => Sys2Proof.Machine.execRdx h d n imm s
  | .wrx h n a imm => Sys2Proof.Machine.execWrx h n a imm s
  | .setix h n a imm => Sys2Proof.Machine.execSetix h n a imm s
  | .red h op d a sp wide ord => Sys2Proof.Machine.execRed h op d a sp wide ord s
  | .redl h op d a => Sys2Proof.Machine.execRedl h op d a s
  | .scanl h op excl d a => Sys2Proof.Machine.execScanl h op excl d a s
  | .relayout h a b tag => Sys2Proof.Machine.execRelayout h a b tag s
  | .ret h => Sys2Proof.Machine.execRet h s
  | .sample h f lod d a b => Sys2Proof.Machine.execSample h f lod d a b s
  | .sar h d a b => Sys2Proof.Machine.execSar h d a b s
  | .sari h d a imm => Sys2Proof.Machine.execSari h d a imm s
  | .shl h d a b => Sys2Proof.Machine.execShl h d a b s
  | .shli h d a imm => Sys2Proof.Machine.execShli h d a imm s
  | .shr h d a b => Sys2Proof.Machine.execShr h d a b s
  | .shri h d a imm => Sys2Proof.Machine.execShri h d a imm s
  | .sel h d a b p sense => Sys2Proof.Machine.execSel h d a b p sense s
  | .shfl h mode d a b => Sys2Proof.Machine.execShfl h mode d a b s
  | .sleep h a => Sys2Proof.Machine.execSleep h a s
  | .slideup h d a b => Sys2Proof.Machine.execSlideup h d a b s
  | .slidedn h d a b => Sys2Proof.Machine.execSlidedn h d a b s
  | .st h d m ord => Sys2Proof.Machine.execSt h d m ord s
  | .stf h d m ord => Sys2Proof.Machine.execStf h d m ord s
  | .stt h d a col rs => Sys2Proof.Machine.execStt h d a col rs s
  | .tld h d a b n => Sys2Proof.Machine.execTld h d a b n s
  | .tst h d a b n => Sys2Proof.Machine.execTst h d a b n s
  | .trace h any d a b => Sys2Proof.Machine.execTrace h any d a b s
  | .tracef h d a b bar => Sys2Proof.Machine.execTracef h d a b bar s
  | .trap h code => Sys2Proof.Machine.execTrap h code s
  | .vote h mode hi d p => Sys2Proof.Machine.execVote h mode hi d p s
  | .waitk h k => Sys2Proof.Machine.execWaitk h k s
  | .wrsr h a num => Sys2Proof.Machine.execWrsr h a num s
  | .yieldFibre h => Sys2Proof.Machine.execYieldFibre h s
  | .resourcePowerGating r => Sys2Proof.Machine.execResourcePowerGating r s
  | .memoryScrub sector => Sys2Proof.Machine.execMemoryScrub sector s
  | .cxlCacheSnoop line k => Sys2Proof.Machine.execCxlCacheSnoop line k s
  | .inboundAtomic port pa op wide v => Sys2Proof.Machine.execInboundAtomic port pa op wide v s
  | .peerPortTrained port => Sys2Proof.Machine.execPeerPortTrained port s
  | .timingInputLoss pps ptp => Sys2Proof.Machine.execTimingInputLoss pps ptp s
  | .cqheadWrite fn v => Sys2Proof.Machine.execCqheadWrite fn v s
  | .functionRegisterWrite fn off v => Sys2Proof.Machine.execFunctionRegisterWrite fn off v s
  | .partitionScrubCompletion part => Sys2Proof.Machine.execPartitionScrubCompletion part s
  | .ownershipChangeEffect addr => Sys2Proof.Machine.execOwnershipChangeEffect addr s
  | .firmwareImageInstall x => Sys2Proof.Machine.execFirmwareImageInstall x s
  | .bootWatchdogExpiry => Sys2Proof.Machine.execBootWatchdogExpiry s
  | .shiftAdmission => Sys2Proof.Machine.execShiftAdmission s
  | .passCloseCompletion => Sys2Proof.Machine.execPassCloseCompletion s
  | .regionFlushCompletion => Sys2Proof.Machine.execRegionFlushCompletion s
  | .invalidationCompletion => Sys2Proof.Machine.execInvalidationCompletion s
  | .ppsEdge => Sys2Proof.Machine.execPpsEdge s
  | .surveyTick => Sys2Proof.Machine.execSurveyTick s
  | .frameAttributeChangeDone => Sys2Proof.Machine.execFrameAttributeChangeDone s

end Sys2Proof.Machine
end

