-- ==== Sys2Proof/Machine/Step.lean ====
section
/-! DEFINITION. One step of the machine: the issuing bundle's word runs, or else the next unit moves. -/

namespace Sys2Proof.Machine

/-- One step. -/
def step (s : State) : Host.Outcome State Fault Refusal :=
  match s.issue with
  | some b =>
    match issueOf s b with
    | .run i t => afterIssue b i t (exec i t)
    | .settled t => .next t
    | .noGang => .fault .noGang
  | none => exec (nextMove s).1 (nextMove s).2

/-- The state with a word placed where the next step fetches (notes/assumptions/4.md). An instruction is one word of 64 bits,
whatever the number of bits that a table gives for it. -/
def State.withFetchWord (s : State) (_nbits w : Nat) : State := placeWord s (BitVec.ofNat 64 w)

end Sys2Proof.Machine
end

