-- ==== Sys2Proof/Safety.lean ====
section
/-! DEFINITION. What the statements speak of: the canonical form of memory, the conditions under which a word issues, and
what a word that only writes registers leaves changed and unchanged. -/

namespace Sys2Proof.Machine

/-- The canonical form of memory: addresses strictly rise, and no byte listed equals what an unlisted one reads as. -/
abbrev Memory.wf (m : List Host.Cell) : Bool := spWf 0#8 m

/-! ### Observations -/

/-- A fibre of a gang. -/
def fibreAt (s : State) (gk l : Nat) : Option Fibre := (gangOf s gk).bind fun g => tabFind g.fibres l

/-- The register file and number name a register that exists (Table WORD-1): 16 predicates, 2 index registers. -/
def RegRef.names (r : RegRef) : Prop := match r.file with
  | .v | .s => True
  | .p => r.n < 16
  | .ix => r.n < 2

/-! ### The issue of a word -/

/-- The lanes in which a word with header `h` executes: those whose guard holds (R93). -/
def guardLanes (s : State) (b : Bundle) (g : Gang) (h : Hdr) : List Nat := b.lanes.filter (guardOf s g h.ge h.gp h.gs)

/-- The context in which the word of the issue latch executes. -/
def wordCtx (s : State) (b : Bundle) (g : Gang) (h : Hdr) : Ctx := { ctxOf s b g with on := guardLanes s b g h }

/-- The gang without the counter raises of the words, abandoned at a halt, that the lanes `ls` now issue again at `pc` (R287). -/
def replayedIn (s : State) (pc : DWord) (ls : List Nat) (g : Gang) : Gang := dropOwed (cycOf s g.core) pc g ls

/-- The same for every lane of a bundle: these raises do not stand in the word's way. -/
def replaying (s : State) (b : Bundle) (g : Gang) : Gang := replayedIn s b.pc b.lanes g

/-- A bundle issues a word in at least one lane, with nothing in its way: the issue latch holds it; its counters let it go
(R95, R100); the v registers that it names lie within the window (R78); its gang has begun, or may begin with it (R55);
the checking scoreboard finds no early read (R102); and its lanes ascend within the gang's width (R44, R45). -/
structure Issues (s : State) (b : Bundle) (g : Gang) (h : Hdr) (names : List Nat) (reads : Nat → List RegRef)
    (attach : Bool := false) : Prop where
  latch : s.issue = some b
  gang : gangOf s b.gang = some g
  ascending : b.lanes.Pairwise (· < ·)
  within : ∀ l ∈ b.lanes, l < g.gw
  width : g.gw ≤ 64
  fibres : ∀ l ∈ b.lanes, (tabFind g.fibres l).isSome
  some_lane : guardLanes s b g h ≠ []
  window : overWindow g.wsize names = none
  waitm : waitmMet (cycOf s g.core) (replaying s b g) h.waitm = true
  room : ∀ n, setcOf h = some n → ctrVal (cycOf s g.core) (replaying s b g) n < 63
  begun : ∀ l ∈ guardLanes s b g h, firstTrap g attach l = none
  score_guard : ∀ l ∈ b.lanes, scoreCheck s b.gang g (guardReads h) l = none
  score : ∀ l ∈ guardLanes s b g h, scoreCheck s b.gang g (reads l) l = none

/-! ### Words that only write registers -/

/-- The value of a register after some writes: that of the last write to its place, else the value before. -/
def afterWrites (g : Gang) (ws : List RegWrite) (l : Nat) (r : RegRef) (before : Word) : Word :=
  match ws.reverse.find? fun w => regPlace g w.lane w.reg == regPlace g l r with
  | some w => w.val
  | none => before

/-- SR.FFLAGS once every raise and write of the fibre's words has been merged (R121). -/
def allFlags (fb : Fibre) : Flags := fb.flq.foldl (fun f e => e.apply f) fb.flBase

/-- Where a fibre stands: its program counter, and the abandoned words whose counter raise stands until it issues them again. -/
def standing (fb : Fibre) : DWord × List (DWord × Nat) := (fb.pc, fb.owed)

/-- The fibres of a bundle go on at the next word. -/
def goneOn (b : Bundle) (l : Nat) (fb : Fibre) : DWord × List (DWord × Nat) :=
  if l ∈ b.lanes then (b.pc + 8, fb.owed.filter (·.1 != b.pc)) else standing fb

/-- A pool register that one of the writes goes to. -/
def poolWritten (g : Gang) (ws : List RegWrite) (n : Nat) : Prop :=
  ∃ w ∈ ws, w.reg.file = .v ∧ regPlace g w.lane w.reg = (.v, 0, n)

/-- A gang after a word that wrote registers `ws` in this order and raised flags `fl`, without the word's other effects: nothing
of the gang but registers, their timing, its counters and what an engine's A latch still holds of it changes (R236). -/
structure RegsWrittenIn (g g' : Gang) (ws : List RegWrite) (fl : Nat → Flags) (at' : Nat → Fibre → DWord × List (DWord × Nat)) :
    Prop where
  gang_frame : g' = { g with pool := g'.pool, sregs := g'.sregs, shaz := g'.shaz, swseq := g'.swseq, outs := g'.outs,
                             zeroAt := g'.zeroAt, latch := g'.latch, fibres := g'.fibres, begun := g'.begun }
  latch : (∃ n ∈ g.latch, poolWritten g ws n) ∧ g'.latch = [] ∨ (∀ n ∈ g.latch, ¬ poolWritten g ws n) ∧ g'.latch = g.latch
  no_fibre : ∀ l, tabFind g.fibres l = none → tabFind g'.fibres l = none
  fibre : ∀ l fb, tabFind g.fibres l = some fb → ∃ fb', tabFind g'.fibres l = some fb' ∧
    fb' = { fb with pc := (at' l fb).1, owed := (at' l fb).2, preds := fb'.preds, ix0 := fb'.ix0, ix1 := fb'.ix1,
                    fflags := fb.fflags ||| fl l, flBase := fb'.flBase, flq := fb'.flq, readyAt := fb'.readyAt, bun := fb'.bun,
                    sum := fb'.sum, haz := fb'.haz, shadow := fb'.shadow, wseq := fb'.wseq } ∧
    allFlags fb' = allFlags fb ||| fl l ∧
    ∀ r : RegRef, r.names → regNow g' fb' r = afterWrites g ws l r (regNow g fb r)

/-- As `RegsWrittenIn`, in some order of the writes. The order matters only where lanes write one pool register through
overlapping windows, which then holds the value of one of them (R388). -/
def RegsWritten (g g' : Gang) (ws : List RegWrite) (fl : Nat → Flags) (at' : Nat → Fibre → DWord × List (DWord × Nat)) : Prop :=
  ∃ order : List RegWrite, order.Perm ws ∧ RegsWrittenIn g g' order fl at'

/-- What a word that only writes registers does (R80, R93, R97, R100): in `t` the registers hold what `ws` wrote, SR.FFLAGS
of a lane has taken the flags `fl`, every fibre of the bundle stands at the next word, the counter that SETC names has risen
by one, and nothing else has changed: no other gang, no memory, no other register. -/
def RegWord (s t : State) (b : Bundle) (g : Gang) (h : Hdr) (ws : List RegWrite) (fl : Nat → Flags) : Prop :=
  t = { s with gangs := t.gangs, issue := none, nextId := t.nextId, free := t.free } ∧
  (∀ k, k ≠ b.gang → gangOf t k = gangOf s k) ∧
  ∃ g', gangOf t b.gang = some g' ∧
    RegsWritten g g' ws fl (goneOn b) ∧
    ∀ n, ctrVal (cycOf s g.core) g' n = ctrVal (cycOf s g.core) (replaying s b g) n + if setcOf h = some n then 1 else 0

/-- No flag is raised. -/
def noFlags : Nat → Flags := fun _ => 0

/-- The register results of a word with one destination: `f` in each lane that writes D. -/
def oneResult (s : State) (b : Bundle) (g : Gang) (h : Hdr) (d : Opnd) (f : Ctx → Nat → Word) : List RegWrite :=
  (dstLanes (wordCtx s b g h) d).map fun l => oneWrite d l (f (wordCtx s b g h) l)

/-- The word `i` executes in the lanes whose guard holds: it writes the registers `ws` and raises the flags `fl`, and does
nothing else. -/
def Executes (i : Instr) (h : Hdr) (names : List Nat) (reads : Gang → Nat → List RegRef)
    (ws : State → Ctx → List RegWrite) (fl : State → Ctx → Nat → Flags := fun _ _ _ => 0) : Prop :=
  ∀ (s : State) (b : Bundle) (g : Gang), Issues s b g h names (reads g) →
    ∃ t, exec i s = .next t ∧ RegWord s t b g h (ws s (wordCtx s b g h)) (fl s (wordCtx s b g h))

/-- The word `i` writes one value into D of each lane that writes D, raises that lane's flags, and does nothing else. -/
def Results (i : Instr) (h : Hdr) (d : Opnd) (names : List Nat) (reads : List RegRef)
    (f : State → Ctx → Nat → Word × Flags) : Prop :=
  Executes i h (opNames d 1 ++ names) (fun _ _ => reads)
    (fun s c => (dstLanes c d).map fun l => oneWrite d l (f s c l).1)
    (fun s c l => if l ∈ dstLanes c d then (f s c l).2 else 0)

/-- A word of two sources whose rounding code is `rm`. -/
def Rounds2 (i : Instr) (h : Hdr) (rm : RM) (d x y : Opnd) (f : RM → Nat → Nat → Nat × Flags) : Prop :=
  Results i h d (opNames x 1 ++ opNames y 1) (opReads x 1 ++ opReads y 1) fun s c l =>
    let r := f (laneRM c l rm) (rd s c l x).toNat (rd s c l y).toNat
    (BitVec.ofNat 32 r.1, r.2)

/-- A word of two sources and the former D whose rounding code is `rm`. -/
def Rounds3 (i : Instr) (h : Hdr) (rm : RM) (d x y : Opnd) (f : RM → Nat → Nat → Nat → Nat × Flags) : Prop :=
  Results i h d (opNames x 1 ++ opNames y 1) (opReads x 1 ++ opReads y 1 ++ opReads d 1) fun s c l =>
    let r := f (laneRM c l rm) (rd s c l x).toNat (rd s c l y).toNat (rd s c l d).toNat
    (BitVec.ofNat 32 r.1, r.2)

/-- A word of one source whose rounding code is `rm`. -/
def Rounds1 (i : Instr) (h : Hdr) (rm : RM) (d x : Opnd) (f : RM → Nat → Nat × Flags) : Prop :=
  Results i h d (opNames x 1) (opReads x 1) fun s c l =>
    let r := f (laneRM c l rm) (rd s c l x).toNat
    (BitVec.ofNat 32 r.1, r.2)

/-- A packed word acts on the halves of its sources (R124): the low elements, then the high ones; the flags of both. -/
def halves (op : Nat → Nat → Nat → Nat × Flags) (x y z : Nat) : Nat × Flags :=
  let lo := op (x % 65536) (y % 65536) (z % 65536)
  let hi := op (x / 65536) (y / 65536) (z / 65536)
  (hi.1 * 65536 + lo.1, lo.2 ||| hi.2)

/-- The number that a register holds, read as unsigned or as two's complement. -/
def numberOf (u : Bool) (x : Word) : Int := if u then x.toNat else x.toInt

/-- The six integer comparisons (R365). -/
def intHolds (c : Cond) (u : Bool) (x y : Word) : Prop := match c with
  | .eq => numberOf u x = numberOf u y
  | .ne => numberOf u x ≠ numberOf u y
  | .lt => numberOf u x < numberOf u y
  | .le => numberOf u x ≤ numberOf u y
  | .gt => numberOf u x > numberOf u y
  | .ge => numberOf u x ≥ numberOf u y
  | .ord | .uno => False

/-- The instructions `mk h d x y` compute `f` of two sources into D, and do nothing else. -/
def Computes2 (mk : Hdr → Opnd → Opnd → Opnd → Instr) (f : Word → Word → Word) : Prop :=
  ∀ (s : State) (b : Bundle) (g : Gang) (h : Hdr) (d x y : Opnd),
    Issues s b g h (opNames d 1 ++ opNames x 1 ++ opNames y 1) (fun _ => opReads x 1 ++ opReads y 1) →
    ∃ t, exec (mk h d x y) s = .next t ∧
      RegWord s t b g h (oneResult s b g h d fun c l => f (rd s c l x) (rd s c l y)) noFlags

/-- The instructions `mk h d x` compute `f` of one source into D, and do nothing else. -/
def Computes1 (mk : Hdr → Opnd → Opnd → Instr) (f : Word → Word) : Prop :=
  ∀ (s : State) (b : Bundle) (g : Gang) (h : Hdr) (d x : Opnd),
    Issues s b g h (opNames d 1 ++ opNames x 1) (fun _ => opReads x 1) →
    ∃ t, exec (mk h d x) s = .next t ∧
      RegWord s t b g h (oneResult s b g h d fun c l => f (rd s c l x)) noFlags

/-- The instructions `mk h d x y` compute `f` of two sources and the former D into D, and do nothing else. -/
def Computes3 (mk : Hdr → Opnd → Opnd → Opnd → Instr) (f : Word → Word → Word → Word) : Prop :=
  ∀ (s : State) (b : Bundle) (g : Gang) (h : Hdr) (d x y : Opnd),
    Issues s b g h (opNames d 1 ++ opNames x 1 ++ opNames y 1) (fun _ => opReads x 1 ++ opReads y 1 ++ opReads d 1) →
    ∃ t, exec (mk h d x y) s = .next t ∧
      RegWord s t b g h (oneResult s b g h d fun c l => f (rd s c l x) (rd s c l y) (rd s c l d)) noFlags

/-! ### Where the lanes of a word end -/

/-- What a lane's end leaves of its fibre (R94, R103, R277, R281), beside its timing: at the next word, elsewhere, held, in
its handler, or at the same word. `later`: a trap stands noted, to be taken once the lanes that stay have issued the word. -/
def landed (pc : DWord) (stall seq : Nat) (tvec : DWord) (later : Bool) (fb : Fibre) : LaneEnd → Fibre
  | .next => { fb with pc := pc + 8 }
  | .goto p => { fb with pc := p }
  | .hold why => { fb with held := some { why, stall, gid := seq, seq } }
  | .trap t =>
    if later then
      { fb with late := fb.late.filter (·.seq ≤ seq) ++ { seq, pc, info := t, waits := false } :: fb.late.filter (seq < ·.seq) }
    else { fb with handler := true, tcause := t.cause, tpc := pc.truncate 32, taddr := t.addr, tinfo := t.info,
                   retpc := if t.next then pc + 8 else pc, pc := tvec }
  | .stay => fb
  | .ended => fb

/-- CR.TVEC of a gang's crew. -/
def tvecOf (s : State) (gk : Nat) : DWord := ((crewOf s (crewOfGang gk)).map (·.tvec)).getD 0

/-- The fibres of a bundle ended a word as `fate` says; nothing else of the gang changed but timing and counters. -/
structure LanesEnd (b : Bundle) (h : Hdr) (seq : Nat) (tvec : DWord) (later : Bool) (g g' : Gang) (fate : Nat → LaneEnd) : Prop where
  frame : g' = { g with fibres := g'.fibres, outs := g'.outs, zeroAt := g'.zeroAt, begun := g'.begun }
  others : ∀ l, l ∉ b.lanes ∨ tabFind g.fibres l = none → tabFind g'.fibres l = tabFind g.fibres l
  lanes : ∀ l ∈ b.lanes, ∀ fb, tabFind g.fibres l = some fb → ∃ fb', tabFind g'.fibres l = some fb' ∧
    fb' = { landed b.pc h.stall.toNat seq tvec later fb (fate l) with
              owed := if fate l = .stay then fb.owed else fb.owed.filter (·.1 != b.pc), flBase := fb'.flBase, flq := fb'.flq,
              readyAt := fb'.readyAt, bun := fb'.bun, sum := fb'.sum, haz := fb'.haz, shadow := fb'.shadow } ∧
    allFlags fb' = allFlags fb

/-- A word of a bundle ends the issue. `u` is the state after the word's own effect, with the gang `g`; in `t` the fibres have
ended as `fate` says, the issue latch is free, the counter that SETC names has risen by `rise`, and nothing else differs
from `u`. -/
def EndsIssue (s u t : State) (b : Bundle) (h : Hdr) (g : Gang) (fate : Nat → LaneEnd) (rise : Nat) : Prop :=
  gangOf u b.gang = some g ∧
  t = { u with gangs := t.gangs, issue := none, nextId := t.nextId, free := t.free } ∧
  (∀ k, k ≠ b.gang → gangOf t k = gangOf u k) ∧
  ∃ g' later, gangOf t b.gang = some g' ∧ (later = true → ∃ l ∈ b.lanes, fate l = .stay) ∧
    LanesEnd b h s.nextId (tvecOf s b.gang) later g g' fate ∧
    ∀ n, ctrVal (cycOf s g.core) g' n =
      ctrVal (cycOf s g.core) (replayedIn s b.pc (b.lanes.filter fun l => fate l != .stay) g) n +
        if setcOf h = some n then rise else 0

/-- The fate of a bundle's lanes: guard-true lanes as `f` says, the others at the next word (R93). -/
def fates (s : State) (b : Bundle) (g : Gang) (h : Hdr) (f : Nat → LaneEnd) (l : Nat) : LaneEnd :=
  if l ∈ guardLanes s b g h then f l else .next

/-- Every lane goes on at the next word. -/
def goesOn : Nat → LaneEnd := fun _ => .next

/-- A trap of the lanes enters a handler (R281, R282): CR.TVEC is not zero and no lane's handler bit is set. -/
def handles (s : State) (b : Bundle) (g : Gang) : Prop :=
  (∃ c, crewOf s (crewOfGang b.gang) = some c ∧ c.tvec ≠ 0) ∧
    ∀ l ∈ b.lanes, ∀ fb, tabFind g.fibres l = some fb → fb.handler = false

/-- `u` differs from `s` in the gang `gk` alone, which is `g` there. -/
def WithGang (s u : State) (gk : Nat) (g : Gang) : Prop :=
  u = { s with gangs := u.gangs } ∧ (∀ k, k ≠ gk → gangOf u k = gangOf s k) ∧ gangOf u gk = some g

/-- A word writes the registers `ws`, raises the flags `fl` and ends its lanes as `fate` says, and does nothing else. -/
def WritesAndEnds (s t : State) (b : Bundle) (h : Hdr) (g : Gang) (ws : List RegWrite) (fl : Nat → Flags)
    (fate : Nat → LaneEnd) (rise : Nat) : Prop :=
  ∃ u g1, WithGang s u b.gang g1 ∧ RegsWritten g g1 ws fl (fun _ => standing) ∧ EndsIssue s u t b h g1 fate rise

/-- The gang's fibres change as `f` says for each lane, and nothing else of the gang. -/
def FibresChanged (g g1 : Gang) (f : Nat → Fibre → Fibre) : Prop :=
  g1 = { g with fibres := g1.fibres } ∧ ∀ l, tabFind g1.fibres l = (tabFind g.fibres l).map (f l)

/-- The lanes of a mask: bit l of mask k. -/
def inMask (g : Gang) (k l : Nat) : Bool := (maskOf g k).getLsbD l

/-! ### Words that address memory -/

/-- The accesses `accs` have entered the memory system, numbered from `first` on; the others stand. -/
def AddsAccs (s u : State) (first : Nat) (accs : List Acc) : Prop :=
  ∀ id, tabFind u.accs id = if first ≤ id ∧ id < first + accs.length then accs[id - first]? else tabFind s.accs id

/-- No fibre of the lanes waits for an acquire (Table ORD-4). -/
def NoAcquire (g : Gang) (ls : List Nat) : Prop := ∀ l ∈ ls, ∀ fb, tabFind g.fibres l = some fb → fb.acqs = []

/-- No operation of the lanes is held back by an exclusive lease of its core (R185). -/
def NoNear (s : State) (gk : Nat) (ls : List Nat) : Prop :=
  ∀ x ∈ s.accs, x.2.gang = gk → (∃ l ∈ ls, l ∈ x.2.lanes) → x.2.st ≠ .near

/-- No earlier access of a lane has still to read or write the bytes that the lane addresses (R172). -/
def NoOverlap (s : State) (gk : Nat) (ls : List Nat) (addr : Nat → LaneAddr) : Prop :=
  ∀ l ∈ ls, ∀ x ∈ s.accs, x.1 < s.nextId → x.2.gang = gk → l ∈ x.2.lanes → accWaits x.2 = true → movesBytes x.2 = true →
    rangesMeet x.2.space x.2.pa x.2.size (addr l).space (addr l).pa (addr l).size = false

/-- No earlier store of a lane to scratchpad or bank waits. -/
def NoQueued (s : State) (gk : Nat) (ls : List Nat) : Prop :=
  ∀ x ∈ s.accs, x.1 < s.nextId → x.2.gang = gk → (∃ l ∈ ls, l ∈ x.2.lanes) → accWaits x.2 = true → isStore x.2 = true →
    x.2.space = .gl

/-- Every lane's address passes the checks of its space (R139 to R141, R163), and reaches `addr`. -/
def Reaches (s : State) (b : Bundle) (g : Gang) (h : Hdr) (sp : Space) (k : AccessKind) (n : Nat) (va : Nat → DWord)
    (addr : Nat → LaneAddr) : Prop :=
  ∀ l ∈ guardLanes s b g h, checkSpace s (wordCtx s b g h) sp k n (va l) l = .ok (addr l)

/-- Some lane's address fails a check, and the lanes' checks give `trap`. -/
def Fails (s : State) (b : Bundle) (g : Gang) (h : Hdr) (sp : Space) (k : AccessKind) (n : Nat) (va : Nat → DWord)
    (trap : Nat → Option TrapInfo) : Prop :=
  (∀ l, trap l = errOf (checkSpace s (wordCtx s b g h) sp k n (va l) l)) ∧ ∃ l ∈ guardLanes s b g h, (trap l).isSome

/-- Lanes with a trap take it, and the others stay at the word (R141, R277). -/
def trapsOr (trap : Nat → Option TrapInfo) (l : Nat) : LaneEnd := match trap l with
  | some t => .trap t
  | none => .stay

/-- No access that is served at a home changes anything there but what it asks for: no line is held under an exclusive lease, which
the home would recall, and no frame's attributes are being changed (R152, R185). -/
def NoRecall (s : State) : Prop := s.fattr = none ∧ ∀ line, (dirOf s line).holder = none

/-- No store of the core that waits for its fence, and no sample or ray walk of a lane, holds back a store of the lanes (R171,
R172). -/
def LineFree (s : State) (gk core : Nat) (ls : List Nat) (addr : Nat → LaneAddr) : Prop :=
  ∀ l ∈ ls, (addr l).space = .gl → relPending s core ((addr l).pa / 128) = false ∧ ownWalks s gk l = false

/-- A queued operation beside what an MMA keeps of bytes that stores have replaced (R238). -/
def bareEntry (q : EngEntry) : EngEntry := match q.op with
  | .mma w rows tile b _ => { q with op := .mma w rows tile b [] }
  | _ => q

/-- An engine beside what its queued MMAs keep. -/
def bareEngine (e : Engine) : Engine := { e with queue := e.queue.map bareEntry }

/-- The engines stand as they did, beside what their queued MMAs keep. -/
def EnginesStand (s u : State) : Prop := ∀ k, (tabFind u.engines k).map bareEngine = (tabFind s.engines k).map bareEngine

/-- Fibres have left the slots `ls` of a gang (R43): of what they have issued nothing changes but the lanes it counts for, of which
none is theirs any more; beside it, only gangs change. -/
def SlotsLeft (s u : State) (gk : Nat) (ls : List Nat) : Prop :=
  u = { s with gangs := u.gangs, accs := u.accs, copies := u.copies, own := u.own, engines := u.engines,
               rend := { s.rend with pkts := u.rend.pkts, frags := u.rend.frags } } ∧
  (∀ id, (tabFind u.accs id).map (fun a => { a with lanes := [], also := [] }) =
    (tabFind s.accs id).map fun a => { a with lanes := [], also := [] }) ∧
  (∀ id a, tabFind s.accs id = some a → (a.gang = gk → ∀ l ∈ ls, l ∉ a.lanes ∧ l ∉ a.also) → tabFind u.accs id = some a) ∧
  (∀ id a, tabFind u.accs id = some a → a.gang = gk → ∀ l ∈ ls, l ∉ a.lanes) ∧
  (∀ id, (tabFind u.copies id).map (fun x : Copy => { x with lane := 0 }) =
    (tabFind s.copies id).map fun x : Copy => { x with lane := 0 }) ∧
  ∀ k, (tabFind u.engines k).map (fun e : Engine => { e with queue := e.queue.map fun q : EngEntry => { q with lanes := [] } }) =
    (tabFind s.engines k).map fun e : Engine => { e with queue := e.queue.map fun q : EngEntry => { q with lanes := [] } }

/-- Only translations were cached, beside what else is named: `u` and `s` agree in every other part of the caches. -/
def CachesTlb (s u : State) : Prop := u.cache = { s.cache with tlb := u.cache.tlb }

/-- Of bytes written by several lanes at once, each location written ends with the byte of one lane that wrote it, and every
other location is unchanged (R172). -/
def LanesWrote (before after : Tab Byte) (ls : List Nat) (key : Nat → Nat) (bytes : Nat → List Byte) : Prop :=
  ∀ k, ((∀ l ∈ ls, ¬ (key l ≤ k ∧ k < key l + (bytes l).length)) → spGet 0#8 after k = spGet 0#8 before k) ∧
    ((∃ l ∈ ls, key l ≤ k ∧ k < key l + (bytes l).length) →
      ∃ l ∈ ls, key l ≤ k ∧ k < key l + (bytes l).length ∧ (bytes l)[k - key l]? = some (spGet 0#8 after k))

/-- The low `n` bytes of a lane's registers from D on, little-endian (R3, R77, R400). -/
def StoreData (s : State) (g : Gang) (d : Reg) (n l : Nat) (bs : List Byte) : Prop :=
  bs.length = n ∧ ∀ i < n, bs[i]? = some ((readV s g l (d.toNat + i / 4)).extractLsb' (8 * (i % 4)) 8)

/-! ### Words that act on barriers, engines and descriptors -/

/-- Crew `ck` changes as `f` says, and nothing else. -/
def CrewChanged (s u : State) (ck : Nat) (f : Crew → Crew) : Prop :=
  u = { s with crews := u.crews } ∧ (∀ j, j ≠ ck → crewOf u j = crewOf s j) ∧ crewOf u ck = (crewOf s ck).map f

/-- Barrier `k` of crew `ck` changes as `f` says, and nothing else. -/
def BarChanged (s u : State) (ck k : Nat) (f : Barrier → Barrier) : Prop :=
  CrewChanged s u ck fun c => { c with bars := c.bars.modify k f }

/-- Engine `key` changes as `f` says, and no other engine. -/
def EngineChanged (s u : State) (key : Nat) (f : Engine → Engine) : Prop :=
  engOf u key = f (engOf s key) ∧ ∀ k, k ≠ key → tabFind u.engines k = tabFind s.engines k

/-- The engine of a gang has a place in its queue, and for a tile (R230, R241). -/
def EngineRoom (s : State) (g : Gang) (t : BitVec 4) : Prop :=
  let e := engOf s (8 * g.core + g.slice)
  e.queue.length < 16 ∧ (16 * g.group + t.toNat ∈ e.mapped ∨ e.mapped.length < 16)

/-- An engine that has accepted an operation on a tile of a bundle's gang (R230, R241). -/
def accepted (s : State) (b : Bundle) (g : Gang) (h : Hdr) (t : BitVec 4) (op : EngOp) (e : Engine) : Engine :=
  let tile := 16 * g.group + t.toNat
  { e with queue := e.queue ++ [{ gang := b.gang, gw := g.gw, lanes := guardLanes s b g h, gid := s.nextId, seq := s.nextId,
                                  pc := b.pc, op }],
           mapped := if tile ∈ e.mapped then e.mapped else e.mapped ++ [tile],
           tileWait := e.tileWait.filter fun w => !(w.gang == b.gang && w.tile == tile && w.pc == some b.pc) }

/-- `u` is reached from `s` by the lanes one after another, each taking its turn (R212): `turn v l i w` says that lane `l`,
the `i`-th, leads from `v` to `w`. -/
def InTurn (turn : State → Nat → Nat → State → Prop) : List Nat → Nat → State → State → Prop
  | [], _, s, u => u = s
  | l :: ls, i, s, u => ∃ v, turn s l i v ∧ InTurn turn ls (i + 1) v u

/-! ### Events -/

/-- `i` leads from `s` to a next state of which `P` holds. -/
def Leads (s : State) (i : Instr) (P : State → Prop) : Prop := ∃ t, exec i s = .next t ∧ P t

/-- A configuration register takes a value, and nothing else changes. -/
def CfgChanged (s t : State) (addr : Nat) (v : Word) : Prop :=
  t = { s with cfg := t.cfg } ∧ ∀ a, cfgGet t a = if a = addr then v else cfgGet s a

/-- Partition `p` changes as `f` says, and nothing else. -/
def PartChanged (s t : State) (p : Nat) (f : Partition → Partition) : Prop :=
  t = { s with parts := t.parts } ∧ ∀ q, partOf t q = if q = p then f (partOf s p) else partOf s q

/-- Function `fn` changes as `f` says, and nothing else. -/
def FuncChanged (s t : State) (fn : Nat) (f : Func → Func) : Prop :=
  t = { s with funcs := t.funcs } ∧ ∀ k, funcOf t k = if k = fn then f (funcOf s fn) else funcOf s k

/-- The die at a position changes as `f` says, and nothing else. -/
def DieChanged (s t : State) (pos : Nat) (f : Die → Die) : Prop :=
  t = { s with dies := t.dies } ∧ ∀ k, tabFind t.dies k = if k = pos then (tabFind s.dies k).map f else tabFind s.dies k

/-- A core changes as `f` says, and nothing else. -/
def CoreChanged (s t : State) (key : Nat) (f : Core → Core) : Prop :=
  t = { s with cores := t.cores } ∧ ∀ k, tabFind t.cores k = if k = key then (tabFind s.cores k).map f else tabFind s.cores k

/-- `t` is what a package reset leaves of `s` (R30): the dies that are there, with no unit in service and their registers at reset; host memory;
the flash `f`; and nothing else. -/
def AfterReset (s t : State) (f : FlashSt) : Prop :=
  t.flash = f ∧ t.hostMem = s.hostMem ∧ t.boot = State.reset.boot ∧ t.time = State.reset.time ∧ t.rend = State.reset.rend ∧
  t.cache = State.reset.cache ∧ t.mem = [] ∧ t.gangs = [] ∧ t.crews = [] ∧ t.accs = [] ∧ t.spad = [] ∧ t.bank = [] ∧ t.cfg = [] ∧
  t.parts = [] ∧ t.funcs = [] ∧ t.sched.shifts = [] ∧ t.issue = none ∧
  ∀ pos, (tabFind t.dies pos).map (·.kind) = (tabFind s.dies pos).map (·.kind) ∧
    ∀ d, tabFind t.dies pos = some d → d.health = 0 ∧ d.chan = 0 ∧ d.level = 0 ∧ d.inService = false ∧
      d.slope = spGet 0x10#8 f.manifest.slope pos

/-- A start fails (R26): a boot-log record, one more failure, and a package reset, with which a new start begins at once. -/
def StartFails (s t : State) (cause : BitVec 8) (detail : Nat) : Prop :=
  ∃ u, AfterReset s u { s.flash with log := s.flash.log ++ [{ cause, detail }], fails := min 255 (s.flash.fails + 1) } ∧ t = beginStart u

/-- Event records join those on their way to the operator's event ring (R291, R292). -/
def raised (s : State) (kind pos unit arg0 arg1 : Nat) : List Report :=
  s.outbox ++ [{ ring := 0x300, bytes := eventBytes s.time.now kind pos unit arg0 arg1 }]

/-- The record of shift `id` changes as `f` says, and nothing else. -/
def ShiftChanged (s t : State) (id : Nat) (f : Shift → Shift) : Prop :=
  t = { s with sched := { s.sched with shifts := t.sched.shifts } } ∧
    ∀ k, tabFind t.sched.shifts k = if k = id then (tabFind s.sched.shifts id).map f else tabFind s.sched.shifts k

/-- Fibres of a gang leave their holds (R103): those of the lanes `ls` go on at the next word, their stalls counting from now;
no counter of the gang rises, and nothing else changes. -/
def GoesOn (s t : State) (gk : Nat) (g : Gang) (ls : Nat → Prop) : Prop :=
  t = { s with gangs := t.gangs, nextId := t.nextId } ∧ (∀ k, k ≠ gk → gangOf t k = gangOf s k) ∧
  ∃ g1, gangOf t gk = some g1 ∧ g1 = { g with fibres := g1.fibres, outs := g1.outs, zeroAt := g1.zeroAt } ∧
    (∀ n, ctrVal (cycOf s g.core) g1 n ≤ ctrVal (cycOf s g.core) g n) ∧
    ∀ l, (¬ ls l → tabFind g1.fibres l = tabFind g.fibres l) ∧
      (ls l → ∀ fb w, tabFind g.fibres l = some fb → fb.held = some w → ∃ fb', tabFind g1.fibres l = some fb' ∧
        fb' = { fb with held := none, pc := fb.pc + 8, readyAt := cycOf s g.core + 1 + w.stall, sum := fb.sum + 1 + w.stall,
                        bun := fb'.bun, haz := fb'.haz, flBase := fb'.flBase, flq := fb'.flq } ∧
        allFlags fb' = allFlags fb)

/-- A fibre that enters its handler with a trap (R281), beside the bundle that it leaves. -/
def inTrap (tvec pc retpc : DWord) (x : TrapInfo) (fb : Fibre) : Fibre :=
  { fb with handler := true, tcause := x.cause, tpc := pc.truncate 32, taddr := x.addr, tinfo := x.info, retpc, pc := tvec,
            bun := 0 }

/-- A crew that runs and is asked to halt. -/
def haltAsked (why : HaltWhy) (c : Crew) : Crew := { c with phase := .halting, halt := [why] }

/-! ### Exact values -/

/-- A finite value in units of 2^k, for a k that is no larger than its exponent. -/
def scaled (k : Int) : FV → Int
  | .fin neg m e => (if neg then -1 else 1) * (m * 2 ^ (e - k).toNat : Nat)
  | _ => 0

/-- A finite value that is a multiple of 2^k by its exponent. -/
def scaledOk (k : Int) : FV → Prop
  | .fin _ _ e => k ≤ e
  | _ => False

/-- A code of a format whose value is finite. -/
def finiteCode (f : Fmt) (c : Nat) : Prop := c < 2 ^ f.width ∧ ∃ neg m e, f.value c = .fin neg m e

end Sys2Proof.Machine
end

