-- ==== Sys2Proof/Certificates/Slice0/Obligations.lean ====
section
/-! DEFINITION. The statements for the provers. Each docstring cites the rule of spec/ that it formalises. -/

open Sys2Proof
open Sys2Proof.Machine

/-! ### Integer words -/

/-- R360, R362, R363, R378: the integer and bitwise words of two sources. -/
def Claims.IntegerWords : Prop :=
  Computes2 .iadd (fun x y => BitVec.ofInt 32 (x.toInt + y.toInt)) ∧
  Computes2 .isub (fun x y => BitVec.ofInt 32 (x.toInt - y.toInt)) ∧
  Computes2 .imul (fun x y => BitVec.ofInt 32 (x.toInt * y.toInt)) ∧
  Computes2 (.imulh · false) (fun x y => BitVec.ofInt 32 (x.toInt * y.toInt / 2 ^ 32)) ∧
  Computes2 (.imulh · true) (fun x y => BitVec.ofNat 32 (x.toNat * y.toNat / 2 ^ 32)) ∧
  Computes3 .imad (fun x y z => BitVec.ofInt 32 (x.toInt * y.toInt + z.toInt)) ∧
  Computes2 (.imin · false) (fun x y => if x.toInt ≤ y.toInt then x else y) ∧
  Computes2 (.imin · true) (fun x y => if x.toNat ≤ y.toNat then x else y) ∧
  Computes2 (.imax · false) (fun x y => if x.toInt ≤ y.toInt then y else x) ∧
  Computes2 (.imax · true) (fun x y => if x.toNat ≤ y.toNat then y else x) ∧
  Computes2 .and (fun x y => x &&& y) ∧
  Computes2 .or (fun x y => x ||| y) ∧
  Computes2 .xor (fun x y => x ^^^ y)

/-- R360, R359, R374, R378, R382, R336, R330: the integer and bitwise words of one source, with or without an immediate. -/
def Claims.IntegerUnaryWords : Prop :=
  (∀ imm : BitVec 17, Computes1 (.iaddi · · · imm) fun x => BitVec.ofInt 32 (x.toInt + imm.toInt)) ∧
  Computes1 .iabs (fun x => BitVec.ofNat 32 x.toInt.natAbs) ∧
  Computes1 .mov (fun x => x) ∧
  (∀ imm : BitVec 16, Computes1 (.movhi · · · imm) fun x => BitVec.ofNat 32 (imm.toNat * 2 ^ 16 + x.toNat % 2 ^ 16)) ∧
  (∀ imm : BitVec 17, Computes1 (.andi · · · imm) fun x => x &&& BitVec.ofNat 32 imm.toNat) ∧
  (∀ imm : BitVec 17, Computes1 (.ori · · · imm) fun x => x ||| BitVec.ofNat 32 imm.toNat) ∧
  (∀ imm : BitVec 17, Computes1 (.xori · · · imm) fun x => x ^^^ BitVec.ofNat 32 imm.toNat) ∧
  Computes1 .not (fun x => BitVec.ofNat 32 (2 ^ 32 - 1 - x.toNat)) ∧
  Computes1 .popc (fun x => BitVec.ofNat 32 ((List.range 32).filter fun i => x.getLsbD i).length) ∧
  (∃ f, Computes1 .clz f ∧ f 0 = 32 ∧ ∀ x : Word, x ≠ 0 → (f x).toNat < 32 ∧ 2 ^ (31 - (f x).toNat) ≤ x.toNat ∧
    x.toNat < 2 ^ (32 - (f x).toNat)) ∧
  (∃ f, Computes1 .brev f ∧ ∀ (x : Word) (i : Nat), i < 32 → (f x).getLsbD i = x.getLsbD (31 - i)) ∧
  ∀ (s : State) (b : Bundle) (g : Gang) (h : Hdr) (d : Opnd) (imm : BitVec 26),
    Issues s b g h (opNames d 1) (fun _ => []) →
    ∃ t, exec (.movi h d imm) s = .next t ∧
      RegWord s t b g h (oneResult s b g h d fun _ _ => BitVec.ofInt 32 imm.toInt) noFlags

/-- R395, R326, R327: shifts and bit fields. -/
def Claims.ShiftWords : Prop :=
  Computes2 .shl (fun x n => BitVec.ofNat 32 (x.toNat * 2 ^ n.toNat)) ∧
  Computes2 .shr (fun x n => BitVec.ofNat 32 (x.toNat / 2 ^ n.toNat)) ∧
  Computes2 .sar (fun x n => BitVec.ofInt 32 (x.toInt / 2 ^ n.toNat)) ∧
  (∀ imm : BitVec 17, Computes1 (.shli · · · imm) fun x => BitVec.ofNat 32 (x.toNat * 2 ^ imm.toNat)) ∧
  (∀ imm : BitVec 17, Computes1 (.shri · · · imm) fun x => BitVec.ofNat 32 (x.toNat / 2 ^ imm.toNat)) ∧
  (∀ imm : BitVec 17, Computes1 (.sari · · · imm) fun x => BitVec.ofInt 32 (x.toInt / 2 ^ imm.toNat)) ∧
  (∀ signed : Bool, ∃ f, Computes2 (.bfx · signed) f ∧ ∀ (x y : Word) (i : Nat), i < 32 →
    let pos := y.toNat % 32
    let n := min (y.toNat / 256 % 64) (32 - pos)
    (f x y).getLsbD i = if i < n then x.getLsbD (pos + i) else signed && 0 < n && x.getLsbD (pos + n - 1)) ∧
  (∃ f, Computes3 .bfi f ∧ ∀ (x y z : Word) (i : Nat), i < 32 →
    let pos := y.toNat % 32
    let n := min (y.toNat / 256 % 64) (32 - pos)
    (f x y z).getLsbD i = if pos ≤ i ∧ i < pos + n then x.getLsbD (i - pos) else z.getLsbD i)

/-- R361, R77: the 64-bit sums, into a pair of registers. -/
def Claims.WideIntegerWords : Prop :=
  (∀ (h : Hdr) (d x y : Opnd),
    Executes (.iadd64 h d x y) h (opNames d 2 ++ (opNames x 2 ++ opNames y 2)) (fun _ _ => opReads x 2 ++ opReads y 2)
      fun s c => (dstLanes c d).flatMap fun l =>
        pairWrite d l (BitVec.ofInt 64 ((rd64 s c l x).toInt + (rd64 s c l y).toInt))) ∧
  ∀ (h : Hdr) (d x : Opnd) (imm : BitVec 17),
    Executes (.iadd64i h d x imm) h (opNames d 2 ++ opNames x 2) (fun _ _ => opReads x 2)
      fun s c => (dstLanes c d).flatMap fun l => pairWrite d l (BitVec.ofInt 64 ((rd64 s c l x).toInt + imm.toInt))

/-- The words of classes 1 and 2 that compute an integer or a bit pattern from their sources. -/
def Obligations.IntegerWords : Prop := Claims.IntegerWords ∧ Claims.IntegerUnaryWords ∧ Claims.ShiftWords ∧ Claims.WideIntegerWords

/-- R365, R380, R381, R396: comparisons into a predicate or a register, selection by a predicate, and the words that move
and combine predicates. -/
def Claims.PredicateWords : Prop :=
  (∃ holds : Cond → Bool → Word → Word → Bool,
    (∀ (c : Cond) (u : Bool) (x y : Word), holds c u x y = true ↔ intHolds c u x y) ∧
    (∀ (h : Hdr) (cond : Cond) (u : Bool) (d x y : Opnd), cond.intOk = true →
      Results (.iset h cond u (.reg d) x y) h d (opNames x 1 ++ opNames y 1) (opReads x 1 ++ opReads y 1)
        fun s c l => (if holds cond u (rd s c l x) (rd s c l y) then 1 else 0, 0)) ∧
    (∀ (h : Hdr) (cond : Cond) (u : Bool) (p : BitVec 4) (x y : Opnd), cond.intOk = true →
      Executes (.iset h cond u (.pred p) x y) h (opNames x 1 ++ opNames y 1) (fun _ _ => opReads x 1 ++ opReads y 1)
        fun s c => c.on.map fun l =>
          { lane := l, reg := pRef p.toNat, val := if holds cond u (rd s c l x) (rd s c l y) then 1 else 0 }) ∧
    (∀ (h : Hdr) (cond : Cond) (u : Bool) (p : BitVec 4) (x : Opnd) (imm : BitVec 17), cond.intOk = true →
      Executes (.iseti h cond u p x imm) h (opNames x 1) (fun _ _ => opReads x 1)
        fun s c => c.on.map fun l =>
          { lane := l, reg := pRef p.toNat, val := if holds cond u (rd s c l x) (imm.signExtend 32) then 1 else 0 })) ∧
  (∀ (h : Hdr) (d x y : Opnd) (p : BitVec 4) (sense : Bool),
    Results (.sel h d x y p sense) h d (opNames x 1 ++ opNames y 1) (opReads x 1 ++ opReads y 1 ++ [pRef p.toNat])
      fun s c l => (if readP s c.g l p.toNat = !sense then rd s c l x else rd s c l y, 0)) ∧
  (∀ (h : Hdr) (d a b table : BitVec 4),
    Executes (.plop h d a b table) h [] (fun _ _ => [pRef a.toNat, pRef b.toNat]) fun s c => c.on.map fun l =>
      let i := 2 * (readP s c.g l a.toNat).toNat + (readP s c.g l b.toNat).toNat
      { lane := l, reg := pRef d.toNat, val := if table.getLsbD i then 1 else 0 }) ∧
  (∃ f : State → Ctx → Nat → Word, (∀ s c l i, i < 32 → (f s c l).getLsbD i = (decide (i < 16) && readP s c.g l i)) ∧
    ∀ (h : Hdr) (d : Opnd), Results (.pmov h d) h d [] allPreds fun s c l => (f s c l, 0)) ∧
  ∀ (h : Hdr) (x : Opnd),
    Executes (.pmovTop h x) h (opNames x 1) (fun _ _ => opReads x 1) fun s c => c.on.flatMap fun l =>
      (List.range 16).map fun i => { lane := l, reg := pRef i, val := if (rd s c l x).getLsbD i then 1 else 0 }

/-- R79, R387, R388: the words of the index registers. Where lanes of one bundle write one window register, one of their
values stands. -/
def Claims.IndexWords : Prop :=
  (∀ (h : Hdr) (n : BitVec 1) (x : Opnd) (imm : BitVec 17),
    Executes (.setix h n x imm) h (opNames x 1) (fun _ _ => opReads x 1) fun s c =>
      c.on.map fun l => { lane := l, reg := ixRef n, val := BitVec.ofInt 32 ((rd s c l x).toInt + imm.toInt) }) ∧
  (∀ (h : Hdr) (d : Reg) (n : BitVec 1) (imm : BitVec 17) (s : State) (b : Bundle) (g : Gang),
    Issues s b g h (vNames d 1) (fun l => ixRef n :: indexedReads g l n imm) →
    (∀ l ∈ guardLanes s b g h, (indexOf s (wordCtx s b g h) l n imm).toNat < g.wsize) →
    ∃ t, exec (.rdx h d n imm) s = .next t ∧ RegWord s t b g h
      ((guardLanes s b g h).map fun l => oneWrite (vr d) l (readV s g l (indexOf s (wordCtx s b g h) l n imm).toNat)) noFlags) ∧
  ∀ (h : Hdr) (n : BitVec 1) (x : Opnd) (imm : BitVec 17) (s : State) (b : Bundle) (g : Gang),
    Issues s b g h (opNames x 1) (fun _ => ixRef n :: opReads x 1) →
    (∀ l ∈ guardLanes s b g h, (indexOf s (wordCtx s b g h) l n imm).toNat < g.wsize) →
    ∃ t ws, exec (.wrx h n x imm) s = .next t ∧
      ws.Perm ((guardLanes s b g h).map fun l =>
        { lane := l, reg := vRef (indexOf s (wordCtx s b g h) l n imm).toNat, val := rd s (wordCtx s b g h) l x }) ∧
      RegWord s t b g h ws noFlags

/-- The words that write or read predicates and index registers. -/
def Obligations.PredicateWords : Prop := Claims.PredicateWords ∧ Claims.IndexWords

/-! ### Floating-point words -/

/-- R116, R119, R348, R351, R352, R354, R355: the FP32 words, by the exact operations and the one rounding that
`Claims.RoundingRule`, `Claims.ExactRule` and `Claims.CompareRule` state. -/
def Claims.Fp32Words : Prop :=
  (∀ (h : Hdr) (m : FMod) (d x y : Opnd),
    let src := fun (abs neg : Bool) (v : Nat) => srcCode fmtFP32 abs neg m.ftz v
    Rounds2 (.fadd h m d x y) h m.rm d x y (fun rm u v => addF fmtFP32 rm m.ftz (src m.absA m.negA u) (src m.absB m.negB v)) ∧
    Rounds2 (.fsub h m d x y) h m.rm d x y (fun rm u v => subF fmtFP32 rm m.ftz (src m.absA m.negA u) (src m.absB m.negB v)) ∧
    Rounds2 (.fmul h m d x y) h m.rm d x y (fun rm u v => mulF fmtFP32 rm m.ftz (src m.absA m.negA u) (src m.absB m.negB v)) ∧
    Rounds2 (.fmin h m d x y) h .rne d x y
      (fun _ u v => (minmaxF fmtFP32 false (src m.absA m.negA u) (src m.absB m.negB v), 0)) ∧
    Rounds2 (.fmax h m d x y) h .rne d x y
      (fun _ u v => (minmaxF fmtFP32 true (src m.absA m.negA u) (src m.absB m.negB v), 0))) ∧
  (∀ (h : Hdr) (m : FmaMod) (d x y : Opnd), Rounds3 (.ffma h m d x y) h m.rm d x y fun rm u v w =>
    fmaF fmtFP32 rm m.ftz m.negP m.negC (fmtFP32.flush m.ftz u) (fmtFP32.flush m.ftz v) (fmtFP32.flush m.ftz w)) ∧
  (∀ (h : Hdr) (abs neg ftz : Bool) (rm : RM) (d x : Opnd),
    Rounds1 (.frnd h abs neg ftz rm d x) h rm d x fun rm u => (frndF rm (srcCode fmtFP32 abs neg ftz u), 0)) ∧
  (∀ (h : Hdr) (cond : Cond) (d x y : Opnd),
    Results (.fset h cond (.reg d) x y) h d (opNames x 1 ++ opNames y 1) (opReads x 1 ++ opReads y 1)
      fun s c l => (if compareF cond (rd s c l x).toNat (rd s c l y).toNat then 1 else 0, 0)) ∧
  ∀ (h : Hdr) (cond : Cond) (p : BitVec 4) (x y : Opnd),
    Executes (.fset h cond (.pred p) x y) h (opNames x 1 ++ opNames y 1) (fun _ _ => opReads x 1 ++ opReads y 1)
      fun s c => c.on.map fun l =>
        { lane := l, reg := pRef p.toNat, val := if compareF cond (rd s c l x).toNat (rd s c l y).toNat then 1 else 0 }

/-- R124, R323, R356: the packed words act on each half of a register, in FP16 or BF16. -/
def Claims.PackedWords : Prop :=
  (∀ (h : Hdr) (m : PMod) (d x y : Opnd),
    let both := fun (f : Fmt) (op : Fmt → RM → Bool → Nat → Nat → Nat × Flags) (rm : RM) (u v : Nat) =>
      halves (fun a b _ => op f rm m.ftz (srcCode f false m.negA m.ftz a) (srcCode f false m.negB m.ftz b)) u v 0
    Rounds2 (.hadd2 h m d x y) h m.rm d x y (both fmtFP16 addF) ∧
    Rounds2 (.hmul2 h m d x y) h m.rm d x y (both fmtFP16 mulF) ∧
    Rounds2 (.badd2 h m d x y) h m.rm d x y (both fmtBF16 addF) ∧
    Rounds2 (.bmul2 h m d x y) h m.rm d x y (both fmtBF16 mulF)) ∧
  ∀ (h : Hdr) (m : FmaMod) (d x y : Opnd),
    let both := fun (f : Fmt) (rm : RM) =>
      halves fun a b c => fmaF f rm m.ftz m.negP m.negC (f.flush m.ftz a) (f.flush m.ftz b) (f.flush m.ftz c)
    Rounds3 (.hfma2 h m d x y) h m.rm d x y (both fmtFP16) ∧ Rounds3 (.bfma2 h m d x y) h m.rm d x y (both fmtBF16)

/-- R128, R131, R339, R349, R379: conversions, PACK and the special functions complete in every lane, with one result and
its flags. -/
def Claims.ConversionWords : Prop :=
  (∀ (h : Hdr) (src dst : CvtType) (rm : RM) (ftz : Bool) (d a : Reg),
    let n := fun (t : CvtType) => if t.is64 then 2 else 1
    let conv := fun (s : State) (c : Ctx) (l : Nat) => cvtF src dst (laneRM c l rm) ftz
      (if src.is64 then (rdV64 s c l a).toNat else (readV s c.g l a.toNat).toNat)
    Executes (.cvt h src dst rm ftz d a) h (vNames d (n dst) ++ vNames a (n src)) (fun _ _ => vReads a (n src))
      (fun s c => c.on.flatMap fun l => (pairWrite (vr d) l (BitVec.ofNat 64 (conv s c l).1)).take (n dst))
      (fun s c l => if l ∈ c.on then (conv s c l).2 else 0)) ∧
  (∀ (h : Hdr) (t : CvtType) (s32 hi : Bool) (d a b : Reg),
    Results (.pack h t s32 hi d a b) h (vr d) (vNames a 1 ++ vNames b 1)
      (vReads a 1 ++ vReads b 1 ++ if t.is8 then vReads d 1 else [])
      fun s c l => packWord t s32 hi (readV s c.g l a.toNat) (readV s c.g l b.toNat) (readV s c.g l d.toNat)) ∧
  ∀ (h : Hdr) (ftz : Bool) (d x : Opnd),
    Rounds1 (.frcp h ftz d x) h .rne d x (fun _ => specialF .rcp ftz) ∧
    Rounds1 (.frsq h ftz d x) h .rne d x (fun _ => specialF .rsq ftz) ∧
    Rounds1 (.fsqrt h ftz d x) h .rne d x (fun _ => specialF .sqrt ftz) ∧
    Rounds1 (.fex2 h ftz d x) h .rne d x (fun _ => specialF .ex2 ftz) ∧
    Rounds1 (.flg2 h ftz d x) h .rne d x (fun _ => specialF .lg2 ftz) ∧
    Rounds1 (.fsin h ftz d x) h .rne d x (fun _ => specialF .sin ftz) ∧
    Rounds1 (.fcos h ftz d x) h .rne d x (fun _ => specialF .cos ftz)

/-- The floating-point words, the conversions and the special functions. -/
def Obligations.FloatWords : Prop := Claims.Fp32Words ∧ Claims.PackedWords ∧ Claims.ConversionWords

/-! ### Lane words -/

/-- R325, R337, R346, R397, R399: the words that move values between lanes. -/
def Claims.LaneMoveWords : Prop :=
  (∀ (h : Hdr) (mode : ShflMode) (d a : Reg) (b : Opnd),
    Executes (.shfl h mode d a b) h (vNames d 1 ++ (vNames a 1 ++ opNames b 1)) (fun _ _ => vReads a 1 ++ opReads b 1)
      fun s c => c.on.map fun l =>
        let n : Int := (rd s c l b).toNat
        let j : Int := match mode with
          | .idx => n % c.g.gw
          | .up => l - n
          | .down => l + n
          | .xor => (l ^^^ (n % c.g.gw).toNat : Nat)
        oneWrite (vr d) l (readV s c.g (if 0 ≤ j ∧ j < c.g.gw ∧ j.toNat ∈ c.on then j.toNat else l) a.toNat)) ∧
  (∀ (h : Hdr) (d a : Reg) (b : Opnd),
    Executes (.bcast h d a b) h (vNames d 1 ++ (vNames a 1 ++ opNames b 1)) (fun _ _ => vReads a 1 ++ opReads b 1)
      fun s c => c.on.map fun l =>
        let j := (rd s c (lowest c) b).toNat % c.g.gw
        oneWrite (vr d) l (if j ∈ c.on then readV s c.g j a.toNat else 0)) ∧
  (∀ (h : Hdr) (d : Reg) (x : Opnd) (p : BitVec 4),
    let set := fun (s : State) (c : Ctx) => c.on.filter fun l => readP s c.g l p.toNat
    Executes (.compress h d x p) h (vNames d 1 ++ opNames x 1) (fun _ _ => opReads x 1 ++ [pRef p.toNat])
      (fun s c => (c.on.zip (set s c)).map fun k => oneWrite (vr d) k.1 (rd s c k.2 x)) ∧
    Executes (.expand h d x p) h (vNames d 1 ++ opNames x 1) (fun _ _ => opReads x 1 ++ [pRef p.toNat])
      (fun s c => ((set s c).zip c.on).map fun k => oneWrite (vr d) k.1 (rd s c k.2 x))) ∧
  ∀ (h : Hdr) (d a : Reg) (b : Opnd),
    let n := fun (s : State) (c : Ctx) => (rd s c (lowest c) b).toNat
    Executes (.slideup h d a b) h (vNames d 1 ++ (vNames a 1 ++ opNames b 1)) (fun _ _ => vReads a 1 ++ opReads b 1)
      (fun s c => ((c.on.drop (n s c)).zip c.on).map fun k => oneWrite (vr d) k.1 (readV s c.g k.2 a.toNat)) ∧
    Executes (.slidedn h d a b) h (vNames d 1 ++ (vNames a 1 ++ opNames b 1)) (fun _ _ => vReads a 1 ++ opReads b 1)
      (fun s c => (c.on.zip (c.on.drop (n s c))).map fun k => oneWrite (vr d) k.1 (readV s c.g k.2 a.toNat))

/-- R372, R390, R408: reductions and scans in ascending lane order, votes and matches. -/
def Claims.LaneReduceWords : Prop :=
  (∀ (h : Hdr) (op : LaneOp) (d : Opnd) (a : Reg),
    Executes (.redl h op d a) h (opNames d 1 ++ vNames a 1) (fun _ _ => vReads a 1) fun s c =>
      let r := match c.on.map fun l => readV s c.g l a.toNat with
        | [] => 0
        | x :: xs => xs.foldl (laneOp op) (laneFirst op x)
      (dstLanes c d).map fun l => oneWrite d l r) ∧
  (∀ (h : Hdr) (op : LaneOp) (excl : Bool) (d a : Reg),
    Executes (.scanl h op excl d a) h (vNames d 1 ++ vNames a 1) (fun _ _ => vReads a 1) fun s c =>
      let vals := c.on.map fun l => readV s c.g l a.toNat
      c.on.zipIdx.map fun k => oneWrite (vr d) k.1
        (match vals.take (if excl then k.2 else k.2 + 1) with
          | [] => laneIdentity op
          | x :: xs => xs.foldl (laneOp op) (laneFirst op x))) ∧
  (∀ (h : Hdr) (mode : VoteMode) (hi : Bool) (d : Opnd) (p : BitVec 4), ∃ r : State → Ctx → Word,
    Executes (.vote h mode hi d p) h (opNames d 1) (fun _ _ => [pRef p.toNat])
      (fun s c => (dstLanes c d).map fun l => oneWrite d l (r s c)) ∧
    ∀ (s : State) (c : Ctx), c.on.Nodup → (∀ l ∈ c.on, l < 64) → c.on ≠ [] →
      let set := c.on.filter fun l => readP s c.g l p.toNat
      match mode with
      | .mask => ∀ i < 32, (r s c).getLsbD i = decide (i + (if hi then 32 else 0) ∈ set)
      | .every => r s c = if set = c.on then 1 else 0
      | .some => r s c = if set = [] then 0 else 1
      | .same => r s c = if set = [] ∨ set = c.on then 1 else 0
      | .count => (r s c).toNat = set.length) ∧
  ∀ (h : Hdr) (hi : Bool) (d x : Opnd), ∃ r : State → Ctx → Nat → Word,
    Results (.matchLanes h hi d x) h d (opNames x 1) (opReads x 1) (fun s c l => (r s c l, 0)) ∧
    ∀ (s : State) (c : Ctx) (l i : Nat), c.on.Nodup → (∀ l ∈ c.on, l < 64) → i < 32 →
      ((r s c l).getLsbD i = true ↔ i + (if hi then 32 else 0) ∈ c.on ∧
        rd s c (i + if hi then 32 else 0) x = rd s c l x)

/-- The cross-lane words. -/
def Obligations.LaneWords : Prop := Claims.LaneMoveWords ∧ Claims.LaneReduceWords

/-! ### Control words -/

/-- R94, R329, R332, R377, R412: NOP, YIELD, BR and CALL. -/
def Claims.ControlWords : Prop :=
  ∀ (s : State) (b : Bundle) (g : Gang) (h : Hdr),
    (Issues s b g h [] (fun _ => []) →
      (∃ t, exec (.nop h) s = .next t ∧ EndsIssue s s t b h g goesOn 0) ∧
      ∃ t, exec (.yieldFibre h) s = .next t ∧ EndsIssue s s t b h g goesOn 0 ∧
        ∀ l ∈ guardLanes s b g h, ∃ fb, fibreAt t b.gang l = some fb ∧ fb.bun = 0) ∧
    ∀ f : BForm,
      let taken := fun l => f.gen = false ∨ ((readV s g l f.greg.toNat).getLsbD f.gbit.toNat ^^ f.gsense) = true
      let target := BitVec.ofInt 64 (b.pc.toInt + 8 * f.off.toInt)
      let cond := if f.gen then [f.greg.toNat] else []
      ∀ fate : Nat → LaneEnd, (∀ l, taken l → fate l = .goto target) → (∀ l, ¬ taken l → fate l = .next) →
      (Issues s b g h cond (fun _ => cond.map vRef) →
        ∃ t, exec (.br h f) s = .next t ∧ EndsIssue s s t b h g (fates s b g h fate) 0) ∧
      (Issues s b g h (cond ++ [254, 255]) (fun _ => cond.map vRef) →
        ∃ t ws, exec (.call h f) s = .next t ∧ WritesAndEnds s t b h g ws noFlags (fates s b g h fate) 1 ∧
          ∀ w, w ∈ ws ↔ ∃ l ∈ guardLanes s b g h, taken l ∧
            (w = { lane := l, reg := vRef 254, val := (b.pc + 8).extractLsb' 0 32 } ∨
             w = { lane := l, reg := vRef 255, val := (b.pc + 8).extractLsb' 32 32 }))

/-- R331, R393: BRX and RET go to an address held in registers; a target that is not a multiple of 8 traps with cause 0x08 in
its lanes, and the other lanes stay at the word. -/
def Claims.JumpWords : Prop :=
  ∀ (s : State) (b : Bundle) (g : Gang) (h : Hdr) (i : Instr) (names : List Nat) (reads : List RegRef) (target : Nat → DWord),
    (i = .ret h ∧ names = [254, 255] ∧ reads = [vRef 254, vRef 255] ∧ (∀ l, target l = readV s g l 255 ++ readV s g l 254) ∨
      ∃ x, i = .brx h x ∧ names = opNames x 2 ∧ reads = opReads x 2 ∧ ∀ l, target l = rd64 s (wordCtx s b g h) l x) →
    Issues s b g h names (fun _ => reads) →
    ((∀ l ∈ guardLanes s b g h, (target l).toNat % 8 = 0) →
      ∃ t, exec i s = .next t ∧ EndsIssue s s t b h g (fates s b g h fun l => .goto (target l)) 0) ∧
    ((∃ l ∈ guardLanes s b g h, (target l).toNat % 8 ≠ 0) → handles s b g →
      ∃ t, exec i s = .next t ∧ EndsIssue s s t b h g (fates s b g h fun l =>
        if (target l).toNat % 8 = 0 then .stay
        else .trap { cause := 0x08, addr := target l, info := 0, next := false }) 0)

/-- The words that only move the program counter, and CALL. -/
def Obligations.BranchWords : Prop := Claims.ControlWords ∧ Claims.JumpWords

/-- R280, R281, R285, R328, R345, R407: TRAP and BKPT enter the handler with their causes and return to the next word; ERET
goes back to the return point, and outside a handler traps with cause 0x01. -/
def Claims.TrapWords : Prop :=
  ∀ (s : State) (b : Bundle) (g : Gang) (h : Hdr), Issues s b g h [] (fun _ => []) →
    (handles s b g →
      (∀ code : BitVec 26, ∃ t, exec (.trap h code) s = .next t ∧ EndsIssue s s t b h g
        (fates s b g h fun _ => .trap { cause := 0x13, addr := 0, info := code.zeroExtend 32, next := true }) 0) ∧
      (∀ code : BitVec 8, (∀ c, crewOf s (crewOfGang b.gang) = some c → c.armed = false) →
        ∃ t, exec (.bkpt h code) s = .next t ∧ EndsIssue s s t b h g
          (fates s b g h fun _ => .trap { cause := 0x14, addr := 0, info := code.zeroExtend 32, next := true }) 0) ∧
      ∃ t, exec (.eret h) s = .next t ∧ EndsIssue s s t b h g
        (fates s b g h fun _ => .trap { cause := 0x01, addr := 0, info := 0, next := false }) 0) ∧
    ((∀ l ∈ guardLanes s b g h, ∀ fb, tabFind g.fibres l = some fb → fb.handler = true) →
      ∃ t u g1, exec (.eret h) s = .next t ∧ WithGang s u b.gang g1 ∧
        FibresChanged g g1 (fun l fb => { fb with handler := fb.handler && !(guardLanes s b g h).contains l }) ∧
        EndsIssue s u t b h g1 (fates s b g h fun l => .goto (((tabFind g.fibres l).map (·.retpc)).getD 0)) 0) ∧
    ∀ (code : BitVec 8) (c : Crew), crewOf s (crewOfGang b.gang) = some c → c.armed = true → c.phase = .running → c.halt = [] →
      ∃ t u, exec (.bkpt h code) s = .next t ∧ EndsIssue s u t b h g goesOn 0 ∧
        CrewChanged s u (crewOfGang b.gang) (haltAsked (.debug (b.gang % 256) ((guardLanes s b g h).headD 0) 3 b.pc))

/-- R281, R282: a trap in a fibre that is in its handler, or with CR.TVEC = 0, is a double trap, which halts the crew; no fibre
changes. -/
def Claims.DoubleTrap : Prop :=
  ∀ (s : State) (gk l : Nat) (g : Gang) (c : Crew) (fb : Fibre) (pc retpc : DWord) (ti : TrapInfo),
    gangOf s gk = some g → crewOf s (crewOfGang gk) = some c → tabFind g.fibres l = some fb → c.phase = .running → c.halt = [] →
    (fb.handler = true ∨ c.tvec = 0) →
    CrewChanged s (takeTrap s gk l pc retpc ti) (crewOfGang gk) (haltAsked (.trap (gk % 256) l ti pc true))

/-- TRAP, BKPT and ERET, and a trap that no handler takes. -/
def Obligations.TrapWords : Prop := Claims.TrapWords ∧ Claims.DoubleTrap

/-! ### Fibres, lane masks, pair words -/

/-- R42, R353: FORK creates a fibre for each guard-true lane, in ascending order, at the lowest free slot; where none is left D
takes 0xFFFF_FFFF. A window outside the pool in the lowest lane traps with cause 0x05, and no lane forks. -/
def Claims.ForkWord : Prop :=
  ∀ (s : State) (b : Bundle) (g : Gang) (h : Hdr) (d : Reg) (x : Opnd) (imm : BitVec 17),
    Issues s b g h (vNames d 1 ++ opNames x 1) (fun _ => opReads x 1 ++ ((List.range 16).map pRef ++ [ixRef 0, ixRef 1])) →
    let on := guardLanes s b g h
    let base : Nat → Int := fun l => (((tabFind g.fibres l).map (·.wbase)).getD 0 : Nat) + (rd s (wordCtx s b g h) l x).toInt
    let free := (List.range g.gw).filter fun f => (tabFind g.fibres f).isNone
    let fits := fun l => 0 ≤ base l ∧ base l + g.wsize ≤ g.gw * g.wsize
    ((∀ l ∈ on, fits l) →
      ∃ t u g0 g1, exec (.fork h d x imm) s = .next t ∧ WithGang s u b.gang g1 ∧
        RegsWritten g0 g1 (on.zipIdx.map fun k =>
          { lane := k.1, reg := vRef d.toNat, val := ((free[k.2]?).map (BitVec.ofNat 32)).getD 0xFFFFFFFF }) noFlags
          (fun _ => standing) ∧
        EndsIssue s u t b h g1 goesOn 1 ∧
        g0 = { g with fibres := g0.fibres, kmasks := g0.kmasks, klog := g0.klog } ∧
        (∀ k l, k < 12 → inMask g0 k l = (inMask g k l && !(free.take on.length).contains l)) ∧
        (∀ l, l ∉ free.take on.length → tabFind g0.fibres l = tabFind g.fibres l) ∧
        ∀ (i l f : Nat), on[i]? = some l → free[i]? = some f → ∃ fb new, tabFind g.fibres l = some fb ∧ tabFind g0.fibres f = some new ∧
          (∀ p < 16, new.preds.getLsbD p = readP s g l p) ∧
          new = { newFibre (BitVec.ofInt 64 (b.pc.toInt + 8 * imm.toInt)) (base l).toNat with
                  preds := new.preds, ix0 := readIx s g l 0, ix1 := readIx s g l 1, fmode := fb.fmode, chk := fb.chk,
                  readyAt := new.readyAt }) ∧
    (¬ fits (on.headD 0) → handles s b g →
      ∃ t, exec (.fork h d x imm) s = .next t ∧ EndsIssue s s t b h g (fates s b g h fun l =>
        if l = on.headD 0 then .trap { cause := 0x05, addr := 0, info := BitVec.ofInt 32 (base l), next := false }
        else .stay) 0)

/-- R43, R344: END frees the slots of the guard-true lanes and takes them out of every lane mask; what they have issued stands
without them; with no fibre and no count left the gang ends. -/
def Claims.EndWord : Prop :=
  ∀ (s : State) (b : Bundle) (g : Gang) (h : Hdr), Issues s b g h [] (fun _ => []) →
    let on := guardLanes s b g h
    ∃ t, exec (.endFibre h) s = .next t ∧
      (∀ l ∈ on, fibreAt t b.gang l = none) ∧
      ((∃ l, l ∉ on ∧ (tabFind g.fibres l).isSome) →
        ∃ u g1, EndsIssue s u t b h g1 (fates s b g h fun _ => .ended) 0 ∧
          SlotsLeft s u b.gang on ∧ (∀ k, k ≠ b.gang → gangOf u k = gangOf s k) ∧
          g1 = { g with fibres := g1.fibres, kmasks := g1.kmasks, klog := g1.klog, outs := g1.outs, zeroAt := g1.zeroAt } ∧
          ((∀ l ∈ on, ∀ fb, tabFind g.fibres l = some fb → fb.owed = []) → g1.outs = g.outs ∧ g1.zeroAt = g.zeroAt) ∧
          (∀ k l, k < 12 → inMask g1 k l = (inMask g k l && !on.contains l)) ∧
          ∀ l, tabFind g1.fibres l = if l ∈ on then none else tabFind g.fibres l) ∧
      ((∀ l, (tabFind g.fibres l).isSome → l ∈ on) → (∀ n < 6, ctrVal (cycOf s g.core) g n = 0) →
        gangOf t b.gang = none)

/-- FORK and END. -/
def Obligations.FibreWords : Prop := Claims.ForkWord ∧ Claims.EndWord

/-- R47, R48, R49, R341, R366, R367, R368, R409: the lane-mask words. -/
def Claims.MaskWords : Prop :=
  ∀ (s : State) (b : Bundle) (g : Gang) (h : Hdr), Issues s b g h [] (fun _ => []) →
    let on := guardLanes s b g h
    (∀ k : BitVec 4,
      (∃ t u g1, exec (.joinMask h k) s = .next t ∧ WithGang s u b.gang g1 ∧ EndsIssue s u t b h g1 goesOn 0 ∧
        g1 = { g with kmasks := g1.kmasks, klog := g1.klog } ∧
        ∀ j l, inMask g1 j l = (inMask g j l || (decide (j = k.toNat) && on.contains l))) ∧
      (∃ t u g1, exec (.leaveMask h k) s = .next t ∧ WithGang s u b.gang g1 ∧ EndsIssue s u t b h g1 goesOn 0 ∧
        g1 = { g with kmasks := g1.kmasks, klog := g1.klog } ∧
        ∀ j l, inMask g1 j l = (inMask g j l && !(decide (j = k.toNat) && on.contains l))) ∧
      (∃ t, exec (.waitk h k) s = .next t ∧ EndsIssue s s t b h g
        (fates s b g h fun l => if inMask g k.toNat l then .hold (.waitk k.toNat) else .next)
        (if on.any (inMask g k.toNat) then 1 else 0)) ∧
      ∀ (hi : Bool) (d : Reg), ∃ t v, exec (.kmovToScalar h hi d k) s = .next t ∧
        (∀ i < 32, v.getLsbD i = (decide (i + (if hi then 32 else 0) < g.gw) && inMask g k.toNat (i + if hi then 32 else 0))) ∧
        RegWord s t b g h [{ lane := on.headD 0, reg := { file := .s, n := d.toNat }, val := v }] noFlags) ∧
    ∀ p : BitVec 4, ∃ t, exec (.elect h p) s = .next t ∧ RegWord s t b g h (on.map fun l =>
      { lane := l, reg := pRef p.toNat, val := if l = on.headD 0 then 1 else 0 }) noFlags

/-- R368, R367: KMOV into a mask writes one half of it, below the gang's width; in a cycle with no JOIN, LEAVE or END of that
mask before it. -/
def Claims.MaskWriteWord : Prop :=
  ∀ (s : State) (b : Bundle) (g : Gang) (h : Hdr) (hi : Bool) (a : Reg) (k : BitVec 4),
    Issues s b g h [] (fun _ => opReads { s := true, n := a } 1) → klogOf (cycOf s g.core) g k.toNat = (0, 0) →
    ∃ t u g1, exec (.kmovToMask h hi a k) s = .next t ∧ WithGang s u b.gang g1 ∧ EndsIssue s u t b h g1 goesOn 1 ∧
      g1 = { g with kmasks := g1.kmasks } ∧
      (∀ j l, j ≠ k.toNat → inMask g1 j l = inMask g j l) ∧
      ∀ l < 64, inMask g1 k.toNat l = (decide (l < g.gw) &&
        if (l / 32 == 1) = hi then (rd s (wordCtx s b g h) ((guardLanes s b g h).headD 0) { s := true, n := a }).getLsbD (l % 32)
        else inMask g k.toNat l)

/-- The words of the membership masks. -/
def Obligations.MaskWords : Prop := Claims.MaskWords ∧ Claims.MaskWriteWord

/-- R90 to R93: a pair word executes each slot in the lanes where its guard holds. -/
def Claims.PairWords : Prop :=
  ∀ (s : State) (b : Bundle) (g : Gang) (stall : BitVec 3) (x y : Slot),
    Issues s b g (pairHdr stall) [x.d.toNat, x.a.toNat, y.d.toNat, y.a.toNat]
      (fun l => slotLaneReads x s g l ++ slotLaneReads y s g l) →
    (∀ k < 4, ((slotReads x ++ slotReads y).eraseDups.filter fun n => n % 4 == k).length ≤ 2) →
    let res := fun (z : Slot) (l : Nat) => slotValue z (readV s g l z.d.toNat) (readV s g l z.a.toNat)
    let lanes := fun z : Slot => b.lanes.filter (guardOf s g z.ge z.gp z.gs)
    let ws := fun z : Slot => (lanes z).map fun l => ({ lane := l, reg := vRef z.d.toNat, val := (res z l).1 } : RegWrite)
    let fl := fun (z : Slot) (l : Nat) => if l ∈ lanes z then (res z l).2 else 0
    ∃ t, exec (.pairWord stall x y) s = .next t ∧
      WritesAndEnds s t b (pairHdr stall) g (ws x ++ ws y) (fun l => fl x l ||| fl y l) goesOn 0

/-- R91: the value of a slot of each integer code; F codes compute as the full words of the same name do with RNE. -/
def Claims.PairValues : Prop :=
  ∀ (z : Slot) (d a : Word),
    let m : FMod := { absB := z.abs, absA := false, negB := z.neg, negA := false, ftz := false, rm := .rne }
    let f := fun op => fBin (op fmtFP32) m .rne d a
    slotValue z d a = match z.op with
      | .iadd => (BitVec.ofInt 32 (d.toInt + a.toInt), 0)
      | .isub => (BitVec.ofInt 32 (d.toInt - a.toInt), 0)
      | .imin => (if d.toInt ≤ a.toInt then d else a, 0)
      | .imax => (if d.toInt ≤ a.toInt then a else d, 0)
      | .mov => (a, 0)
      | .and => (d &&& a, 0)
      | .or => (d ||| a, 0)
      | .xor => (d ^^^ a, 0)
      | .shl => (BitVec.ofNat 32 (d.toNat * 2 ^ a.toNat), 0)
      | .shr => (BitVec.ofNat 32 (d.toNat / 2 ^ a.toNat), 0)
      | .sar => (BitVec.ofInt 32 (d.toInt / 2 ^ a.toNat), 0)
      | .not => (~~~a, 0)
      | .fadd => f addF
      | .fsub => f subF
      | .fmul => f mulF
      | .fmin => minmaxW false m d a
      | .fmax => minmaxW true m d a
      | .hadd2 | .hmul2 | .badd2 | .bmul2 =>
        let fmt := if z.op = .hadd2 ∨ z.op = .hmul2 then fmtFP16 else fmtBF16
        let op := if z.op = .hadd2 ∨ z.op = .badd2 then addF else mulF
        let r := halves (fun u v _ => op fmt .rne false u (srcCode fmt z.abs z.neg false v)) d.toNat a.toNat 0
        (BitVec.ofNat 32 r.1, r.2)

/-- Pair words, and the values of their slots. -/
def Obligations.PairWords : Prop := Claims.PairWords ∧ Claims.PairValues

/-! ### Memory words -/

/-- R88, R139, R141, Table MEM-1: the effective address, and the order of the checks of each space. -/
def Obligations.AddressChecks : Prop :=
  (∀ (s : State) (c : Ctx) (m : MAddr) (l : Nat),
    (effAddr s c m l).toInt =
      if m.space = .gl then ((rd64 s c l m.a).toInt + m.off.toInt * sizeBytes m.size).bmod (2 ^ 64)
      else (BitVec.ofInt 32 ((rd s c l m.a).toInt + m.off.toInt * sizeBytes m.size)).toNat) ∧
  ∀ (s : State) (c : Ctx) (k : AccessKind) (n : Nat) (va : DWord) (l : Nat),
    let cr := crewD s c.gk
    let half := halfOf cr c.g.core
    let bank := cr.cbBase.getD half 0 * 2048 + va.toNat
    (∀ space, va.toNat % n ≠ 0 → checkSpace s c space k n va l = .error { cause := 0x08, addr := va, info := 0, next := false }) ∧
    (va.toNat % n = 0 →
      (cr.spSize < va.toNat + n → checkSpace s c .sp k n va l = .error { cause := 0x0C, addr := va, info := 0, next := false }) ∧
      (va.toNat + n ≤ cr.spSize → ∃ a, checkSpace s c .sp k n va l = .ok a ∧ a.va = va ∧ a.size = n ∧ a.saved = false ∧
        a.pa = spadKey (crewOfGang c.gk) half va.toNat) ∧
      (cr.cbSize * 2048 < va.toNat + n →
        checkSpace s c .cb k n va l = .error { cause := 0x0D, addr := va, info := 0, next := false }) ∧
      (va.toNat + n ≤ cr.cbSize * 2048 → cbWithdrawn s c.g.core bank n = true →
        checkSpace s c .cb k n va l = .error { cause := 0x0E, addr := va, info := 0, next := false }) ∧
      (va.toNat + n ≤ cr.cbSize * 2048 → cbWithdrawn s c.g.core bank n = false →
        ∃ a, checkSpace s c .cb k n va l = .ok a ∧ a.va = va ∧ a.size = n ∧ a.pa = bankKey c.g.core bank) ∧
      (rsTarget s cr va.toNat n = none →
        checkSpace s c .rs k n va l = .error { cause := 0x0C, addr := va, info := 0, next := false }) ∧
      (∀ key saved, rsTarget s cr va.toNat n = some (key, saved) →
        ∃ a, checkSpace s c .rs k n va l = .ok a ∧ a.va = va ∧ a.size = n ∧ a.pa = key ∧ a.saved = saved) ∧
      (2 ^ 47 ≤ va.toNat → checkSpace s c .gl k n va l =
        .error { cause := 0x09, addr := va, info := BitVec.ofNat 32 (3 + 16 * kindCode k), next := false }))

/-- R161 to R163: a fresh walk over the four levels of Table MEM-9: an entry that is not valid or has a reserved bit set ends it with
cause 0x09; a leaf of a 2 GiB, 32 MiB or 512 KiB page gives the address; then the owner's check, the permission (0x0A; of an atomic to a host line without CXL.cache, and of an MWAIT to a window, R186, R320) and
the attributes (0x0B). -/
def Obligations.TranslationRule : Prop :=
  ∀ (s : State) (pos part : Nat) (svc : Bool) (k : AccessKind) (va : DWord) (idx : Nat),
    tlbHits s pos part svc va.toNat = [] → va.toNat < 2 ^ 47 →
    let fault := fun (cause : BitVec 8) (detail : Nat) =>
      (.error { cause, addr := va, info := BitVec.ofNat 32 (detail + 16 * kindCode k), next := false } : Except TrapInfo Xl)
    let x := translate s pos part svc k va idx
    ∀ root, readEntry s (rootAddr s + 8 * part) = .ok root →
    ((entryOk root = false ∨ root.getLsbD 1 = true) → x = fault 0x09 0) ∧
    (entryOk root = true → root.getLsbD 1 = false →
      ∀ e1, readEntry s (entryAddr root + 8 * (va.toNat / 2 ^ 31 % 65536)) = .ok e1 →
      let leafAt := fun (leaf : DWord) (size : Nat) =>
        let pa := entryAddr leaf + va.toNat % size
        (entryAddr leaf % size ≠ 0 → x = fault 0x09 0) ∧
        (entryAddr leaf % size = 0 →
          (∀ cause d, paFault s part svc pa = some (cause, d) → x = fault cause d) ∧
          (paFault s part svc pa = none →
            let deny := (k = .write ∨ k = .atomic) ∧ leaf.getLsbD 2 = false ∨ k = .fetch ∧ leaf.getLsbD 3 = false ∨
              k = .atomic ∧ isHost pa = true ∧ isCxl pa = false ∨ k = .watch ∧ (isHost pa = true ∨ isPeer pa = true)
            let conflict := leaf.getLsbD 5 ≠ (frameOf s pa).packed ∨ leaf.getLsbD 6 ≠ (frameOf s pa).chk
            (deny → x = fault 0x0A 0) ∧
            (¬ deny → conflict → x = fault 0x0B 0) ∧
            (¬ deny → ¬ conflict → x = .ok { pa, page := va.toNat / size * size, size, leaf, svc := svc && isHost pa })))
      (entryOk e1 = false → x = fault 0x09 0) ∧
      (entryOk e1 = true → e1.getLsbD 1 = true → leafAt e1 (2 ^ 31)) ∧
      (entryOk e1 = true → e1.getLsbD 1 = false →
        ∀ e2, readEntry s (entryAddr e1 + 8 * (va.toNat / 2 ^ 25 % 64)) = .ok e2 →
        (entryOk e2 = false → x = fault 0x09 0) ∧
        (entryOk e2 = true → e2.getLsbD 1 = true → leafAt e2 (2 ^ 25)) ∧
        (entryOk e2 = true → e2.getLsbD 1 = false →
          ∀ e3, readEntry s (entryAddr e2 + 8 * (va.toNat / 2 ^ 19 % 64)) = .ok e3 →
          (entryOk e3 = false ∨ e3.getLsbD 1 = false → x = fault 0x09 0) ∧
          (entryOk e3 = true → e3.getLsbD 1 = true → leafAt e3 (2 ^ 19)))))

/-- R100, R139, R144, R369, R371: a load issues one access per guard-true lane, each with the lane's address and destination, and
changes no register and no memory; a load with an acquire is noted in its fibres. LDT reads together the words that lie in one 16-byte
granule (R181). -/
def Obligations.LoadWords : Prop :=
  ∀ (s : State) (b : Bundle) (g : Gang) (h : Hdr) (addr : Nat → LaneAddr),
    let on := guardLanes s b g h
    let c := wordCtx s b g h
    NoAcquire g on →
    (∀ (d : Reg) (m : MAddr) (ord : Order),
      Issues s b g h (dataNames d m) (fun _ => opReads m.a (addrRegs m.space)) →
      (m.space = .cb → onGeometry s g = false) → (ord = .ar → NoNear s b.gang on) → (m.space = .gl → NoRecall s) →
      Reaches s b g h m.space .read (sizeBytes m.size) (effAddr s c m) addr →
      let acq := decide (ord = .acq ∨ ord = .ar)
      ∃ t u g1, exec (.ld h d m ord) s = .next t ∧ EndsIssue s u t b h g1 goesOn 1 ∧
        FibresChanged g g1 (fun l fb => { fb with acqs := fb.acqs ++ if acq && on.contains l then [s.nextId] else [] }) ∧
        u = { s with gangs := u.gangs, accs := u.accs, cache := u.cache } ∧ CachesTlb s u ∧
        (∀ k, k ≠ b.gang → gangOf u k = gangOf s k) ∧
        AddsAccs s u (s.nextId + 1) (on.map fun l =>
          newAcc c (addr l) (.load d.toNat acq) (acq || !cacheable (addr l)) (decide (ord = .ar)))) ∧
    ∀ (d : Reg) (x : Opnd) (col rs : Bool),
      Issues s b g h (vNames d 1 ++ opNames x 1) (fun _ => opReads x 1) →
      (∀ l ∈ on, lineReq s c x col rs l = .ok (addr l)) →
      ∃ t u, exec (.ldt h d x col rs) s = .next t ∧ EndsIssue s u t b h g goesOn 1 ∧ u = { s with accs := u.accs } ∧
        AddsAccs s u (s.nextId + 1) ((on.map fun l => (addr l).pa / 16).eraseDups.map fun k =>
          let here := on.filter fun l => (addr l).pa / 16 == k
          let first := addr (here.headD 0)
          { newAcc c first (.loadLine d.toNat (here.map fun l => (addr l).pa)) false false with
            lanes := here, va := first.va - BitVec.ofNat 64 (first.pa % 16), pa := 16 * k, size := 16 })

/-- R145, R146, R370: LDC of granules that are FULL takes their bytes at once, and .CLR empties them; on granules that are
EMPTY every fibre is held. -/
def Obligations.CheckedLoadWord : Prop :=
  ∀ (s : State) (b : Bundle) (g : Gang) (h : Hdr) (addr : Nat → LaneAddr) (d : Reg) (m : MAddr) (clr : Bool),
    let on := guardLanes s b g h
    let c := wordCtx s b g h
    NoAcquire g on → NoOverlap s b.gang on addr → m.space.granular = true →
    Issues s b g h (dataNames d m) (fun _ => opReads m.a 1) →
    Reaches s b g h m.space .read (sizeBytes m.size) (effAddr s c m) addr →
    (∀ l ∈ on, (addr l).saved = false ∧ ldcWaiters s ((addr l).pa / 16) = []) →
    (on.map fun l => (addr l).pa / 16).Nodup →
    ((∀ l ∈ on, granOf s ((addr l).pa / 16) = .full) →
      ∃ t u, exec (.ldc h d m clr) s = .next t ∧ EndsIssue s u t b h g goesOn 1 ∧
        u = { s with accs := u.accs, gran := u.gran } ∧
        AddsAccs s u (s.nextId + 1) (on.map fun l => { newAcc c (addr l) (.ldc d.toNat clr) false false with
          st := .done [(l, wordsOf (spadRead s (addr l).pa (addr l).size) (loadRegs (addr l).size))] }) ∧
        ∀ k, granOf u k = if clr ∧ ∃ l ∈ on, (addr l).pa / 16 = k then .empty else granOf s k) ∧
    ((∀ l ∈ on, granOf s ((addr l).pa / 16) = .empty) →
      ∃ t u, exec (.ldc h d m clr) s = .next t ∧
        EndsIssue s u t b h g (fates s b g h fun l => .hold (.ldc (s.nextId + 1 + on.findIdx (· == l)))) 1 ∧
        u = { s with accs := u.accs } ∧
        AddsAccs s u (s.nextId + 1) (on.map fun l => newAcc c (addr l) (.ldc d.toNat clr) false false))

/-- R140, R170 to R173, R400, R402, R403: a store to scratchpad or column bank, without a release and behind no other, changes the bytes at
its lanes' addresses and no others; STF makes the granules FULL; a store to global memory, one with a release, and one by RS to a crew
whose context is saved issue one access per lane, in some order of the lanes, and change no memory yet. -/
def Obligations.StoreWords : Prop :=
  ∀ (s : State) (b : Bundle) (g : Gang) (h : Hdr) (addr : Nat → LaneAddr) (data : Nat → List Byte) (d : Reg) (m : MAddr),
    let on := guardLanes s b g h
    let c := wordCtx s b g h
    let n := sizeBytes m.size
    let look := fun l => rsLook s (addr l).pa (addr l).va.toNat
    NoAcquire g on → NoOverlap s b.gang on addr → NoQueued s b.gang on →
    (∀ l ∈ on, StoreData s g d n l (data l)) →
    (Issues s b g h (dataNames d m) (fun _ => opReads m.a (addrRegs m.space) ++ vReads d (loadRegs n)) →
      Reaches s b g h m.space .write n (effAddr s c m) addr →
      (m.space = .sp ∨ m.space = .rs ∧ (∀ l ∈ on, look l = .here) →
        ∃ t u, exec (.st h d m .rlx) s = .next t ∧ EndsIssue s u t b h g goesOn 0 ∧
          u = { s with spad := u.spad, engines := u.engines } ∧ EnginesStand s u ∧
          LanesWrote s.spad u.spad on (fun l => (addr l).pa) data) ∧
      (m.space = .cb → onGeometry s g = false → (∀ l ∈ on, bankPartly s (addr l).pa n = false) →
        ∃ t u, exec (.st h d m .rlx) s = .next t ∧ EndsIssue s u t b h g goesOn 0 ∧
          u = { s with bank := u.bank } ∧
          LanesWrote s.bank u.bank on (fun l => (addr l).pa) data) ∧
      ∀ rel, (m.space = .gl ∧ NoRecall s ∧ (rel = false → LineFree s b.gang g.core on addr) ∨
          m.space = .rs ∧ (∀ l ∈ on, look l = .saved) ∨
          rel = true ∧ m.space ≠ .gl ∧ (m.space = .cb → onGeometry s g = false)) → (rel = true → NoNear s b.gang on) →
        ∃ (t u : State) (order : List Nat), exec (.st h d m (if rel then .rel else .rlx)) s = .next t ∧ EndsIssue s u t b h g goesOn 1 ∧
          u = { s with accs := u.accs, cache := u.cache } ∧
          u.cache = { s.cache with tlb := u.cache.tlb, l1 := if rel then s.cache.l1 else u.cache.l1 } ∧ order.Perm on ∧
          AddsAccs s u (s.nextId + 1) (order.map fun l =>
            { newAcc c (addr l) (.store (data l)) true rel with st := .pending })) ∧
    (Issues s b g h (dataNames d m) (fun _ => opReads m.a 1 ++ vReads d (loadRegs n)) →
      Reaches s b g h m.space .write n (effAddr s c m) addr → m.space.granular = true →
      (m.space = .rs → ∀ l ∈ on, look l = .here) → (∀ l ∈ on, ldcWaiters s ((addr l).pa / 16) = []) →
      ∃ t u, exec (.stf h d m .rlx) s = .next t ∧ EndsIssue s u t b h g goesOn 0 ∧
        u = { s with spad := u.spad, gran := u.gran, engines := u.engines } ∧ EnginesStand s u ∧
        LanesWrote s.spad u.spad on (fun l => (addr l).pa) data ∧
        ∀ k, granOf u k = if ∃ l ∈ on, (addr l).pa / 16 = k then .full else granOf s k)

/-- R144, R403: STT stores one word per lane at the skewed addresses of its line. -/
def Claims.LineStoreWord : Prop :=
  ∀ (s : State) (b : Bundle) (g : Gang) (h : Hdr) (addr : Nat → LaneAddr) (data : Nat → List Byte) (d : Reg) (x : Opnd)
    (col rs : Bool),
    let on := guardLanes s b g h
    NoAcquire g on → NoOverlap s b.gang on addr → NoQueued s b.gang on →
    (∀ l ∈ on, StoreData s g d 4 l (data l)) →
    Issues s b g h (vNames d 1 ++ opNames x 1) (fun _ => opReads x 1 ++ vReads d 1) →
    (∀ l ∈ on, lineReq s (wordCtx s b g h) x col rs l = .ok (addr l)) →
    (rs = true → ∀ l ∈ on, rsLook s (addr l).pa (addr l).va.toNat = .here) →
    ∃ t u, exec (.stt h d x col rs) s = .next t ∧ EndsIssue s u t b h g goesOn 0 ∧
      u = { s with spad := u.spad, engines := u.engines } ∧ EnginesStand s u ∧
      LanesWrote s.spad u.spad on (fun l => (addr l).pa) data

/-- R144: the word that lane l moves, in a tile of 32 rows of 128 bytes: row r, skewed by the half of the lane, or column c. -/
def Claims.LineAddresses : Prop :=
  ∀ (tile r c l : Nat), r < 32 → c < 32 → l < 64 →
    lineWord false (4096 * tile + 128 * r) l = 4096 * tile + 128 * ((r + l / 32) % 32) + 4 * (l % 32) ∧
    lineWord true (4096 * tile + 4 * c) l = 4096 * tile + 128 * (l % 32) + 4 * ((c + l / 32) % 32)

/-- STT and LDT: where a line lies. -/
def Obligations.LineStoreWords : Prop := Claims.LineStoreWord ∧ Claims.LineAddresses

/-- R182, R183, R319 to R321, R389: an atomic on global memory issues one aggregated access for each distinct address, its lanes in
ascending order. -/
def Claims.AtomicWords : Prop :=
  ∀ (s : State) (b : Bundle) (g : Gang) (h : Hdr) (addr : Nat → LaneAddr) (d : Reg) (x : Opnd) (wide : Bool) (ord : Order),
    let on := guardLanes s b g h
    let c := wordCtx s b g h
    let k := if wide then 2 else 1
    let val := fun l => if wide then (rdV64 s c l d).toNat else (readV s g l d.toNat).toNat
    let acq := decide (ord = .acq ∨ ord = .ar)
    let rel := decide (ord = .rel ∨ ord = .ar)
    NoAcquire g on → (rel = true → NoNear s b.gang on) → NoRecall s →
    Reaches s b g h .gl .atomic (4 * k) (fun l => rd64 s c l x) addr →
    ∀ (i : Instr) (op : RmwOp) (ret : Option Nat) (cmp : Nat → Nat) (names : List Nat) (reads : List RegRef),
      ((∃ o, i = .atom h o d x .gl wide ord ∧ op = .op o ∧ ret = some d.toNat ∧ names = [] ∧ reads = [] ∧ ∀ l, cmp l = 0) ∨
       (∃ o, i = .red h o d x .gl wide ord ∧ op = .op o ∧ ret = none ∧ names = [] ∧ reads = [] ∧ ∀ l, cmp l = 0) ∨
       (∃ y, i = .atomcas h d x y .gl wide ord ∧ op = .cas ∧ ret = some d.toNat ∧ names = opNames y k ∧ reads = opReads y k ∧
         ∀ l, cmp l = if wide then (rd64 s c l y).toNat else (rd s c l y).toNat)) →
      Issues s b g h (vNames d k ++ opNames x 2 ++ names) (fun _ => opReads x 2 ++ vReads d k ++ reads) →
      ∃ t u g1, exec i s = .next t ∧ EndsIssue s u t b h g1 goesOn 1 ∧
        FibresChanged g g1 (fun l fb => { fb with acqs := fb.acqs ++ if acq && on.contains l then [s.nextId] else [] }) ∧
        u = { s with gangs := u.gangs, accs := u.accs, cache := u.cache } ∧ CachesTlb s u ∧
        (∀ k, k ≠ b.gang → gangOf u k = gangOf s k) ∧
        AddsAccs s u (s.nextId + 1) ((on.map fun l => (addr l).va).eraseDups.map fun va =>
          let here := on.filter fun l => (addr l).va == va
          { newAcc c (addr (here.headD 0)) (.rmw op (here.map fun l => (l, val l, cmp l)) ret acq) true rel with lanes := here })

/-- R183, R184: the lanes of an aggregated access apply their operations one by one, in ascending order; each receives the value before
its own. -/
def Claims.AtomicValues : Prop :=
  (∀ (o : RmwOp) (w v : Nat) (args : List (Nat × Nat × Nat)) (i : Nat) (a : Nat × Nat × Nat), args[i]? = some a →
    (rmwRun o w v args).2[i]? =
      some (a.1, (args.take i).foldl (fun v x => rmwOp o w v x.2.1 x.2.2) v) ∧
    (rmwRun o w v args).1 = args.foldl (fun v x => rmwOp o w v x.2.1 x.2.2) v) ∧
  ∀ w v x : Nat, 0 < w → v < 2 ^ w → x < 2 ^ w →
    rmwOp (.op .add) w v x 0 = (v + x) % 2 ^ w ∧ (rmwOp (.op .sub) w v x 0 + x) % 2 ^ w = v ∧
    rmwOp (.op .umin) w v x 0 = min v x ∧ rmwOp (.op .umax) w v x 0 = max v x ∧
    toSigned w (rmwOp (.op .min) w v x 0) = min (toSigned w v) (toSigned w x) ∧
    toSigned w (rmwOp (.op .max) w v x 0) = max (toSigned w v) (toSigned w x) ∧
    rmwOp (.op .xchg) w v x 0 = x ∧ (∀ c, rmwOp .cas w v x c = if v = c then x else v) ∧
    (∀ i, (rmwOp (.op .and) w v x 0).testBit i = (v.testBit i && x.testBit i) ∧
      (rmwOp (.op .or) w v x 0).testBit i = (v.testBit i || x.testBit i) ∧
      (rmwOp (.op .xor) w v x 0).testBit i = (v.testBit i != x.testBit i)) ∧
    (w = 32 → rmwOp (.op .fadd) w v x 0 = (addF fmtFP32 .rne false v x).1)

/-- R172, R173, R183: an atomic on scratchpad without a release, behind no other access, is performed as it issues. -/
def Claims.ScratchAtomicWord : Prop :=
  ∀ (s : State) (b : Bundle) (g : Gang) (h : Hdr) (addr : Nat → LaneAddr) (op : AtomOp) (d : Reg) (x : Opnd) (wide : Bool),
    let on := guardLanes s b g h
    let c := wordCtx s b g h
    let k := if wide then 2 else 1
    let val := fun l => if wide then (rdV64 s c l d).toNat else (readV s g l d.toNat).toNat
    let run := fun va => rmwRun (.op op) (32 * k) (natOfBytes (spadRead s (spadKey (crewOfGang b.gang)
        (halfOf (crewD s b.gang) g.core) va) (4 * k)))
      ((on.filter fun l => (addr l).va.toNat == va).map fun l => (l, val l, 0))
    let wrote := fun u : State =>
      (∀ l ∈ on, natOfBytes (spadRead u (addr l).pa (4 * k)) = (run (addr l).va.toNat).1 % 2 ^ (32 * k)) ∧
      ∀ key, (∀ l ∈ on, ¬ ((addr l).pa ≤ key ∧ key < (addr l).pa + 4 * k)) → spGet 0#8 u.spad key = spGet 0#8 s.spad key
    NoAcquire g on → NoOverlap s b.gang on addr → NoQueued s b.gang on →
    Reaches s b g h .sp .atomic (4 * k) (fun l => (rd s c l x).zeroExtend 64) addr →
    Issues s b g h (vNames d k ++ opNames x 1 ++ []) (fun _ => opReads x 1 ++ vReads d k ++ []) →
    (∃ t u, exec (.red h op d x .sp wide .rlx) s = .next t ∧ EndsIssue s u t b h g goesOn 0 ∧
      u = { s with spad := u.spad, engines := u.engines } ∧ EnginesStand s u ∧ wrote u) ∧
    ∃ t u, exec (.atom h op d x .sp wide .rlx) s = .next t ∧ EndsIssue s u t b h g goesOn 1 ∧
      u = { s with spad := u.spad, accs := u.accs, engines := u.engines } ∧ EnginesStand s u ∧ wrote u ∧
      AddsAccs s u (s.nextId + 1) ((on.map fun l => (addr l).va).eraseDups.map fun va =>
        let here := on.filter fun l => (addr l).va == va
        { newAcc c (addr (here.headD 0)) (.rmw (.op op) (here.map fun l => (l, val l, 0)) (some d.toNat) false) true false with
          lanes := here, st := .done ((run va.toNat).2.map fun r => (r.1, oldWords (4 * k) r.2)) })

/-- The atomic words, and what they compute. -/
def Obligations.AtomicWords : Prop := Claims.AtomicWords ∧ Claims.AtomicValues ∧ Claims.ScratchAtomicWord

/-- R186, R187, R375: MWAIT writes D where the value differs from the comparison or the timeout is 0, and else, while the slice that is
home to the line has monitors left, the fibre sleeps on one. -/
def Obligations.MonitorWord : Prop :=
  ∀ (s : State) (b : Bundle) (g : Gang) (h : Hdr) (addr : Nat → LaneAddr) (d : Reg) (x y : Opnd) (wide : Bool),
    let on := guardLanes s b g h
    let c := wordCtx s b g h
    let k := if wide then 2 else 1
    let v := fun l => natOfBytes (memRead s (addr l).pa (4 * k))
    let differs := fun l => v l ≠ (if wide then (rdV64 s c l d).toNat else (readV s g l d.toNat).toNat) ∨ rd s c l y = 0
    let mon := fun l => s.nextId + 1 + on.findIdx (· == l)
    NoAcquire g on → NoOverlap s b.gang on addr →
    Issues s b g h (vNames d k ++ opNames x 2 ++ opNames y 1) (fun _ => opReads x 2 ++ opReads y 1 ++ vReads d k) →
    Reaches s b g h .gl .watch (4 * k) (fun l => rd64 s c l x) addr → NoRecall s → LineFree s b.gang g.core on addr →
    (∀ l ∈ on, addrLost s (addr l).pa = false ∧ readsPoison s (addr l).pa (4 * k) = false ∧
      coreStorePending s g.core ((addr l).pa / 128) s.nextId = false ∧
      (s.cache.mons.filter fun m => homeOf s (m.2.pa / 128) == homeOf s ((addr l).pa / 128)).length + on.length ≤ 4096) →
    ∀ fate : Nat → LaneEnd, (∀ l, differs l → fate l = .next) → (∀ l, ¬ differs l → fate l = .hold (.mwait (mon l))) →
    ∃ t u g1 ws, exec (.mwait h wide d x y) s = .next t ∧ RegsWritten g g1 ws noFlags (fun _ => standing) ∧
      (∀ w, w ∈ ws ↔ ∃ l ∈ on, differs l ∧ w ∈ (pairWrite (vr d) l (BitVec.ofNat 64 (v l))).take k) ∧
      (∃ rise, EndsIssue s u t b h g1 (fates s b g h fate) rise ∧ (rise = 0 ↔ ∀ l ∈ on, differs l)) ∧
      u = { s with gangs := u.gangs, cache := u.cache } ∧
      u.cache = { s.cache with tlb := u.cache.tlb, l1 := u.cache.l1, mons := u.cache.mons } ∧
      (∀ k, k ≠ b.gang → gangOf u k = gangOf s k) ∧
      ∀ l ∈ on, ¬ differs l → tabFind u.cache.mons (mon l) = some
        { gang := b.gang, lane := l, d := d.toNat, wide, va := (addr l).va, pa := (addr l).pa, armed := s.time.now,
          upto := if rd s c l y = 0xFFFFFFFF then none else some (s.time.now + (rd s c l y).toNat), woken := false, seq := s.nextId }

/-- R175, R350, R383: FENCE holds its lanes; PREF requests lines and traps on no address. -/
def Obligations.FenceWords : Prop :=
  ∀ (s : State) (b : Bundle) (g : Gang) (h : Hdr),
    let on := guardLanes s b g h
    (∀ scope : Scope, Issues s b g h [] (fun _ => []) → NoNear s b.gang on →
      ∃ t u, exec (.fence h scope) s = .next t ∧ EndsIssue s u t b h g (fates s b g h fun _ => .hold (.fence scope)) 1 ∧
        u = { s with cache := u.cache } ∧
        u.cache = { s.cache with l1 := s.cache.l1.filter fun x => x.fetch != some b.gang }) ∧
    ∀ (llc : Bool) (x : Opnd) (off : BitVec 11), Issues s b g h (opNames x 2) (fun _ => opReads x 2) → NoRecall s →
      ∃ t u accs, exec (.pref h llc x off) s = .next t ∧ EndsIssue s u t b h g goesOn 0 ∧
        u = { s with accs := u.accs, cache := u.cache } ∧ CachesTlb s u ∧ AddsAccs s u (s.nextId + 1) accs ∧
        (llc = true → accs = []) ∧ ∀ a ∈ accs, a.op = .pref ∧ a.gang = b.gang ∧ a.lanes = []

/-- R141, R277: where a lane's address fails a check, the lanes that fail trap, the others stay at the word, and nothing is loaded,
stored or updated. -/
def Obligations.AccessTraps : Prop :=
  ∀ (s : State) (b : Bundle) (g : Gang) (h : Hdr) (d : Reg) (trap : Nat → Option TrapInfo),
    let on := guardLanes s b g h
    let c := wordCtx s b g h
    let trapped := fun i => ∃ t, exec i s = .next t ∧ EndsIssue s s t b h g (fates s b g h (trapsOr trap)) 0
    NoAcquire g on → handles s b g → NoRecall s →
    (∀ m : MAddr, (m.space = .cb → onGeometry s g = false) →
      (Issues s b g h (dataNames d m) (fun _ => opReads m.a (addrRegs m.space)) →
        Fails s b g h m.space .read (sizeBytes m.size) (effAddr s c m) trap → trapped (.ld h d m .rlx)) ∧
      (Issues s b g h (dataNames d m) (fun _ => opReads m.a (addrRegs m.space) ++ vReads d (loadRegs (sizeBytes m.size))) →
        Fails s b g h m.space .write (sizeBytes m.size) (effAddr s c m) trap →
        (∀ l ∈ on, ∀ a, checkSpace s c m.space .write (sizeBytes m.size) (effAddr s c m l) l = .ok a →
          NoOverlap s b.gang [l] (fun _ => a) ∧ LineFree s b.gang g.core [l] (fun _ => a)) → trapped (.st h d m .rlx))) ∧
    ∀ (op : AtomOp) (x : Opnd) (wide : Bool),
      let k := if wide then 2 else 1
      Issues s b g h (vNames d k ++ opNames x 2 ++ []) (fun _ => opReads x 2 ++ vReads d k ++ []) →
      Fails s b g h .gl .atomic (4 * k) (fun l => rd64 s c l x) trap →
      trapped (.atom h op d x .gl wide .rlx) ∧ trapped (.red h op d x .gl wide .rlx)

/-! ### Barriers and membership -/

/-- R54, R223: BARINIT sets a barrier's mode, and EXPECT or the members; it clears ARRIVED, BYTES and ERR, keeps PHASE, and withdraws the
crediting of arrivals that wait. A bad index, a count above 0xFFFF, and barrier 0 of an elastic crew trap with cause 0x10. -/
def Claims.BarrierSetup : Prop :=
  ∀ (s : State) (b : Bundle) (g : Gang) (h : Hdr) (x : Opnd) (member : Bool) (k : BitVec 5) (c : Crew),
    Issues s b g h (if member then [] else opNames x 1) (fun _ => if member then [] else opReads x 1) →
    crewOf s (crewOfGang b.gang) = some c →
    let n := (rdU s (wordCtx s b g h) x).toNat
    let good := k.toNat < c.bars.length ∧ ¬ (k = 0 ∧ c.gangMin < c.gangMax) ∧ (member = true ∨ n ≤ 0xFFFF)
    (good → c.attachDue = none →
      ∃ t u, exec (.barinit h x member k) s = .next t ∧ EndsIssue s u t b h g goesOn 0 ∧
        BarChanged s u (crewOfGang b.gang) k.toNat fun r =>
          { r with arrived := 0, bytes := 0, err := 0, member, expect := if member then r.expect else n,
                   mems := if member then (memberGangs s (crewOfGang b.gang)).map fun m => { gang := m, f := r.phase, arrived := [], dropped := none }
                     else [],
                   waits := r.waits.map fun a => { a with credited := none, there := a.there || a.credited.isSome } }) ∧
    (¬ good → handles s b g →
      ∃ t info, exec (.barinit h x member k) s = .next t ∧ EndsIssue s s t b h g
        (fates s b g h fun _ => .trap { cause := 0x10, addr := c.cfr.addr, info, next := false }) 0)

/-- R224: BARARV holds its bundle, and its arrival waits at the barrier with the bytes that it declares; BARARV.R arrives at
an explicit barrier of the crew that its RS address reaches. A gang that is not a member traps with cause 0x10. -/
def Obligations.ArrivalWords : Prop :=
  ∀ (s : State) (b : Bundle) (g : Gang) (h : Hdr) (k : BitVec 5),
    let on := guardLanes s b g h
    let ck := crewOfGang b.gang
    let arrives := fun (f : BarForm) (at' : Nat) (dst : Option Opnd) (bytes : Option Nat) (remote : Option Word) =>
      ∃ t u, exec (.bararv h f k) s = .next t ∧ EndsIssue s u t b h g (fates s b g h fun _ => .hold .bararv) 1 ∧
        BarChanged s u at' k.toNat fun r => { r with waits := r.waits ++
          [{ gang := b.gang, lanes := on, dst, bytes, credited := none, seq := s.nextId, remote, there := false }] }
    let member := fun r : Barrier => r.member = true → ∃ m ∈ r.mems, m.gang = b.gang ∧ m.dropped = none
    NoNear s b.gang on →
    (∀ (d x : Opnd) (r : Barrier), Issues s b g h (opNames d 1) (fun _ => []) → barOf s ck k.toNat = some r →
      (member r → arrives (.plain d x) ck (some d) none none) ∧
      (¬ member r → handles s b g →
        ∃ t ti, exec (.bararv h (.plain d x) k) s = .next t ∧ EndsIssue s s t b h g (fates s b g h fun _ => .trap ti) 0 ∧
          ti.cause = 0x10 ∧ ti.next = false ∧ ti.info.toNat / 32 % 2048 = 0)) ∧
    (∀ (d x : Opnd) (r : Barrier), Issues s b g h (opNames d 1 ++ opNames x 1) (fun _ => opReads x 1) →
      barOf s ck k.toNat = some r → member r →
      arrives (.x d x) ck (some d) (some (rdU s (wordCtx s b g h) x).toNat) none) ∧
    ∀ (x : Opnd) (key : Nat) (saved : Bool) (r : Barrier), Issues s b g h (opNames x 1) (fun _ => opReads x 1) →
      rsTarget s (crewD s b.gang) (rdU s (wordCtx s b g h) x).toNat 1 = some (key, saved) →
      barOf s (key / 16777216) k.toNat = some r → r.member = false →
      arrives (.r x) (key / 16777216) none none (some (rdU s (wordCtx s b g h) x))

/-- R192, R226: BARWAIT passes the lanes whose phase is complete and holds the others; BARTST writes which it is; with an error
and a phase that is not complete, both trap with cause 0x10. -/
def Claims.PhaseWords : Prop :=
  ∀ (s : State) (b : Bundle) (g : Gang) (h : Hdr) (x : Opnd) (k : BitVec 5) (r : Barrier),
    let on := guardLanes s b g h
    let p := rd s (wordCtx s b g h)
    let done := fun l => 1 ≤ (BitVec.ofNat 32 r.phase - p l x).toNat ∧ (BitVec.ofNat 32 r.phase - p l x).toNat < 2 ^ 31
    Issues s b g h (opNames x 1) (fun _ => opReads x 1) → barOf s (crewOfGang b.gang) k.toNat = some r →
    ((r.err = 0 ∨ ∀ l ∈ on, done l) →
      (∀ fate : Nat → LaneEnd, (∀ l, done l → fate l = .next) → (∀ l, ¬ done l → fate l = .hold (.barwait k.toNat (p l x))) →
        ∃ t rise, exec (.barwait h x k) s = .next t ∧ EndsIssue s s t b h g (fates s b g h fate) rise ∧
          (rise = 0 ↔ ∀ l ∈ on, done l)) ∧
      ∀ (q : BitVec 4) (v : Nat → Word), (∀ l, done l → v l = 1) → (∀ l, ¬ done l → v l = 0) →
        ∃ t, exec (.bartst h q x k) s = .next t ∧
          RegWord s t b g h (on.map fun l => { lane := l, reg := pRef q.toNat, val := v l }) noFlags) ∧
    (r.err ≠ 0 → (∃ l ∈ on, ¬ done l) → handles s b g →
      ∃ ti : TrapInfo, ti.cause = 0x10 ∧ ti.next = false ∧ ti.info.toNat % 256 = (r.err * 32 + k.toNat) % 256 ∧
        ∀ fate : Nat → LaneEnd, (∀ l, done l → fate l = .stay) → (∀ l, ¬ done l → fate l = .trap ti) →
          (∃ t, exec (.barwait h x k) s = .next t ∧ EndsIssue s s t b h g (fates s b g h fate) 0) ∧
          ∀ q : BitVec 4, ∃ t, exec (.bartst h q x k) s = .next t ∧ EndsIssue s s t b h g (fates s b g h fate) 0)

/-- BARINIT, BARWAIT and BARTST. -/
def Obligations.BarrierWords : Prop := Claims.BarrierSetup ∧ Claims.PhaseWords

/-- R55, R57, R322, R340: ATTACH holds the first word of an attaching gang of an elastic crew, and traps with cause 0x15 in any
other; DETACH holds its bundle, and a gang of which a fibre is held there ends when its arrivals are credited and its counters zero. -/
def Obligations.MembershipWords : Prop :=
  ∀ (s : State) (b : Bundle) (g : Gang) (h : Hdr) (d : Opnd),
    (Issues s b g h (opNames d 1) (fun _ => []) true →
      let first := (∃ c, crewOf s (crewOfGang b.gang) = some c ∧ c.gangMin < c.gangMax) ∧ g.attaching = true ∧ g.begun = false
      (first → ∃ t, exec (.attach h d) s = .next t ∧ EndsIssue s s t b h g (fates s b g h fun _ => .hold (.attach d)) 1) ∧
      (¬ first → handles s b g → ∃ t, exec (.attach h d) s = .next t ∧ EndsIssue s s t b h g
        (fates s b g h fun _ => .trap { cause := 0x15, addr := 0, info := 0, next := false }) 0)) ∧
    (Issues s b g h [] (fun _ => []) →
      ∃ t, exec (.detach h) s = .next t ∧ EndsIssue s s t b h g (fates s b g h fun _ => .hold .detach) 0) ∧
    ((∃ l fb w, tabFind g.fibres l = some fb ∧ fb.held = some w ∧ w.why = .detach) → gangOf s b.gang = some g →
      (∀ n < 6, ctrVal (cycOf s g.core) g n = 0) →
      (∀ x ∈ s.crews, ∀ r ∈ x.2.bars, ∀ a ∈ r.waits, a.gang = b.gang → a.credited = none → a.lanes = []) →
      ∃ t, exec (.detachCompletion b.gang) s = .next t ∧ gangOf t b.gang = none)

/-! ### Copy words -/

/-- R212 to R215, R338: each lane of a COPY whose operands pass the checks forks one engine thread, lanes ascending, with the
box's origin, order and destinations; a COPY reads no source before its counter falls. -/
def Obligations.CopyWord : Prop :=
  ∀ (s : State) (b : Bundle) (g : Gang) (h : Hdr) (kind : CopyKind) (d x : Opnd) (y : Reg) (k : BitVec 5),
    let on := guardLanes s b g h
    let c := wordCtx s b g h
    let ck := crewOfGang b.gang
    let listed := decide (kind = .gath ∨ kind = .mc)
    let nd := if listed then 2 else 1
    let turn := fun (v : State) (l i : Nat) (w : State) =>
      let cr := crewD v b.gang
      let half := halfOf cr g.core
      let dest := rd v c l d
      let table := (rd v c l { d with n := d.n + 1 }).toNat
      let hd := (rd v c l x).toNat % 65536
      ∃ (desc : Desc) (daddr : Nat) (xl : Xl) (rows : Option (List Nat)) (dests : List (Nat × Option Nat)),
        handleFor v c l hd .read (kindLegal kind) = .ok (desc, daddr, xl) ∧
        ¬ (desc.fmt = 4 ∧ boxOf desc 0 % 2 = 1) ∧
        let n := 16 * ((boxOf desc 0 * boxOf desc 1 * boxOf desc 2 * boxOf desc 3 * boxOf desc 4 * fmtBits desc.fmt + 127) / 128)
        (if kind = .mc then
            let entry := fun j => natOfBytes (spadRead v (spadKey ck half table + 4 * j) 4)
            let bits := (List.range 8).filter fun j => dest.getLsbD j
            table % 32 = 0 ∧ table + 32 ≤ cr.spSize ∧ rows = none ∧ dests ≠ [] ∧
              (∀ j ∈ bits, entry j % 16 = 0) ∧
              dests.map some = bits.map fun j => (rsTarget v cr (entry j) n).map fun r => (r.1, some (entry j))
          else
            dest.toNat % 16 = 0 ∧
            (if dest.toNat < 2 ^ 23 then dest.toNat + n ≤ cr.spSize ∧ dests = [(spadKey ck half dest.toNat, none)]
              else ∃ r, rsTarget v cr dest.toNat n = some r ∧ dests = [(r.1, some dest.toNat)]) ∧
            if kind = .gath then
              table % 4 = 0 ∧ table + 4 * boxOf desc 1 ≤ cr.spSize ∧
                rows = some ((List.range (boxOf desc 1)).map fun j => natOfBytes (spadRead v (spadKey ck half table + 4 * j) 4))
            else rows = none) ∧
        w = { v with
              cache := (usedHandle v c hd (desc, daddr, xl)).cache
              copies := tabPut v.copies (s.nextId + 1 + i)
                (newCopy c cr.part l (some k.toNat) (decide (kind = .rel))
                    (.box hd daddr desc ((List.range 5).map fun j => (readV v g l (y + BitVec.ofNat 8 j).toNat).toNat)
                      (decide (kind = .t8 ∨ kind = .t16)) rows dests (decide (kind ≠ .mc)) none)
                    (n / 16 * dests.length) 0) }
    Issues s b g h (opNames d nd ++ opNames x 1 ++ vNames y 5) (fun _ => opReads d nd ++ opReads x 1 ++ vReads y 5) →
    NoAcquire g on → (listed = true → NoQueued s b.gang on) → (kind = .rel → NoNear s b.gang on) → NoRecall s →
    (s.copies.filter fun p => p.2.core == g.core).length + on.length ≤ 256 → (∀ p ∈ s.copies, p.2.seq < s.nextId) →
    (barOf s ck k.toNat).isSome →
    ∀ u, InTurn turn on 0 s u → ∃ t, exec (.copy h kind d x y k) s = .next t ∧ EndsIssue s u t b h g goesOn 0

/-- R212, R216, R217, R338: COPYW writes a box or a range out of scratchpad, and COPYB moves bytes between the column bank and
global memory or scratchpad; the counter waits for sources in scratchpad. -/
def Obligations.CopyOutWords : Prop :=
  ∀ (s : State) (b : Bundle) (g : Gang) (h : Hdr) (d x y : Opnd) (k : BitVec 5) (rel : Bool),
    let on := guardLanes s b g h
    let c := wordCtx s b g h
    let ck := crewOfGang b.gang
    let fork := fun (v : State) (l i : Nat) (op : CopyOp) (n unread : Nat) =>
      tabPut v.copies (s.nextId + 1 + i) (newCopy c (crewD v b.gang).part l (some k.toNat) rel op n unread)
    let count := fun v : State => fun l => (rd v c l y).toNat
    let fits := fun (v : State) (l : Nat) => count v l % 16 = 0 ∧ 16 ≤ count v l ∧ count v l ≤ 2 ^ 24
    let boxTurn := fun (v : State) (l i : Nat) (w : State) =>
      let cr := crewD v b.gang
      let src := (rd v c l d).toNat
      let hd := (rd v c l x).toNat % 65536
      ∃ (desc : Desc) (daddr : Nat) (xl : Xl), handleFor v c l hd .read (fun _ => true) = .ok (desc, daddr, xl) ∧
        ¬ (desc.fmt = 4 ∧ boxOf desc 0 % 2 = 1) ∧
        let n := (boxOf desc 0 * boxOf desc 1 * boxOf desc 2 * boxOf desc 3 * boxOf desc 4 * fmtBits desc.fmt + 127) / 128
        src % 16 = 0 ∧ src + 16 * n ≤ cr.spSize ∧
        w = { v with
              cache := (usedHandle v c hd (desc, daddr, xl)).cache
              copies := fork v l i (.boxOut hd daddr desc
                ((List.range 5).map fun j => (rd v c l { y with n := y.n + BitVec.ofNat 8 j }).toNat)
                (spadKey ck (halfOf cr g.core) src)) n n }
    let rangeTurn := fun (v : State) (l i : Nat) (w : State) =>
      let cr := crewD v b.gang
      let src := (rd v c l d).toNat
      fits v l ∧ src % 16 = 0 ∧ (rd64 v c l x).toNat % 16 = 0 ∧ src + count v l ≤ cr.spSize ∧
        w = { v with
              copies := fork v l i (.glbOut (rd64 v c l x) (spadKey ck (halfOf cr g.core) src)) (count v l / 16) (count v l / 16) }
    let bankTurn := fun (out sp : Bool) (v : State) (l i : Nat) (w : State) =>
      let cr := crewD v b.gang
      let half := halfOf cr g.core
      let off := (rd v c l d).toNat
      let bank := cr.cbBase.getD half 0 * 2048 + off
      let far := if sp then (rd v c l x).toNat else (rd64 v c l x).toNat
      fits v l ∧ off % 16 = 0 ∧ far % 16 = 0 ∧ (sp = true → far + count v l ≤ cr.spSize) ∧
        off + count v l ≤ cr.cbSize * 2048 ∧ cbWithdrawn v g.core bank (count v l) = false ∧
        w = { v with
              copies := fork v l i
                (if sp then .bankSp out (bankKey g.core bank) (spadKey ck half far)
                  else .bankGl out (bankKey g.core bank) (rd64 v c l x))
                (count v l / 16) (if sp && !out then count v l / 16 else 0) }
    NoAcquire g on → (rel = true → NoNear s b.gang on) →
    (s.copies.filter fun p => p.2.core == g.core).length + on.length ≤ 256 → (∀ p ∈ s.copies, p.2.seq < s.nextId) →
    (barOf s ck k.toNat).isSome →
    (Issues s b g h (opNames d 1 ++ opNames x 1 ++ opNames y 5) (fun _ => opReads d 1 ++ opReads x 1 ++ opReads y 5) →
      NoRecall s → ∀ u, InTurn boxTurn on 0 s u →
        ∃ t, exec (.copyw h (if rel then .rel else .plain) d x y k) s = .next t ∧ EndsIssue s u t b h g goesOn 1) ∧
    (Issues s b g h (opNames d 1 ++ opNames x 2 ++ opNames y 1) (fun _ => opReads d 1 ++ opReads x 2 ++ opReads y 1) →
      ∀ u, InTurn rangeTurn on 0 s u →
        ∃ t, exec (.copyw h (if rel then .glbRel else .glb) d x y k) s = .next t ∧ EndsIssue s u t b h g goesOn 1) ∧
    ∀ out sp : Bool, onGeometry s g = false →
      let na := if sp then 1 else 2
      Issues s b g h (opNames d 1 ++ opNames x na ++ opNames y 1) (fun _ => opReads d 1 ++ opReads x na ++ opReads y 1) →
      ∀ u, InTurn (bankTurn out sp) on 0 s u →
        ∃ t, exec (.copyb h d x y out sp rel k) s = .next t ∧
          EndsIssue s u t b h g goesOn (if sp && !out then 1 else 0)

/-! ### Tensor words -/

/-- R198, R200, R203, R204, Table TRAP-1: the checks of a handle, the range of its coordinates, and the byte address of an element. -/
def Obligations.HandleChecks : Prop :=
  (∀ (s : State) (c : Ctx) (l hd : Nat) (k : AccessKind) (legal : Desc → Bool) (d : Desc) (daddr : Nat) (xl : Xl), hd < 65536 →
    getDesc s c.g.core (crewD s c.gk) hd k (xlIdx s l) = .ok (d, daddr, xl) →
    let bad := fun reason : Nat => handleFor s c l hd k legal =
      .error { cause := 0x12, addr := 0, info := BitVec.ofNat 32 (hd + 65536 * reason), next := false }
    (descLegal d = false → bad 1) ∧ (descLegal d = true → d.state = 2 → bad 2) ∧
    (descLegal d = true → d.state ≠ 2 → legal d = false → bad 4) ∧
    (descLegal d = true → d.state ≠ 2 → legal d = true → handleFor s c l hd k legal = .ok (d, daddr, xl))) ∧
  (∀ d : Desc, descLegal d = true → d.fmt ≤ 9 ∧ d.tag ≤ 4 ∧ d.state ≤ 2 ∧ d.flags < 4 ∧ (∀ n ∈ d.dims, n ≠ 0) ∧ d.base % 256 = 0 ∧
    (d.tag = 0 → ¬ (d.fmt = 4 ∧ dimOf d 0 % 2 = 1)) ∧ (d.tag = 1 → ¬ (d.fmt = 4 ∧ dimOf d 1 % 2 = 1)) ∧
    ((d.tag = 2 ∨ d.tag = 3) → 2 ≤ d.tile ∧ d.tile ≤ 8 ∧ dimOf d 0 % 2 ^ d.tile = 0 ∧ dimOf d 1 % 2 ^ d.tile = 0) ∧
    (d.tag = 4 → d.fmt ≤ 4 ∧ dimOf d 0 % 64 = 0)) ∧
  (∀ (s : State) (c : Ctx) (k : AccessKind) (x y : Opnd) (n l : Nat) (d : Desc) (daddr : Nat) (xl : Xl),
    let hd := (rd s c l x).toNat % 65536
    let co := coordsAt s c l y n
    handleFor s c l hd .read (fun _ => true) = .ok (d, daddr, xl) →
    (∀ i < 5, dimOf d i ≤ co.getD i 0 → (∀ j < i, co.getD j 0 < dimOf d j) →
      elemReq s c k x y n l = .error { cause := 0x12, addr := 0, info := BitVec.ofNat 32 (hd + 65536 * 3 + 1048576 * i), next := false }) ∧
    (d.state ≠ 1 → (∀ i < 5, co.getD i 0 < dimOf d i) → ∀ la,
      checkGL s c.g.core (crewD s c.gk) k (max 1 (fmtBits d.fmt / 8)) (elemAddr d false co).1 l (xlIdx s l + 3) = .ok la →
      elemReq s c k x y n l = .ok { lane := l, handle := hd, desc := d, daddr, xl, coords := co, nib := (elemAddr d false co).2, addr := la })) ∧
  ∀ (d : Desc) (c0 c1 c2 c3 c4 : Nat), c0 < dimOf d 0 → c1 < dimOf d 1 →
    let hi := c2 + dimOf d 2 * (c3 + dimOf d 3 * c4)
    let area := dimOf d 0 * dimOf d 1
    let e := 2 ^ d.tile
    let i := elemIndex d d.tag [c0, c1, c2, c3, c4]
    (elemAddr d false [c0, c1, c2, c3, c4] = (BitVec.ofNat 64 (d.base + i * fmtBits d.fmt / 8), i % 2)) ∧
    (d.tag = 0 → i = c0 + dimOf d 0 * c1 + area * hi) ∧ (d.tag = 1 → i = c1 + dimOf d 1 * c0 + area * hi) ∧
    (d.tag = 2 → i = (c0 / e + dimOf d 0 / e * (c1 / e)) * (e * e) + c0 % e + e * (c1 % e) + area * hi) ∧
    (d.tag = 4 → let kd := if d.fmt = 4 then 64 else if d.fmt ≤ 1 then 32 else 16
      i = (c1 / kd + dimOf d 1 / kd * (c0 / 64)) * 64 * kd + c1 % kd + kd * (c0 % 64) + area * hi)

/-- R204, R211: TLD, TST and HSTAT issue one access per lane, through the lane's element or descriptor. -/
def Obligations.ElementWords : Prop :=
  ∀ (s : State) (b : Bundle) (g : Gang) (h : Hdr) (x : Opnd),
    let on := guardLanes s b g h
    let c := wordCtx s b g h
    NoAcquire g on → NoRecall s →
    (∀ (d : Reg) (y : Opnd) (n : BitVec 3) (r : Nat → ElemReq),
      let k := n.toNat + 1
      (Issues s b g h (vNames d 1 ++ opNames x 1 ++ opNames y k) (fun _ => opReads x 1 ++ opReads y k) →
        (∀ l ∈ on, elemReq s c .read x y k l = .ok (r l)) →
        ∃ t u, exec (.tld h d x y n) s = .next t ∧ EndsIssue s u t b h g goesOn 1 ∧
          u = { s with accs := u.accs, cache := u.cache } ∧
          u.cache = { s.cache with tlb := u.cache.tlb, handles := u.cache.handles } ∧
          AddsAccs s u (s.nextId + 1) (on.map fun l =>
            newAcc c (r l).addr (.tld d.toNat (r l).handle (r l).daddr (r l).desc (r l).coords)
              (decide ((r l).desc.state = 1) || !cacheable (r l).addr) false)) ∧
      (Issues s b g h (vNames d 1 ++ opNames x 1 ++ opNames y k) (fun _ => opReads x 1 ++ opReads y k ++ vReads d 1) →
        (∀ l ∈ on, elemReq s c .write x y k l = .ok (r l)) → NoOverlap s b.gang on (fun l => (r l).addr) →
        LineFree s b.gang g.core on (fun l => (r l).addr) →
        ∃ t u, exec (.tst h d x y n) s = .next t ∧ EndsIssue s u t b h g goesOn 1 ∧
          u = { s with accs := u.accs, cache := u.cache } ∧
          u.cache = { s.cache with tlb := u.cache.tlb, handles := u.cache.handles, l1 := u.cache.l1 } ∧
          AddsAccs s u (s.nextId + 1) (on.map fun l =>
            newAcc c (r l).addr (.tst (readV s g l d.toNat) (r l).handle (r l).daddr (r l).desc (r l).coords) true false))) ∧
    ∀ (d : Opnd) (acq : Bool) (addr : Nat → LaneAddr),
      let hd := fun l => (rd s c l x).toNat % 65536
      Issues s b g h (opNames d 1 ++ opNames x 1) (fun _ => opReads x 1) →
      (∀ l ∈ dstLanes c d, checkGL s g.core (crewD s b.gang) .read 64 ((crewD s b.gang).htab + 64 * BitVec.ofNat 64 (hd l)) l (xlIdx s l) =
        .ok (addr l)) →
      ∃ t u g1, exec (.hstat h acq d x) s = .next t ∧ EndsIssue s u t b h g1 goesOn 1 ∧
        FibresChanged g g1 (fun l fb => { fb with acqs := fb.acqs ++ if acq && on.contains l then [s.nextId] else [] }) ∧
        u = { s with gangs := u.gangs, accs := u.accs, cache := u.cache } ∧ CachesTlb s u ∧
        (∀ k, k ≠ b.gang → gangOf u k = gangOf s k) ∧
        AddsAccs s u (s.nextId + 1) ((dstLanes c d).map fun l => { newAcc c (addr l) (.hstat d acq (hd l)) true false with
          also := if d.s then on.filter fun j => !(dstLanes c d).contains j else [] })

/-- R202, R227, R357: HINV holds its lanes; CBLD loads 32 bytes at the home into a slot of its core. -/
def Claims.DescriptorWords : Prop :=
  ∀ (s : State) (b : Bundle) (g : Gang) (h : Hdr) (x : Opnd),
    let on := guardLanes s b g h
    let c := wordCtx s b g h
    (Issues s b g h (opNames x 1) (fun _ => opReads x 1) → NoNear s b.gang on →
      ∃ t, exec (.hinv h x) s = .next t ∧
        EndsIssue s s t b h g (fates s b g h fun l => .hold (.hinv ((rd s c l x).toNat % 65536) none 0)) 1) ∧
    ∀ (slot : BitVec 8) (a : LaneAddr), Issues s b g h (opNames x 2) (fun _ => opReads x 2) → NoAcquire g on →
      onGeometry s g = false →
      checkGL s g.core (crewD s b.gang) .read 32 (rd64 s c (on.headD 0) x) (on.headD 0) (xlIdx s (on.headD 0)) = .ok a →
      NoOverlap s b.gang on (fun _ => a) → LineFree s b.gang g.core on (fun _ => a) →
      coreStorePending s g.core (a.pa / 128) s.nextId = false →
      ((addrLost s a.pa = true ∨ readsPoison s a.pa 32 = true) → handles s b g → ∃ t, exec (.cbld h x slot) s = .next t ∧
        EndsIssue s s t b h g (fates s b g h fun _ => .trap { cause := 0x0F, addr := a.va, info := 0, next := false }) 0) ∧
      (addrLost s a.pa = false → readsPoison s a.pa 32 = false → NoRecall s →
        ∃ t u, exec (.cbld h x slot) s = .next t ∧ EndsIssue s u t b h g goesOn 0 ∧
          u = { s with crews := u.crews, cache := u.cache, slots := u.slots, free := u.free } ∧ CachesTlb s u ∧
          (∀ k, tabFind u.slots k = if k = 256 * g.core + slot.toNat then some (anyRead s a.pa 32) else tabFind s.slots k) ∧
          (∀ k, k ≠ crewOfGang b.gang → crewOf u k = crewOf s k) ∧
          crewOf u (crewOfGang b.gang) = (crewOf s (crewOfGang b.gang)).map fun r =>
            { r with slots := setIns r.slots (256 * halfOf r g.core + slot.toNat) })

/-- R205, R206, R212, R392: each lane of a RELAYOUT whose handle is idle and legal in its new layout marks the descriptor CONVERTING, clears
the bitmap and starts a conversion at tile 0; lanes ascending. -/
def Claims.RelayoutWord : Prop :=
  ∀ (s : State) (b : Bundle) (g : Gang) (h : Hdr) (x y : Opnd) (tag : LayoutTag) (u : State) (g1 : Gang),
    let on := guardLanes s b g h
    let c := wordCtx s b g h
    let code := match tag with
      | .row => 0
      | .col => 1
      | .tile => 2
      | .ztile => 3
      | .kpack => 4
    let turn := fun (v : State) (l i : Nat) (w : State) =>
      let cr := crewD v b.gang
      let hd := (rd v c l x).toNat % 65536
      let base := (rd64 v c l y).toNat
      ∃ (d : Desc) (a : Nat) (xl : Xl) (w1 : State), getDesc v g.core cr hd .write (xlIdx v l) = .ok (d, a, xl) ∧
        d.state = 0 ∧ d.flags / 2 % 2 = 0 ∧
        let new : Desc := { d with newTag := code, newBase := base, state := 1, errCause := 0 }
        descLegal new = true ∧
        let v1 := descWrite (descWrite (descWrite (descWrite (tlbAdd v (g.core / 16) cr.part xl) a 8 (bytesOfNat 8 base))
          a 43 [BitVec.ofNat 8 code]) a 45 [1#8]) a 47 [0#8]
        let v2 := dropHandle v1 cr.part hd (some a)
        let pos := ((groupAt v2 a).map (·.1)).getD 0
        let n := (convTiles new + 7) / 8
        engZero (n + 1) v2 { pos, part := cr.part, svc := cr.svc } new.bmap n = .ok w1 ∧
        let conv : Conv := { pos, part := cr.part, addr := a, handle := hd, desc := new, tile := 0, locked := false, settle := some 0, svc := cr.svc }
        w = { w1 with convs := tabPut w1.convs (s.nextId + 1 + i) conv }
    Issues s b g h (opNames x 1 ++ opNames y 2) (fun _ => opReads x 1 ++ opReads y 2) → NoAcquire g on →
    (∀ l ∈ on, let hd := (rd s c l x).toNat % 65536
      handleBusy s (crewD s b.gang).part hd (handleAddr s g.core (crewD s b.gang) hd) s.nextId = false) →
    InTurn turn on 0 s u → gangOf u b.gang = some g1 → g1.core = g.core →
    ∃ t, exec (.relayout h x y tag) s = .next t ∧ EndsIssue s u t b h g1 goesOn 0

/-- The words that act on descriptors. -/
def Obligations.DescriptorWords : Prop := Claims.DescriptorWords ∧ Claims.RelayoutWord

/-! ### Matrix words -/

/-- R230, R232 to R239, R243, R37: an MMA whose lanes agree on a legal format word takes A at issue, from the latch where R236 lets it and
else from its registers, and enters its engine's queue with the B block's place; .REUSE keeps A in the latch; on an idle engine it asks the
start governor. -/
def Claims.ProductWord : Prop :=
  ∀ (s : State) (b : Bundle) (g : Gang) (h : Hdr) (t : BitVec 4) (reuse : Bool) (a y f : Reg) (w : Word),
    let on := guardLanes s b g h
    let cr := crewD s b.gang
    let key := 8 * g.core + g.slice
    let scaled := decide (w.toNat / 4096 % 4 = 1)
    let regs := 64 / g.gw * kBlock (fwA w) (fwB w) * opBits (fwA w) / 32
    let names := (List.range (regs + if scaled then 1 else 0)).map (a.toNat + ·)
    let off := (readS s g (on.headD 0) y.toNat).toNat
    let read := on.map fun l => (l, (List.range regs).map fun i => readV s g l (a.toNat + i),
      if scaled then readV s g l (a.toNat + regs) else 0)
    let places := on.flatMap fun l => names.map (((tabFind g.fibres l).map (·.wbase)).getD 0 + ·)
    let valid := fun x : ALatch =>
      x.gang = b.gang ∧ g.latch = x.regs ∧ x.regs = places ∧ x.fmt = w ∧ x.rows.map (·.1) = on
    let idle := (∀ q ∈ (engOf s key).queue, isMma q = false) ∧
      ∀ m, (engOf s key).busyAt = some m → m + 256 ≤ cycOf s g.core
    Issues s b g h (vNames f 1) (fun l => vReads f 1 ++ [{ file := .s, n := y.toNat }] ++
      if fwIllegal (readV s g l f.toNat) then [] else (aRegs g.gw a.toNat (readV s g l f.toNat)).map vRef) →
    onGeometry s g = false → NoAcquire g on → EngineRoom s g t →
    (∀ l ∈ on, readV s g l f.toNat = w) → fwIllegal w = false → (∀ n ∈ names, n < g.wsize) → off % 128 = 0 →
    off + 64 * kBlock (fwA w) (fwB w) * opBits (fwB w) / 8 + (if scaled then 64 else 0) ≤ cr.spSize →
    ∀ rows, (∀ x, (engOf s key).latch = some x → valid x → rows = x.rows) →
    ((∀ x, (engOf s key).latch = some x → ¬ valid x) → rows = read) →
    ∃ t' u g1 stallAt, exec (.mma h t reuse a y f) s = .next t' ∧ EndsIssue s u t' b h g1 goesOn 1 ∧
      g1 = { g with latch := if reuse then places else [] } ∧ (∀ k, k ≠ b.gang → gangOf u k = gangOf s k) ∧
      u = { s with gangs := u.gangs, engines := u.engines, dies := u.dies } ∧
      EngineChanged s u key (fun e => { accepted s b g h t (.mma w rows (16 * g.group + t.toNat)
          (spadKey (crewOfGang b.gang) (halfOf cr g.core) off) []) e with
        latch := if reuse then some { gang := b.gang, regs := places, fmt := w, rows } else none, stallAt }) ∧
      (¬ idle → u.dies = s.dies ∧ stallAt = (engOf s key).stallAt) ∧
      (idle → stallAt = some (cycOf s g.core) ∧ ∀ k, tabFind u.dies k = if k = g.core / 16
        then (tabFind s.dies k).map fun d => { d with govReq := insertReq (s.time.now, key) d.govReq,
                                                      governed := d.governed || !d.govReq.isEmpty || decide (d.govB < 4000) }
        else tabFind s.dies k)

/-- R244, R245, R246, R384, R385: MMAZ, QLD, QST and QSCR enter their engine's queue; QST reads its registers at issue. -/
def Claims.EngineWords : Prop :=
  ∀ (s : State) (b : Bundle) (g : Gang) (h : Hdr) (t : BitVec 4),
    let on := guardLanes s b g h
    let c := wordCtx s b g h
    let tile := 16 * g.group + t.toNat
    let enters := fun (i : Instr) (op : EngOp) =>
      ∃ t' u, exec i s = .next t' ∧ EndsIssue s u t' b h g goesOn 1 ∧ u = { s with engines := u.engines } ∧
        EngineChanged s u (8 * g.core + g.slice) (accepted s b g h t op)
    onGeometry s g = false → NoAcquire g on → EngineRoom s g t →
    (Issues s b g h [] (fun _ => []) → enters (.mmaz h t) (.mmaz tile)) ∧
    (∀ (d : Reg) (x : Opnd) (lg : BitVec 2),
      let cols := 2 ^ lg.toNat
      let regs := (List.range (64 / g.gw * cols)).map (d.toNat + ·)
      let col := (rdU s c x).toNat % 64
      (∀ n ∈ regs ++ opNames x 1, n < g.wsize) → col % cols = 0 →
      (Issues s b g h [] (fun _ => opReads x 1) → enters (.qld h d x t lg) (.qld d.toNat tile col cols)) ∧
      (Issues s b g h [] (fun _ => opReads x 1 ++ regs.map vRef) → enters (.qst h d x t lg)
        (.qst tile col cols (on.map fun l => (l, regs.map fun n => readV s g l n))))) ∧
    ∀ (d : Reg) (f : QFmt),
      let off := (readS s g (on.headD 0) d.toNat).toNat
      Issues s b g h [] (fun _ => [{ file := .s, n := d.toNat }]) → off % 16 = 0 →
      off + (if f = .bf16 then 8192 else 4096) ≤ (crewD s b.gang).spSize →
      enters (.qscr h d t f) (.qscr f tile (spadKey (crewOfGang b.gang) (halfOf (crewD s b.gang) g.core) off))

/-- The words that the matrix engine carries out. -/
def Obligations.EngineWords : Prop := Claims.ProductWord ∧ Claims.EngineWords

/-- R231, R240, R243 to R246: an engine applies the oldest operation of its queue. An MMA adds a block sum to every element of its lanes' rows,
MMAZ clears a tile, QST writes columns from its lanes, QSCR writes a tile into scratchpad; no other element and no other byte changes. Each
16-byte part of the B block is as it stands, or as it was before a store made since the MMA issued (R238). -/
def Obligations.EngineRetires : Prop :=
  ∀ (s : State) (pos core slice : Nat) (q : EngEntry) (rest : List EngEntry) (g : Gang),
    let ck := 16 * pos + core
    let key := 8 * ck + slice
    let rowsOf := 64 / q.gw
    let elem := fun (u : State) (tile i j : Nat) => accAt u tile i j
    (engOf s key).queue = q :: rest → gangOf s q.gang = some g → g.fibres ≠ [] → (q.gw = 8 ∨ q.gw = 16 ∨ q.gw = 32 ∨ q.gw = 64) →
    engReady s key q = true →
    ∃ t, exec (.engineOperationRetire pos core slice) s = .next t ∧ (engOf t key).queue.map bareEntry = rest.map bareEntry ∧
      (∀ k, k ≠ key → (tabFind t.engines k).map bareEngine = (tabFind s.engines k).map bareEngine) ∧ t.mem = s.mem ∧
      match q.op with
      | .mmaz tile => t.spad = s.spad ∧ ∀ tile' i j, i < 64 → j < 64 →
          elem t tile' i j = if tile' = tile then 0 else elem s tile' i j
      | .qst tile col c rows => t.spad = s.spad ∧ ((rows.map (·.1)).Nodup → (∀ x ∈ rows, x.1 < q.gw) → col + c ≤ 64 →
          (∀ x ∈ rows, ∀ r < rowsOf, ∀ m < c, elem t tile (rowsOf * x.1 + r) (col + m) = x.2.getD (r * c + m) 0) ∧
          ∀ tile' i j, i < 64 → j < 64 →
            ¬ (tile' = tile ∧ (∃ x ∈ rows, i / rowsOf = x.1) ∧ col ≤ j ∧ j < col + c) → elem t tile' i j = elem s tile' i j)
      | .mma w rows tile b olds => t.spad = s.spad ∧ ((rows.map (·.1)).Nodup → (∀ x ∈ rows, x.1 < q.gw) →
          (∀ x ∈ olds, x.2.length = 16) → ∃ blk : List Byte,
          (∀ i < bSpan w / 16, (blk.drop (16 * i)).take 16 = spadRead s (b + 16 * i) 16 ∨
            (b + 16 * i, (blk.drop (16 * i)).take 16) ∈ olds) ∧
          (∀ x ∈ rows, ∀ r < rowsOf, ∀ j < 64, elem t tile (rowsOf * x.1 + r) j =
            BitVec.ofNat 32 (blockSum (elem s tile (rowsOf * x.1 + r) j).toNat (aRow s ck w x.2.1 r) (bColumn s ck blk w j)
              (elemScale blk w x.2.2 r j))) ∧
          ∀ tile' i j, i < 64 → j < 64 → ¬ (tile' = tile ∧ ∃ x ∈ rows, i / rowsOf = x.1) → elem t tile' i j = elem s tile' i j)
      | .qld .. => t.spad = s.spad ∧ t.tiles = s.tiles
      | .qscr f tile key' => t.tiles = s.tiles ∧
          let n := if f = .bf16 then 2 else 1
          ∀ k, (spGet 0#8 t.spad k = if key' ≤ k ∧ k < key' + 4096 * n
            then let e := (k - key') / n
              BitVec.ofNat 8 (qscrCode f (elem s tile (e / 64) (e % 64)).toNat / 256 ^ ((k - key') % n))
            else spGet 0#8 s.spad k)

/-! ### Rendering words -/

/-- R267, R273, R274, R394, R405, R406: SAMPLE and TRACE issue one access per lane; TRACEF forks one thread per lane. None of them
runs on a geometry die. -/
def Obligations.TextureAndRayWords : Prop :=
  ∀ (s : State) (b : Bundle) (g : Gang) (h : Hdr),
    let on := guardLanes s b g h
    let c := wordCtx s b g h
    let nowhere := fun (l : Nat) (va : DWord) => ({ lane := l, space := .gl, va, pa := 0, size := 0, xl := none, saved := false } : LaneAddr)
    onGeometry s g = false → NoAcquire g on →
    (∀ (f : Filter) (lod : Bool) (d : Reg) (x : Opnd) (y : Reg) (r : Nat → SampleReq),
      let n := if lod then 3 else 2
      Issues s b g h (vNames d 4 ++ opNames x 1 ++ vNames y n) (fun _ => opReads x 1 ++ vReads y n) →
      (∀ l ∈ on, sampleReq s c f lod x y l = .ok (r l)) → NoRecall s →
      ∃ t u, exec (.sample h f lod d x y) s = .next t ∧ EndsIssue s u t b h g goesOn 1 ∧
        u = { s with accs := u.accs, cache := u.cache } ∧
        u.cache = { s.cache with tlb := u.cache.tlb, handles := u.cache.handles } ∧
        AddsAccs s u (s.nextId + 1) (on.map fun l => newAcc c (nowhere l 0)
          (.sample d.toNat (r l).handle (r l).daddr (r l).desc (r l).levels f (readV s g l y.toNat) (readV s g l (y.toNat + 1))
            (if lod then readV s g l (y.toNat + 2) else 0) []) (decide ((r l).desc.state = 1)) false)) ∧
    (∀ (any : Bool) (d a : Reg) (x : Opnd),
      Issues s b g h (vNames d 4 ++ vNames a 8 ++ opNames x 2) (fun _ => vReads a 8 ++ opReads x 2) →
      (∀ l ∈ on, (rd64 s c l x).toNat % 64 = 0) →
      ∃ t u, exec (.trace h any d a x) s = .next t ∧ EndsIssue s u t b h g goesOn 1 ∧ u = { s with accs := u.accs } ∧
        AddsAccs s u (s.nextId + 1) (on.map fun l => newAcc c (nowhere l (rd64 s c l x))
          (.trace d.toNat any ((List.range 8).map fun i => readV s g l (a.toNat + i)) (rd64 s c l x) []) false false)) ∧
    ∀ (d : Opnd) (a y : Reg) (k : BitVec 5),
      Issues s b g h (opNames d 2 ++ vNames a 8 ++ vNames y 5) (fun _ => opReads d 2 ++ vReads a 8 ++ vReads y 5) →
      (barOf s (crewOfGang b.gang) k.toNat).isSome →
      (∀ l ∈ on, (rd64 s c l d).toNat % 64 = 0 ∧ (rdV64 s c l y).toNat % 4 = 0) →
      ∃ t u, exec (.tracef h d a y k) s = .next t ∧ EndsIssue s u t b h g goesOn 0 ∧ u = { s with copies := u.copies } ∧
        (∀ id, ¬ (s.nextId < id ∧ id ≤ s.nextId + on.length) → tabFind u.copies id = tabFind s.copies id) ∧
        ∀ i l, on[i]? = some l → tabFind u.copies (s.nextId + 1 + i) = some (newCopy c (crewD s b.gang).part l (some k.toNat) false
          (.ray ((List.range 8).map fun j => readV s g l (a.toNat + j)) (rd64 s c l d) (rdV64 s c l y)
            ((List.range 3).map fun j => readV s g l (y.toNat + 2 + j)) [] 0 (some 0)) 1 0)

/-- R252, R253, R255, R264, R265, R342, R343, R364: EMITM emits the packet in scratchpad once per bundle, or traps with the reason; IPA interpolates
an attribute at each lane's pixel; EMITF exports the lanes' values, but for pixels without coverage and disabled targets. -/
def Obligations.PacketAndPixelWords : Prop :=
  ∀ (s : State) (b : Bundle) (g : Gang) (h : Hdr),
    let on := guardLanes s b g h
    let c := wordCtx s b g h
    (∀ a y : Reg, onGeometry s g = true → NoAcquire g on → NoQueued s b.gang on →
      Issues s b g h [] (fun _ => [{ file := .s, n := a.toNat }, { file := .s, n := y.toNat }]) →
      (∀ (off : Nat) (p : PacketIn), emitmReq s c a y = .ok (off, p) → (∀ r ∈ p.regions, (winOf s r).length < 4096) →
        let todo := p.regions.filter fun r => heldAt s r off || (claimOwner s r).isSome
        let rank := s.rend.geo.findIdx (· == g.core / 16)
        ∃ t u, exec (.emitm h a y) s = .next t ∧ EndsIssue s u t b h g goesOn 0 ∧ u = { s with rend := u.rend } ∧
          u.rend = { s.rend with marks := (markEmitted s rank off).rend.marks, pkts := u.rend.pkts, sent := u.rend.sent } ∧
          (∀ r, tabFind u.rend.sent r = if r ∈ todo ∧ heldAt s r off = false
            then some (max ((tabFind s.rend.sent r).getD 0) (off + 1)) else tabFind s.rend.sent r) ∧
          ∀ k, tabFind u.rend.pkts k = if k = s.nextId ∧ todo ≠ [] then
            some { off, pos := g.core / 16, gang := b.gang, lanes := on, seq := s.nextId, svc := (crewD s b.gang).svc,
                   nattr := p.nattr, abase := p.abase, verts := p.verts, tris := p.tris, attrs := none, todo }
            else tabFind s.rend.pkts k) ∧
      ∀ ti, emitmReq s c a y = .error ti → handles s b g →
        ∃ t, exec (.emitm h a y) s = .next t ∧ EndsIssue s s t b h g (fates s b g h fun _ => .trap ti) 0) ∧
    (g.pixel ≠ [] →
      (∀ (flat : Bool) (k : BitVec 2) (d : Reg) (x : Opnd), Issues s b g h (opNames (vr d) 1 ++ opNames x 1) (fun _ => opReads x 1) →
        ∃ t, exec (.ipa h flat k d x) s = .next t ∧ RegWord s t b g h
          (on.map fun l => oneWrite (vr d) l (ipaWord s g flat k.toNat l (rd s c l x))) noFlags) ∧
      ∀ (a : Reg) (tgt n : BitVec 3), n.toNat ≤ 3 → Issues s b g h (vNames a (n.toNat + 1)) (fun _ => vReads a (n.toNat + 1)) →
        ∃ t u, exec (.emitf h a tgt n) s = .next t ∧ EndsIssue s u t b h g goesOn 0 ∧
          u = { s with rend := u.rend, survey := u.survey } ∧ u.rend = { s.rend with frags := u.rend.frags } ∧
          ∃ f : Nat → Option Fragment, u.rend.frags = s.rend.frags ++ on.filterMap f ∧ ∀ l ∈ on,
            match g.pixel[l / 4]? with
            | none => f l = none
            | some q => f l = if q.cover.getLsbD (l % 4) = false ∨ targetOf s tgt.toNat = none then none else
                some { off := q.off, m := q.m, region := q.region, gang := b.gang, lane := l, seq := s.nextId, x := q.x + l % 2,
                       y := q.y + l / 2 % 2, tgt := tgt.toNat,
                       val := (List.range 4).map fun i =>
                         if i ≤ n.toNat then readV s g l (a.toNat + i) else if i = 3 then 0x3F800000 else 0 })

/-! ### Special-register words -/

/-- R82 to R86, R386, R398, R410: RDSR reads any special register, latching the high words of TIME and CYC; WRSR writes those that are open or, in a
service crew, privileged, and any other traps with cause 0x02; SLEEP holds until the core's reading reaches d + A. -/
def Obligations.SpecialWords : Prop :=
  ∀ (s : State) (b : Bundle) (g : Gang) (h : Hdr),
    let on := guardLanes s b g h
    let c := wordCtx s b g h
    let ck := crewOfGang b.gang
    let hi := fun n : Nat => some (BitVec.ofNat 32 (n / 2 ^ 32))
    (∀ (d : Opnd) (n : BitVec 8), Issues s b g h (opNames d 1) (fun _ => []) →
      (n = 0x14 → ∀ l ∈ dstLanes c d, ∀ fb, tabFind g.fibres l = some fb → (∀ e ∈ fb.flq, e.due ≤ fb.sum) →
        srValue s c l 0x14 = (allFlags fb).zeroExtend 32) ∧
      ∃ t u g0 g1, exec (.rdsr h d n) s = .next t ∧ WithGang s u b.gang g1 ∧ EndsIssue s u t b h g1 goesOn 1 ∧
        RegsWritten g0 g1 ((dstLanes c d).map fun l => oneWrite d l (srValue s c l n.toNat)) noFlags (fun _ => standing) ∧
        FibresChanged g g0 fun l fb =>
          { fb with timeHi := if n = 0x0C ∧ l ∈ dstLanes c d then hi (readingOf s g.core) else fb.timeHi
                    cycHi := if n = 0x0E ∧ l ∈ dstLanes c d then hi (cycOf s g.core) else fb.cycHi }) ∧
    (∀ (x : Opnd) (n : BitVec 8), Issues s b g h (opNames x 1) (fun _ => opReads x 1) →
      let v := rdU s c x
      let svc := (crewD s b.gang).svc
      let does := fun effect : State → Prop => ∃ t u g1, exec (.wrsr h x n) s = .next t ∧ effect u ∧ EndsIssue s u t b h g1 goesOn 0
      let crew := fun f : Crew → Crew => does fun u => CrewChanged s u ck f
      -- a write to CR.HTAB also drops the descriptors that the crew's cores hold (R201)
      let table := fun f : Crew → Crew => does fun u => CrewChanged s { u with cache := s.cache } ck f ∧
        u.cache = { s.cache with handles := s.cache.handles.filter fun x =>
          !(x.part == (crewD s b.gang).part && (crewCores (crewD s b.gang)).contains x.core) }
      let part := fun f : Partition → Partition => does fun u => u = { s with parts := u.parts } ∧
        (∀ k, k ≠ (crewD s b.gang).part → tabFind u.parts k = tabFind s.parts k) ∧
        partOf u (crewD s b.gang).part = f (partOf s (crewD s b.gang).part)
      (n = 0x14 → does fun u => ∃ g1, WithGang s u b.gang g1 ∧ g1 = { g with fibres := g1.fibres } ∧
        ∀ l, (l ∉ on → tabFind g1.fibres l = tabFind g.fibres l) ∧ (l ∈ on → ∀ fb, tabFind g.fibres l = some fb →
          ∃ fb', tabFind g1.fibres l = some fb' ∧
            fb' = { fb with fflags := (rd s c l x).truncate 4, flBase := fb'.flBase, flq := fb'.flq } ∧
            allFlags fb' = (rd s c l x).truncate 4)) ∧
      (n = 0x42 → does fun u => ∃ g1, WithGang s u b.gang g1 ∧ FibresChanged g g1 fun l fb =>
        if l ∈ on then { fb with fmode := (rd s c l x).truncate 2 } else fb) ∧
      (n = 0x43 → does fun u => ∃ g1, WithGang s u b.gang g1 ∧ FibresChanged { g with chk := v.getLsbD 0 } g1 fun l fb =>
        if l ∈ on then { fb with chk := v.getLsbD 0 } else fb) ∧
      (svc = true →
        (n = 0x40 → crew fun r => { r with tvec := r.tvec.extractLsb' 32 32 ++ (v &&& 0xFFFFFFF8) }) ∧
        (n = 0x41 → crew fun r => { r with tvec := v ++ r.tvec.extractLsb' 0 32 }) ∧
        (n = 0x44 → table fun r => { r with htab := r.htab.extractLsb' 32 32 ++ (v &&& 0xFFFFFFC0) }) ∧
        (n = 0x45 → table fun r => { r with htab := v ++ r.htab.extractLsb' 0 32 }) ∧
        (n = 0x46 → part fun p => { p with leaseMax := max 256 (min 16384 (v.toNat % 65536)) }) ∧
        (n = 0x48 → part fun p => { p with rasThr := v.toNat % 2 ^ 24 }) ∧
        (n = 0x49 ∨ n = 0x4A → onGeometry s g = false → does fun u => u = { s with dies := u.dies } ∧
          ∀ k, tabFind u.dies k = if k = (crewD s b.gang).pos then (tabFind s.dies k).map fun d =>
            if n = 0x49 then { d with cbRetry := v.truncate 4 } else { d with cbFoldWait := v.truncate 24 } else tabFind s.dies k)) ∧
      (n.toNat ∉ [0x14, 0x42, 0x43] → svc = false ∨ n.toNat ∉ [0x40, 0x41, 0x44, 0x45, 0x46, 0x48, 0x49, 0x4A] → handles s b g →
        ∃ t, exec (.wrsr h x n) s = .next t ∧
          EndsIssue s s t b h g (fun _ => .trap { cause := 0x02, addr := 0, info := n.zeroExtend 32, next := false }) 0)) ∧
    ∀ x : Opnd, Issues s b g h (opNames x 1) (fun _ => opReads x 1) →
      ∃ t, exec (.sleep h x) s = .next t ∧
        EndsIssue s s t b h g (fates s b g h fun l => .hold (.sleep (readingOf s g.core + (rd s c l x).toNat))) 1

/-! ### The configuration space -/

/-- R83, R302, R334, R335: in a service crew CFGRD issues a read for each lane (with an s destination for the lowest), which is performed later,
and CFGWR writes lane by lane, ascending, its counter waiting for an ownership change. In any other crew they trap with cause 0x02, and at an
address that is not a multiple of 4 with cause 0x08. -/
def Obligations.ConfigurationWords : Prop :=
  ∀ (s : State) (b : Bundle) (g : Gang) (h : Hdr) (x : Opnd),
    let on := guardLanes s b g h
    let c := wordCtx s b g h
    let addr := fun l => (rd s c l x).toNat
    let svc := (crewD s b.gang).svc
    let denied := fun i : Instr => svc = false → handles s b g → ∃ t, exec i s = .next t ∧
      EndsIssue s s t b h g (fun _ => .trap { cause := 0x02, addr := 0, info := 0, next := false }) 0
    let misaligned := fun (i : Instr) (ls : List Nat) => (∃ l ∈ ls, addr l % 4 ≠ 0) → handles s b g → ∃ t, exec i s = .next t ∧
      EndsIssue s s t b h g (fates s b g h fun l => if l ∉ ls ∨ addr l % 4 = 0 then .stay
        else .trap { cause := 0x08, addr := (rd s c l x).zeroExtend 64, info := 0, next := false }) 0
    (∀ d : Opnd, Issues s b g h (opNames d 1 ++ opNames x 1) (fun _ => opReads x 1) →
      denied (.cfgrd h d x) ∧
      (svc = true → misaligned (.cfgrd h d x) (dstLanes c d) ∧
        ((∀ l ∈ dstLanes c d, addr l % 4 = 0) → ∃ t u, exec (.cfgrd h d x) s = .next t ∧ EndsIssue s u t b h g goesOn 1 ∧
          u = { s with accs := u.accs } ∧ AddsAccs s u (s.nextId + 1) ((dstLanes c d).map fun l =>
            { newAcc c { lane := l, space := .gl, va := 0, pa := 0, size := 4, xl := none, saved := false } (.cfgrd d (rd s c l x)) true false with
                also := if d.s then on.filter (· != l) else [] })))) ∧
    ∀ y : Opnd, Issues s b g h (opNames x 1 ++ opNames y 1) (fun _ => opReads x 1 ++ opReads y 1) →
      denied (.cfgwr h x y) ∧
      -- a fibre's earlier accesses to the position come first
      (svc = true → (∀ l ∈ on, readsCfg s b.gang l s.nextId (cfgPos (rd s c l x)) = false ∧
          writesCfg s b.gang l s.nextId (cfgPos (rd s c l x)) = false) →
        misaligned (.cfgwr h x y) on ∧
        ((∀ l ∈ on, addr l % 4 = 0) → ∀ (late : Nat → Bool) (u : State) (g1 : Gang),
          InTurn (fun v l _ w => (gangOf v b.gang).isSome ∧
            cfgWrite (addr l) (rd s c l y) [(b.gang, l, s.nextId)] v = (w, late l)) on 0 s u →
          gangOf u b.gang = some g1 → g1.core = g.core →
          ∃ t, exec (.cfgwr h x y) s = .next t ∧ EndsIssue s u t b h g1 goesOn (if ∃ l ∈ on, late l then 1 else 0)))

/-- R4, R15, R84, R296, R298, R303, R310: a write to a plain register of position 0 stores the bits that software may write, and they read back; one to a
position that is absent, to a misaligned address or to a read-only register changes nothing. BAR2 reaches the same space, with 32-bit accesses
only; TLO latches THI; BAR0 reaches a function's queue pair. R334: the read of a CFGRD is performed after those of the lower lanes of its word
and its fibre's earlier accesses to the position, and the register's value at that instant lands in D. -/
def Obligations.ConfigurationEvents : Prop :=
  (∀ (s : State) (id l : Nat) (a : Acc) (g : Gang) (fb : Fibre) (d : Opnd) (addr : Word),
    tabFind s.accs id = some a → a.op = .cfgrd d addr → a.st = .pending → a.lanes = [l] → crewAway s a.crew = false →
    gangOf s a.gang = some g → tabFind g.fibres l = some fb →
    (∀ x ∈ s.accs, x.1 < id → x.2.gang = a.gang → x.2.seq = a.seq → accWaits x.2 = false) →
    readsCfg s a.gang l id (cfgPos addr) = false → writesCfg s a.gang l a.seq (cfgPos addr) = false →
    landsLater s a.gang [l] a.seq (accDest a) = false →
    (if d.s then spGet 0 g.swseq d.n.toNat else spGet 0 fb.wseq d.n.toNat) ≤ a.seq →
    Leads s (.loadDataReturn id) fun t =>
      t = { s with gangs := t.gangs, accs := t.accs, time := (cfgRead s addr.toNat).1.time } ∧ tabFind t.accs id = none ∧
      (∀ k, k ≠ a.gang → gangOf t k = gangOf s k) ∧
      ∃ g', gangOf t a.gang = some g' ∧ regNow g' fb { file := if d.s then .s else .v, n := d.n.toNat } = (cfgRead s addr.toNat).2) ∧
  (∀ (s : State) (addr v : Word),
    let pos := addr.toNat / 2 ^ 26
    let off := addr.toNat % 2 ^ 26
    let writes := fun P : State → Prop => Leads s (.cfgRegisterWrite addr v) P ∧
      ∀ write, (write = true → Leads s (.bar2ConfigAccess write addr.toNat 4 v) fun t => addr.toNat < 2 ^ 31 → off % 4 = 0 → P t)
    (∀ m : Word, pos = 0 → plainMask off = some m → m ≠ 0 → off < 0x4000 → (tabFind s.dies 0).isSome →
      writes fun t => CfgChanged s t off (v &&& m) ∧ (off ∉ [0x24C, 0x258] → (cfgRead t off).2 = v &&& m)) ∧
    ((tabFind s.dies pos = none ∨ off % 4 ≠ 0 ∨ off ∈ [0, 4, 8, 0xC, 0x10, 0x24] ∨ 0x40 ≤ off ∧ off < 0xC0) → writes fun t => t = s)) ∧
  (∀ (s : State) (v : Word), (tabFind s.dies 0).isSome → s.boot.refuge = false →
    Leads s (.bar2ConfigAccess false 0x388 4 v) fun t =>
      t = { s with time := { s.time with thi := some (BitVec.ofNat 32 (s.time.now / 2 ^ 32)) } } ∧
      (cfgRead t 0x38C).2 = BitVec.ofNat 32 (s.time.now / 2 ^ 32)) ∧
  (∀ (s : State) (off size : Nat) (v : Word), size ≠ 4 →
    Leads s (.bar2ConfigAccess true off size v) fun t => t = { s with aer := s.aer + 1 }) ∧
  ∀ (s : State) (fn : Nat) (v : Word), fn ≤ 192 →
    let reg := fun (off : Nat) (f : Func → Func) => Leads s (.functionRegisterWrite fn off v) fun t => FuncChanged s t fn f
    ((funcOf s fn).en = false →
      reg 0x00 (fun f => { f with sqBase := f.sqBase.extractLsb' 32 32 ++ (v &&& 0xFFFFFF00) }) ∧
      reg 0x04 (fun f => { f with sqBase := v ++ f.sqBase.extractLsb' 0 32 }) ∧ reg 0x08 (fun f => { f with sqLogn := v.truncate 4 }) ∧
      reg 0x14 (fun f => { f with cqBase := f.cqBase.extractLsb' 32 32 ++ (v &&& 0xFFFFFFF0) }) ∧
      reg 0x18 (fun f => { f with cqBase := v ++ f.cqBase.extractLsb' 0 32 }) ∧ reg 0x1C (fun f => { f with cqLogn := v.truncate 4 })) ∧
    ((funcOf s fn).en = true → ∀ off ∈ [0x00, 0x04, 0x08, 0x14, 0x18, 0x1C], Leads s (.functionRegisterWrite fn off v) fun t => t = s) ∧
    reg 0x20 (fun f => { f with cqHead := v }) ∧
    ∀ off, off = 0x0C ∨ off = 0x24 → exec (.functionRegisterWrite fn off v) s =
      if off = 0x0C then exec (.sqtailDoorbell fn v) s
      else if v.getLsbD 31 then exec (.queuePairEnable fn) s else exec (.queuePairDisable fn) s

/-! ### Events of the package -/

/-- R22 to R30: the start and its failures, after each of which a new start begins at once; the watchdog, the marking of a good start, and
refuge mode. -/
def Obligations.StartEvents : Prop :=
  ∀ s : State,
    let begun := { s with boot := { s.boot with started := true, startAt := s.time.now, cause := 0, fails := s.flash.fails } }
    let under := s.boot.started = true ∧ s.boot.ok = false ∧ s.boot.refuge = false
    let differs := fun (pos : Nat) (d : Die) => spGet 0#2 s.flash.manifest.kinds pos ≠ kindBits d.kind ∨
      d.dieRev.toNat < (spGet 0#8 s.flash.manifest.minDie pos).toNat ∨ d.baseRev.toNat < (spGet 0#8 s.flash.manifest.minBase pos).toNat
    let found := fun (pos : Nat) (d : Die) => pos + 256 * d.dieRev.toNat + 65536 * d.baseRev.toNat
    (s.boot.started = false → s.flash.fails < 3 →
      (imagesOk s.flash = false → Leads s .powerOn fun t => StartFails s t 0x01 0) ∧
      (imagesOk s.flash = true → manifestOk s.flash = false → Leads s .powerOn fun t => StartFails s t 0x02 0) ∧
      (imagesOk s.flash = true → manifestOk s.flash = true →
        let up := bringUp begun
        (∀ x, linkMissing up = some x → Leads s .powerOn fun t => StartFails s t 0x04 x.1) ∧
        (linkMissing up = none → (∀ x ∈ up.dies, x.2.kind = .memory → x.2.inService = false) →
          Leads s .powerOn fun t => StartFails s t 0x06 0) ∧
        (linkMissing up = none → (∃ x ∈ up.dies, x.2.kind = .memory ∧ x.2.inService = true) →
          (firstCore up = none → Leads s .powerOn fun t => StartFails s t 0x05 0) ∧
          ((firstCore up).isSome → (∀ code, startService up = .error code → Leads s .powerOn fun t => StartFails s t 0xFF code) ∧
            ∀ t, startService up = .ok t → exec .powerOn s = .next t)))) ∧
    (s.boot.started = false → 3 ≤ s.flash.fails → Leads s .powerOn fun t => t.boot.refuge = true ∧ t.flash = s.flash ∧
      t.boot.fails = s.flash.fails ∧ t.boot.cause = ((s.flash.log.getLast?).map (·.cause)).getD 0) ∧
    (s.boot.started = true → Leads s .powerOn fun t => ∃ u, AfterReset s u s.flash ∧ t = beginStart u) ∧
    (under → s.boot.startAt + 20000000004 ≤ s.time.now → Leads s .bootWatchdogExpiry fun t => StartFails s t 0x07 0) ∧
    (under → ∀ detail : Nat,
      (∀ cause : BitVec 8, cause = 0x08 ∨ cause = 0x09 ∨ cause = 0xFF →
        Leads s (.failedStart cause detail) fun t => StartFails s t cause detail) ∧
      (∀ cause : BitVec 8, cause = 0 ∨ 0x09 < cause ∧ cause < 0xFF → Leads s (.failedStart cause detail) fun t => t = s) ∧
      (imagesOk s.flash = false → Leads s (.failedStart 0x01 detail) fun t => StartFails s t 0x01 detail) ∧
      (manifestOk s.flash = false → Leads s (.failedStart 0x02 detail) fun t => StartFails s t 0x02 detail) ∧
      (∀ (side : Nat) (d : Die), (detail, side) ∈ s.flash.manifest.links → tabFind s.dies detail = some d → linkState d.links side ≠ 1 →
        Leads s (.failedStart 0x04 detail) fun t => StartFails s t 0x04 detail)) ∧
    (under → ∀ (pos : Nat) (d : Die), tabFind s.dies pos = some d → differs pos d →
      Leads s (.failedStart 0x03 pos) fun t => StartFails s t 0x03 (found pos d)) ∧
    (∀ v : Word, s.boot.started = true → s.boot.refuge = false → v.getLsbD 0 = true →
      (s.boot.ok = true ∨ (∀ pos < 28, disagrees s pos = false) → Leads s (.cfgBootokWrite v) fun t =>
        t = { s with boot := { s.boot with ok := true }, flash := { s.flash with fails := 0 } }) ∧
      ∀ (pos : Nat) (d : Die), s.boot.ok = false → pos < 28 → (∀ q < pos, disagrees s q = false) → tabFind s.dies pos = some d →
        differs pos d → Leads s (.cfgBootokWrite v) fun t => StartFails s t 0x03 (found pos d)) ∧
    (s.boot.refuge = true →
      (∀ v : Word, v.getLsbD 0 = true → Leads s (.cfgBootctlWrite v) fun t =>
        ∃ u, AfterReset s u { s.flash with fails := 0 } ∧ t = beginStart u) ∧
      (∀ is : List Image, Leads s (.firmwareImageInstall (.images is)) fun t => t = { s with flash := { s.flash with images := is } }) ∧
      ∀ m : Manifest, Leads s (.firmwareImageInstall (.manifest m)) fun t => t = { s with flash := { s.flash with manifest := m } })

/-- R13, R32 to R34, R36, R37, R39, R151, R160: canaries, stack levels, trips, links, power samples, the start governor, scrubs and power
gating. -/
def Obligations.DieEvents : Prop :=
  ∀ (s : State) (pos : Nat) (d : Die), tabFind s.dies pos = some d →
    (∀ v : Word, Leads s (.cfgSlopeWrite pos v) fun t =>
      DieChanged s t pos fun d => { d with slope := BitVec.ofNat 8 (max 1 (min 100 (v.toNat % 256))) }) ∧
    (∀ (core : Nat) (c : Core), tabFind s.cores (16 * pos + core) = some c →
      (Leads s (.canaryWarning pos core) fun t => ∃ u, CoreChanged s u (16 * pos + core) (fun c =>
          { c with canary := min 4 (c.canary + 1), canaryPend := true, canaryEvents := min 0xFFFF (c.canaryEvents + 1), canaryAt := s.time.now }) ∧
        t = { u with outbox := if c.canary = 4 then raised s 0x07 pos core (min 0xFFFF (c.canaryEvents + 1)) 0 else s.outbox }) ∧
      (c.canary ≠ 0 → c.canaryAt + 10000004 ≤ s.time.now → Leads s (.canaryDecay pos core) fun t =>
        CoreChanged s t (16 * pos + core) fun c => { c with canary := c.canary - 1, canaryAt := s.time.now })) ∧
    (∀ hot below : Nat, s.time.now % 100000 = 0 → d.kind = .shading ∨ d.kind = .geometry →
      let limit := if d.kind = .geometry then 350000 else 620000
      let temp := max hot below
      let level := if s.flash.manifest.throttle ≤ temp ∨ limit < d.mw then min 14 (d.level + 1)
        else if temp + 5 ≤ s.flash.manifest.throttle ∧ d.mw * 100 ≤ limit * 95 then d.level - 1 else d.level
      Leads s (.stackLevelEvaluation pos hot below) fun t => DieChanged s t pos fun d =>
        -- once at each multiple of 100 µs
        if d.evalAt = some s.time.now then d
        else { d with level, temp, stepped := d.stepped || decide (level ≠ d.level), evalAt := some s.time.now }) ∧
    (∀ temp : Nat, d.inService = true → d.tripped = false → s.flash.manifest.trip ≤ temp →
      (s.boot.started = true → s.boot.ok = false → s.boot.refuge = false →
        Leads s (.dieThermalTrip pos temp) fun t => StartFails s t 0x08 pos) ∧
      (s.boot.started = false ∨ s.boot.ok = true ∨ s.boot.refuge = true → d.kind ≠ .memory → (∀ x ∈ s.crews, x.2.pos = pos → crewSaved x.2 = true) →
        Leads s (.dieThermalTrip pos temp) fun t => ∃ u, DieChanged s u pos (fun d =>
          { d with inService := false, tripped := true, temp, incomplete := true }) ∧ t = { u with outbox := raised s 0x05 pos 0 temp 0 })) ∧
    (∀ temp : Nat, d.tripped = true → d.isolated = false → d.kind ≠ .memory → temp < s.flash.manifest.throttle →
      Leads s (.dieReturnToService pos temp) fun t => ∃ u, DieChanged s u pos (fun d =>
        { d with inService := true, tripped := false, temp, level := 14, incomplete := true, stepped := d.stepped || d.level != 14 }) ∧
        t = { u with outbox := raised s 0x06 pos 0 temp 0, survey := { s.survey with inc := t.survey.inc } }) ∧
    (∀ (side q : Nat) (e : Die), neighbour pos side = some q → q ≠ pos → tabFind s.dies q = some e → linkState d.links side = 1 →
      let here : Die := { d with links := setLink d.links side 2 }
      let there : Die := { e with links := setLink e.links (facing side) 2 }
      let u := { s with dies := tabPut (tabPut s.dies pos here) q there }
      (∀ p ∈ tabKeys s.dies, p ∈ reachable u 27 [0]) →
      Leads s (.linkRetirement pos side) fun t => t = { s with dies := t.dies, outbox := raised s 0x04 pos side 0 0 } ∧
        ∀ p, tabFind t.dies p = tabFind u.dies p) ∧
    (∀ mw : List (Nat × Nat × Nat), s.time.now % 1000000 = 0 → (∀ r ∈ s.telemetry, r.take 8 ≠ bytesOfNat 8 s.time.now) →
      Leads s (.powerSampleTick mw) fun t => t = { s with telemetry := t.telemetry, dies := t.dies } ∧
        t.telemetry.length = s.telemetry.length + s.dies.length ∧
        ∀ p, tabFind t.dies p = (tabFind s.dies p).map fun d =>
          { d with mw := ((mw.find? fun x => x.1 == p).map (·.2.1)).getD d.mw, governed := false, stepped := false, incomplete := !d.inService }) ∧
    (∀ (at' k : Nat) (rest : List (Nat × Nat)), d.govReq = (at', k) :: rest → 4000 ≤ d.govB →
      Leads s (.startGovernorGrant pos) fun t => ∃ u, DieChanged s u pos (fun d => { d with govReq := rest, govB := d.govB - 4000 }) ∧
        t = { u with engines := t.engines, survey := t.survey } ∧
        EngineChanged s t k fun e => { e with busyAt := some (cycOf s (k / 8)), stallAt := none }) ∧
    (∀ (sector : Nat) (g : Nat × Nat), groupAt s (32 * sector) = some g → sector ∉ s.poison →
      Leads s (.memoryScrub sector) fun t => t = { s with poison := t.poison, outbox := raised s 0x08 g.1 0 0 (32 * sector) } ∧
        ∀ k, k ∈ t.poison ↔ k = sector ∨ k ∈ s.poison) ∧
    ∀ r : GateRes, Leads s (.powerGatedWake r) (fun t => t = { s with gated := t.gated } ∧ ∀ x, x ∈ t.gated ↔ x ∈ s.gated ∧ x ≠ r) ∧
      (r ∉ s.gated → (∀ pos way, r = .llcWay pos way → Leads s (.resourcePowerGating r) fun t => t = { s with gated := r :: s.gated }) ∧
        (∀ core tile, r = .spTile core tile → (∀ x ∈ takenRanges s core false, x.1 + x.2 ≤ 4096 * tile ∨ 4096 * (tile + 1) ≤ x.1) →
          Leads s (.resourcePowerGating r) fun t => t = { s with gated := r :: s.gated }) ∧
        (∀ core, r = .regSram core → (∀ k < 6, gangsOn s core k = []) →
          Leads s (.resourcePowerGating r) fun t => t = { s with gated := r :: s.gated }) ∧
        (∀ core slice, r = .accTiles core slice → (engOf s (8 * core + slice)).mapped = [] →
          Leads s (.resourcePowerGating r) fun t => t = { s with gated := r :: s.gated }) ∧
        ∀ core way, r = .l1Way core way → Leads s (.resourcePowerGating r) fun t => t.gated = r :: s.gated ∧ t.mem = s.mem)

/-- R154 to R157, R159, R292, R293: transfers of a column bank with failing buses, and the backfill that follows a bus's retirement. -/
def Obligations.BankEvents : Prop :=
  ∀ (s : State) (pos core : Nat) (d : Die) (c : Core), tabFind s.dies pos = some d → tabFind s.cores (16 * pos + core) = some c →
    let key := 16 * pos + core
    (∀ (addr : Nat) (fate : BusFate), d.kind = .shading → cbWithdrawn s key addr 1 = false → fate.cell = none →
      (c.vbus.getLsbD (busOf c (addr / 2048)) = true → fate.fails = 0 ∨ inUnit addr fate.beat = false →
        Leads s (.cbTransfer pos core addr fate) fun t => t = s) ∧
      (c.vbus.getLsbD (busOf c (addr / 2048)) = true → inUnit addr fate.beat = true → 0 < fate.fails → fate.fails ≤ d.cbRetry.toNat →
        Leads s (.cbTransfer pos core addr fate) fun t => ∃ u, t = { u with survey := t.survey } ∧ DieChanged s u pos fun d =>
          { d with blogN := min 0xFFFFFFFF (d.blogN + 1),
                   blog := tabPut d.blog (d.blogN % 64) [BitVec.ofNat 32 (min 255 fate.fails * 65536 + fate.beat % 64 * 1024 +
                     busOf c (addr / 2048) * 64 + core), BitVec.ofNat 32 addr, BitVec.ofNat 32 s.time.now,
                     BitVec.ofNat 32 (s.time.now / 2 ^ 32)] }) ∧
      (c.vbus.getLsbD (busOf c (addr / 2048)) = true → inUnit addr fate.beat = true → d.cbRetry.toNat < fate.fails →
        Leads s (.cbTransfer pos core addr fate) fun t => ∃ c', tabFind t.cores key = some c' ∧
          c'.vbus = c.vbus &&& ~~~(1#16 <<< busOf c (addr / 2048)) ∧ c'.mapBuses = c.mapBuses ∧
          (c'.vbus ≠ 0 → c.fill = .normal →
            c' = { c with vbus := c'.vbus, fill := .vacate, foldAt := s.time.now + 1000 * d.cbFoldWait.toNat, lateBuses := [] } ∧
            ∃ r ∈ t.outbox, r.ring = 0x300 ∧ r.bytes = eventBytes s.time.now 0x01 pos core (busCount c'.vbus) c'.foldAt) ∧
          (c'.vbus = 0 → c'.fill = .gone))) ∧
    (c.fill = .vacate → c.foldAt + 4 ≤ s.time.now → Leads s (.backfillBegin pos core) fun t => CoreChanged s t key fun c =>
      { c with fill := .backfill, oldBuses := c.mapBuses, mapBuses := c.vbus, wmark := 0 }) ∧
    (c.fill = .backfill → (c.vbus.getLsbD (busOf c c.wmark) = true ∧ c.wmark + 1 ≠ busCount c.mapBuses * 131072 →
        Leads s (.backfillUnitMove pos core []) fun t => CoreChanged s t key fun c => { c with wmark := c.wmark + 1 }) ∧
      (c.vbus.getLsbD (busOf c c.wmark) = true → c.wmark + 1 = busCount c.mapBuses * 131072 → c.lateBuses = [] →
        Leads s (.backfillUnitMove pos core []) fun t => (∃ c', tabFind t.cores key = some c' ∧ c' = { c with fill := .reduced, wmark := 0 }) ∧
          ∃ r ∈ t.outbox, r.ring = 0x300 ∧
            r.bytes = eventBytes s.time.now 0x02 pos core (busCount c.mapBuses) (busCount c.mapBuses * 268435456)))

/-! ### Partitions -/

/-- R149, R301 to R304, R311, R312: ownership, enabling with its scrub, suspension, the virtual-function map, policies and attestation. -/
def Obligations.PartitionEvents : Prop :=
  (∀ (s : State) (addr v : Word) (k : OwnKind), ownKind s addr.toNat = some k →
    let new := v &&& (if k = .pair then 0x00FFFFFF else 0x8000001F)
    let idle := tabFind s.own addr.toNat = none ∧ new ≠ cfgGet s addr.toNat
    (idle → ownAllowed s addr.toNat k new = true → k ≠ .llc →
      Leads s (.ownershipWrite addr v) fun t => CfgChanged s t addr.toNat new) ∧
    (idle → ownAllowed s addr.toNat k new = true → k = .llc → Leads s (.ownershipWrite addr v) fun t =>
      t = { s with own := t.own } ∧ tabFind t.own addr.toNat = some { val := new, waits := [] }) ∧
    (idle → ownAllowed s addr.toNat k new = false → Leads s (.ownershipWrite addr v) fun t => t = s)) ∧
  (∀ (s : State) (addr : Word) (w : OwnWrite), tabFind s.own addr.toNat = some w → w.waits = [] →
    leasesOver s (namedParts .llc (cfgGet s addr.toNat) ++ namedParts .llc w.val) = true →
    let u := { s with own := tabDel s.own addr.toNat }
    (ownAllowed u addr.toNat .llc w.val = true → Leads s (.ownershipChangeEffect addr) fun t =>
      cfgGet t addr.toNat = w.val ∧ tabFind t.own addr.toNat = none ∧ t.mem = s.mem) ∧
    -- a change that may not take effect any more is discarded
    (ownAllowed u addr.toNat .llc w.val = false → exec (.ownershipChangeEffect addr) s = .next u)) ∧
  (∀ (s : State) (p : Nat), p < 24 →
    (partEn s p = false → (partOf s p).scrub = false → ownsLost s p = false → homesOk s p = true →
      Leads s (.partitionEnable p) fun t => PartChanged s t p fun x => { x with enabled := false, failed := false, scrub := true }) ∧
    ((partOf s p).scrub = true → leasesOver s [p] = true → Leads s (.partitionScrubCompletion p) fun t =>
      partOf t p = { partOf s p with scrub := false, enabled := true } ∧
      ∀ pa, spGet 0#8 t.mem pa = if pa / 2 ^ 35 ∈ groupsOf s p then 0 else spGet 0#8 s.mem pa) ∧
    (partIdle s p = true → Leads s (.partitionDisable p) fun t => PartChanged s t p fun x => { x with enabled := false }) ∧
    (Leads s (.partitionResume p) fun t => PartChanged s t p fun x => { x with susp := false }) ∧
    (Leads s (.partitionSuspend p) fun t => (partOf t p).susp = true ∧
      ((s.crews.map (·.1)).Nodup → ∀ k c, crewOf s k = some c → c.part = p → c.phase = .running → c.halt = [] →
        ∃ c', crewOf t k = some c' ∧ c'.phase = .halting ∧ .preempt ∈ c'.halt)) ∧
    ∀ (s1 : State) (bs : List Byte),
      let at' : DWord := BitVec.ofNat 64 ((cfgGet s (cfgAddr 0 (partOff p + 0x84))).toNat * 2 ^ 32 + (cfgGet s (cfgAddr 0 (partOff p + 0x80))).toNat)
      (partBytes (schedAgent p false) 176 at' s = some (s1, bs) →
        let r := policyResult (tenantKey s1 p) p (partOf s1 p).policy bs
        Leads s (.policyInstall p) fun t => PartChanged s1 t p fun x =>
          { x with result := r, nextPolicy := if r = 1 then some bs else x.nextPolicy }) ∧
      (partBytes (schedAgent p false) 176 at' s = none →
        Leads s (.policyInstall p) fun t => PartChanged s t p fun x => { x with result := 3 })) ∧
  ∀ (s : State) (v : Nat) (w : Word), v < 192 →
    let new := w &&& 0x8000001F
    let others := (List.range 192).filter fun u => u != v && vfPart s u == some (new.toNat % 32)
    (w.getLsbD 31 = false ∨ others.length < 8 → Leads s (.vfMapWrite v w) fun t => CfgChanged s t (0x6000 + 4 * v) new) ∧
    (w.getLsbD 31 = true → 8 ≤ others.length → Leads s (.vfMapWrite v w) fun t => t = s) ∧
    (∀ p, Leads s (.attestationRequest 0 p) fun t => t = busWrite s (funcOf s 0).abuf.toNat (attestBytes s 0 p)) ∧
    ∀ p q, vfPart s v = some p → Leads s (.attestationRequest (v + 1) q) fun t =>
      t = busWrite s (funcOf s (v + 1)).abuf.toNat (attestBytes s (v + 1) p)

/-- R152, R153, R164: changing a frame's attributes, and invalidating translations. -/
def Obligations.AttributeEvents : Prop :=
  ∀ s : State,
    let f := (cfgGet s 0x248).toNat
    (∀ v : Word, s.fattr = none → (groupAt s (524288 * f)).isSome →
      let new : Frame := { packed := v.getLsbD 0, chk := v.getLsbD 1 }
      new ≠ frameOf s (524288 * f) → Leads s (.cfgFattrWrite v) fun t => t = { s with fattr := some (f, new) }) ∧
    (∀ (f : Nat) (new : Frame), s.fattr = some (f, new) → Leads s .frameAttributeChangeDone fun t =>
      t = { s with fattr := none, frames := t.frames, crcs := t.crcs } ∧
      (∀ k, spGet { packed := false, chk := false } t.frames k = if k = f then new else spGet { packed := false, chk := false } s.frames k) ∧
      ∀ blk, spGet 0#64 t.crcs blk = if blk / 128 = f ∧ new.chk ≠ (frameOf s (524288 * f)).chk
        then (if new.chk then crcStored s blk else 0) else spGet 0#64 s.crcs blk) ∧
    (∀ v : Word, s.cache.inv = none → Leads s (.cfgXinvcmdWrite v) fun t =>
      t = { s with cfg := t.cfg, cache := t.cache } ∧ cfgGet t 0x258 = v &&& 0xFF ∧ t.cache.inv.isSome ∧
      ∀ e, e ∈ t.cache.tlb ↔ e ∈ s.cache.tlb ∧ invHits t (v &&& 0xFF) e.part e.page e.size = false) ∧
    ∀ (v : Word) (accs cps : List Nat), s.cache.inv = some (v, accs, cps) → (∀ a ∈ accs, accOver s a = true) →
      (∀ e ∈ s.cache.tlb, invHits s v e.part e.page e.size = false) →
      Leads s .invalidationCompletion fun t => t = { s with cache := { s.cache with inv := none } }

/-! ### The outside -/

/-- R167, R194, R197, R296 to R299, R305 to R309: queue pairs, completions, inbound accesses, the host-line cache, peer ports, device time
and the readings of the cores. -/
def Obligations.HostEvents : Prop :=
  (∀ (s : State) (fn : Nat) (v : Word),
    let f := funcOf s fn
    (Leads s (.sqtailDoorbell fn v) fun t => FuncChanged s t fn fun f =>
      if f.en = true ∧ queueLen f.sqLogn < (v - f.sqHead).toNat then { f with sqTail := v, err := true, errCode := 1 }
      else { f with sqTail := v }) ∧
    (Leads s (.queuePairEnable fn) fun t => FuncChanged s t fn fun f =>
      { f with en := true, err := false, errCode := 0, sqHead := 0, sqTail := 0, cqHead := 0, cqTail := 0 }) ∧
    (Leads s (.queuePairDisable fn) fun t => FuncChanged s t fn fun f => { f with en := false }) ∧
    (Leads s (.cqheadWrite fn v) fun t => FuncChanged s t fn fun f => { f with cqHead := v }) ∧
    ∀ (c : Completion) (rest : List Completion), f.comps = c :: rest → c.written = false → (∀ x ∈ rest, x.written = true) →
      f.err = false → f.errCode ≠ 3 →
      let status := busWrite s (c.slot.toNat + 55) [c.status]
      let noted : Func := { f with comps := { c with written := true } :: rest }
      (hostServes s (c.slot.toNat + 55) = false → Leads s (.completionEntryPost fn) fun t =>
        FuncChanged s t fn fun f => { f with err := true, errCode := 3 }) ∧
      (hostServes s (c.slot.toNat + 55) = true →
        -- a full ring holds back the entry alone
        ((f.cqTail - f.cqHead).toNat = queueLen f.cqLogn → Leads s (.completionEntryPost fn) fun t =>
          funcOf t fn = noted ∧ { t with funcs := s.funcs } = status) ∧
        ((f.cqTail - f.cqHead).toNat ≠ queueLen f.cqLogn → hostServes s (compAddr f) = false → Leads s (.completionEntryPost fn) fun t =>
          funcOf t fn = { noted with err := true, errCode := 3 } ∧ { t with funcs := s.funcs } = status) ∧
        ((f.cqTail - f.cqHead).toNat ≠ queueLen f.cqLogn → hostServes s (compAddr f) = true → Leads s (.completionEntryPost fn) fun t =>
          funcOf t fn = { f with comps := rest, cqTail := f.cqTail + 1 } ∧
          (∀ k, tabFind t.msix k = if k = 4 * fn then some ((tabFind s.msix k).getD 0 + 1) else tabFind s.msix k) ∧
          { t with funcs := s.funcs, msix := s.msix } =
            busWrite status (f.cqBase.toNat + 16 * (f.cqTail.toNat % queueLen f.cqLogn)) (entryBytes f c)))) ∧
  (∀ (s : State) (req : Requester) (pa : Nat) (bs : List (Option Byte)), NoRecall s →
    let n := bs.length
    let shaped := fun p : Bool => (∃ k, req = .peer k) → p = true
    -- a write leaves the bytes that its mask leaves out
    (inboundOk s req pa n = true → shaped (peerWriteOk pa n) → (∀ x ∈ maskRuns 0 bs, partlyPoison s (pa + x.1) x.2.length = false) →
      Leads s (.inboundWrite req pa bs) fun t => ∀ a, spGet 0#8 t.mem a =
        if pa ≤ a ∧ a < pa + n then (bs.getD (a - pa) none).getD (spGet 0#8 s.mem a) else spGet 0#8 s.mem a) ∧
    (inboundOk s req pa n = true → shaped (peerReadOk pa n) → Leads s (.inboundRead req pa n) fun t => t = s) ∧
    (inboundOk s req pa n = false → ∀ k, req = .pcie k → Leads s (.inboundWrite req pa bs) fun t => t = { s with aer := s.aer + 1 }) ∧
    (∀ k, req = .peer k → ∀ i, i = .inboundWrite req pa bs ∧ (inboundOk s req pa n = false ∨ peerWriteOk pa n = false) ∨
        i = .inboundRead req pa n ∧ (inboundOk s req pa n = false ∨ peerReadOk pa n = false) → Leads s i fun t =>
      t = { s with peers := t.peers } ∧ (peerOf t k).refused = min 0xFFFFFFFF ((peerOf s k).refused + 1)) ∧
    ∀ (port : Nat) (op : InboundOp) (wide : Bool) (v : DWord), n = (if wide then 8 else 4) →
      inboundOk s (.peer port) pa n = true → pa % n = 0 → readsPoison s pa n = false →
      Leads s (.inboundAtomic port pa op wide v) fun t =>
        let old := natOfBytes (spRange 0#8 s.mem pa n)
        let x := v.toNat % 2 ^ (8 * n)
        natOfBytes (spRange 0#8 t.mem pa n) = (match op with
          | .op o => rmwOp (.op o) (8 * n) old x 0
          | .cas cmp => if old = cmp.toNat % 2 ^ (8 * n) then x else old) % 2 ^ (8 * n) ∧
        ∀ a, ¬ (pa ≤ a ∧ a < pa + n) → spGet 0#8 t.mem a = spGet 0#8 s.mem a) ∧
  (∀ (s : State) (line : Nat) (k : SnoopKind), Leads s (.cxlCacheSnoop line k) fun t =>
    t = { s with hostMem := t.hostMem, cache := { s.cache with hlc := t.cache.hlc, mons := t.cache.mons },
                 sched := { s.sched with shifts := t.sched.shifts } } ∧ tabFind t.cache.hlc line = none ∧
    (k = .recall → t.cache.mons = s.cache.mons ∧ t.sched = s.sched ∧ ∀ i < (hostLine s line).length, (hostLine s line)[i]? = some (spGet 0#8 t.hostMem (64 * line + i)))) ∧
  (∀ (s : State) (port : Nat), port < 12 →
    ((peerOf s port).state < 2 → Leads s (.peerPortTrained port) fun t =>
      t = { s with peers := t.peers } ∧ peerOf t port = { peerOf s port with state := 2 }) ∧
    ((peerOf s port).state ≠ 3 → portAccs s port true = [] → portAccs s port false = [] → Leads s (.peerPortFailure port) fun t =>
      t = { s with peers := t.peers, outbox := raised s 0x09 0 port 0 0 } ∧ peerOf t port = { peerOf s port with state := 3 }) ∧
    ∀ dt : DWord, (cfgGet s (0x500 + 0x20 * port)).getLsbD 29 = true → (peerOf s port).state = 2 → s.time.lock = false →
      Leads s (.timeFlit port dt) fun t => t = { s with time := { s.time with now := t.time.now, offset := t.time.offset, slew := t.time.slew } } ∧
        t.time.offset = (dt.toNat : Int) - s.time.now ∧ s.time.now ≤ t.time.now ∧
        (s.time.now + 1000 < dt.toNat → t.time.now = dt.toNat) ∧ (dt.toNat ≤ s.time.now + 1000 → t.time.now = s.time.now)) ∧
  ∀ s : State,
    (∀ sec : Nat, Leads s (.ptpMessage sec) fun t => t = { s with time := { s.time with ptpAt := some s.time.now, ptpSec := some sec } }) ∧
    (∀ sec : Nat, s.time.ptpSec = some sec → Leads s .ppsEdge fun t =>
      let off : Int := (sec * 1000000000 : Nat) - (s.time.now : Int)
      t = { s with time := t.time } ∧ t.time.offset = off ∧ t.time.ptpSec = some (sec + 1) ∧ t.time.ppsAt = some t.time.now ∧
      (1000 < off → t.time.now = sec * 1000000000) ∧ (off ≤ 1000 → t.time.now = s.time.now) ∧
      (100 < off.natAbs → t.time.lock = false ∧ t.time.goodSecs = 0) ∧
      (off.natAbs ≤ 100 → t.time.goodSecs = min 16 (s.time.goodSecs + 1) ∧ (t.time.lock = true ↔ 16 ≤ s.time.goodSecs + 1))) ∧
    (∀ (ns core : Nat) (c : Core), tabFind s.cores core = some c → c.skew ≤ 8 →
      let t := advanceTime ns s
      t.time.now = s.time.now + ns ∧ readingOf s core ≤ readingOf t core ∧ t.time.now ≤ readingOf t core + 4 ∧
        readingOf t core ≤ t.time.now + 4) ∧
    ∀ at' : Nat, at' + 2000000000 ≤ s.time.now →
      (s.time.ppsAt = some at' → Leads s (.timingInputLoss true false) fun t =>
        t = { s with time := { s.time with ppsAt := none, lock := false, goodSecs := 0 } }) ∧
      (s.time.ptpAt = some at' → Leads s (.timingInputLoss false true) fun t =>
        t = { s with time := { s.time with ptpAt := none, ptpSec := none } })

/-! ### The scheduler -/

/-- R64 to R69, R298 to R300: a function's next record is fetched, and admitted or rejected with a code of Table EXEC-6; a shift's
memory-word dependence and start time are met; device-side queues; a shift completes when its crews have retired and its settle time has
passed. -/
def Obligations.AdmissionEvents : Prop :=
  let admitted := fun (bs : List Byte) (src : ShiftSrc) =>
    ({ record := bs, src, part := (recOf bs).part, st := .admitted, depMet := true, depPa := 0xFFFFFFFFFFFF, depWake := false,
       dtMet := (recOf bs).startDt == 0, next := 0, retired := 0, settle := 0, acks := [] } : Shift)
  (∀ s : State, fetchable s ≠ [] → Leads s .shiftAdmission fun t => ∃ fn ∈ fetchable s,
    let f := funcOf s fn
    let bs := busRead s (slotAddr f) 256
    let r := recOf bs
    let slot : DWord := BitVec.ofNat 64 (slotAddr f)
    let part := if fn = 0 then r.part else (vfPart s (fn - 1)).getD r.part
    let own := if fn = 0 then mgmtMay s r.part else part == r.part
    (hostServes s (slotAddr f) = false → FuncChanged { s with free := t.free } t fn fun f => { f with err := true, errCode := 2 }) ∧
    (∀ code, hostServes s (slotAddr f) = true → rejectCode s part own bs = some code →
      funcOf t fn = { f with sqHead := f.sqHead + 1, comps := f.comps ++
        [{ slot, shiftId := r.shiftId, status := BitVec.ofNat 8 (0x80 + code), dt := s.time.now, written := false }] } ∧
      depDone t r.part r.shiftId = true ∧ t.sched.shifts = s.sched.shifts) ∧
    (hostServes s (slotAddr f) = true → rejectCode s part own bs = none → r.depOp = 0 → funcOf t fn = { f with sqHead := f.sqHead + 1 } ∧
      ∀ k, tabFind t.sched.shifts k = if k = s.nextId then some (admitted bs (.host fn slot)) else tabFind s.sched.shifts k)) ∧
  (∀ (s : State) (id : Nat) (sh : Shift), tabFind s.sched.shifts id = some sh →
    let r := recOf sh.record
    let look := engRead s (schedAgent r.part (svcSrc sh.src)) r.depAddr 4
    (sh.st = .admitted → sh.depWake = true → sh.depMet = false →
      (∀ s1 x bs, look = .ok (s1, x, bs) → Leads s (.dependenceWordCheck id) fun t => ShiftChanged s1 t id fun h =>
        { h with depPa := x.pa, depWake := false, depMet := depHolds r.depOp (BitVec.ofNat 32 (natOfBytes bs)) r.depVal }) ∧
      ∀ e, look = .error e → Leads s (.dependenceWordCheck id) fun t =>
        tabFind t.sched.shifts id = none ∧ depDone t r.part r.shiftId = true ∧
        ∀ fn slot, sh.src = .host fn slot → (funcOf t fn).comps = (funcOf s fn).comps ++
          [{ slot, shiftId := r.shiftId, status := 0x8C, dt := s.time.now, written := false }]) ∧
    (r.startDt + 4 ≤ s.time.now → Leads s (.startdtReached id) fun t => ShiftChanged s t id fun h => { h with dtMet := true }) ∧
    (sh.src ≠ .pixel → r.crews ≤ sh.retired → sh.settle + 4 ≤ s.time.now → (∀ k ∈ sh.acks, tabFind s.accs k = none) →
      Leads s (.shiftCompletion id) fun t =>
      tabFind t.sched.shifts id = none ∧ depDone t r.part r.shiftId = true ∧
      ∀ fn slot, sh.src = .host fn slot → funcOf t fn = { funcOf s fn with comps := (funcOf s fn).comps ++
        [{ slot, shiftId := r.shiftId, status := 1, dt := s.time.now, written := false }] })) ∧
  ∀ (s : State) (part queue : Nat), queue < min 16 ((cfgGet s (partOff part + 0x1C)).toNat % 32) →
    (partOf s part).enabled = true ∨ (partOf s part).failed = true →
    let da := queueDesc s part queue
    let bs := spRange 0#8 s.mem da 32
    let head := field bs 12 4
    let va : DWord := BitVec.ofNat 64 (field bs 0 8 + 256 * (head % 2 ^ field bs 8 1))
    let takes := Leads s (.deviceQueueTake part queue)
    let errs := fun e : Byte => takes fun t => ∀ a, spGet 0#8 t.mem a = if a = da + 9 then e else spGet 0#8 s.mem a
    let s0 := { s with free := s.free + 1, sched := { s.sched with queueErr := tabDel s.sched.queueErr (part * 16 + queue) } }
    isHost da = false → isPeer da = false →
    (hasHome s da = false ∨ addrLost s da = true ∨ readsPoison s da 32 = true → tabFind s.sched.queueErr (part * 16 + queue) = none →
      takes fun t => t = { s with outbox := raised s 0x0B 0 queue 0 da, sched := { s.sched with queueErr := t.sched.queueErr } } ∧
        (tabFind t.sched.queueErr (part * 16 + queue)).isSome) ∧
    (hasHome s da = true → addrLost s da = false → readsPoison s da 32 = false →
      (field bs 8 1 < 4 ∨ 16 < field bs 8 1 → errs 1) ∧
      (4 ≤ field bs 8 1 → field bs 8 1 ≤ 16 → (field bs 0 8 % 256 ≠ 0 → errs 2) ∧
        (field bs 0 8 % 256 = 0 → (∀ e, engRead s0 (schedAgent part false) va 256 = .error e → errs 3) ∧
          ∀ s1 x rec', engRead s0 (schedAgent part false) va 256 = .ok (s1, x, rec') → NoRecall s1 → field bs 9 1 = 0 → field rec' 112 4 = head →
            admits s1 part = true → rejectCode s1 part ((recOf rec').part == part) rec' = none → (recOf rec').depOp = 0 →
            takes fun t => tabFind t.sched.shifts s1.nextId = some (admitted rec' (.dev part queue va)) ∧
              (∀ i < 4, spGet 0#8 t.mem (da + 12 + i) = BitVec.ofNat 8 ((head + 1) / 256 ^ i)) ∧
              ∀ a, ¬ (da + 12 ≤ a ∧ a < da + 16) → spGet 0#8 t.mem a = spGet 0#8 s1.mem a)))

/-- R51 to R55, R60, R70 to R75, R241, R263: dispatch, prologue, start, shrink requests, time slices, pre-emption requests and retirement of
crews. -/
def Obligations.CrewEvents : Prop :=
  (∀ (s : State) (pos pair p upto : Nat),
    let core := coreKey pos (2 * pair)
    let own := (pairCrews s core).filter fun x => x.2.part == p
    let waits := ∃ q < 24, q ≠ p ∧ pairMask s core / 2 ^ q % 2 = 1 ∧ (waitLevel s core q).isSome
    tabFind s.sched.owner (pairKey core) = some (p, upto) → upto + 4 ≤ s.time.now → own ≠ [] →
    (¬ waits → Leads s (.timeSliceExpiry pos pair) fun t => t = { s with sched := { s.sched with owner := t.sched.owner } } ∧
      ∀ k, tabFind t.sched.owner k = if k = pairKey core then some (p, s.time.now + sliceNs s p) else tabFind s.sched.owner k) ∧
    (waits → Leads s (.timeSliceExpiry pos pair) fun t => ∀ k c, crewOf s k = some c → (k, c) ∈ own → crewDone s k c = false →
      c.phase = .running → ∃ c', crewOf t k = some c' ∧ c'.phase = .halting ∧ .preempt ∈ c'.halt)) ∧
  (∀ (s : State) (ck : Nat) (c : Crew), crewOf s ck = some c →
    let level := ((tabFind s.dies c.pos).map (·.level)).getD 0
    let b := fun k => bindingOf (((tabFind s.sched.shifts c.shift).map (·.record)).getD []) k
    let s1 := { s with free := s.free + 1 }
    let r := crewRec s c
    let lanes := if r.sparse then [0] else List.range r.gw
    -- a gang starts, and its crew notes the tile set of its slice (R240)
    let starts := fun (v w : State) (gk : Nat) (g : Gang) => WithGang v { w with crews := v.crews } gk g ∧
      (∀ j, j ≠ ck → crewOf w j = crewOf v j) ∧ ∃ sets, crewOf w ck = (crewOf v ck).map fun c => { c with sets }
    (8 ≤ level → c.cbSize = 0 → c.halt = [] →
      -- the gangs held at ATTACH end, unless a phase has begun at which they attach (R61)
      (c.phase = .running → c.attachDue = none → (tabKeys s.gangs).Nodup → Leads s (.hotDieMigration ck) fun t =>
        CrewChanged s { t with gangs := s.gangs } ck (haltAsked .preempt) ∧
        ∀ gk, gangOf t gk = (gangOf s gk).filter fun g => !(crewOfGang gk == ck && g.attaching && atAttach g)) ∧
      -- a crew in its prologue is pre-empted at once (R75)
      (inPrologue c = true → Leads s (.hotDieMigration ck) fun t => crewOf t ck = some { c with phase := .saved } ∧
        (∀ j, j ≠ ck → crewOf t j = crewOf s j) ∧ t.copies = s.copies.filter fun x => x.2.crew != ck)) ∧
    (level < 8 ∨ c.cbSize ≠ 0 → Leads s (.hotDieMigration ck) fun t => t = s) ∧
    (∀ k < 4, c.phase = .prologue k → crewCopies s ck = false → c.halt = [] →
      ((b k).xform = 0 → Leads s (.prologueBinding ck) fun t => CrewChanged s1 t ck fun c => { c with phase := .prologue (k + 1) }) ∧
      ((b k).xform ≠ 0 → (∀ x, bindingThread s1 ck c (b k) = .error x → Leads s (.prologueBinding ck) fun t =>
          CrewChanged s1 t ck (haltAsked (.prologue k x.addr x.info x.cause))) ∧
        ∀ s2 cp, NoRecall s → bindingThread s1 ck c (b k) = .ok (s2, cp) → Leads s (.prologueBinding ck) fun t =>
          crewOf t ck = some { c with phase := .prologue (k + 1) } ∧ tabFind t.copies s.nextId = some { cp with lane := k } ∧
          ∃ d da rows, cp.op = .box (b k).handle da d [c.x * (b k).c0, c.y * (b k).c1, c.z, 0, 0] ((b k).xform == 3 || (b k).xform == 4)
            rows [(spadKey ck 0 (b k).spOff, none)] false (if (b k).xform = 2 then some (b k).dfmt else none) ∧
            ((b k).xform ≠ 5 → rows = none))) ∧
    (c.phase = .prologue 4 → c.halt = [] → crewCopies s ck = false → c.gangMin ≤ 256 → gangsFit s c = true →
      (c.wasStopped = false → Leads s (.gangStart ck) fun t => ∃ s2,
        CrewChanged s s2 ck (fun c => { c with phase := .running, started := true }) ∧
        InTurn (fun v i _ w =>
          let core := if c.paired then c.core + i % 2 else c.core
          match bestSlice v core with
          | none => w = v
          | some sl => ∃ g, starts v w (ck * 256 + i) g ∧ g.core = core ∧ g.slice = sl ∧ g.gw = r.gw ∧ g.wsize = r.wsize ∧ g.attaching = false ∧
            g.begun = false ∧ tabKeys g.fibres = (if c.pixel = [] then lanes else List.range (4 * c.pixel.length)) ∧
            ∀ x ∈ g.fibres, x.2.pc = r.entry ∧ x.2.held = none ∧ x.2.handler = false) (List.range c.gangMin) 0 s2 t) ∧
      (c.wasStopped = true → Leads s (.gangStart ck) fun t => ∃ c', crewOf t ck = some c' ∧ c'.phase = .stopped ∧ c'.started = true)) ∧
    (∀ i core sl, c.gangMin < c.gangMax → c.phase = .running → c.halt = [] →
      c.crewN + (s.gangs.filter fun x => crewOfGang x.1 == ck && x.2.attaching).length < c.gangMax → memberGangs s ck ≠ [] →
      freeIndex s ck c.gangMax = some i → i < 256 → (crewCores c).find? (gangRoom s r.gangBytes) = some core → bestSlice s core = some sl →
      c.pixel = [] → Leads s (.attachingGangStart ck) fun t => ∃ g, starts s t (ck * 256 + i) g ∧ g.core = core ∧ g.slice = sl ∧
        g.gw = r.gw ∧ g.wsize = r.wsize ∧ g.attaching = true ∧ g.begun = false ∧ tabKeys g.fibres = lanes ∧
        ∀ x ∈ g.fibres, x.2.pc = r.attachPc ∧ x.2.held = none ∧ x.2.handler = false) ∧
    (∀ n, Leads s (.shrinkRequest ck n) fun t => CrewChanged s t ck fun c =>
      { c with shrink := max c.shrink (min n (c.crewN - c.gangMin)) }) ∧
    (crewDone s ck c = true → Leads s (.crewRetirement ck) fun t => crewOf t ck = none ∧
      (∀ gk, crewOfGang gk = ck → gangOf t gk = none) ∧ t.mem = s.mem ∧
      -- no word of another crew waits at this one (R140)
      (foreignArrivals ck c = [] → (∀ x ∈ s.accs, ∀ d clr, x.2.op = .ldc d clr → x.2.space ≠ .rs) →
        (∀ j, j ≠ ck → crewOf t j = crewOf s j) ∧ ∀ gk, crewOfGang gk ≠ ck → gangOf t gk = gangOf s gk) ∧
      ∀ sh, tabFind s.sched.shifts c.shift = some sh → tabFind t.sched.shifts c.shift =
        some { sh with retired := sh.retired + 1, settle := max sh.settle c.settle,
                       acks := (s.accs.filter fun x => x.2.crew == ck && x.2.st == .forwarded).map (·.1) ++ sh.acks })) ∧
  (∀ (s : State) (id : Nat) (sh : Shift), tabFind s.sched.shifts id = some sh →
    let r := recOf sh.record
    (∀ core, sh.src ≠ .pixel → eligible s sh = true → placeCrew s (needOf r) r.part = some core → outranked s r.prio core = false →
      Leads s (.crewDispatch id) fun t => (∃ c, crewOf t s.nextId = some c ∧ c.shift = id ∧ c.core = core ∧ c.pos = core / 16 ∧
        c.part = r.part ∧ c.prio = r.prio ∧ c.x + r.gx * (c.y + r.gy * c.z) = sh.next ∧ c.x < r.gx ∧ c.y < r.gy ∧ c.phase = .prologue 0 ∧
        c.halt = [] ∧ c.gangMin = r.gangMin ∧ c.gangMax = r.gangMax ∧ c.crewN = r.gangMin ∧ c.bars.length = r.bars ∧ c.tvec = r.trapPc ∧
        c.svc = svcSrc sh.src ∧ c.spSize = r.sp ∧ c.cbSize = r.cbUnits ∧ c.shiftId = r.shiftId) ∧
        (∀ j, j ≠ s.nextId → crewOf t j = crewOf s j) ∧
        tabFind t.sched.shifts id = some { sh with next := sh.next + 1, st := .running }) ∧
    ∀ q rest pos queue core, sh.src = .pixel → s.rend.quads = q :: rest → claimOwner s q.region = some (pos, queue) →
      (partOf s sh.part).susp = false → outranked s r.prio core = false →
      leastLoaded s (needOf r) ((tabKeys s.cores).filter fun c => c / 16 == pos && coreServes s (needOf r) sh.part c &&
        pairFree s sh.part c && hasRoom s (needOf r) c) = some core →
      Leads s (.crewDispatch id) fun t =>
        let mine := ((q :: rest).filter fun x => x.region == q.region).take (r.gw / 4)
        (∃ c, crewOf t s.nextId = some c ∧ c.pixel = mine ∧ c.core = core ∧ c.phase = .prologue 0) ∧
        t.rend.quads = (q :: rest).filter fun x => !mine.contains x) ∧
  ∀ (s : State) (gang key k : Nat) (e : Engine) (c : Crew),
    s.engines.find? (fun x => x.2.tileWait.any fun w => w.gang == gang && w.since + 100000 ≤ s.time.now && stillWaits s x.2 w) = some (key, e) →
    tileHolder s e (crewOfGang gang) = some k → crewOf s k = some c → c.phase = .running → c.halt = [] → c.attachDue = none →
    Leads s (.tileWaitTimeout gang) fun t => CrewChanged s { t with gangs := s.gangs } k (haltAsked .preempt)

/-! ### Traps, halts and debug sessions -/

/-- R276 to R290: a trap enters the handler, or with none to enter halts the crew; conditions found late; halts that retire a crew with its
fault report; pre-emption, save and restore. -/
def Obligations.HaltEvents : Prop :=
  (∀ (s : State) (gk l : Nat) (g : Gang) (fb : Fibre) (c : Crew) (x : TrapInfo), gangOf s gk = some g → tabFind g.fibres l = some fb →
    crewOf s (crewOfGang gk) = some c →
    let enters := fun (i : Instr) (f : Fibre → Fibre) => Leads s i fun t => ∃ g1, WithGang s t gk g1 ∧
      FibresChanged g g1 fun j y => if j = l then f y else y
    let halts := fun (i : Instr) (pc : DWord) (y : TrapInfo) => Leads s i fun t => ∃ s1 g1, WithGang s s1 gk g1 ∧
      CrewChanged s1 t (crewOfGang gk) (haltAsked (.trap (gk % 256) l y pc true))
    (fb.held = none →
      (fb.handler = false → c.tvec ≠ 0 →
        enters (.trapEntry gk l x) (inTrap c.tvec fb.pc (if x.next then fb.pc + 8 else fb.pc) x)) ∧
      (fb.handler = true ∨ c.tvec = 0 → c.phase = .running → c.halt = [] → halts (.trapEntry gk l x) fb.pc x) ∧
      (∀ y rest, lateNow fb = y :: rest →
        (fb.handler = false → c.tvec ≠ 0 → c.phase = .running ∨ c.phase = .halting →
          enters (.lateTrapDelivery gk l) fun z => inTrap c.tvec y.pc fb.pc y.info
            { z with late := (fb.late.filter (· != y)).map fun v => { v with waits := true } }) ∧
        (fb.handler = true ∨ c.tvec = 0 → c.phase = .running → c.halt = [] → halts (.lateTrapDelivery gk l) y.pc y.info)) ∧
      -- a condition found in the drain of a halt waits for the restore
      (c.phase ≠ .running → c.phase ≠ .halting → Leads s (.lateTrapDelivery gk l) fun t => t = s)) ∧
    (∀ w, fb.held = some w → fb.handler = false → c.tvec ≠ 0 → Leads s (.trapEntry gk l x) fun t => ∃ g1, WithGang s t gk g1 ∧
      tabFind g1.fibres l = some (inTrap c.tvec fb.pc fb.pc x { fb with held := none }) ∧
      ∀ n, ctrVal (cycOf s g.core) g1 n ≤ ctrVal (cycOf s g.core) g n)) ∧
  (∀ (s : State) (ck : Nat) (c : Crew), crewOf s ck = some c →
    let quiet := crewCopies s ck = false ∧ crewStores s ck = false ∧ crewEngOps s ck = false
    let gone := fun t : State => crewOf t ck = none ∧ (∀ gk, crewOfGang gk = ck → gangOf t gk = none) ∧
      (foreignArrivals ck c = [] → (∀ x ∈ s.accs, ∀ d clr, x.2.op = .ldc d clr → x.2.space ≠ .rs) → ∀ j, j ≠ ck → crewOf t j = crewOf s j) ∧
      ∀ sh, tabFind s.sched.shifts c.shift = some sh → tabFind t.sched.shifts c.shift =
        some { sh with retired := sh.retired + 1, settle := max sh.settle c.settle,
                       acks := (s.accs.filter fun x => x.2.crew == ck && x.2.st == .forwarded).map (·.1) ++ sh.acks }
    let mine := fun bs : List Byte => ({ ring := partOff c.part + 0x20, bytes := bs } : Report)
    -- a fibre of a crew whose gangs stop (R287): a sleeper goes on, what holds at ATTACH or has arrived stays, any other word is abandoned, its
    -- counter raise standing
    let stopped := fun (gk : Nat) (fb fb' : Fibre) => (fb.held = none → fb'.held = none ∧ fb'.pc = fb.pc) ∧
      ∀ w, fb.held = some w →
        let replays := fb'.held = none ∧ fb'.pc = fb.pc ∧ fb'.owed = fb.owed ++ [(fb.pc, w.gid)]
        match w.why with
          | .sleep _ => fb'.held = none ∧ fb'.pc = fb.pc + 8
          | .attach _ => fb'.held = some w ∧ fb'.pc = fb.pc
          | .bararv => if arrivalStands s gk w.seq then fb'.held = some w ∧ fb'.pc = fb.pc else replays
          | _ => replays
    let gangsStopped := fun t : State => ∀ gk g, gangOf s gk = some g → crewOfGang gk = ck → ∃ g1, gangOf t gk = some g1 ∧
      g1.pool = g.pool ∧ g1.sregs = g.sregs ∧
      ∀ l fb, tabFind g.fibres l = some fb → ∃ fb', tabFind g1.fibres l = some fb' ∧ stopped gk fb fb'
    let distinct := (tabKeys s.gangs).Nodup ∧ ∀ gk g, gangOf s gk = some g → crewOfGang gk = ck → (tabKeys g.fibres).Nodup
    -- a retiring halt stops the gangs first, then drains, then reports
    (∀ why, dueHalt c = some why → haltReady s ck = true → c.phase = .halting →
      (ofTrap why = false ∨ debugHeld c = false ∨ c.trapStop = true → distinct → Leads s (.crewHalt ck) fun t => gangsStopped t ∧
        t.outbox = s.outbox ∧ t.mem = s.mem ∧ ∃ c', crewOf t ck = some c' ∧ c'.phase = .ending ∧ c'.halt = c.halt) ∧
      -- a crew that a debug session holds takes a debug stop in place of a trap's halt (R283)
      (ofTrap why = true → debugHeld c = true → c.trapStop = false → Leads s (.crewHalt ck) fun t => ∃ c', crewOf t ck = some c' ∧
        c'.trapStop = true ∧ why ∈ c'.halt ∧ c'.phase = if c.halt.contains .preempt then .halting else .stopped)) ∧
    (c.phase = .ending → quiet →
      (∀ gi l x pc double, dueHalt c = some (.trap gi l x pc double) → Leads s (.crewHalt ck) fun t => gone t ∧
        mine (faultBytes s.time.now c x.cause 2 gi l (if double then 1 else 0) pc x.addr x.info) ∈ t.outbox) ∧
      (∀ k addr info cause, dueHalt c = some (.prologue k addr info cause) → Leads s (.crewHalt ck) fun t => gone t ∧
        mine (faultBytes s.time.now c cause 2 0 0 2 (BitVec.ofNat 64 (0xFFFFFFF0 + k)) addr info) ∈ t.outbox) ∧
      ∀ cause, dueHalt c = some (.lost cause) → Leads s (.crewHalt ck) fun t => gone t ∧
        mine (faultBytes s.time.now c cause 2 0 0 0 0 0 0) ∈ t.outbox) ∧
    (c.phase = .halting → haltReady s ck = true → distinct → (∀ gk g, gangOf s gk = some g → crewOfGang gk = ck →
        ∀ l fb, tabFind g.fibres l = some fb → fb.late = []) →
      (c.halt = [.preempt] → Leads s (.preemptionHalt ck) fun t => gangsStopped t ∧
        ∃ c', crewOf t ck = some c' ∧ c'.phase = .halted ∧ c'.halt = [.preempt]) ∧
      ∀ gi l reason pc, c.halt = [.debug gi l reason pc] → Leads s (.preemptionHalt ck) fun t => gangsStopped t ∧
        ∃ c', crewOf t ck = some c' ∧ c'.phase = .stopped ∧ c'.halt = [] ∧ c'.stepBar = none) ∧
    (c.phase = .halted → quiet → NoRecall s → Leads s (.contextSave ck) fun t =>
      let reg := fun o => (cfgGet s (partOff c.part + o)).toNat
      let pool := reg 0x0C % 65536 * 2 ^ 32 + reg 0x08 / 4096 * 4096
      crewOf t ck = some { c with phase := .saved, halt := c.halt.filter (· != .preempt), savedTiles := crewTiles s ck,
                                  slotImage := slotImages s c } ∧
      t.gangs = s.gangs ∧ t.spad = s.spad ∧ t.gran = s.gran ∧ t.tiles = s.tiles ∧ t.accs = s.accs ∧
      -- the save area lies in the partition's save pool
      (∀ a, ¬ (pool ≤ a ∧ a < pool + reg 0x10 % 65536 * 2 ^ 20) → spGet 0#8 t.mem a = spGet 0#8 s.mem a) ∧
      ∀ k e, tabFind t.engines k = some e → ∀ x ∈ e.mapped, x / 4096 ≠ ck) ∧
    ∀ (pos core : Nat) (plan : List (Nat × Nat × Nat)),
      let key := coreKey pos core
      let p := partOf s c.part
      (∀ x ∈ s.gangs, x.2.fibres ≠ []) → (∀ x ∈ s.accs, crewOfGang x.2.gang = ck → ∀ d clr, x.2.op ≠ .ldc d clr) → core < 16 →
      c.phase = .saved → c.halt.contains .preempt = false → p.susp = false → p.failed = false → restoreServes s c key = true →
      pairFree s c.part key = true → outranked s c.prio key = false → restoreFits ck c s key = true →
      assignSlices s key (bySize (saveGroups s ck c)) [] = some plan →
      (∀ x ∈ plan, (engOf s (8 * (key + x.1) + x.2.2)).mapped.length + (c.savedTiles.filter fun t => t / 16 == x.2.1).length ≤ 16) →
      Leads s (.contextRestore ck pos core) fun t => (∃ c', crewOf t ck = some c' ∧ c'.core = key ∧ c'.pos = pos ∧ c'.shrink = 0 ∧
          (c'.x, c'.y, c'.z, c'.bars.length, c'.crewN) = (c.x, c.y, c.z, c.bars.length, c.crewN) ∧
          c'.phase = if c.started = false then .prologue 0 else if c.wasStopped then .stopped else if c.halt = [] then .running else .halting) ∧
        t.spad = s.spad ∧ t.mem = s.mem ∧
        ∀ gk g, gangOf s gk = some g → crewOfGang gk = ck → ∃ g1, gangOf t gk = some g1 ∧ g1.pool = g.pool ∧
          g1.sregs = g.sregs ∧ g1.kmasks = g.kmasks ∧ g1.core = key + halfOf c g.core ∧
          ∀ l fb, tabFind g.fibres l = some fb → ∃ fb', tabFind g1.fibres l = some fb' ∧
            (fb'.pc, fb'.preds, fb'.ix0, fb'.ix1, fb'.fmode, fb'.fflags, fb'.wbase, fb'.handler, fb'.held, fb'.owed) =
              (fb.pc, fb.preds, fb.ix0, fb.ix1, fb.fmode, fb.fflags, fb.wbase, fb.handler, fb.held, fb.owed))

/-- R316 to R318: debug commands and their results; the record of a stop. -/
def Obligations.DebugEvents : Prop :=
  ∀ (s : State) (fn : Nat),
    let f := funcOf s fn
    let debug := fun (i : Instr) (d : DebugSt → DebugSt) => Leads s i fun t => FuncChanged s t fn fun f => { f with dbg := d f.dbg }
    let ends := fun (i : Instr) (r : BitVec 8) => debug i fun d => { d with result := r, busy := false }
    let busy := fun d : DebugSt => { d with result := 0, busy := true }
    (sessionCrew s fn = none →
      let awaits := (tabVals s.sched.shifts).find? fun sh => sessionAwaits s fn f sh
      (∀ bar, ends (.debugStepCommand fn bar) 1) ∧
      (∀ i ∈ [Instr.debugResumeCommand fn, .debugArmCommand fn, .debugDisarmCommand fn], ends i 1) ∧
      -- a STOP of a crew that its shift has still to dispatch waits for it
      (awaits = none → ends (.debugStopCommand fn) 1) ∧
      ∀ sh, awaits = some sh → (mayDebug s fn sh.part = true → debug (.debugStopCommand fn) busy) ∧
        (mayDebug s fn sh.part = false → ends (.debugStopCommand fn) 2)) ∧
    (∀ ck c, sessionCrew s fn = some (ck, c) → mayDebug s fn c.part = false → (∀ bar, ends (.debugStepCommand fn bar) 2) ∧
      ∀ i ∈ [Instr.debugStopCommand fn, .debugResumeCommand fn, .debugArmCommand fn, .debugDisarmCommand fn], ends i 2) ∧
    (∀ ck c, sessionCrew s fn = some (ck, c) → crewOf s ck = some c → mayDebug s fn c.part = true →
      let does := fun (i : Instr) (g : Crew → Crew) (d : DebugSt → DebugSt) => Leads s i fun t =>
        t = { s with crews := t.crews, funcs := t.funcs } ∧ (∀ j, crewOf t j = if j = ck then (crewOf s ck).map g else crewOf s j) ∧
        ∀ k, funcOf t k = if k = fn then { f with dbg := d f.dbg } else funcOf s k
      -- stopped, or pre-empted as it stood so
      let stands := c.phase = .stopped ∨ c.wasStopped = true ∧ f.dbg.stopped = true
      (¬ stands → c.started = true → c.phase = .running → c.halt = [] →
        does (.debugStopCommand fn) (fun c => haltAsked (.debug 0 0 1 0) c) busy) ∧
      (¬ stands → c.started = false ∨ crewSaved c = true ∨ c.phase = .halted →
        does (.debugStopCommand fn) (fun c => { c with wasStopped := true }) busy) ∧
      (stands → debug (.debugStopCommand fn) fun d => { d with result := 0, busy := false, stopped := true }) ∧
      (¬ stands → ends (.debugResumeCommand fn) 3 ∧ ∀ bar, ends (.debugStepCommand fn bar) 3) ∧
      (stands →
        let next : CrewPhase := if c.phase ≠ .stopped then c.phase else if c.halt = [] then .running else .halting
        does (.debugResumeCommand fn) (fun c => { c with stepBar := none, wasStopped := false, phase := next })
          (fun d => { d with result := 0, busy := false, stopped := false, stepping := false }) ∧
        ∀ bar, (c.bars[bar]? = none → ends (.debugStepCommand fn bar) 4) ∧
          ∀ b, c.bars[bar]? = some b → does (.debugStepCommand fn bar)
            (fun c => { c with stepBar := some (bar, b.phase), wasStopped := false, phase := next })
            fun d => { d with result := 0, busy := false, stopped := false, stepping := true }) ∧
      does (.debugArmCommand fn) (fun c => { c with armed := true }) (fun d => { d with result := 0, busy := false, armed := true }) ∧
      does (.debugDisarmCommand fn) (fun c => { c with armed := false }) fun d => { d with result := 0, busy := false, armed := false }) ∧
    ∀ ck reason cause c, f.dbg.stop = some (ck, reason, cause) → crewOf s ck = some c → Leads s (.debugStopRecord fn) fun t =>
      { t with funcs := s.funcs, msix := s.msix } = busWrite s f.dbg.buf.toNat (stopRecord s fn ck c reason cause) ∧
      (∀ k, funcOf t k = if k = fn then { f with dbg := { f.dbg with stop := none } } else funcOf s k) ∧
      ∀ k, tabFind t.msix k = if k = fn * 4 + 3 then some ((tabFind s.msix k).getD 0 + 1) else tabFind s.msix k

/-! ### Accesses, leases and monitors -/

/-- R99 to R101, R140, R157, R168 to R173, R182 to R185, R278, R369, R400: data that a load has read lands in its registers, once no earlier word
has still to write them and unless a later word has written them; a condition found late waits for its fibre; stores and atomics are applied
at their homes, near, or forwarded. -/
def Obligations.AccessEvents : Prop :=
  ∀ (s : State) (id : Nat) (a : Acc), tabFind s.accs id = some a → a.st = .pending → crewAway s a.crew = false → s.fattr = none →
    let line := a.pa / 128
    let within := fun x => a.pa ≤ x ∧ x < a.pa + a.size
    let unlost := isHost a.pa = false ∧ isPeer a.pa = false ∧ addrLost s a.pa = false
    let plain := unlost ∧ coreStorePending s a.core line id = false
    let settle := settleNow s a.pa a.size
    let kept := fun (t : State) (st : AccSt) => ∃ lanes also, tabFind t.accs id = some { a with st, lanes, also }
    let free := fun s : State => landsLater s a.gang a.lanes a.seq (accDest a) = false
    let late := fun (cause : BitVec 8) (unit : Word) => Got.late { cause, addr := a.va, info := unit, next := false }
    accReady s id a = true → 0 < a.size →
    (∀ d acq l, a.op = .load d acq → a.lanes = [l] →
      (∀ s1 bs g fb, readAcc s id a = .bytes s1 bs → gangOf s1 a.gang = some g → tabFind g.fibres l = some fb →
        (free s1 → (∀ i < loadRegs a.size, spGet 0 fb.wseq (d + i) ≤ a.seq) →
          Leads s (.loadDataReturn id) fun t => tabFind t.accs id = none ∧ t.mem = s1.mem ∧ ∃ g1 fb1, gangOf t a.gang = some g1 ∧
            tabFind g1.fibres l = some fb1 ∧ g1.outs = (ctrDone (cycOf s1 g.core) g a.gid 1).outs ∧ fb1.pc = fb.pc ∧
            (∀ i < loadRegs a.size, regNow g1 fb1 (vRef (d + i)) = BitVec.ofNat 32 (natOfBytes ((bs.drop (4 * i)).take 4))) ∧
            ∀ n, n < d ∨ d + loadRegs a.size ≤ n → regNow g1 fb1 (vRef n) = regNow g fb (vRef n)) ∧
        -- the data waits for an earlier word that has still to write one of the registers
        (¬ free s1 → Leads s (.loadDataReturn id) fun t => t.gangs = s1.gangs ∧ t.mem = s1.mem ∧
          kept t (.done [(l, wordsOf bs (loadRegs a.size))]))) ∧
      (∀ x g fb, readAcc s id a = .late x → gangOf s a.gang = some g → tabFind g.fibres l = some fb →
        Leads s (.loadDataReturn id) fun t => tabFind t.accs id = none ∧ ∃ g1 fb1, gangOf t a.gang = some g1 ∧
          tabFind g1.fibres l = some fb1 ∧ g1.pool = g.pool ∧ { seq := a.seq, pc := a.pc, info := x, waits := false } ∈ fb1.late) ∧
      (a.space = .sp → readAcc s id a = .bytes s (spRange 0#8 s.spad a.pa a.size)) ∧
      (a.space = .rs → readAcc s id a = if rsLook s a.pa a.va.toNat = .gone then late 0x0C 0 else .bytes s (spRange 0#8 s.spad a.pa a.size)) ∧
      (a.space = .cb → readAcc s id a = if cbWithdrawn s a.core (a.pa % 2 ^ 32) a.size then late 0x0E 0
        else if bankPoisoned s a.pa a.size then late 0x0F 1 else .bytes s (spRange 0#8 s.bank a.pa a.size)) ∧
      (a.space = .gl → isHost a.pa = false → isPeer a.pa = false → addrLost s a.pa = true → readAcc s id a = late 0x0F 0) ∧
      (a.space = .gl → unlost →
        let here := if readsPoison s a.pa a.size then late 0x0F 0 else .bytes s (spRange 0#8 s.mem a.pa a.size)
        -- a line that the core holds exclusively is read behind the stores that the core has issued to it
        (holderOf s line = some a.core → fetchWaits s a.core line id = false → readAcc s id a = here) ∧
        ((dirOf s line).holder = none → coreStorePending s a.core line id = false → a.atHome = true →
          ∃ s1, s1.mem = s.mem ∧ readAcc s id a = if readsPoison s a.pa a.size then late 0x0F 0
            else .bytes s1 (spRange 0#8 s.mem a.pa a.size)))) ∧
    (∀ bs, a.op = .store bs → bs.length = a.size → a.space = .gl →
      (plain → partlyPoison s a.pa a.size = false →
        let wrote := fun t : State => ∀ x, spGet 0#8 t.mem x = if within x then bs.getD (x - a.pa) 0 else spGet 0#8 s.mem x
        ((dirOf s line).holder = none → Leads s (.storeAppliedAtHome id) fun t => wrote t ∧ kept t (.applied settle) ∧
          ∀ k m, tabFind s.cache.mons k = some m → m.pa / 128 = line → ∃ m', tabFind t.cache.mons k = some m' ∧ m'.woken = true) ∧
        (holderOf s line = some a.core → Leads s (.storeAppliedAtHome id) fun t => wrote t ∧ kept t .near)) ∧
      (plain → partlyPoison s a.pa a.size = true → Leads s (.storeAppliedAtHome id) fun t => t.mem = s.mem ∧ tabFind t.accs id = none) ∧
      (isHost a.pa = true → isCxl a.pa = false → coreStorePending s a.core line id = false →
        Leads s (.storeAppliedAtHome id) fun t => kept t .forwarded ∧ t.mem = s.mem ∧
          ∀ x, spGet 0#8 t.hostMem x = if hostBus a.pa ≤ x ∧ x < hostBus a.pa + a.size then bs.getD (x - hostBus a.pa) 0
            else spGet 0#8 s.hostMem x)) ∧
    ∀ o args ret acq, a.op = .rmw o args ret acq → a.space = .gl → free s → plain → readsPoison s a.pa a.size = false →
      (dirOf s line).holder = none →
      ∀ i, i = Instr.storeAppliedAtHome id ∨ (i = Instr.loadDataReturn id ∧ ret ≠ none) → Leads s i fun t =>
        kept t (.applied settle) ∧
        spRange 0#8 t.mem a.pa a.size = bytesOfNat a.size (rmwRun o (8 * a.size) (natOfBytes (spRange 0#8 s.mem a.pa a.size)) args).1 ∧
        (∀ x, ¬ within x → spGet 0#8 t.mem x = spGet 0#8 s.mem x) ∧
        ∀ d l v g fb, ret = some d → a.size = 4 → a.lanes.Nodup → (args.map (·.1)).Nodup →
          (l, v) ∈ (rmwRun o (8 * a.size) (natOfBytes (spRange 0#8 s.mem a.pa a.size)) args).2 →
          l ∈ a.lanes → gangOf s a.gang = some g → tabFind g.fibres l = some fb → spGet 0 fb.wseq d ≤ a.seq →
          (∀ j fj, j ≠ l → tabFind g.fibres j = some fj → fj.wbase + d ≠ fb.wbase + d) →
          ∃ g1 fb1, gangOf t a.gang = some g1 ∧ tabFind g1.fibres l = some fb1 ∧ regNow g1 fb1 (vRef d) = BitVec.ofNat 32 v

/-- R140, R145, R146, R168, R169, R185 to R188, R196, R375: leases end and are granted, recalled and returned; monitors wake; granules release
waiting LDC accesses; RS accesses and their targets; acknowledgements of stores to windows. -/
def Obligations.LeaseEvents : Prop :=
  (∀ (s : State) (core line : Nat), Leads s (.readLeaseExpiry core line) fun t => t.mem = s.mem ∧ t.accs = s.accs ∧
    (∀ x, x ∈ t.cache.l1 ↔ x ∈ s.cache.l1 ∧ ¬ (x.core = core ∧ x.line = line ∧ x.exp ≤ readingOf s core + 4)) ∧
    (∀ k, (dirOf t k).holder = (dirOf s k).holder ∧ (dirOf s k).emax ≤ (dirOf t k).emax)) ∧
  (∀ (s : State) (core line : Nat), nearRequest s core line = true → (dirOf s line).holder = none →
    (dirOf s line).emax + 4 ≤ homeReading s (128 * line) → addrLost s (128 * line) = false → Leads s (.exclusiveLeaseGrant core line) fun t =>
      t = { s with cache := { s.cache with dir := t.cache.dir } } ∧ (∀ k, k ≠ line → dirOf t k = dirOf s k) ∧
      ∃ x ∈ s.accs, x.2.core = core ∧ x.2.pa / 128 = line ∧ x.2.st = .pending ∧ (dirOf t line).emax = (dirOf s line).emax ∧
        (dirOf t line).was = spRange 0#8 s.mem (128 * line) 128 ∧
        (dirOf t line).holder = some (core, homeReading s (128 * line) + (partOf s ((crewOf s x.2.crew).getD noCrew).part).leaseMax)) ∧
  (∀ (s : State) (line : Nat) (i : Instr), (tabFind s.cache.dir line).isSome → (tabKeys s.accs).Nodup → (∀ x ∈ s.gangs, x.2.fibres ≠ []) →
    i = .exclusiveLeaseRecall line ∨ (i = .exclusiveLeaseExpiry line ∧ ∃ c e, (dirOf s line).holder = some (c, e) ∧ e ≤ readingOf s c + 4) →
    Leads s i fun t => (dirOf t line).holder = none ∧ t.mem = s.mem ∧
      ∀ id a, tabFind s.accs id = some a → tabFind t.accs id =
        some (if a.st = .near ∧ a.pa / 128 = line then { a with st := .applied (homeReading s (128 * line)) } else a)) ∧
  (∀ (s : State) (id : Nat) (m : Monitor) (g : Gang) (fb : Fibre) (w : Held), tabFind s.cache.mons id = some m →
    gangOf s m.gang = some g → tabFind g.fibres m.lane = some fb → fb.held = some w → w.why = .mwait id →
    let n := if m.wide then 8 else 4
    let look := checkGL { s with cache := { s.cache with mons := tabDel s.cache.mons id } } g.core (crewD s m.gang) .watch n m.va m.lane (xlIdx s m.lane)
    let wakes := fun P : State → Prop => (m.woken = true → Leads s (.monitorWake id) P) ∧
      ∀ at', m.upto = some at' → at' ≤ s.time.now → Leads s (.monitorTimeout id) P
    (∀ a, look = .ok a → isHost a.pa = false → isPeer a.pa = false → addrLost s a.pa = false → readsPoison s a.pa n = false → m.d < 255 →
      wakes fun t => tabFind t.cache.mons id = none ∧ t.mem = s.mem ∧ ∃ g1 fb1, gangOf t m.gang = some g1 ∧ tabFind g1.fibres m.lane = some fb1 ∧
        fb1.held = none ∧ fb1.pc = fb.pc + 8 ∧ (∀ i < n / 4, regNow g1 fb1 (vRef (m.d + i)) =
          BitVec.ofNat 32 (natOfBytes (spRange 0#8 s.mem (a.pa + 4 * i) 4)))) ∧
    (∀ x, look = .error x → fb.handler = false → (crewD s m.gang).tvec ≠ 0 → wakes fun t => tabFind t.cache.mons id = none ∧
      ∃ g1, gangOf t m.gang = some g1 ∧ tabFind g1.fibres m.lane = some (inTrap (crewD s m.gang).tvec fb.pc fb.pc x { fb with held := none })) ∧
    (m.woken = false → Leads s (.monitorWake id) fun t => t = s) ∧ (m.upto = none ∨ (∃ at', m.upto = some at' ∧ s.time.now < at') → Leads s (.monitorTimeout id) fun t => t = s)) ∧
  (∀ (s : State) (gr id l d : Nat) (clr : Bool) (a : Acc) (g : Gang) (fb : Fibre) (w : Held),
    let ck := gr / 1048576
    ldcWaiters s gr = [(id, a)] → a.op = .ldc d clr → a.lanes = [l] → gangOf s a.gang = some g → tabFind g.fibres l = some fb →
    fb.held = some w → granSaved s gr = false →
    (granOf s gr = .full → (∀ i < loadRegs a.size, spGet 0 fb.wseq (d + i) ≤ a.seq) → Leads s (.ldcFill ck gr) fun t =>
      tabFind t.accs id = none ∧ t.spad = s.spad ∧ granOf t gr = (if clr then .empty else .full) ∧
      ∃ g1 fb1, gangOf t a.gang = some g1 ∧ tabFind g1.fibres l = some fb1 ∧ fb1.held = none ∧ fb1.pc = fb.pc + 8 ∧
        ∀ i < loadRegs a.size, regNow g1 fb1 (vRef (d + i)) = BitVec.ofNat 32 (natOfBytes (((spRange 0#8 s.spad a.pa a.size).drop (4 * i)).take 4))) ∧
    (granOf s gr = .failed → fb.handler = false → (crewD s a.gang).tvec ≠ 0 → Leads s (.ldcFill ck gr) fun t => tabFind t.accs id = none ∧
      ∃ g1 x, gangOf t a.gang = some g1 ∧ x.cause = 0x11 ∧ x.next = false ∧
        tabFind g1.fibres l = some (inTrap (crewD s a.gang).tvec fb.pc fb.pc x { fb with held := none })) ∧
    (granOf s gr = .empty → Leads s (.ldcFill ck gr) fun t => t = s)) ∧
  ∀ (s : State) (id : Nat) (a : Acc), tabFind s.accs id = some a →
    (a.space = .rs → a.st = .pending →
      let look := rsLook s a.pa a.va.toNat
      let trap : TrapInfo := { cause := 0x0C, addr := a.va, info := 0, next := false }
      (look = .saved → accReady s id a = false) ∧
      (look ≠ .gone → (∀ d clr, a.op ≠ .ldc d clr) → Leads s (.rsTargetRestored id) fun t => t = s) ∧
      (look ≠ .gone → ∀ d clr, a.op = .ldc d clr →
        exec (.rsTargetRestored id) s = exec (.ldcFill (a.pa / 16 / 1048576) (a.pa / 16)) s) ∧
      (look = .gone → (∀ d clr, a.op ≠ .ldc d clr) → ∀ l va g fb, laneVas a = [(l, va)] → gangOf s a.gang = some g →
        tabFind g.fibres l = some fb → Leads s (.rsTargetRestored id) fun t => tabFind t.accs id = none ∧
          ∃ g1 fb1, gangOf t a.gang = some g1 ∧ tabFind g1.fibres l = some fb1 ∧
            { seq := a.seq, pc := a.pc, info := { trap with addr := va }, waits := false } ∈ fb1.late) ∧
      (look = .gone → ∀ d clr l g fb w, a.op = .ldc d clr → a.lanes = [l] → gangOf s a.gang = some g →
        tabFind g.fibres l = some fb → fb.held = some w → fb.handler = false → (crewD s a.gang).tvec ≠ 0 →
        Leads s (.rsTargetRestored id) fun t => tabFind t.accs id = none ∧ ∃ g1, gangOf t a.gang = some g1 ∧
          tabFind g1.fibres l = some (inTrap (crewD s a.gang).tvec fb.pc fb.pc trap { fb with held := none }))) ∧
    (a.st = .forwarded → Leads s (.hostStoreAcknowledge id) fun t => t.mem = s.mem ∧
      (∀ k, tabFind t.accs k = if k = id then none else tabFind s.accs k) ∧
      (∀ c, crewOf s a.crew = some c → crewOf t a.crew = some { c with settle := max c.settle s.time.now }) ∧
      -- a shift whose crew has retired in the meantime waits for it no more
      ∀ k x, tabFind s.sched.shifts k = some x → ∃ y, tabFind t.sched.shifts k = some y ∧ id ∉ y.acks ∧
        (id ∈ x.acks → s.time.now ≤ y.settle))

/-! ### Releases -/

/-- R48, R55, R56, R59, R103, R175, R177, R222 to R226, R350, R398: what lets held fibres go on. -/
def Obligations.ReleaseEvents : Prop :=
  (∀ (s : State) (gk : Nat) (g : Gang), gangOf s gk = some g →
    let why := fun (l : Nat) (w : Held) => ∃ fb, tabFind g.fibres l = some fb ∧ fb.held = some w
    (∀ l w sc, why l w → w.why = .fence sc →
      (fenceMet s gk l w.seq sc = true → Leads s (.fenceRelease gk l) fun t => GoesOn s t gk g fun j =>
        (∃ v, why j v ∧ v.why = .fence sc ∧ v.seq = w.seq) ∧ fenceMet s gk j w.seq sc = true) ∧
      (fenceMet s gk l w.seq sc = false → Leads s (.fenceRelease gk l) fun t => t = s)) ∧
    (∀ l w upto, why l w → w.why = .sleep upto →
      (upto ≤ readingOf s g.core → Leads s (.sleepExpiry gk l) fun t => GoesOn s t gk g fun j => ∃ v u, why j v ∧ v.why = .sleep u ∧ u ≤ readingOf s g.core) ∧
      (readingOf s g.core < upto → Leads s (.sleepExpiry gk l) fun t => t = s)) ∧
    ((tabKeys g.fibres).Nodup → ∀ k,
      let held := fun l => ∃ w, why l w ∧ w.why = .waitk k
      let all := ∀ l, (tabFind g.fibres l).isSome → inMask g k l = true → held l
      (all → Leads s (.waitkRelease gk k) fun t => GoesOn s t gk g held) ∧
      (¬ all → Leads s (.waitkRelease gk k) fun t => GoesOn s t gk g fun l =>
        held l ∧ inMask g k l = false)) ∧
    ∀ l w k p r fb, tabFind g.fibres l = some fb → fb.held = some w → w.why = .barwait k p → barOf s (crewOfGang gk) k = some r →
      (phaseDone r p = true → Leads s (.barwaitRelease gk l) fun t => GoesOn s t gk g fun j => ∃ v i q r', why j v ∧ v.why = .barwait i q ∧
        v.seq = w.seq ∧ barOf s (crewOfGang gk) i = some r' ∧ phaseDone r' q = true) ∧
      (phaseDone r p = false → r.err ≠ 0 → fb.handler = false → tvecOf s gk ≠ 0 → Leads s (.barwaitRelease gk l) fun t => ∃ g1 x,
        WithGang s t gk g1 ∧ x.cause = 0x10 ∧ x.next = false ∧
        tabFind g1.fibres l = some (inTrap (tvecOf s gk) fb.pc fb.pc x { fb with held := none })) ∧
      (phaseDone r p = false → r.err = 0 → Leads s (.barwaitRelease gk l) fun t => t = s)) ∧
  (∀ (s : State) (ck k : Nat) (c : Crew) (r : Barrier) (a : Arrival), crewOf s ck = some c → c.attachDue = none → c.stepBar = none →
    barOf s ck k = some r → r.waits = [a] → a.credited = none → arrivalReady s a = true → (k = 0 → heldAttaching s ck = []) →
    let n := a.bytes.getD 0
    let bytes := if 2 ^ 39 - 1 < r.bytes + n then r.bytes else r.bytes + n
    let err := if 2 ^ 39 - 1 < r.bytes + n ∧ r.err = 0 then 1 else r.err
    let granted := fun (t : State) (q : Nat) => ∀ g, gangOf s a.gang = some g → ∃ g1, gangOf t a.gang = some g1 ∧
      ∀ l ∈ a.lanes, ∀ fb w, tabFind g.fibres l = some fb → fb.held = some w → w.why = .bararv → w.seq = a.seq →
        ∃ fb1, tabFind g1.fibres l = some fb1 ∧ fb1.held = none ∧ fb1.pc = fb.pc + 8 ∧
          ∀ d, a.dst = some d → regNow g1 fb1 { file := if d.s then .s else .v, n := d.n.toNat } = BitVec.ofNat 32 q
    let credits := Leads s (.bararvCredit ck k)
    let next := fun t : State => ∃ r', barOf t ck k = some r' ∧ r'.phase = r.phase + 1 ∧ r'.arrived = 0 ∧ r'.bytes = 0 ∧ r'.err = 0 ∧ r'.waits = [] ∧
      r'.expect = r.expect ∧ r'.member = r.member
    (r.member = false → r.arrived < r.expect →
      (r.arrived + 1 = r.expect → bytes = 0 → err = 0 → credits fun t => next t ∧ granted t r.phase) ∧
      (r.arrived + 1 < r.expect ∨ bytes ≠ 0 ∨ err ≠ 0 → credits fun t => granted t r.phase ∧
        barOf t ck k = some { r with arrived := r.arrived + 1, bytes, err, waits := [] })) ∧
    (r.member = false → r.expect ≤ r.arrived → credits fun t => ∃ r', barOf t ck k = some r' ∧ r' = { r with waits := r'.waits }) ∧
    ∀ m, r.member = true → r.liveOf a.gang = some m →
      let q := creditPhase r.phase m
      let mems := r.mems.map fun x => if x = m then { x with arrived := x.arrived ++ [q] } else x
      (q = r.phase → r.arrived + 1 ≠ memberExpect r.mems r.phase ∨ bytes ≠ 0 ∨ err ≠ 0 → credits fun t => granted t q ∧
        barOf t ck k = some { r with arrived := r.arrived + 1, bytes, err, mems, waits := [] }) ∧
      (q = r.phase → r.arrived + 1 = memberExpect r.mems r.phase → bytes = 0 → err = 0 → (∀ x ∈ r.mems, r.phase + 1 ∉ x.arrived) →
        credits fun t => granted t q ∧ next t) ∧
      (q = r.phase + 1 → a.bytes = none → credits fun t => granted t q ∧ ∃ r', barOf t ck k = some r' ∧ r' = { r with mems, waits := r'.waits })) ∧
  ∀ (s : State) (ck p : Nat) (gs : List Nat) (c : Crew) (r : Barrier), crewOf s ck = some c → c.attachDue = some (p, gs) →
    c.bars[0]? = some r → r.arrived = 0 → gs.Nodup → (∀ gk ∈ gs, crewOfGang gk = ck) → (∀ x ∈ s.gangs, (tabKeys x.2.fibres).Nodup) →
    Leads s (.gangAttach ck) fun t => (∃ c', crewOf t ck = some c' ∧ c'.attachDue = none ∧ c'.crewN = c.crewN + gs.length) ∧
      ∀ gk ∈ gs, ∀ g d, gangOf s gk = some g →
        (∀ l fb, tabFind g.fibres l = some fb → ∃ w, fb.held = some w ∧ w.why = .attach d) → ∃ g1, gangOf t gk = some g1 ∧ g1.attaching = false ∧
        ∀ l fb, tabFind g.fibres l = some fb → ∃ fb1, tabFind g1.fibres l = some fb1 ∧ fb1.held = none ∧ fb1.pc = fb.pc + 8 ∧
          regNow g1 fb1 { file := if d.s then .s else .v, n := d.n.toNat } = BitVec.ofNat 32 p

/-! ### Engine threads and conversions -/

/-- R189 to R191, R206 to R210, R217 to R219, R225, R274: a part of a copy lands, or its global writes are applied and it lands once they have settled; its
barrier is credited; a part faults; handles are dropped; tiles are converted. -/
def Obligations.ThreadEvents : Prop :=
  (∀ (s : State) (id part : Nat) (cp : Copy) (c : Crew), tabFind s.copies id = some cp → crewOf s cp.crew = some c → c.attachDue = none →
    (∀ x ∈ s.gangs, x.2.fibres ≠ []) →
    let left := fun t : State => ∀ cp', tabFind t.copies id = some cp' → tabFind cp'.parts part = none
    let waits := fun (t : State) (p : PartSt) => ∃ cp', tabFind t.copies id = some cp' ∧ tabFind cp'.parts part = some p
    let credited := fun t : State => ∀ k r, cp.bar = some k → barOf s cp.crew k = some r →
      let n := creditsOf cp.op
      let err := if r.bytes < n ∧ r.err = 0 then 1 else r.err
      r.arrived ≠ r.expectNow ∨ r.bytes - n ≠ 0 ∨ err ≠ 0 → barOf t cp.crew k = some { r with bytes := r.bytes - n, err }
    let filled := fun (t : State) (key : Nat) (bs : List Byte) => granOf t (key / 16) = .full ∧
      ∀ k, spGet 0#8 t.spad k = if key ≤ k ∧ k < key + 16 then bs.getD (k - key) 0 else spGet 0#8 s.spad k
    let lands := Leads s (.copyPartLand id part)
    let moves := fun P : State → Prop => lands P ∧
      ∀ ws root va rgb seen k τ, cp.op = .ray ws root va rgb seen k τ → Leads s (.tracefCompletion id part) P
    (tabFind cp.parts part = some .todo → (cp.rel = true → relMet s cp.gang cp.lane cp.seq = true) →
      (readsSpad cp.op = true → ownSpQueue s cp.gang [cp.lane] cp.seq = false) →
      (∀ bank key, cp.op = .bankSp true bank key → cbWithdrawn s cp.core ((bank + 16 * part) % 2 ^ 32) 16 = false →
        bankPoisoned s (bank + 16 * part) 16 = false → ldcWaiters s ((key + 16 * part) / 16) = [] →
        lands fun t => filled t (key + 16 * part) (spRange 0#8 s.bank (bank + 16 * part) 16) ∧ left t ∧ credited t) ∧
      (∀ bank key, cp.op = .bankSp false bank key → cbWithdrawn s cp.core ((bank + 16 * part) % 2 ^ 32) 16 = false →
        bankPartly s (bank + 16 * part) 16 = false → lands fun t => left t ∧ credited t ∧ ∀ k, spGet 0#8 t.bank k =
          if bank + 16 * part ≤ k ∧ k < bank + 16 * part + 16 then spGet 0#8 s.spad (key + 16 * part + (k - (bank + 16 * part)))
          else spGet 0#8 s.bank k) ∧
      (∀ h da d origin o1 rows dests cr cv key ra s1 bs, cp.op = .box h da d origin o1 rows dests cr cv →
        let n := boxBytes d (fmtBits (cv.getD d.fmt)) / 16
        let at' := key + 16 * (part % n)
        dests[part / n]? = some (key, ra) → (crewOf s (key / 16777216)).isSome → ldcWaiters s (at' / 16) = [] →
        granBytes s cp da d origin o1 rows cv (part % n) = .ok (s1, bs) → bs.length = 16 →
          (lands fun t => filled t at' bs ∧ left t ∧ credited t) ∧
          -- what a part read serves the copy's other receivers
          (1 < dests.length → lands fun t => ∀ cp', tabFind t.copies id = some cp' → tabFind cp'.read (part % n) = some (none, bs))) ∧
      (∀ va src s1 τ, cp.op = .glbOut va src → engWrite s (agentOf s cp) (va + BitVec.ofNat 64 (16 * part)) (spRange 0#8 s.spad (src + 16 * part) 16) =
        .ok (s1, τ) → lands fun t => t.mem = s1.mem ∧ waits t (writtenPart τ)) ∧
      (∀ s1 τ, anyPartNow s cp part = .applied s1 τ → moves fun t => t.mem = s1.mem ∧ waits t (writtenPart τ)) ∧
      ∀ s1 op, anyPartNow s cp part = .moved s1 op → moves fun t => t.mem = s1.mem ∧ tabFind t.copies id = some { cp with op }) ∧
    (∀ τ, tabFind cp.parts part = some (.applied τ) → τ ≤ s.time.now → moves fun t => left t ∧ credited t ∧ t.mem = s.mem) ∧
    (tabFind cp.parts part = some .forwarded → moves fun t => t.mem = s.mem ∧ waits t (.applied s.time.now)) ∧
    ∀ cause va, tabFind cp.parts part = some .todo → anyPartNow s cp part = .bad (cause, va) →
      (∀ gr, partGran cp.op part = some gr → ldcWaiters s gr = []) → Leads s (.copyFault id part) fun t => left t ∧
        (∃ c', crewOf t cp.crew = some c' ∧ c'.cfr = { addr := va, handle := copyHandle cp.op, cause, bar := cp.bar.getD 0 } ∧
          ∀ k, cp.bar = none → c.halt = [] → c.phase = .prologue k → c'.halt =
            [.prologue cp.lane va (BitVec.ofNat 32 (copyHandle cp.op * 65536 + cause.toNat * 256)) cause] ∧ c'.phase = .halting) ∧
        (∀ k r, cp.bar = some k → barOf s cp.crew k = some r →
          barOf t cp.crew k = some { r with err := if r.err = 0 then (if cause = 0x11 then 2 else 3) else r.err }) ∧
        ∀ gr, partGran cp.op part = some gr → (crewOf s (gr / 1048576)).isSome → granOf t gr = .failed) ∧
  (∀ (s : State) (gk l x cut : Nat) (dx : Option Nat) (g : Gang) (fb : Fibre) (w : Held), gangOf s gk = some g → tabFind g.fibres l = some fb →
    fb.held = some w → w.why = .hinv x dx cut →
    let da := handleAddr s g.core (crewD s gk) x
    (cut = 0 → storesApplied s gk l w.seq = true → Leads s (.hinvCompletion gk l) fun t =>
      (∀ e, e ∈ t.cache.handles ↔ e ∈ s.cache.handles ∧ ¬ (e.part = (crewD s gk).part ∧
        if da = none then e.handle = x % 65536 else da = some e.addr)) ∧
      ∃ g1, gangOf t gk = some g1 ∧ FibresChanged g g1 fun j y =>
        if j = l then { y with held := some { w with why := .hinv x da s.nextId } } else y) ∧
    (cut ≠ 0 → hinvDone s gk g w.seq = true → Leads s (.hinvCompletion gk l) fun t => GoesOn s t gk g fun j => ∃ y v h da n,
      tabFind g.fibres j = some y ∧ y.held = some v ∧ v.why = .hinv h da n ∧ v.seq = w.seq)) ∧
  ∀ (s : State) (pos k : Nat) (v : Conv),
    let mine := s.convs.filter fun x => x.2.pos == pos && !(partOf s x.2.part).susp
    (match mine.find? fun x => x.2.locked with
      | some x => some x
      | none => convTurnOf (((tabFind s.dies pos).map (·.turn)).getD 0) mine) = some (k, v) → isHost v.addr = false → isPeer v.addr = false →
    let moves := Leads s (.relayoutTileConversion pos)
    (v.locked = false →
      (∀ s1 τ, convertTile s v = .ok (s1, τ) → moves fun t => t = { s1 with convs := t.convs, survey := t.survey } ∧
        tabFind t.convs k = some { v with locked := true, settle := τ }) ∧
      ∀ cause va, convertTile s v = .error (cause, va) → moves fun t => tabFind t.convs k = none ∧
        spGet 0#8 t.mem (v.addr + 45) = 2 ∧ spGet 0#8 t.mem (v.addr + 47) = cause) ∧
    (v.locked = true → (∃ τ, v.settle = some τ ∧ τ ≤ s.time.now) → ∀ s1, setTileBit s v = .ok s1 →
      (v.tile + 1 = convTiles v.desc → moves fun t => tabFind t.convs k = none ∧ spGet 0#8 t.mem (v.addr + 45) = 0 ∧
        spGet 0#8 t.mem (v.addr + 42) = BitVec.ofNat 8 v.desc.newTag ∧ spRange 0#8 t.mem v.addr 8 = bytesOfNat 8 v.desc.newBase) ∧
      (v.tile + 1 ≠ convTiles v.desc → moves fun t => t.mem = s1.mem ∧
        tabFind t.convs k = some { v with tile := v.tile + 1, locked := false })) ∧
    (v.locked = true → (∃ τ, v.settle = some τ ∧ s.time.now < τ) → moves fun t => t = s) ∧
    -- the writes of a tile to a window settle as the last of them is acknowledged
    (v.locked = true → v.settle = none → moves fun t => t = { s with convs := t.convs } ∧
      tabFind t.convs k = some { v with settle := some s.time.now })

/-! ### The render pass -/

/-- R249 to R266, R424, R425: the pass opens and closes; claims; packets arrive, and are released in order; micro-triangle queues; blends; flushes. -/
def Obligations.RenderEvents : Prop :=
  (∀ (s : State) (word : Nat) (v : Word), word < 2048 →
    (s.rend.passOpen = false → Leads s (.claimEntryWrite word v) fun t => CfgChanged s t (0x2000 + 4 * word) v) ∧
    (s.rend.passOpen = true → (∀ r, r / 2 = word → ∀ x, tabFind s.rend.held r = some x → x.2 = false) →
      Leads s (.claimEntryWrite word v) fun t => t = s) ∧
    ∀ c, s.rend.passOpen = true → tabFind s.rend.held (2 * word) = some (c, true) → tabFind s.rend.held (2 * word + 1) = none →
      Leads s (.claimEntryWrite word v) fun t => claimOf t (2 * word) = v.toNat % 65536 ∧ claimOf t (2 * word + 1) = claimOf s (2 * word + 1) ∧
        tabFind t.rend.held (2 * word) = none) ∧
  (∀ (s : State) (v : Word),
    let errs := { s with rend := { s.rend with qerr := s.rend.qerr && !v.getLsbD 19, verr := s.rend.verr && !v.getLsbD 18 } }
    let s0 := cfgSet errs 0x1000 (v &&& 0x3F00001F)
    let geo := (tabKeys s0.dies).filter (dieServes s0 .geometry (passPart s0))
    let sized := 1 ≤ passWidth s0 ∧ passWidth s0 ≤ 16384 ∧ 1 ≤ passHeight s0 ∧ passHeight s0 ≤ 16384
    (s.rend.passOpen = true → Leads s (.passOpen v) (fun t => t = errs) ∧
      Leads s (.passClose v) fun t => t = { errs with rend := { errs.rend with closing := true } }) ∧
    (s.rend.passOpen = false → Leads s (.passClose v) (fun t => t = s0) ∧
      (∀ e, engRead s0 (passAgent s0 0) (pixRecord s0) 256 = .error e → Leads s (.passOpen v) fun t => t = s0) ∧
      ∀ s1 x bs, engRead s0 (passAgent s0 0) (pixRecord s0) 256 = .ok (s1, x, bs) →
        -- the first check that fails stands in the record's STATUS
        (∀ code s2 τ, (pixelRejections s1 bs).find? (·.2) = some (code, true) →
          engWrite s1 (passAgent s1 0) (pixRecord s1 + 55) [BitVec.ofNat 8 (0x80 + code)] = .ok (s2, τ) →
          Leads s (.passOpen v) fun t => t = s2) ∧
        ((∀ y ∈ pixelRejections s1 bs, y.2 = false) → geo = [] ∨ ¬ sized → Leads s (.passOpen v) fun t => t = s1) ∧
        ((∀ y ∈ pixelRejections s1 bs, y.2 = false) → geo ≠ [] → sized → Leads s (.passOpen v) fun t => t.rend.passOpen = true ∧ t.rend.closing = false ∧
          t.rend.done = false ∧ t.rend.geo = geo ∧ t.rend.seq0 = passSeq0 s1 ∧ t.rend.pkts = [] ∧ t.rend.wins = [] ∧ t.rend.held = [] ∧
          t.rend.marks = [] ∧ t.rend.frags = [] ∧ t.rend.quads = [] ∧ ∃ sh, tabFind t.sched.shifts s1.nextId = some sh ∧ sh.record = bs ∧
          sh.src = .pixel ∧ sh.part = passPart s1))) ∧
  (∀ (s : State) (k : Nat) (p : Packet), tabFind s.rend.pkts k = some p → p.nattr = 0 ∨ p.attrs.isSome → p.todo.Nodup → ∀ pos,
    let free := fun r => r ∈ p.todo ∧ heldAt s r p.off = false
    let here := fun r => free r ∧ (∃ q, claimOwner s r = some (pos, q)) ∧ (winOf s r).length < 4096
    let lost := fun r => free r ∧ claimOwner s r = none
    Leads s (.packetDelivery k pos) fun t => t.mem = s.mem ∧
      (∀ r, (here r → winOf t r = winOf s r ++ [k]) ∧ (¬ here r → winOf t r = winOf s r)) ∧
      ∀ p', tabFind t.rend.pkts k = some p' → ∀ r, r ∈ p'.todo ↔ r ∈ p.todo ∧ ¬ here r ∧ ¬ lost r) ∧
  (∀ (s : State) (region k : Nat) (p : Packet), firstPacket s region = some (k, p) →
    let runs := Leads s (.packetRelease region)
    (horizonOff s ≤ p.off ∨ earlierOnWay s region p.off = true → runs fun t => t = s) ∧
    (p.off < horizonOff s → earlierOnWay s region p.off = false →
      (claimOwner s region = none ∨ p.tris = [] → runs fun t => winOf t region = (winOf s region).filter (· != k) ∧ t.mem = s.mem ∧
        t.rend.quads = s.rend.quads ∧ t.rend.micro = s.rend.micro) ∧
      ∀ pos queue tri tr, claimOwner s region = some (pos, queue) → p.tris = [tri] → triSetup p 0 = some tr →
        (passVis s = true → tr.d < 512 * ((partOf s (passPart s)).rasThr : Int) → runs fun t => t.mem = s.mem ∧
          winOf t region = (winOf s region).filter (· != k) ∧ t.rend.micro = s.rend.micro ++
            [{ pos, queue, region, bytes := microEntry s tr region p.off 0, slot := none }]) ∧
        (passVis s = true → 512 * ((partOf s (passPart s)).rasThr : Int) ≤ tr.d → coveredIn s tr region = [] → runs fun t => t.mem = s.mem ∧
          t.rend.micro = s.rend.micro) ∧
        (passVis s = false → passZtest s = false → runs fun t => t.mem = s.mem ∧ (∀ q, q ∈ s.rend.quads → q ∈ t.rend.quads) ∧
          ∀ x y, (x, y) ∈ coveredIn s tr region → ∃ q ∈ t.rend.quads, q.pkt = k ∧ q.off = p.off ∧ q.m = 0 ∧ q.region = region ∧
            q.x = x / 2 * 2 ∧ q.y = y / 2 * 2 ∧ q.cover.getLsbD (x % 2 + 2 * (y % 2)) = true))) ∧
  (∀ (s : State) (pos queue : Nat) (e : MicroTri), takenEntries s = s → nextEntry s pos queue = some e → (s.rend.micro.filter (· == e)).length = 1 →
    let runs := Leads s (.microTriangleEnqueue pos queue)
    let n := (tabFind s.rend.microN (pos * 256 + queue)).getD 0
    (microLogn s pos = none → runs fun t => t.rend.micro = s.rend.micro.filter (· != e) ∧ t.spad = s.spad ∧
      t.rend.qerr = (s.rend.qerr || e.region != endRegion)) ∧
    ∀ lg key, microLogn s pos = some lg → rsUnit s ((cfgGet s (cfgAddr pos 0x1100)).toNat + queue * 64 * 2 ^ lg + 64 * (n % 2 ^ lg)) 64 = some key →
      (slotEmpty s key = false → runs fun t => t = s) ∧
      (slotEmpty s key = true → key % 16 = 0 → e.bytes.length = 64 → (∀ i < 4, ldcWaiters s (key / 16 + i) = []) → runs fun t =>
        spRange 0#8 t.spad key 64 = e.bytes ∧ (∀ i < 4, granOf t (key / 16 + i) = .full) ∧
        (tabFind t.rend.microN (pos * 256 + queue)) = some (n + 1))) ∧
  (∀ (s : State) (x y : Nat) (f : Fragment), firstFragment s x y = some f →
    let runs := Leads s (.fragmentBlend x y)
    let rest := s.rend.frags.filter (· != f)
    let s0 := { s with rend := { s.rend with frags := rest } }
    (fibreEnded s f = false ∨ pixelBusy s f = true → runs fun t => t = s) ∧
    (fibreEnded s f = true → pixelBusy s f = false →
      (claimOwner s f.region = none ∨ targetOf s f.tgt = none → runs fun t => t = s0) ∧
      ∀ pos q g s1 xl, claimOwner s f.region = some (pos, q) → targetOf s f.tgt = some g →
        engXl s0 (passAgent s0 pos) .write (pixelAddr g f.x f.y) = .ok (s1, xl) → isPeer xl.pa = false → readsPoison s1 xl.pa (pixelBytes g.fmt) = false →
        runs fun t => t.rend.frags = rest ∧ t.mem = s1.mem ∧ ∃ free, ∀ i < (blendBytes g f.val (rcRead s1 f.region xl.pa (pixelBytes g.fmt)) free).length,
          tabFind t.rend.rcache (rcKey f.region (xl.pa + i)) = (blendBytes g f.val (rcRead s1 f.region xl.pa (pixelBytes g.fmt)) free)[i]?)) ∧
  (∀ (s : State) (line : Nat),
    let pa := fun k => k % 281474976710656
    let out := s.rend.rcache.filter fun x => pa x.1 / 128 == line
    (∀ x ∈ out, isHost (pa x.1) = false ∧ pa x.1 / 32 ∉ s.poison) → (out.map fun x => pa x.1).Nodup →
    Leads s (.regionCacheEviction line) fun t => (∀ x, x ∈ t.rend.rcache ↔ x ∈ s.rend.rcache ∧ pa x.1 / 128 ≠ line) ∧
      (∀ x ∈ out, spGet 0#8 t.mem (pa x.1) = x.2) ∧ ∀ a, (∀ x ∈ out, pa x.1 ≠ a) → spGet 0#8 t.mem a = spGet 0#8 s.mem a) ∧
  (∀ (s : State) (v : Word),
    let region := v.toNat % 4096
    let c := max (horizonOff s) ((tabFind s.rend.sent region).getD 0)
    (s.rend.passOpen = false ∨ s.rend.flushing = true → Leads s (.regionFlushGo v) fun t => t = s) ∧
    (s.rend.passOpen = true → s.rend.flushing = false → Leads s (.regionFlushGo v) fun t => t = { s with cfg := t.cfg, rend := t.rend } ∧
      t.rend.flushing = true ∧ t.rend.flushRegion = region ∧ t.rend.cut = BitVec.ofNat 32 (passSeq0 s + c) ∧
      tabFind t.rend.held region = some (c, false))) ∧
  (∀ (s : State) (c : Nat) (b : Bool), takenEntries s = s → s.rend.flushing = true → tabFind s.rend.held s.rend.flushRegion = some (c, b) →
    c ≤ horizonOff s → regionsQuiet s (fun r => r == s.rend.flushRegion) c = true → regionsDirty s (fun r => r == s.rend.flushRegion) = false →
    regionsSettled s (fun r => r == s.rend.flushRegion) = true → Leads s .regionFlushCompletion fun t => t = { s with rend := t.rend } ∧
      t.rend.flushing = false ∧ t.rend.fdone = true ∧ tabFind t.rend.held s.rend.flushRegion = some (c, true)) ∧
  ∀ s : State, takenEntries s = s → s.rend.closing = true → s.rend.flushing = false → passLen s ≤ horizonOff s → regionsQuiet s (fun r => r != endRegion) 4294967296 = true →
    regionsDirty s (fun r => r != endRegion) = false → regionsSettled s (fun r => r != endRegion) = true →
    (s.rend.ended = false → Leads s .passCloseCompletion fun t => t = { s with rend := { s.rend with ended := true, micro := s.rend.micro ++ endEntries s } }) ∧
    (s.rend.ended = true → (∀ e ∈ s.rend.micro, e.slot.isSome) → Leads s .passCloseCompletion fun t => t.rend.passOpen = false ∧
      t.rend.closing = false ∧ t.rend.done = true ∧ ∀ x ∈ t.sched.shifts, x.2.src ≠ .pixel)

/-! ### Bundles and surveys -/

/-- R45, R46, R85, R312 to R314: bundles are formed again by program counter; a free pipe takes the oldest ready bundle of its slice; a survey tick
writes the streams that are due, and brings policies into force. -/
def Obligations.IssueEvents : Prop :=
  (∀ (s : State) (pos core slice gk : Nat) (g : Gang), tabKeys (sliceGangs s (coreKey pos core) slice) = [gk] → gangOf s gk = some g →
    crewIssues s (crewOfGang gk) = true → detaching g = false → g.fibres ≠ [] → (tabKeys g.fibres).Nodup →
    let cyc := cycOf s g.core
    -- the counter raises of words that the fibre is to replay do not stand in its way
    let ready := fun (l : Nat) (fb : Fibre) => fibreReady cyc fb = true ∧
      waitmMet cyc (replayedIn s fb.pc [l] g) (nextWaitm s gk g fb.pc) = true
    Leads s (.bundleRegroup pos core slice) fun t => t = { s with gangs := t.gangs, nextId := t.nextId } ∧
      (∀ k, k ≠ gk → gangOf t k = gangOf s k) ∧ ∃ g1, gangOf t gk = some g1 ∧ g1 = { g with fibres := g1.fibres } ∧
      (∀ l fb, tabFind g.fibres l = some fb → ∃ fb1, tabFind g1.fibres l = some fb1 ∧ fb1 = { fb with chk := g.chk, bun := fb1.bun } ∧
        (¬ ready l fb → fb1.bun = fb.bun)) ∧
      ∀ l j a b a1 b1, tabFind g.fibres l = some a → tabFind g.fibres j = some b → ready l a → ready j b → tabFind g1.fibres l = some a1 →
        tabFind g1.fibres j = some b1 → (a1.bun = b1.bun ↔ a.pc = b.pc)) ∧
  (∀ (s : State) (pos core slice pipe : Nat) (c : Core),
    let key := coreKey pos core
    let cs := (sliceGangs s key slice).flatMap fun x => if crewIssues s (crewOfGang x.1) && !detaching x.2 then gangCandidates s x.1 x.2 else []
    tabFind s.cores key = some c → freePipe c slice = some pipe → cs ≠ [] → Leads s (.bundleIssue pos core slice) fun t =>
      ∃ b ∈ cs, (∀ x ∈ cs, olderThan x b = false) ∧ t = { s with cores := t.cores, issue := some b.bundle } ∧
        (∀ k, k ≠ key → tabFind t.cores k = tabFind s.cores k) ∧ ∃ c', tabFind t.cores key = some c' ∧ c' = { c with pipes := c'.pipes } ∧
        tabFind c'.pipes (slice * 4 + pipe) = some (c.cyc + if b.bundle.lanes.length ≤ 32 then 1 else 2)) ∧
  ∀ s : State,
    -- K: from 8 to 20, the nearest bound for a register that holds another value (notes/assumptions/97.md)
    let period := fun w : Word => max 8 (min 20 (w.toNat % 32))
    let k := period (cfgGet s 0x390)
    let ctl := fun p => cfgGet s (partOff p + 0xC0)
    let due := fun p => (ctl p).getLsbD 31 = true ∧ partEn s p = true ∧ s.time.now % 2 ^ period (ctl p) = 0
    -- a tick's streams are written once
    let first := s.survey.opened ≤ s.time.now / 256
    Leads s .surveyTick fun t => (¬ first → t = s) ∧ t.mem = s.mem ∧ t.crews = s.crews ∧ t.gangs = s.gangs ∧ t.cfg = s.cfg ∧ s.outbox <+: t.outbox ∧
      ((∀ p < 24, ¬ due p) → s.time.now % 2 ^ k ≠ 0 → t.outbox = s.outbox ∧ t.parts = s.parts) ∧
      (∀ p < 24, first → s.time.now % 2 ^ k = 0 → ∀ bs, (partOf s p).nextPolicy = some bs → (partOf t p).policy = some bs ∧ (partOf t p).nextPolicy = none) ∧
      ∀ p < 24, first → due p → ∀ ck c, crewOf s ck = some c → c.part = p → ∀ grp < 8, ∃ flags counts,
        let bytes := surveyBytes s.time.now grp 4 c.pos (c.core % 16) p flags (some (c.shiftId, c.x, c.y, c.z)) counts
        counts.length = 12 ∧ { ring := partOff p + 0x40, bytes } ∈ t.outbox

/-! ### Exact results and their one rounding -/

/-- R115, R116, R119, R120, R125, R126: a non-zero exact value is rounded once. Up to the largest finite value, the code that results is the
nearest to it on the side that the rounding code sets, or the nearest of all with ties to even; NX says that it differs, UF that it is tiny
as well; with FTZ a tiny result is a zero of its sign. From the next power of two on, it is as Table NUM-2 sets, with OF and NX. -/
def Claims.RoundingRule : Prop :=
  ∀ (f : Fmt) (rm : RM) (neg : Bool) (m : Nat) (e k : Int),
    (f ∈ [fmtFP32, fmtFP16, fmtBF16] ∧ rm ≠ .dyn ∨ f ∈ [fmtE4M3, fmtE5M2] ∧ rm = .rne) → m ≠ 0 → k ≤ e → k ≤ f.emin - f.fb →
    let x := scaled k (.fin neg m e)
    let val := fun c => scaled k (f.value c)
    let r := roundFin f rm false neg m e
    let y := val r.1
    let tiny := (y.natAbs : Int) < 2 ^ (f.emin - k).toNat
    (x.natAbs ≤ (val (f.big false)).natAbs →
      finiteCode f r.1 ∧ 0 ≤ x * y ∧ (f.eight = false → f.signOf r.1 = neg) ∧
      (rm = .rz → y.natAbs ≤ x.natAbs ∧ ∀ c, finiteCode f c → (val c).natAbs ≤ x.natAbs → (val c).natAbs ≤ y.natAbs) ∧
      (rm = .ru → x ≤ y ∧ ∀ c, finiteCode f c → x ≤ val c → y ≤ val c) ∧
      (rm = .rd → y ≤ x ∧ ∀ c, finiteCode f c → val c ≤ x → val c ≤ y) ∧
      (rm = .rne → ∀ c, finiteCode f c → (x - y).natAbs ≤ (x - val c).natAbs ∧
        ((x - y).natAbs = (x - val c).natAbs → val c ≠ y → r.1 % 2 = 0)) ∧
      r.2 = (if x = y then 0 else if tiny then flagUF ||| flagNX else flagNX) ∧
      (f.eight = false → roundFin f rm true neg m e = if tiny then (f.zero neg, flagUF ||| flagNX) else r)) ∧
    (2 ^ (f.emax + 1 - k).toNat ≤ (x.natAbs : Int) →
      r = (if f.eight then f.big neg
        else if rm = .rne ∨ rm = .ru ∧ neg = false ∨ rm = .rd ∧ neg = true then f.inf neg else f.big neg, flagOF ||| flagNX))

/-- R115, R125, Tables NUM-1 and NUM-3: every code that is not a NaN is the rounding of its own value, exactly; the special codes of
the five formats. -/
def Claims.FormatValues : Prop :=
  (∀ f ∈ [fmtFP32, fmtFP16, fmtBF16, fmtE4M3, fmtE5M2], ∀ (rm : RM) (ftz : Bool) (c : Nat), c < 2 ^ f.width →
    f.value c ≠ .nan → (ftz = true → f.isSub c = false) → f.ofValue rm ftz (f.value c) = (c, 0)) ∧
  (∀ f ∈ [fmtFP32, fmtFP16, fmtBF16, fmtE4M3, fmtE5M2], ∀ rm ftz, f.ofValue rm ftz .nan = (f.nan, 0) ∧ f.value f.nan = .nan) ∧
  (∀ c < 256, (fmtE4M3.value c = .nan ↔ c = 0x80) ∧ (fmtE5M2.value c = .nan ↔ c = 0x80)) ∧
  (∀ c < 256, ∀ n, fmtE4M3.value c ≠ .inf n ∧ fmtE5M2.value c ≠ .inf n) ∧
  fmtFP32.nan = 0x7FC00000 ∧ fmtFP16.nan = 0x7E00 ∧ fmtBF16.nan = 0x7FC0 ∧
  fmtFP32.value 0x3F800000 = .fin false (2 ^ 23) (-23) ∧ fmtFP32.value 0x7F7FFFFF = .fin false (2 ^ 24 - 1) 104 ∧
  fmtFP32.value 0x00000001 = .fin false 1 (-149) ∧ fmtFP32.value 0xFF800000 = .inf true ∧
  fmtFP16.value 0x7BFF = .fin false 2047 5 ∧ fmtFP16.value 1 = .fin false 1 (-24) ∧
  fmtBF16.value 0x7F7F = .fin false 255 120 ∧ fmtBF16.value 1 = .fin false 1 (-133) ∧
  fmtE4M3.value 0x7F = .fin false 15 4 ∧ fmtE4M3.value 0x08 = .fin false 8 (-10) ∧ fmtE4M3.value 1 = .fin false 1 (-10) ∧
  fmtE5M2.value 0x7F = .fin false 7 13 ∧ fmtE5M2.value 0x04 = .fin false 4 (-17) ∧ fmtE5M2.value 1 = .fin false 1 (-17)

/-- The one rounding, and the values of codes. -/
def Obligations.RoundingRule : Prop := Claims.RoundingRule ∧ Claims.FormatValues

/-- R116 to R118, R120, R351: sums, products and fused sums are exact; a NaN gives a NaN and raises nothing; ∞ − ∞ and 0 × ∞ give a NaN with
NV; zeros that add to a zero of one sign keep it, and a sum that cancels is −0 under RD and +0 otherwise. -/
def Claims.ExactRule : Prop :=
  (∀ (rm : RM) (x y : FV) (k : Int), scaledOk k x → scaledOk k y →
    let r := (addV rm x y).1
    (addV rm x y).2 = 0 ∧ scaled k x + scaled k y = (if scaled k x + scaled k y = 0 then 0 else scaled k r) ∧
    (scaled k x + scaled k y = 0 → ∃ n e, r = .fin n 0 e ∧
      n = if scaled k x = 0 ∧ x.neg = y.neg then x.neg else rm == .rd) ∧
    (scaled k x + scaled k y ≠ 0 → scaledOk k r ∧ ∃ m e, r = .fin (decide (scaled k x + scaled k y < 0)) m e ∧ m ≠ 0)) ∧
  (∀ (x y : FV) (j k : Int), scaledOk j x → scaledOk k y →
    (mulV x y).2 = 0 ∧ scaledOk (j + k) (mulV x y).1 ∧ scaled (j + k) (mulV x y).1 = scaled j x * scaled k y ∧
    (mulV x y).1.neg = (x.neg != y.neg)) ∧
  (∀ (rm : RM) (x y z : FV), x = .nan ∨ y = .nan →
    addV rm x y = (.nan, 0) ∧ mulV x y = (.nan, 0) ∧ fmaV rm x z y = (.nan, 0)) ∧
  (∀ (rm : RM) (n : Bool) (x : FV) (m : Nat) (e : Int), m ≠ 0 →
    addV rm (.inf n) (.inf !n) = (.nan, flagNV) ∧ addV rm (.inf n) (.inf n) = (.inf n, 0) ∧
    (∀ k, scaledOk k x → addV rm (.inf n) x = (.inf n, 0) ∧ addV rm x (.inf n) = (.inf n, 0)) ∧
    ∀ p, mulV (.inf n) (.fin p 0 e) = (.nan, flagNV) ∧ mulV (.fin p 0 e) (.inf n) = (.nan, flagNV) ∧
      mulV (.inf n) (.fin p m e) = (.inf (n != p), 0) ∧ mulV (.fin p m e) (.inf n) = (.inf (n != p), 0) ∧
      mulV (.inf n) (.inf p) = (.inf (n != p), 0)) ∧
  ∀ (rm : RM) (x y z : FV), x ≠ .nan → y ≠ .nan → z ≠ .nan →
    fmaV rm x y z = if (mulV x y).1 = .nan then (.nan, flagNV) else addV rm (mulV x y).1 z

/-- R122: minimumNumber and maximumNumber, and the comparisons of FSET. -/
def Claims.CompareRule : Prop :=
  (∀ f ∈ [fmtFP32, fmtFP16, fmtBF16], ∀ (a b : Nat) (k : Int), k ≤ f.emin - f.fb → a < 2 ^ f.width → b < 2 ^ f.width →
    let least := minmaxF f false a b
    let most := minmaxF f true a b
    (f.value a = .nan → f.value b = .nan → least = f.nan ∧ most = f.nan) ∧
    (f.value a = .nan → f.value b ≠ .nan → least = b ∧ most = b) ∧
    (f.value a ≠ .nan → f.value b = .nan → least = a ∧ most = a) ∧
    (∀ n m e n' m' e', f.value a = .fin n m e → f.value b = .fin n' m' e' →
      (scaled k (f.value a) < scaled k (f.value b) → least = a ∧ most = b) ∧
      (scaled k (f.value b) < scaled k (f.value a) → least = b ∧ most = a) ∧
      (m = 0 → m' = 0 → n = true → n' = false → least = a ∧ most = b ∧ minmaxF f false b a = a ∧ minmaxF f true b a = b)) ∧
    (∀ n, f.value a = .inf n → f.value b ≠ .nan → (least = if n then a else b) ∧ (most = if n then b else a) ∧
      (minmaxF f false b a = if n then a else b) ∧ minmaxF f true b a = if n then b else a)) ∧
  ∀ (a b : Nat) (k : Int), k ≤ fmtFP32.emin - fmtFP32.fb → a < 2 ^ 32 → b < 2 ^ 32 →
    let x := fmtFP32.value a
    let y := fmtFP32.value b
    (x = .nan ∨ y = .nan → ∀ c, compareF c a b = (c == .ne || c == .uno)) ∧
    (x ≠ .nan → y ≠ .nan → compareF .ord a b = true ∧ compareF .uno a b = false) ∧
    ∀ n m e n' m' e', x = .fin n m e → y = .fin n' m' e' →
      (compareF .eq a b = true ↔ scaled k x = scaled k y) ∧ (compareF .ne a b = true ↔ scaled k x ≠ scaled k y) ∧
      (compareF .lt a b = true ↔ scaled k x < scaled k y) ∧ (compareF .le a b = true ↔ scaled k x ≤ scaled k y) ∧
      (compareF .gt a b = true ↔ scaled k y < scaled k x) ∧ (compareF .ge a b = true ↔ scaled k y ≤ scaled k x)

/-- Exact operations, minimum and maximum, and comparisons. -/
def Obligations.ExactRule : Prop := Claims.ExactRule ∧ Claims.CompareRule

/-! ### Encodings -/

/-- R87 to R92, R104, R106: every well-formed instruction word decodes to itself, and whatever decodes is the well-formed instruction of
that word; so no word has two meanings, and no bit of an encoding is dropped. -/
def Obligations.WordsRoundTrip : Prop :=
  (∀ (i : Instr) (w : DWord), i.wellFormed = true → encode i = some w → decode w = .ok i) ∧
  (∀ (i : Instr) (w : DWord), decode w = .ok i → i.wellFormed = true ∧ encode i = some w) ∧
  (∀ (i j : Instr) (w : DWord), encode i = some w → encode j = some w → i.wellFormed = true → j.wellFormed = true → i = j) ∧
  ∀ w : DWord, (∀ n, decode w = .error (.pairRule n) → w.getLsbD 63 = true ∧ 1 ≤ n ∧ n ≤ 4) ∧
    (decode w = .error .illegal → w.getLsbD 63 = false) ∧
    (w.getLsbD 63 = false → (w.extractLsb' 35 10).toNat / 64 ∈ [0xD, 0xE, 0xF] ∨ w.extractLsb' 57 3 = 6 → decode w = .error .illegal)

/-- The words that the spec works out (R55, R92, R105, R128, R176, R243, R280, R319, R325, R329, R350, R353, R359, R378, R385, R397 and their
entries): each decodes to the line that the spec gives for it. -/
def Obligations.DecodedWords : Prop :=
  let h : Hdr := { stall := 0, setc := 7, waitm := 0, ge := false, gp := 0, gs := false }
  let set := fun c : BitVec 3 => { h with setc := c }
  let gl := fun (a : Opnd) (z : Size) (off : BitVec 11) => ({ space := .gl, size := z, a, off } : MAddr)
  let rne : FMod := { absB := false, absA := false, negB := false, negA := false, ftz := false, rm := .rne }
  ∀ x ∈ ([(0x0E00104028000400, .attach h (sr 5)),
    (0x9001014022080901, .pairWord 1
      { op := .iadd, d := 4, a := 5, ge := false, gp := 0, gs := false, neg := false, abs := false }
      { op := .fmul, d := 8, a := 9, ge := false, gp := 0, gs := false, neg := true, abs := false }),
    (0x0404CE00A0500410, .ld { set 2 with ge := true, gp := 3 } 20 (gl (vr 10) .b32 4) .rlx),
    (0x0E00083010080030, .cvt h .fp32 .e4m3b8 .rne false 2 1),
    (0x0E000E4800000004, .fence h .dev),
    (0x0E001200A0406023, .copy h .t8 (vr 20) (vr 8) 12 3),
    (0x0E00140419002108, .mma h 3 true 32 4 8),
    (0x020016214040A000, .trace (set 1) false 40 8 (vr 20)),
    (0x0E0000680000002A, .trap h 42), (0x0E00007000000000, .eret h), (0x0E00181800000000, .bkpt h 0),
    (0x0200100020500518, .atom (set 1) .umax 4 (vr 10) .gl true .rlx),
    (0x0E00103000300002, .barwait h (vr 6) 2),
    (0x0E000C0828481900, .bcast h 5 9 (sr 3)),
    (0x0E0000083B3FFFFD, .br h { greg := 7, gbit := 12, gsense := true, gen := true, off := 0xFFFFD }),
    (0x0000182020300000, .cfgrd (set 0) (vr 4) (vr 6)),
    (0x0E00060008101821, .fadd h { rne with negB := true, rm := .rz } (vr 1) (vr 2) (vr 3)),
    (0x0E0000284810000C, .fork h 9 (vr 2) 12),
    (0x0E0002081819FFFF, .iaddi h (vr 3) (vr 3) 0x1FFFF),
    (0x0E000050004802C5, .kmovToMask h true 9 5),
    (0x06000E1040200063, .ldc (set 3) 8 { space := .sp, size := .b128, a := sr 4, off := 0 } true),
    (0x02000E2038100201, .ldt (set 1) 7 (sr 2) true false),
    (0x0E000408101800FF, .andi h (vr 2) (vr 3) 0xFF),
    (0x0E00049818081006, .plop h 3 1 2 6),
    (0x0400141140480212, .qld (set 2) 40 (sr 9) 2 1),
    (0x0E00180010000004, .rdsr h (vr 2) 4),
    (0x0E00101020500A10, .red h .fadd 4 (vr 10) .gl false .rlx),
    (0x0E00121800183004, .relayout h (vr 3) (vr 6) .kpack),
    (0x0E00025808101814, .sel h (vr 1) (vr 2) (vr 3) 4 true),
    (0x0E001628C040A003, .tracef h (vr 24) 8 20 3),
    (0x0E00004800000005, .waitk h 5), (0x0E00006000000000, .yieldFibre h)] : List (DWord × Instr)),
    (decode x.1).toOption = some x.2 ∧ decodeTableWord 64 x.1.toNat = some x.2

/-! ### Steps -/

/-- R3, R89, R92, R166: at an aligned program counter in a page of device memory that is not cached, a step runs the instruction that the eight
bytes there hold, on the state with the translation noted, and then the survey counts the word if it issued. A word that is no instruction
traps with cause 0x01, or 0x04 for a pair word, in every fibre, whatever its guard. With no bundle issuing, the next unit moves. -/
def Obligations.StepRuns : Prop :=
  (∀ (s : State) (b : Bundle) (g : Gang) (x : Xl), s.issue = some b → gangOf s b.gang = some g → b.pc.toNat % 8 = 0 →
    let cr := crewD s b.gang
    let t := tlbAdd s (g.core / 16) cr.part x
    let w := wordOfBytes (memRead s x.pa 8)
    translate s (g.core / 16) cr.part cr.svc .fetch b.pc (xlIdx s 64) = .ok x →
    isHost x.pa = false → isPeer x.pa = false → addrLost s x.pa = false → x.leaf.getLsbD 4 = false →
    NoRecall s → readsPoison s x.pa 8 = false → fetchWaits s g.core (x.pa / 128) s.nextId = false →
    t = { s with cache := { s.cache with tlb := t.cache.tlb } } ∧
    (∀ i u, decode w = .ok i → exec i t = .next u → ∃ v, step s = .next v ∧ v = { u with survey := v.survey } ∧
      (u.nextId = t.nextId → v = u)) ∧
    (∀ e, decode w = .error e → handles s b g → b.lanes.Nodup → b.lanes ≠ [] → (∀ l ∈ b.lanes, (tabFind g.fibres l).isSome) →
      ∃ v, step s = .next v ∧
        EndsIssue t t v b { stall := 0, setc := 7, waitm := 0, ge := false, gp := 0, gs := false } g
          (fun _ => .trap (match e with
            | .illegal => { cause := 0x01, addr := 0, info := 0, next := false }
            | .pairRule n => { cause := 0x04, addr := 0, info := BitVec.ofNat 32 n, next := false })) 0)) ∧
  ∀ s : State, s.issue = none → step s = exec (nextMove s).1 (nextMove s).2

/-- No run of the machine stops: wherever the issue latch names a gang that exists, as at reset, a step answers a next state, and in that
state too the latch names a gang that exists. -/
def Obligations.StepAnswers : Prop :=
  ∀ s : State, (∀ b, s.issue = some b → (gangOf s b.gang).isSome) →
    ∃ t, step s = .next t ∧ ∀ b, t.issue = some b → (gangOf t b.gang).isSome

/-- Device memory and host memory keep their canonical form in every step. -/
def Obligations.StepKeepsMemory : Prop :=
  ∀ s t : State, Memory.wf s.mem = true → Memory.wf s.hostMem = true → step s = .next t →
    Memory.wf t.mem = true ∧ Memory.wf t.hostMem = true

/-- What reset leaves (R21, R30, R32, R85, R86, R154, R227, R249, R303, R308, Tables WORD-5, MEM-6, REND-1, OUT-4, OUT-7), and the canonical form of
empty memory. The dies are those of the model's choice (notes/assumptions/2.md). -/
def Obligations.ResetState : Prop :=
  let s := State.reset
  Memory.wf s.mem = true ∧ Memory.wf s.hostMem = true ∧ s.issue = none ∧ s.time.now = 0 ∧ s.time.lock = false ∧ s.boot.started = false ∧
  s.gangs = [] ∧ s.crews = [] ∧ s.sched.shifts = [] ∧ s.accs = [] ∧ s.copies = [] ∧
  (∀ x ∈ s.dies, x.2.cbRetry = 4 ∧ x.2.cbFoldWait = 0x3E8 ∧ x.2.alogN = 0 ∧ x.2.blogN = 0 ∧ x.2.level = 0 ∧ x.2.slope = 0x10 ∧
    (x.2.links = resetLinks flagshipKind x.1)) ∧
  (∀ x ∈ s.cores, x.2.fill = .normal ∧ x.2.wmark = 0 ∧ x.2.canary = 0 ∧ x.2.canaryPend = false ∧ x.2.canaryEvents = 0 ∧
    (x.2.vbus = if (tabFind s.dies (x.1 / 16)).map (·.kind) = some .shading then 0xFFFF else 0)) ∧
  (∀ p < 24, let q := partOf s p
    q.enabled = false ∧ q.susp = false ∧ q.scrub = false ∧ q.failed = false ∧ q.leaseMax = 0x800 ∧ q.rasThr = 0x2000 ∧ q.result = 0 ∧
    q.busy = false) ∧
  (∀ n < 193, (funcOf s n).en = false) ∧ (∀ p < 8, (peerOf s p).state = 0) ∧
  cfgGet s 0x384 = 0 ∧ cfgGet s 0x390 = 0x14 ∧ cfgGet s 0x240 = 0 ∧ cfgGet s 0x244 = 0 ∧
  (∀ p < 24, cfgGet s (partOff p) = 0x7D0 ∧ cfgGet s (partOff p + 0xC0) = 0x14) ∧ (∀ k < 2048, cfgGet s (0x2000 + 4 * k) = 0xFFFFFFFF) ∧
  s.rend.passOpen = false ∧ s.rend.done = false ∧ s.rend.fdone = false

/-! ### Reading and writing -/

/-- R81, R98, R99, R101, R102: a register reads as its value, or, too early after a write or with earlier data still to land in it, as that value or
the one before it, and nothing else; a write of a word is too early for L units of the sum of 1 + STALL; with CR.CHKSTALL the fibre's early read traps with cause 0x03. -/
def Obligations.EarlyReads : Prop :=
  (∀ (s : State) (g : Gang) (l : Nat) (fb : Fibre) (r : RegRef), tabFind g.fibres l = some fb →
    let own := youngOwn fb r
    let other := youngOther (cycOf s g.core) g l r
    let shadows := shadowOlds s fb r
    (readReg s g l r = regNow g fb r ∨ (∃ x ∈ own, readReg s g l r = x.old) ∨ readReg s g l r ∈ shadows ∨
      ∃ x ∈ other, readReg s g l r = x.old) ∧
    (own = [] → other = [] → shadows = [] → readReg s g l r = regNow g fb r)) ∧
  (∀ (cyc seq lat : Nat) (lanes : List Nat) (g : Gang) (w : RegWrite) (fb : Fibre), tabFind g.fibres w.lane = some fb → w.reg.names →
    (w.reg.file = .p → w.val = 0 ∨ w.val = 1) →
    let g1 := writeReg cyc seq lat lanes g w
    ∃ fb1, tabFind g1.fibres w.lane = some fb1 ∧ regNow g1 fb1 w.reg = w.val ∧ fb1.sum = fb.sum ∧ fb1.pc = fb.pc ∧
      (w.reg.file ≠ .s → fb1.haz = { reg := w.reg, old := regNow g fb w.reg, due := fb.sum + lat } :: fb.haz) ∧
      (w.reg.file = .s → ∀ l cyc', l ∉ lanes → cyc ≤ cyc' → youngOther cyc' g1 l w.reg =
        (if cyc' < cyc + lat then [{ n := w.reg.n, old := regNow g fb w.reg, due := cyc + lat, lanes }] else []) ++
          youngOther cyc' g l w.reg)) ∧
  (∀ (cyc stall : Nat) (fb : Fibre) (r : RegRef),
    let fb1 := issuedFibre cyc stall fb
    fb1.sum = fb.sum + 1 + stall ∧ fb1.readyAt = cyc + 1 + stall ∧
    ∀ x, x ∈ youngOwn fb1 r ↔ x ∈ youngOwn fb r ∧ fb.sum + 1 + stall < x.due) ∧
  ∀ (s : State) (gk : Nat) (g : Gang) (l : Nat) (fb : Fibre) (r : RegRef), tabFind g.fibres l = some fb →
    scoreCheck s gk g [r] l = if fb.chk = true ∧ (youngOwn fb r ≠ [] ∨ isPending s gk l r = true) then
        some { cause := 0x03, addr := 0, next := false,
               info := BitVec.ofNat 32 (r.n + 256 * match r.file with
                 | .v => 0
                 | .s => 1
                 | .p => 2
                 | _ => 3) }
      else none

/-- R3, R151, R153, R187: a write at its home is read back, leaves every other byte as it was and memory in its canonical form; poison leaves the
sectors that it covers whole; the CRC of a block follows the bytes, so that a mismatch stays; the monitors of its lines wake; nothing else
changes but the dependence words of its lines, which are looked at again. -/
def Obligations.HomeWrites : Prop :=
  ∀ (s : State) (pa : Nat) (bs : List Byte), bs ≠ [] →
    let t := homeWrite s pa bs
    let meets := fun a : Nat => pa / 128 ≤ a / 128 ∧ a / 128 ≤ (pa + bs.length - 1) / 128
    memRead t pa bs.length = bs ∧ (∀ a, a < pa ∨ pa + bs.length ≤ a → memRead t a 1 = memRead s a 1) ∧
    (Memory.wf s.mem = true → Memory.wf t.mem = true) ∧
    (∀ sec, sec ∈ t.poison ↔ sec ∈ s.poison ∧ ¬ (pa ≤ 32 * sec ∧ 32 * sec + 32 ≤ pa + bs.length)) ∧
    (∀ blk, (frameOf s (4096 * blk)).chk = true → crcKept t blk ^^^ crcStored t blk = crcKept s blk ^^^ crcStored s blk) ∧
    (∀ k, tabFind t.cache.mons k = (tabFind s.cache.mons k).map fun m => if meets m.pa then { m with woken := true } else m) ∧
    t = { s with mem := t.mem, poison := t.poison, crcs := t.crcs, cache := { s.cache with mons := t.cache.mons },
                 sched := { s.sched with shifts := t.sched.shifts } } ∧
    ∀ k, tabFind t.sched.shifts k = (tabFind s.sched.shifts k).map fun x => { x with depWake := x.depWake || decide (meets x.depPa) }
end

