-- ==== Sys2Proof/Laws/Codec.lean ====
section
/-! SUPPORT. Laws of the fields of a word: a field that the encoder laid is the field that the decoder reads, for each form and
each code. -/

namespace Sys2Proof

/-! ### Forms -/

@[simp] theorem FormT.of_bits (f : FormT) : FormT.of f.bits = f := by
  obtain ⟨d, a, b, sd, sa, sb, mod⟩ := f
  simp only [FormT.of, FormT.bits, FormT.mk.injEq]
  refine ⟨?_, ?_, ?_, ?_, ?_, ?_, ?_⟩
  all_goals first
    | (apply BitVec.eq_of_getLsbD_eq; intro i hi; rw [BitVec.getLsbD_extractLsb']
       repeat rw [BitVec.getLsbD_append]
       simp +arith [hi])
    | (repeat rw [BitVec.getLsbD_append]
       simp)

@[simp] theorem FormI.of_bits (f : FormI) : FormI.of f.bits = f := by
  obtain ⟨d, a, sd, sa, imm⟩ := f
  simp only [FormI.of, FormI.bits, FormI.mk.injEq]
  refine ⟨?_, ?_, ?_, ?_, ?_⟩
  all_goals first
    | (apply BitVec.eq_of_getLsbD_eq; intro i hi; rw [BitVec.getLsbD_extractLsb']
       repeat rw [BitVec.getLsbD_append]
       simp +arith [hi])
    | (repeat rw [BitVec.getLsbD_append]
       simp)

@[simp] theorem FormL.of_bits (f : FormL) : FormL.of f.bits = f := by
  obtain ⟨d, sd, imm⟩ := f
  simp only [FormL.of, FormL.bits, FormL.mk.injEq]
  refine ⟨?_, ?_, ?_⟩
  all_goals first
    | (apply BitVec.eq_of_getLsbD_eq; intro i hi; rw [BitVec.getLsbD_extractLsb']
       repeat rw [BitVec.getLsbD_append]
       simp +arith [hi])
    | (repeat rw [BitVec.getLsbD_append]
       simp)

@[simp] theorem FormM.of_bits (f : FormM) : FormM.of f.bits = f := by
  obtain ⟨d, a, off, space, size, order, sa⟩ := f
  simp only [FormM.of, FormM.bits, FormM.mk.injEq]
  refine ⟨?_, ?_, ?_, ?_, ?_, ?_, ?_⟩
  all_goals first
    | (apply BitVec.eq_of_getLsbD_eq; intro i hi; rw [BitVec.getLsbD_extractLsb']
       repeat rw [BitVec.getLsbD_append]
       simp +arith [hi])
    | (repeat rw [BitVec.getLsbD_append]
       simp)

@[simp] theorem BForm.of_bits (f : BForm) : BForm.of f.bits = f := by
  obtain ⟨greg, gbit, gsense, gen, off⟩ := f
  simp only [BForm.of, BForm.bits, BForm.mk.injEq]
  refine ⟨?_, ?_, ?_, ?_, ?_⟩
  all_goals first
    | (apply BitVec.eq_of_getLsbD_eq; intro i hi; rw [BitVec.getLsbD_extractLsb']
       repeat rw [BitVec.getLsbD_append]
       simp +arith [hi])
    | (repeat rw [BitVec.getLsbD_append]
       simp)

/-! ### The full word -/

@[simp] theorem fullWord_kind (h : Hdr) (opc : BitVec 10) (x : BitVec 35) : (fullWord h opc x).getLsbD 63 = false := by
  unfold fullWord
  repeat rw [BitVec.getLsbD_append]
  simp

@[simp] theorem fullWord_hdr (h : Hdr) (opc : BitVec 10) (x : BitVec 35) : Hdr.of (fullWord h opc x) = h := by
  obtain ⟨stall, setc, waitm, ge, gp, gs⟩ := h
  simp only [Hdr.of, fullWord, Hdr.mk.injEq]
  refine ⟨?_, ?_, ?_, ?_, ?_, ?_⟩
  all_goals first
    | (apply BitVec.eq_of_getLsbD_eq; intro i hi; rw [BitVec.getLsbD_extractLsb']
       repeat rw [BitVec.getLsbD_append]
       simp +arith [hi])
    | (repeat rw [BitVec.getLsbD_append]
       simp)

@[simp] theorem fullWord_opc (h : Hdr) (opc : BitVec 10) (x : BitVec 35) : (fullWord h opc x).extractLsb' 35 10 = opc := by
  apply BitVec.eq_of_getLsbD_eq; intro i hi
  rw [BitVec.getLsbD_extractLsb']
  unfold fullWord
  repeat rw [BitVec.getLsbD_append]
  simp +arith [hi]

@[simp] theorem fullWord_operands (h : Hdr) (opc : BitVec 10) (x : BitVec 35) : (fullWord h opc x).extractLsb' 0 35 = x := by
  apply BitVec.eq_of_getLsbD_eq; intro i hi
  rw [BitVec.getLsbD_extractLsb']
  unfold fullWord
  repeat rw [BitVec.getLsbD_append]
  simp +arith [hi]

/-! ### Codes -/

@[simp] theorem RM.ofCode_code (x : RM) : RM.ofCode x.code = some x := by cases x <;> rfl
@[simp] theorem Cond.ofCode_code (x : Cond) : Cond.ofCode x.code = some x := by cases x <;> rfl
@[simp] theorem LaneOp.ofCode_code (x : LaneOp) : LaneOp.ofCode x.code = some x := by cases x <;> rfl
@[simp] theorem AtomOp.ofCode_code (x : AtomOp) : AtomOp.ofCode x.code = some x := by cases x <;> rfl
@[simp] theorem Space.ofCode_code (x : Space) : Space.ofCode x.code = some x := by cases x <;> rfl
@[simp] theorem Size.ofCode_code (x : Size) : Size.ofCode x.code = some x := by cases x <;> rfl
@[simp] theorem Order.ofCode_code (x : Order) : Order.ofCode x.code = some x := by cases x <;> rfl
@[simp] theorem Scope.ofCode_code (x : Scope) : Scope.ofCode x.code = some x := by cases x <;> rfl
@[simp] theorem ShflMode.ofCode_code (x : ShflMode) : ShflMode.ofCode x.code = some x := by cases x <;> rfl
@[simp] theorem VoteMode.ofCode_code (x : VoteMode) : VoteMode.ofCode x.code = Option.some x := by cases x <;> rfl
@[simp] theorem CvtType.ofCode_code (x : CvtType) : CvtType.ofCode x.code = some x := by cases x <;> rfl
@[simp] theorem CopyKind.ofCode_code (x : CopyKind) : CopyKind.ofCode x.code = some x := by cases x <;> rfl
@[simp] theorem CopywKind.ofCode_code (x : CopywKind) : CopywKind.ofCode x.code = some x := by cases x <;> rfl
@[simp] theorem LayoutTag.ofCode_code (x : LayoutTag) : LayoutTag.ofCode x.code = some x := by cases x <;> rfl
@[simp] theorem QFmt.ofCode_code (x : QFmt) : QFmt.ofCode x.code = some x := by cases x <;> rfl
@[simp] theorem Filter.ofCode_code (x : Filter) : Filter.ofCode x.code = some x := by cases x <;> rfl
@[simp] theorem PairOp.ofCode_code (x : PairOp) : PairOp.ofCode x.code = some x := by cases x <;> rfl

/-! ### Modifiers and slots -/

@[simp] theorem FMod.of_bits (m : FMod) : FMod.of m.bits = some m := by
  obtain ⟨b5, b4, b3, b2, b1, rm⟩ := m
  cases rm <;> cases b1 <;> cases b2 <;> cases b3 <;> cases b4 <;> cases b5 <;> rfl

@[simp] theorem PMod.of_bits (m : PMod) : PMod.of m.bits = some m := by
  obtain ⟨b3, b2, b1, rm⟩ := m
  cases rm <;> cases b1 <;> cases b2 <;> cases b3 <;> rfl

@[simp] theorem FmaMod.of_bits (m : FmaMod) : FmaMod.of m.bits = some m := by
  obtain ⟨b3, b2, b1, rm⟩ := m
  cases rm <;> cases b1 <;> cases b2 <;> cases b3 <;> rfl

@[simp] theorem nib_low4 (n : BitVec 4) : nib (low4 n) = n := by
  unfold nib low4
  apply BitVec.eq_of_getLsbD_eq; intro i hi
  rw [BitVec.getLsbD_extractLsb']
  repeat rw [BitVec.getLsbD_append]
  simp +arith [hi]

@[simp] theorem FormM.addr_bits (d : Reg) (m : MAddr) (order : BitVec 2) :
    (FormM.of (mBits d m order)).addr = some m := by
  obtain ⟨space, size, a, off⟩ := m
  simp [mBits, FormM.addr]

@[simp] theorem Slot.of_bits (s : Slot) : Slot.of s.bits = some s := by
  obtain ⟨op, d, a, ge, gp, gs, abs, neg⟩ := s
  have hop : (Slot.bits ⟨op, d, a, ge, gp, gs, abs, neg⟩).extractLsb' 24 6 = op.code := by
    apply BitVec.eq_of_getLsbD_eq; intro i hi
    rw [BitVec.getLsbD_extractLsb']
    unfold Slot.bits
    repeat rw [BitVec.getLsbD_append]
    simp +arith [hi]
  simp only [Slot.of, hop, PairOp.ofCode_code]
  simp only [Slot.bits, Option.bind_eq_bind, Option.bind_some, Option.pure_def, Option.some.injEq, Slot.mk.injEq]
  refine ⟨trivial, ?_, ?_, ?_, ?_, ?_, ?_, ?_⟩
  all_goals first
    | (apply BitVec.eq_of_getLsbD_eq; intro i hi; rw [BitVec.getLsbD_extractLsb']
       repeat rw [BitVec.getLsbD_append]
       simp +arith [hi])
    | (repeat rw [BitVec.getLsbD_append]
       simp)

end Sys2Proof
end

