-- ==== Sys2Proof/Laws/Sparse.lean ====
section
/-! SUPPORT. Laws of finite maps: what a read finds after a write, and that every operation keeps the canonical form. -/

namespace Sys2Proof.Machine

/-! ### Reads after writes -/

/-- What a lookup finds stands in the table. -/
theorem tabFind_mem {α : Type} {t : Tab α} {k : Nat} {v : α} (h : tabFind t k = some v) : (k, v) ∈ t := by
  induction t with
  | nil => exact absurd h (by simp [tabFind])
  | cons x t ih =>
    obtain ⟨k', v'⟩ := x
    unfold tabFind at h
    split at h
    · obtain rfl : v' = v := Option.some.inj h
      subst k
      exact List.mem_cons_self
    · exact List.mem_cons_of_mem _ (ih h)

@[simp] theorem tabFind_nil {α : Type} (k : Nat) : tabFind ([] : Tab α) k = none := rfl

@[simp] theorem tabFind_tabPut_same {α : Type} (t : Tab α) (k : Nat) (v : α) : tabFind (tabPut t k v) k = some v := by
  induction t with
  | nil => simp [tabPut, tabFind]
  | cons x rest ih =>
    simp only [tabPut]
    split
    · simp [tabFind]
    · split
      · simp [tabFind]
      · simp_all [tabFind]

theorem tabFind_tabPut_other {α : Type} (t : Tab α) (k j : Nat) (v : α) (h : j ≠ k) :
    tabFind (tabPut t k v) j = tabFind t j := by
  induction t with
  | nil => simp [tabPut, tabFind, h]
  | cons x rest ih =>
    simp only [tabPut]
    split
    · simp [tabFind, h]
    · split
      · simp_all [tabFind]
      · simp [tabFind, ih]

theorem tabFind_tabPut {α : Type} (t : Tab α) (k j : Nat) (v : α) :
    tabFind (tabPut t k v) j = if j = k then some v else tabFind t j := by
  by_cases h : j = k
  · subst h; simp
  · simp [tabFind_tabPut_other t k j v h, h]

@[simp] theorem tabFind_tabDel_same {α : Type} (t : Tab α) (k : Nat) : tabFind (tabDel t k) k = none := by
  induction t with
  | nil => rfl
  | cons x rest ih =>
    simp only [tabDel]
    split
    · exact ih
    · simp_all [tabFind]

theorem tabFind_tabDel_other {α : Type} (t : Tab α) (k j : Nat) (h : j ≠ k) : tabFind (tabDel t k) j = tabFind t j := by
  induction t with
  | nil => rfl
  | cons x rest ih =>
    simp only [tabDel]
    split
    · simp_all [tabFind]
    · simp [tabFind, ih]

theorem tabFind_tabMod {α : Type} (t : Tab α) (k j : Nat) (f : α → α) :
    tabFind (tabMod t k f) j = if j = k then (tabFind t k).map f else tabFind t j := by
  unfold tabMod
  split <;> rename_i h
  · rw [tabFind_tabPut]; split <;> simp_all
  · split <;> simp_all

@[simp] theorem tabFind_tabMod_same {α : Type} (t : Tab α) (k : Nat) (f : α → α) :
    tabFind (tabMod t k f) k = (tabFind t k).map f := by simp [tabFind_tabMod]

theorem tabFind_tabMod_other {α : Type} (t : Tab α) (k j : Nat) (f : α → α) (h : j ≠ k) :
    tabFind (tabMod t k f) j = tabFind t j := by simp [tabFind_tabMod, h]

theorem tabFind_tabMap {α : Type} (t : Tab α) (f : Nat → α → α) (k : Nat) :
    tabFind (tabMap t f) k = (tabFind t k).map (f k) := by
  induction t with
  | nil => rfl
  | cons x rest ih =>
    simp only [tabMap, List.map_cons, tabFind] at *
    split
    · simp_all
    · exact ih

@[simp] theorem spGet_spSet_same {α : Type} [DecidableEq α] (d : α) (t : Tab α) (k : Nat) (v : α) :
    spGet d (spSet d t k v) k = v := by
  unfold spGet spSet
  split <;> simp_all

theorem spGet_spSet_other {α : Type} [DecidableEq α] (d : α) (t : Tab α) (k j : Nat) (v : α) (h : j ≠ k) :
    spGet d (spSet d t k v) j = spGet d t j := by
  unfold spGet spSet
  split <;> simp [tabFind_tabDel_other, tabFind_tabPut_other, h]

theorem spGet_spSet {α : Type} [DecidableEq α] (d : α) (t : Tab α) (k j : Nat) (v : α) :
    spGet d (spSet d t k v) j = if j = k then v else spGet d t j := by
  by_cases h : j = k
  · subst h; simp
  · simp [spGet_spSet_other d t k j v h, h]

/-- A byte outside the bytes written reads as before. -/
theorem spGet_spPutList_outside {α : Type} [DecidableEq α] (d : α) (vs : List α) (t : Tab α) (k j : Nat)
    (h : j < k ∨ k + vs.length ≤ j) : spGet d (spPutList d t k vs) j = spGet d t j := by
  induction vs generalizing t k with
  | nil => rfl
  | cons v vs ih =>
    simp only [spPutList, List.length_cons] at *
    rw [ih _ _ (by omega), spGet_spSet_other]
    omega

/-- A byte inside the bytes written reads as written. -/
theorem spGet_spPutList_inside {α : Type} [DecidableEq α] (d : α) (vs : List α) (t : Tab α) (k i : Nat)
    (h : i < vs.length) : spGet d (spPutList d t k vs) (k + i) = vs[i] := by
  induction vs generalizing t k i with
  | nil => simp at h
  | cons v vs ih =>
    simp only [spPutList]
    cases i with
    | zero => rw [spGet_spPutList_outside _ _ _ _ _ (by omega)]; simp
    | succ i =>
      have := ih (spSet d t k v) (k + 1) i (by simpa using h)
      simpa [show k + 1 + i = k + (i + 1) by omega] using this

/-- What was written is read back. -/
theorem spRange_spPutList {α : Type} [DecidableEq α] (d : α) (vs : List α) (t : Tab α) (k : Nat) :
    spRange d (spPutList d t k vs) k vs.length = vs := by
  apply List.ext_getElem
  · simp [spRange]
  · intro i h1 h2
    simp [spRange, spGet_spPutList_inside d vs t k i h2]

/-! ### Canonical form -/

/-- Every key of a map lies above a bound. -/
def keysAbove {α : Type} (t : Tab α) (b : Nat) : Prop := ∀ x ∈ t, b < x.1

theorem keysRise_cons {α : Type} (x : Nat × α) (t : Tab α) :
    keysRise (x :: t) = true ↔ keysAbove t x.1 ∧ keysRise t = true := by
  induction t generalizing x with
  | nil => simp [keysRise, keysAbove]
  | cons y rest ih =>
    simp only [keysRise, Bool.and_eq_true, decide_eq_true_eq]
    constructor
    · intro ⟨h1, h2⟩
      refine ⟨?_, h2⟩
      intro z hz
      rcases List.mem_cons.1 hz with rfl | hz
      · exact h1
      · exact Nat.lt_trans h1 (((ih y).1 h2).1 z hz)
    · intro ⟨h1, h2⟩
      exact ⟨h1 y (by simp), h2⟩

theorem mem_tabPut {α : Type} {t : Tab α} {k : Nat} {v : α} {x : Nat × α} (h : x ∈ tabPut t k v) : x = (k, v) ∨ x ∈ t := by
  induction t with
  | nil => simp [tabPut] at h; simp [h]
  | cons y rest ih =>
    simp only [tabPut] at h
    split at h
    · simpa using h
    · split at h
      · grind
      · grind

theorem mem_tabDel {α : Type} {t : Tab α} {k : Nat} {x : Nat × α} (h : x ∈ tabDel t k) : x ∈ t := by
  induction t with
  | nil => simp [tabDel] at h
  | cons y rest ih =>
    simp only [tabDel] at h
    split at h
    · exact List.mem_cons_of_mem _ (ih h)
    · grind

theorem keysRise_tabPut {α : Type} {t : Tab α} (k : Nat) (v : α) (h : keysRise t = true) :
    keysRise (tabPut t k v) = true := by
  induction t with
  | nil => rfl
  | cons y rest ih =>
    have ⟨h1, h2⟩ := (keysRise_cons y rest).1 h
    simp only [tabPut]
    split <;> rename_i hk
    · refine (keysRise_cons _ _).2 ⟨?_, h⟩
      intro z hz
      rcases List.mem_cons.1 hz with rfl | hz
      · exact hk
      · exact Nat.lt_trans hk (h1 z hz)
    · split <;> rename_i hk2
      · refine (keysRise_cons _ _).2 ⟨?_, h2⟩
        subst hk2; exact h1
      · refine (keysRise_cons _ _).2 ⟨?_, ih h2⟩
        intro z hz
        rcases mem_tabPut hz with rfl | hz
        · simp only; omega
        · exact h1 z hz

theorem keysRise_tabDel {α : Type} {t : Tab α} (k : Nat) (h : keysRise t = true) : keysRise (tabDel t k) = true := by
  induction t with
  | nil => rfl
  | cons y rest ih =>
    have ⟨h1, h2⟩ := (keysRise_cons y rest).1 h
    simp only [tabDel]
    split
    · exact ih h2
    · exact (keysRise_cons _ _).2 ⟨fun z hz => h1 z (mem_tabDel hz), ih h2⟩

theorem keysRise_filter {α : Type} {t : Tab α} (p : Nat × α → Bool) (h : keysRise t = true) :
    keysRise (t.filter p) = true := by
  induction t with
  | nil => rfl
  | cons y rest ih =>
    have ⟨h1, h2⟩ := (keysRise_cons y rest).1 h
    simp only [List.filter_cons]
    split
    · exact (keysRise_cons _ _).2 ⟨fun z hz => h1 z (List.mem_filter.1 hz).1, ih h2⟩
    · exact ih h2

theorem spWf_iff {α : Type} [DecidableEq α] (d : α) (t : Tab α) :
    spWf d t = true ↔ keysRise t = true ∧ ∀ x ∈ t, x.2 ≠ d := by
  simp [spWf, Prod.forall]

/-- Writing one entry keeps the canonical form. -/
theorem spWf_spSet {α : Type} [DecidableEq α] {d : α} {t : Tab α} (k : Nat) (v : α) (h : spWf d t = true) :
    spWf d (spSet d t k v) = true := by
  have ⟨h1, h2⟩ := (spWf_iff d t).1 h
  unfold spSet
  split
  · exact (spWf_iff d _).2 ⟨keysRise_tabDel k h1, fun x hx => h2 x (mem_tabDel hx)⟩
  · refine (spWf_iff d _).2 ⟨keysRise_tabPut k v h1, fun x hx => ?_⟩
    rcases mem_tabPut hx with rfl | hx
    · assumption
    · exact h2 x hx

/-- Writing several bytes keeps the canonical form. -/
theorem spWf_spPutList {α : Type} [DecidableEq α] {d : α} {t : Tab α} (k : Nat) (vs : List α) (h : spWf d t = true) :
    spWf d (spPutList d t k vs) = true := by
  induction vs generalizing t k with
  | nil => exact h
  | cons v vs ih => exact ih (k + 1) (spWf_spSet k v h)

/-- Dropping entries keeps the canonical form. -/
theorem spWf_filter {α : Type} [DecidableEq α] {d : α} {t : Tab α} (p : Nat × α → Bool) (h : spWf d t = true) :
    spWf d (t.filter p) = true := by
  have ⟨h1, h2⟩ := (spWf_iff d t).1 h
  exact (spWf_iff d _).2 ⟨keysRise_filter p h1, fun x hx => h2 x (List.mem_filter.1 hx).1⟩

end Sys2Proof.Machine
end

