-- ==== Sys2Proof/Laws/Words.lean ====
section
/-! SUPPORT. Laws of the issue of a word: when a word issues it is carried out, and what a word that only writes registers
leaves behind. -/

namespace Sys2Proof.Machine

/-! ### A word that issues is carried out -/

theorem trapEnds_none {c : Ctx} {f : Nat → Option TrapInfo} (h : ∀ l ∈ c.on, f l = none) : trapEnds c f = none := by
  unfold trapEnds
  rw [if_neg]
  simp only [List.any_eq_true, not_exists, not_and]
  intro l hl
  simp [h l hl]

/-- What is read in no too early way reads so in part. -/
theorem scoreCheck_filter {s : State} {gk : Nat} {g : Gang} {rs : List RegRef} {l : Nat} (p : RegRef → Bool)
    (h : scoreCheck s gk g rs l = none) : scoreCheck s gk g (rs.filter p) l = none := by
  unfold scoreCheck at *
  split at h
  · rfl
  · rename_i fb _
    cases hc : fb.chk
    · rfl
    · rw [hc] at h
      simp only [Bool.not_true, Bool.false_eq_true, if_false, Option.map_eq_none_iff, List.find?_eq_none,
        List.mem_filter, and_imp] at h ⊢
      exact fun r hr _ => h r hr

/-- The one law of `runWord`: under `Issues`, a word without an early trap that does not wait runs its body. -/
theorem runWord_issues {w : WordSpec} {s : State} {b : Bundle} {g : Gang}
    (hi : Issues s b g w.hdr w.names (w.reads s g) w.attach)
    (he : w.early s g b.lanes = none) (hw : w.wait (wordCtx s b g w.hdr) s = false) :
    runWord w s = .next (finishWord w.hdr (wordCtx s b g w.hdr) (w.body (wordCtx s b g w.hdr) s)) := by
  have hscore : scoreTraps w s (wordCtx s b g w.hdr) = [] := by
    unfold scoreTraps
    rw [List.filterMap_eq_nil_iff]
    intro l hl
    have h1 := hi.score_guard l hl
    simp only [wordCtx, ctxOf] at *
    rw [h1]
    by_cases h2 : l ∈ guardLanes s b g w.hdr
    · simp only [List.contains_eq_mem, h2, decide_true, if_true, Option.map_eq_none_iff]
      by_cases ho : (w.once && l != (guardLanes s b g w.hdr).headD 0) = true
      all_goals simp only [ho, if_true, if_false, Bool.false_eq_true]
      · exact scoreCheck_filter _ (hi.score l h2)
      · exact hi.score l h2
    · simp [h2]
  have hfull : (match setcOf w.hdr with
      | some n => decide (ctrVal (cycOf s g.core) (dropOwed (cycOf s g.core) b.pc g b.lanes) n ≥ 63)
      | none => false) = false := by
    cases hs : setcOf w.hdr with
    | none => rfl
    | some n => have := hi.room n hs; simp only [replaying, replayedIn] at this; simp; omega
  have hdec : decodeTrap w s g b.lanes = none := by simp [decodeTrap, he, hi.window]
  have hne : (wordCtx s b g w.hdr).on.isEmpty = false := by
    have := hi.some_lane
    cases hh : guardLanes s b g w.hdr <;> simp_all [wordCtx]
  have hfirst : trapEnds (wordCtx s b g w.hdr) (fun l => firstTrap g w.attach l) = none :=
    trapEnds_none fun l hl => hi.begun l hl
  simp only [runWord, hi.latch, hi.gang, issueWord, hdec]
  change Host.Outcome.next (if _ = true then _ else if w.wait (wordCtx s b g w.hdr) s = true then _ else _) = _
  rw [if_neg, hw, if_neg (by simp)]
  · change Host.Outcome.next (match scoreTraps w s (wordCtx s b g w.hdr) with
      | [] => _
      | ts => _) = _
    rw [hscore]
    simp only
    change Host.Outcome.next (if (wordCtx s b g w.hdr).on.isEmpty = true then _ else _) = _
    rw [hne]
    simp only [Bool.false_eq_true, if_false]
    change Host.Outcome.next (match trapEnds (wordCtx s b g w.hdr) (fun l => firstTrap g w.attach l) with
      | some ends => _
      | none => _) = _
    rw [hfirst]
    rfl
  · have : (ctxOf s b g).cyc = cycOf s g.core := rfl
    simp only [Bool.or_eq_true, Bool.not_eq_true', not_or, Bool.not_eq_true, Bool.not_eq_false]
    exact ⟨hfull, hi.waitm⟩

/-! ### Changes of one fibre -/

@[simp] theorem modFibreG_fibres (g : Gang) (l : Nat) (f : Fibre → Fibre) :
    (modFibreG g l f).fibres = tabMod g.fibres l f := rfl

theorem regNow_pool {g g' : Gang} {fb fb' : Fibre} {r : RegRef} (hp : g'.pool = g.pool) (hs : g'.sregs = g.sregs)
    (hw : fb'.wbase = fb.wbase) (hpr : fb'.preds = fb.preds) (h0 : fb'.ix0 = fb.ix0) (h1 : fb'.ix1 = fb.ix1) :
    regNow g' fb' r = regNow g fb r := by
  unfold regNow
  split <;> simp_all

/-- A change of one fibre that keeps its registers and its flags keeps what was written; it may move its program counter. -/
theorem RegsWrittenIn.modFibre {g g1 : Gang} {ws : List RegWrite} {fl : Nat → Flags}
    {at' : Nat → Fibre → DWord × List (DWord × Nat)} (h : RegsWrittenIn g g1 ws fl at') (k : Nat) (f : Fibre → Fibre)
    (at'' : Nat → Fibre → DWord × List (DWord × Nat))
    (hk : ∀ fb0 fb, tabFind g.fibres k = some fb0 →
      f fb = { fb with pc := (f fb).pc, owed := (f fb).owed, flBase := (f fb).flBase, flq := (f fb).flq,
                       readyAt := (f fb).readyAt, bun := (f fb).bun, sum := (f fb).sum, haz := (f fb).haz,
                       shadow := (f fb).shadow, wseq := (f fb).wseq } ∧
        allFlags (f fb) = allFlags fb ∧ (standing fb = at' k fb0 → standing (f fb) = at'' k fb0))
    (ho : ∀ l fb0, l ≠ k → tabFind g.fibres l = some fb0 → at'' l fb0 = at' l fb0) :
    RegsWrittenIn g (modFibreG g1 k f) ws fl at'' := by
  obtain ⟨hg, hla, hn, hf⟩ := h
  refine ⟨?_, hla, ?_, ?_⟩
  · have : modFibreG g1 k f = { g1 with fibres := tabMod g1.fibres k f } := rfl
    rw [this, hg]
  · intro l hl
    simp only [modFibreG_fibres, tabFind_tabMod]
    split
    · subst l; simp [hn k hl]
    · exact hn l hl
  · intro l fb hl
    obtain ⟨fb1, h1, h2, h4, h3⟩ := hf l fb hl
    simp only [modFibreG_fibres, tabFind_tabMod]
    by_cases hlk : l = k
    · subst hlk
      simp only [if_true, h1, Option.map_some]
      have hst : standing fb1 = at' l fb := by rw [h2]; rfl
      obtain ⟨hk1, hk3, hk2⟩ := hk fb fb1 hl
      refine ⟨f fb1, rfl, ?_, by rw [hk3, h4], ?_⟩
      · rw [← hk2 hst, hk1]
        rw [h2]
        rfl
      · intro r hr
        rw [← h3 r hr]
        apply regNow_pool rfl rfl _ _ _ _ <;> rw [hk1]
    · simp only [hlk, if_false]
      refine ⟨fb1, h1, ?_, h4, ?_⟩
      · rw [ho l fb hlk hl]; exact h2
      · intro r hr; rw [← h3 r hr]; rfl

/-! ### Register writes -/

theorem afterWrites_append (g : Gang) (ws : List RegWrite) (w : RegWrite) (l : Nat) (r : RegRef) (v : Word) :
    afterWrites g (ws ++ [w]) l r v =
      if regPlace g w.lane w.reg = regPlace g l r then w.val else afterWrites g ws l r v := by
  unfold afterWrites
  simp only [List.reverse_append, List.reverse_cons, List.reverse_nil, List.nil_append, List.singleton_append, List.find?_cons]
  by_cases h : regPlace g w.lane w.reg = regPlace g l r
  · simp [h]
  · have : (regPlace g w.lane w.reg == regPlace g l r) = false := by simpa using h
    simp [this, h]

/-- A write that makes sense: its register exists, and a predicate takes 0 or 1. -/
def RegWrite.sound (w : RegWrite) : Prop := w.reg.names ∧ (w.reg.file = .p → w.val = 0 ∨ w.val = 1)

theorem setBit16 (x : BitVec 16) (n m : Nat) (hn : n < 16) :
    (x ||| 1#16 <<< n).getLsbD m = (decide (m = n) || x.getLsbD m) := by
  by_cases h : m = n
  · subst h; simp [hn]
  · by_cases h2 : m < n
    · simp [h, h2]
    · have : m - n ≠ 0 := by omega
      simp [h, h2, this]

theorem clrBit16 (x : BitVec 16) (n m : Nat) (hn : n < 16) :
    (x &&& ~~~(1#16 <<< n)).getLsbD m = (!decide (m = n) && x.getLsbD m) := by
  by_cases hm : m < 16
  · by_cases h : m = n
    · subst h; simp [hn]
    · by_cases h2 : m < n
      · simp [h, h2, hm]
      · have : m - n ≠ 0 := by omega
        simp [h, h2, this, hm]
  · simp [BitVec.getLsbD_of_ge x m (by omega)]

theorem poolWritten_append (g : Gang) (ws : List RegWrite) (w : RegWrite) (n : Nat) :
    poolWritten g (ws ++ [w]) n ↔ poolWritten g ws n ∨ (w.reg.file = .v ∧ regPlace g w.lane w.reg = (.v, 0, n)) := by
  simp [poolWritten, or_and_right, exists_or]

/-- A write that goes to no pool register leaves what the A latch holds. -/
theorem latch_other {g g1 : Gang} {ws : List RegWrite} {w : RegWrite} (hw : w.reg.file ≠ .v)
    (h : (∃ n ∈ g.latch, poolWritten g ws n) ∧ g1.latch = [] ∨ (∀ n ∈ g.latch, ¬ poolWritten g ws n) ∧ g1.latch = g.latch) :
    (∃ n ∈ g.latch, poolWritten g (ws ++ [w]) n) ∧ g1.latch = [] ∨
      (∀ n ∈ g.latch, ¬ poolWritten g (ws ++ [w]) n) ∧ g1.latch = g.latch := by
  simpa only [poolWritten_append, hw, false_and, or_false] using h

/-- Storing a register adds its write. -/
theorem RegsWrittenIn.storeReg {g g1 : Gang} {ws : List RegWrite} {fl : Nat → Flags} {at' : Nat → Fibre → DWord × List (DWord × Nat)}
    (h : RegsWrittenIn g g1 ws fl at') (w : RegWrite) (hw : w.sound) (fb0 : Fibre) (hl0 : tabFind g.fibres w.lane = some fb0) :
    RegsWrittenIn g (storeReg g1 w.lane w.reg w.val) (ws ++ [w]) fl at' := by
  obtain ⟨hg, hla, hn, hf⟩ := h
  obtain ⟨fk, hk1, hk2, -, hk3⟩ := hf w.lane fb0 hl0
  obtain ⟨wl, ⟨file, n⟩, val⟩ := w
  obtain ⟨hname, hbit⟩ := hw
  simp only at *
  have hwb : fk.wbase = fb0.wbase := by rw [hk2]
  unfold Machine.storeReg
  rw [hk1]
  cases file with
  | v =>
    simp only
    refine ⟨?_, ?_, hn, ?_⟩
    · rw [hg]
    · simp only [poolWritten_append, true_and, regPlace, hl0, Option.map_some, Option.getD_some, hwb, Prod.mk.injEq]
      rcases hla with ⟨⟨m, hm, hp⟩, hl⟩ | ⟨hp, hl⟩
      · exact .inl ⟨⟨m, hm, .inl hp⟩, by simp [hl]⟩
      · by_cases hc : fb0.wbase + n ∈ g.latch
        · exact .inl ⟨⟨_, hc, .inr rfl⟩, by simp [hl, hc]⟩
        · refine .inr ⟨fun m hm => ?_, by simp [hl, hc]⟩
          rintro (h | h)
          · exact hp m hm h
          · exact hc (h ▸ hm)
    · intro l fb hl
      obtain ⟨f1, h1, h2, h4, h3⟩ := hf l fb hl
      refine ⟨f1, h1, h2, h4, ?_⟩
      intro r hr
      rw [afterWrites_append, ← h3 r hr]
      have hwl : f1.wbase = fb.wbase := by rw [h2]
      obtain ⟨rf, rn⟩ := r
      cases rf with
      | v =>
        simp only [regNow, regPlace, hl0, hl, Option.map_some, Option.getD_some, spGet_spSet, hwb, hwl, Prod.mk.injEq, true_and]
        by_cases he : fb.wbase + rn = fb0.wbase + n
        · simp [he]
        · rw [if_neg he, if_neg (fun h => he h.symm)]
      | s | p | ix => simp [regNow, regPlace]
  | s =>
    simp only
    refine ⟨?_, latch_other (by simp) hla, hn, ?_⟩
    · rw [hg]
    · intro l fb hl
      obtain ⟨f1, h1, h2, h4, h3⟩ := hf l fb hl
      refine ⟨f1, h1, h2, h4, ?_⟩
      intro r hr
      rw [afterWrites_append, ← h3 r hr]
      obtain ⟨rf, rn⟩ := r
      cases rf with
      | s =>
        simp only [regNow, regPlace, spGet_spSet, Prod.mk.injEq, true_and]
        by_cases he : rn = n
        · simp [he]
        · rw [if_neg he, if_neg (fun h => he h.symm)]
      | v | p | ix => simp [regNow, regPlace]
  | p =>
    simp only
    refine ⟨?_, latch_other (by simp) hla, ?_, ?_⟩
    · unfold modFibreG; rw [hg]
    · intro l hl
      simp only [modFibreG_fibres, tabFind_tabMod]
      split
      · subst l; simp [hn _ hl]
      · exact hn l hl
    · intro l fb hl
      obtain ⟨f1, h1, h2, h4, h3⟩ := hf l fb hl
      simp only [modFibreG_fibres, tabFind_tabMod]
      by_cases hlk : l = wl
      · subst hlk
        rw [h1] at hk1
        obtain rfl : f1 = fk := by simpa using hk1
        simp only [if_true, h1, Option.map_some]
        refine ⟨_, rfl, ?_, ?_, ?_⟩
        · split <;> (rw [h2])
        · rw [← h4]; split <;> rfl
        · intro r hr
          rw [afterWrites_append, ← h3 r hr]
          obtain ⟨rf, rn⟩ := r
          cases rf with
          | p =>
            simp only [RegRef.names] at hr hname
            simp only [regPlace, regNow, Prod.mk.injEq, true_and]
            by_cases he : n = rn
            · subst he
              rcases hbit rfl with rfl | rfl
              · simp [clrBit16 _ _ _ hname]
              · simp [setBit16 _ _ _ hname]
            · have he' : ¬ rn = n := fun h => he h.symm
              rcases hbit rfl with rfl | rfl
              · simp [clrBit16 _ _ _ hname, he, he']
              · simp [setBit16 _ _ _ hname, he, he']
          | s | v | ix => simp only [regPlace, regNow]; split <;> simp [modFibreG]
      · simp only [hlk, if_false]
        refine ⟨f1, h1, h2, h4, ?_⟩
        intro r hr
        rw [afterWrites_append, ← h3 r hr, if_neg]
        · rfl
        · obtain ⟨rf, rn⟩ := r
          cases rf <;> simp [regPlace]
          intro hh; exact absurd hh.symm hlk
  | ix =>
    simp only
    refine ⟨?_, latch_other (by simp) hla, ?_, ?_⟩
    · unfold modFibreG; rw [hg]
    · intro l hl
      simp only [modFibreG_fibres, tabFind_tabMod]
      split
      · subst l; simp [hn _ hl]
      · exact hn l hl
    · intro l fb hl
      obtain ⟨f1, h1, h2, h4, h3⟩ := hf l fb hl
      simp only [modFibreG_fibres, tabFind_tabMod]
      by_cases hlk : l = wl
      · subst hlk
        rw [h1] at hk1
        obtain rfl : f1 = fk := by simpa using hk1
        simp only [if_true, h1, Option.map_some]
        refine ⟨_, rfl, ?_, ?_, ?_⟩
        · split <;> (rw [h2])
        · rw [← h4]; split <;> rfl
        · intro r hr
          rw [afterWrites_append, ← h3 r hr]
          obtain ⟨rf, rn⟩ := r
          cases rf with
          | ix =>
            simp only [RegRef.names] at hr hname
            simp only [regPlace, regNow, Prod.mk.injEq, true_and]
            have a1 : n = 0 ∨ n = 1 := by omega
            have a2 : rn = 0 ∨ rn = 1 := by omega
            rcases a1 with rfl | rfl <;> rcases a2 with rfl | rfl <;> simp
          | s | v | p => simp only [regPlace, regNow]; split <;> simp [modFibreG]
      · simp only [hlk, if_false]
        refine ⟨f1, h1, h2, h4, ?_⟩
        intro r hr
        rw [afterWrites_append, ← h3 r hr, if_neg]
        · rfl
        · obtain ⟨rf, rn⟩ := r
          cases rf <;> simp [regPlace]
          intro hh; exact absurd hh.symm hlk

/-- A gang whose registers, fibres' registers and frame are those of another: only the timing of s registers differs. -/
theorem RegsWrittenIn.gang {g g1 g2 : Gang} {ws : List RegWrite} {fl : Nat → Flags} {at' : Nat → Fibre → DWord × List (DWord × Nat)}
    (h : RegsWrittenIn g g1 ws fl at')
    (he : g2 = { g1 with shaz := g2.shaz, swseq := g2.swseq, outs := g2.outs, zeroAt := g2.zeroAt, begun := g2.begun }) :
    RegsWrittenIn g g2 ws fl at' := by
  obtain ⟨hg, hla, hn, hf⟩ := h
  refine ⟨?_, ?_, ?_, ?_⟩
  · rw [he, hg]
  · rw [he]; exact hla
  · intro l hl; rw [he]; exact hn l hl
  · intro l fb hl
    obtain ⟨f1, h1, h2, h4, h3⟩ := hf l fb hl
    refine ⟨f1, by rw [he]; exact h1, h2, h4, ?_⟩
    intro r hr
    rw [← h3 r hr, he]
    exact regNow_pool rfl rfl rfl rfl rfl rfl

/-- Noting hazards and numbers of writes in one fibre changes no register. -/
theorem RegsWrittenIn.note {g g1 : Gang} {ws : List RegWrite} {fl : Nat → Flags} {at' : Nat → Fibre → DWord × List (DWord × Nat)}
    (h : RegsWrittenIn g g1 ws fl at') (k : Nat) (f : Fibre → Fibre)
    (hk : ∀ fb : Fibre, f fb = { fb with haz := (f fb).haz, wseq := (f fb).wseq }) :
    RegsWrittenIn g (modFibreG g1 k f) ws fl at' := by
  refine h.modFibre k f at' ?_ (fun _ _ _ _ => rfl)
  intro fb0 fb _
  refine ⟨?_, ?_, ?_⟩
  · rw [hk fb]
  · rw [hk fb]; rfl
  · intro hp; rw [hk fb]; exact hp

theorem RegsWrittenIn.notes {g g1 : Gang} {ws : List RegWrite} {fl : Nat → Flags} {at' : Nat → Fibre → DWord × List (DWord × Nat)}
    (h : RegsWrittenIn g g1 ws fl at') (ks : List Nat) (f : Fibre → Fibre)
    (hk : ∀ fb : Fibre, f fb = { fb with haz := (f fb).haz, wseq := (f fb).wseq }) :
    RegsWrittenIn g (ks.foldl (fun g l => modFibreG g l f) g1) ws fl at' := by
  induction ks generalizing g1 with
  | nil => exact h
  | cons k ks ih => exact ih (h.note k f hk)

/-- One write of a word, with its latency. -/
theorem RegsWrittenIn.writeReg {g g1 : Gang} {ws : List RegWrite} {fl : Nat → Flags} {at' : Nat → Fibre → DWord × List (DWord × Nat)}
    (h : RegsWrittenIn g g1 ws fl at') (cyc seq lat : Nat) (lanes : List Nat) (w : RegWrite) (hw : w.sound)
    (hl : (tabFind g.fibres w.lane).isSome) :
    RegsWrittenIn g (writeReg cyc seq lat lanes g1 w) (ws ++ [w]) fl at' := by
  obtain ⟨fb0, hl0⟩ := Option.isSome_iff_exists.1 hl
  obtain ⟨fk, hk1, -, -⟩ := h.fibre w.lane fb0 hl0
  have h1 := h.storeReg w hw fb0 hl0
  unfold Machine.writeReg
  rw [hk1]
  have h2 : RegsWrittenIn g (noteWrite (Machine.storeReg g1 w.lane w.reg w.val) w.lane w.reg seq) (ws ++ [w]) fl at' := by
    unfold noteWrite
    split
    · exact h1.note _ _ (fun _ => rfl)
    · exact h1.gang rfl
    · exact h1
  simp only
  split
  · exact (h2.gang rfl).notes _ _ (fun _ => rfl)
  · exact h2.note _ _ (fun _ => rfl)

theorem RegsWrittenIn.writeRegs {g g1 : Gang} {fl : Nat → Flags} {at' : Nat → Fibre → DWord × List (DWord × Nat)} {ws0 : List RegWrite}
    (h : RegsWrittenIn g g1 ws0 fl at') (cyc seq lat : Nat) (lanes : List Nat) (ws : List RegWrite)
    (hw : ∀ w ∈ ws, w.sound ∧ (tabFind g.fibres w.lane).isSome) :
    RegsWrittenIn g (writeRegs cyc seq lat lanes g1 ws) (ws0 ++ ws) fl at' := by
  induction ws generalizing g1 ws0 with
  | nil => simpa [Machine.writeRegs] using h
  | cons w ws ih =>
    have := ih (h.writeReg cyc seq lat lanes w (hw w (by simp)).1 (hw w (by simp)).2)
      (fun x hx => hw x (List.mem_cons_of_mem _ hx))
    simpa [Machine.writeRegs] using this

/-! ### Flags -/

/-- The flags that a list gives a lane. -/
def flagsFor (fs : List (Nat × Flags)) (l : Nat) : Flags := fs.foldl (fun a x => if x.1 = l then a ||| x.2 else a) 0

theorem flagsFor_append (fs : List (Nat × Flags)) (x : Nat × Flags) (l : Nat) :
    flagsFor (fs ++ [x]) l = if x.1 = l then flagsFor fs l ||| x.2 else flagsFor fs l := by simp [flagsFor]

/-- Raising one lane's flags. -/
theorem RegsWrittenIn.flag {g g1 : Gang} {ws : List RegWrite} {fs : List (Nat × Flags)}
    {at' : Nat → Fibre → DWord × List (DWord × Nat)} (h : RegsWrittenIn g g1 ws (flagsFor fs) at') (lat : Nat)
    (x : Nat × Flags) : RegsWrittenIn g (raiseFlags lat g1 [x]) ws (flagsFor (fs ++ [x])) at' := by
  obtain ⟨k, v⟩ := x
  obtain ⟨hg, hla, hn, hf⟩ := h
  simp only [raiseFlags, List.foldl_cons, List.foldl_nil]
  split
  · rename_i hv
    subst hv
    refine ⟨hg, hla, hn, ?_⟩
    have : flagsFor (fs ++ [(k, 0#4)]) = flagsFor fs := by funext l; rw [flagsFor_append]; split <;> simp
    rw [this]; exact hf
  · refine ⟨?_, hla, ?_, ?_⟩
    · unfold modFibreG; rw [hg]
    · intro l hl
      simp only [modFibreG_fibres, tabFind_tabMod]
      split
      · subst l; simp [hn _ hl]
      · exact hn l hl
    · intro l fb hl
      obtain ⟨f1, h1, h2, h4, h3⟩ := hf l fb hl
      simp only [modFibreG_fibres, tabFind_tabMod]
      by_cases hlk : l = k
      · subst hlk
        have hfl : f1.fflags = fb.fflags ||| flagsFor fs l := by rw [h2]
        simp only [if_true, h1, Option.map_some]
        refine ⟨_, rfl, ?_, ?_, ?_⟩
        · rw [flagsFor_append, if_pos rfl, ← BitVec.or_assoc, ← hfl, h2]; rfl
        · rw [flagsFor_append, if_pos rfl, ← BitVec.or_assoc, ← h4]
          simp [allFlags, raiseFlag, FlagEv.apply]
        · intro r hr
          rw [← h3 r hr]
          exact regNow_pool rfl rfl rfl rfl rfl rfl
      · simp only [hlk, if_false]
        have hne : flagsFor (fs ++ [(k, v)]) l = flagsFor fs l := by rw [flagsFor_append, if_neg (fun h => hlk h.symm)]
        refine ⟨f1, h1, by rw [hne]; exact h2, by rw [hne]; exact h4, ?_⟩
        intro r hr; rw [← h3 r hr]; rfl

theorem RegsWrittenIn.raiseFlags {g g1 : Gang} {ws : List RegWrite} {fs0 : List (Nat × Flags)} {at' : Nat → Fibre → DWord × List (DWord × Nat)}
    (h : RegsWrittenIn g g1 ws (flagsFor fs0) at') (lat : Nat) (fs : List (Nat × Flags)) :
    RegsWrittenIn g (raiseFlags lat g1 fs) ws (flagsFor (fs0 ++ fs)) at' := by
  induction fs generalizing g1 fs0 with
  | nil => simpa [Machine.raiseFlags] using h
  | cons x fs ih =>
    have := ih (h.flag lat x)
    simpa [Machine.raiseFlags] using this

/-! ### The end of the issue -/

/-- Where fibres stand after some lanes have left an abandoned word behind, and some have gone on. -/
def pcAfter (ls done : List Nat) (pc : DWord) (l : Nat) (fb : Fibre) : DWord × List (DWord × Nat) :=
  (if l ∈ done then pc + 8 else fb.pc, if l ∈ ls then fb.owed.filter (·.1 != pc) else fb.owed)

/-- The changes of the flags that are sure are merged without a change of their sum. -/
theorem mergeFlags_all (sum : Nat) (f : Flags) (q : List FlagEv) :
    (mergeFlags sum f q).2.foldl (fun f e => e.apply f) (mergeFlags sum f q).1 = q.foldl (fun f e => e.apply f) f := by
  induction q generalizing f with
  | nil => rfl
  | cons e q ih =>
    unfold mergeFlags
    split
    · rfl
    · exact ih _

theorem allFlags_issued (cyc stall : Nat) (fb : Fibre) : allFlags (issuedFibre cyc stall fb) = allFlags fb :=
  mergeFlags_all ..

theorem RegsWrittenIn.shadows {g g1 : Gang} {ws : List RegWrite} {fl : Nat → Flags}
    {at' : Nat → Fibre → DWord × List (DWord × Nat)} (h : RegsWrittenIn g g1 ws fl at') (s : State) (gk : Nat) (before : Gang)
    (seq : Nat) (ls : List Nat) : RegsWrittenIn g (castShadows s gk before seq ls g1) ws fl at' := by
  unfold castShadows
  induction ls generalizing g1 with
  | nil => exact h
  | cons l ls ih => exact ih (h.modFibre l _ at' (fun _ _ _ => ⟨rfl, rfl, id⟩) (fun _ _ _ _ => rfl))

/-- Ending counter raises changes the outstanding issues alone. -/
theorem ctrDones_frame (cyc : Nat) (xs : List (DWord × Nat)) (g : Gang) :
    xs.foldl (fun g x => ctrDone cyc g x.2 1) g =
      { g with outs := (xs.foldl (fun g x => ctrDone cyc g x.2 1) g).outs,
               zeroAt := (xs.foldl (fun g x => ctrDone cyc g x.2 1) g).zeroAt } := by
  induction xs generalizing g with
  | nil => rfl
  | cons x xs ih => simp only [List.foldl_cons]; rw [ih]; rfl

theorem ctrDones_outs (cyc : Nat) (xs : List (DWord × Nat)) {g g' : Gang} (h : g.outs = g'.outs) :
    (xs.foldl (fun g x => ctrDone cyc g x.2 1) g).outs = (xs.foldl (fun g x => ctrDone cyc g x.2 1) g').outs := by
  induction xs generalizing g g' with
  | nil => exact h
  | cons x xs ih => exact ih (by simp only [ctrDone, h])

/-- One lane of `dropOwed`. -/
theorem dropOwed_cons (cyc : Nat) (pc : DWord) (g : Gang) (l : Nat) (ls : List Nat) :
    dropOwed cyc pc g (l :: ls) = dropOwed cyc pc (dropOwed cyc pc g [l]) ls := rfl

theorem RegsWrittenIn.drop {g g1 : Gang} {ws : List RegWrite} {fl : Nat → Flags} {done : List Nat} {pc : DWord}
    (h : RegsWrittenIn g g1 ws fl (pcAfter done [] pc)) (cyc : Nat) (ls : List Nat) :
    RegsWrittenIn g (dropOwed cyc pc g1 ls) ws fl (pcAfter (done ++ ls) [] pc) := by
  induction ls generalizing g1 done with
  | nil => simpa [dropOwed] using h
  | cons l ls ih =>
    rw [dropOwed_cons, show done ++ l :: ls = (done ++ [l]) ++ ls by simp]
    refine ih ?_
    have hother : ∀ k fb0, k ≠ l → pcAfter (done ++ [l]) [] pc k fb0 = pcAfter done [] pc k fb0 := by
      intro k fb0 hk; simp [pcAfter, hk]
    have same : (∀ fb0, tabFind g.fibres l = some fb0 → pcAfter (done ++ [l]) [] pc l fb0 = pcAfter done [] pc l fb0) →
        RegsWrittenIn g g1 ws fl (pcAfter (done ++ [l]) [] pc) := by
      intro hl
      refine ⟨h.gang_frame, h.latch, h.no_fibre, fun k fb hk => ?_⟩
      obtain ⟨f1, a1, a2, a3⟩ := h.fibre k fb hk
      refine ⟨f1, a1, ?_, a3⟩
      by_cases hkl : k = l
      · subst hkl; rw [hl fb hk]; exact a2
      · rw [hother k fb hkl]; exact a2
    simp only [dropOwed, List.foldl_cons, List.foldl_nil]
    cases hf : tabFind g1.fibres l with
    | none =>
      simp only
      refine same fun fb0 h0 => ?_
      obtain ⟨f1, a1, -⟩ := h.fibre l fb0 h0
      rw [hf] at a1; cases a1
    | some fb =>
      simp only
      split
      · rename_i he
        refine same fun fb0 h0 => ?_
        obtain ⟨f1, a1, a2, -⟩ := h.fibre l fb0 h0
        rw [hf] at a1
        obtain rfl : fb = f1 := by simpa using a1
        have ho : fb.owed = (pcAfter done [] pc l fb0).2 := by rw [a2]
        rw [List.isEmpty_iff] at he
        rw [he] at ho
        by_cases hd : l ∈ done
        · simp [pcAfter, hd]
        · simp only [pcAfter, hd, if_false] at ho
          simp [pcAfter, ← ho]
      · refine RegsWrittenIn.modFibre (h.gang (by rw [ctrDones_frame])) l _ _ (fun fb0 f h0 => ⟨rfl, rfl, fun hst => ?_⟩)
          (fun k fb0 hk _ => hother k fb0 hk)
        simp only [standing, pcAfter, List.not_mem_nil, if_false, Prod.mk.injEq] at hst ⊢
        refine ⟨hst.1, ?_⟩
        rw [hst.2]
        by_cases hd : l ∈ done <;> simp [hd, List.filter_filter]

/-- Two gangs have the same counters, and the same raises that stand for abandoned words. -/
def SameOwed (g g' : Gang) : Prop :=
  g.outs = g'.outs ∧ ∀ l, (tabFind g.fibres l).map (·.owed) = (tabFind g'.fibres l).map (·.owed)

theorem SameOwed.drop {g g' : Gang} (h : SameOwed g g') (cyc : Nat) (pc : DWord) (ls : List Nat) :
    SameOwed (dropOwed cyc pc g ls) (dropOwed cyc pc g' ls) := by
  induction ls generalizing g g' with
  | nil => exact h
  | cons l ls ih =>
    rw [dropOwed_cons, dropOwed_cons cyc pc g']
    refine ih ?_
    have hl := h.2 l
    simp only [dropOwed, List.foldl_cons, List.foldl_nil]
    cases hf : tabFind g.fibres l with
    | none =>
      cases hf' : tabFind g'.fibres l with
      | none => exact h
      | some _ => simp [hf, hf'] at hl
    | some fb =>
      cases hf' : tabFind g'.fibres l with
      | none => simp [hf, hf'] at hl
      | some fb' =>
        simp only [hf, hf', Option.map_some, Option.some.injEq] at hl
        simp only
        rw [hl]
        split
        · exact h
        · refine ⟨ctrDones_outs cyc _ h.1, fun k => ?_⟩
          have e1 := ctrDones_frame cyc (fb'.owed.filter (·.1 == pc)) g
          have e2 := ctrDones_frame cyc (fb'.owed.filter (·.1 == pc)) g'
          rw [e1, e2]
          simp only [modFibreG_fibres, tabFind_tabMod]
          split
          · rw [hf, hf']; simp [hl]
          · exact h.2 k

theorem ctrVal_drop {g g' : Gang} (h : SameOwed g g') (cyc : Nat) (pc : DWord) (ls : List Nat) (n : Nat) :
    ctrVal cyc (dropOwed cyc pc g ls) n = ctrVal cyc (dropOwed cyc pc g' ls) n := by
  simp only [ctrVal, (h.drop cyc pc ls).1]

theorem SameOwed.shadows (s : State) (gk : Nat) (before : Gang) (seq : Nat) (ls : List Nat) (g : Gang) :
    SameOwed (castShadows s gk before seq ls g) g := by
  unfold castShadows
  induction ls generalizing g with
  | nil => exact ⟨rfl, fun _ => rfl⟩
  | cons l ls ih =>
    refine ⟨(ih _).1, fun k => ((ih _).2 k).trans ?_⟩
    simp only [modFibreG_fibres, tabFind_tabMod]
    split
    · subst k; cases tabFind g.fibres l <;> rfl
    · rfl

theorem SameOwed.symm {g g' : Gang} (h : SameOwed g g') : SameOwed g' g := ⟨h.1.symm, fun l => (h.2 l).symm⟩

theorem SameOwed.trans {g g1 g2 : Gang} (h : SameOwed g g1) (h' : SameOwed g1 g2) : SameOwed g g2 :=
  ⟨h.1.trans h'.1, fun l => (h.2 l).trans (h'.2 l)⟩

/-- What only writes registers keeps the raises of abandoned words. -/
theorem RegsWrittenIn.sameOwed {g g1 : Gang} {ws : List RegWrite} {fl : Nat → Flags}
    (h : RegsWrittenIn g g1 ws fl fun _ => standing) (ho : g1.outs = g.outs) : SameOwed g1 g := by
  refine ⟨ho, fun l => ?_⟩
  cases hf : tabFind g.fibres l with
  | none => rw [h.no_fibre l hf]
  | some fb =>
    obtain ⟨f1, a1, a2, -⟩ := h.fibre l fb hf
    rw [a1, a2]; rfl

theorem RegsWrittenIn.ends {g g1 : Gang} {ws : List RegWrite} {fl : Nat → Flags} {left done : List Nat} {pc : DWord}
    (h : RegsWrittenIn g g1 ws fl (pcAfter left done pc)) (cyc stall gid seq : Nat) (ls : List Nat) :
    RegsWrittenIn g ((ls.map fun l => (l, LaneEnd.next)).foldl (endLane cyc stall gid seq pc) g1) ws fl
      (pcAfter left (done ++ ls) pc) := by
  induction ls generalizing g1 done with
  | nil => simpa using h
  | cons l ls ih =>
    have : RegsWrittenIn g (endLane cyc stall gid seq pc g1 (l, .next)) ws fl (pcAfter left (done ++ [l]) pc) := by
      refine h.modFibre l _ _ ?_ ?_
      · intro fb0 fb _
        refine ⟨rfl, allFlags_issued cyc stall fb, fun hst => ?_⟩
        simp only [standing, pcAfter, issuedFibre, Prod.mk.injEq] at hst ⊢
        exact ⟨by simp, hst.2⟩
      · intro k fb0 hk _
        simp [pcAfter, hk]
    have := ih this
    simpa using this

theorem RegsWrittenIn.split {g g1 : Gang} {ws : List RegWrite} {fl : Nat → Flags} {at' : Nat → Fibre → DWord × List (DWord × Nat)}
    (h : RegsWrittenIn g g1 ws fl at') (fresh : Nat) (ls : List Nat) : RegsWrittenIn g (splitBundle fresh ls g1) ws fl at' := by
  unfold splitBundle
  simp only
  split
  · exact h
  · rename_i hlen
    clear hlen
    generalize (List.filterMap (fun l => Option.map (fun x => x.pc) (tabFind g1.fibres l)) ls).eraseDups = pl
    induction ls generalizing g1 with
    | nil => exact h
    | cons l ls ih =>
      refine ih (h.modFibre l _ at' ?_ (fun _ _ _ _ => rfl))
      intro fb0 fb _
      split <;> exact ⟨rfl, rfl, id⟩

theorem ctrVal_congr {g g' : Gang} (cyc n : Nat) (h : g'.outs = g.outs) : ctrVal cyc g' n = ctrVal cyc g n := by
  simp [ctrVal, h]

/-- A counter's rise changes nothing of the gang but its outstanding issues. -/
theorem raise_frame (h : Hdr) (gid cyc : Nat) (k : Compl) (g : Gang) :
    raise h gid cyc k g = { g with outs := (raise h gid cyc k g).outs, zeroAt := (raise h gid cyc k g).zeroAt } := by
  unfold raise
  cases setcOf h with
  | none => rfl
  | some c =>
    cases k with
    | issue => rfl
    | cycles n => rfl
    | lanes n => by_cases hn : n = 0 <;> simp [hn, sweepOuts]

/-- The counter that SETC names rises by one at the issue of a word of fixed latency. -/
theorem ctrVal_raise (h : Hdr) (gid cyc lat : Nat) (g : Gang) (n : Nat) (hl : 0 < lat) :
    ctrVal cyc (raise h gid cyc (.cycles lat) g) n = ctrVal cyc g n + if setcOf h = some n then 1 else 0 := by
  unfold raise
  cases hs : setcOf h with
  | none => simp
  | some c =>
    simp only [ctrVal, sweepOuts, List.filter_append, List.filter_filter, List.length_append]
    congr 1
    · congr 1
      apply List.filter_congr
      intro o _
      cases (o.ctr == n) <;> simp
    · by_cases hc : c = n
      · simp [hc, hl]
      · simp [hc]

theorem outs_storeReg (g : Gang) (l : Nat) (r : RegRef) (v : Word) : (storeReg g l r v).outs = g.outs := by
  unfold storeReg; split <;> (try split) <;> rfl

theorem outs_noteWrite (g : Gang) (l : Nat) (r : RegRef) (n : Nat) : (noteWrite g l r n).outs = g.outs := by
  unfold noteWrite; split <;> rfl

theorem outs_foldl {α : Type} (f : Gang → α → Gang) (hf : ∀ g a, (f g a).outs = g.outs) (ls : List α) (g : Gang) :
    (ls.foldl f g).outs = g.outs := by
  induction ls generalizing g with
  | nil => rfl
  | cons a ls ih => rw [List.foldl_cons, ih, hf]

theorem outs_foldMod (F : Nat → Fibre → Fibre) (ls : List Nat) (g : Gang) :
    (ls.foldl (fun g l => modFibreG g l (F l)) g).outs = g.outs := outs_foldl (fun g l => modFibreG g l (F l)) (fun _ _ => rfl) ls g

theorem outs_writeReg (cyc seq lat : Nat) (lanes : List Nat) (g : Gang) (w : RegWrite) :
    (writeReg cyc seq lat lanes g w).outs = g.outs := by
  unfold writeReg
  split
  · rfl
  · simp only
    split
    · refine (outs_foldMod (fun _ f => _) _ _).trans ?_; simp [outs_noteWrite, outs_storeReg]
    · simp [modFibreG, outs_noteWrite, outs_storeReg]

theorem outs_writeRegs (cyc seq lat : Nat) (lanes : List Nat) (g : Gang) (ws : List RegWrite) :
    (writeRegs cyc seq lat lanes g ws).outs = g.outs := outs_foldl _ (outs_writeReg cyc seq lat lanes) ws g

theorem outs_raiseFlags (lat : Nat) (g : Gang) (fs : List (Nat × Flags)) : (raiseFlags lat g fs).outs = g.outs := by
  unfold raiseFlags
  apply outs_foldl
  intro g x
  split <;> rfl

theorem outs_endNext (cyc stall gid seq : Nat) (pc : DWord) (g : Gang) (ls : List Nat) :
    ((ls.map fun l => (l, LaneEnd.next)).foldl (endLane cyc stall gid seq pc) g).outs = g.outs := by
  induction ls generalizing g with
  | nil => rfl
  | cons l ls ih => simp only [List.map_cons, List.foldl_cons]; rw [ih]; rfl

theorem outs_splitBundle (fresh : Nat) (ls : List Nat) (g : Gang) : (splitBundle fresh ls g).outs = g.outs := by
  unfold splitBundle; simp only; split
  · rfl
  · exact outs_foldMod (fun _ f => _) _ _

theorem endTraps_next (gk : Nat) (pc : DWord) (later : Option Nat) (s : State) (ls : List Nat) :
    endTraps gk pc later s (ls.map fun l => (l, LaneEnd.next)) = s := by
  unfold endTraps
  induction ls with
  | nil => rfl
  | cons l ls ih => simpa using ih

theorem someDone_next (ls : List Nat) (h : ls ≠ []) : someDone (ls.map fun l => (l, LaneEnd.next)) = true := by
  cases ls with
  | nil => exact absurd rfl h
  | cons l ls => simp [someDone]

theorem leaving_next (lanes ls : List Nat) : leaving lanes (ls.map fun l => (l, LaneEnd.next)) = lanes := by
  simp [leaving]

theorem insertFree_perm {α : Type} (k : Nat) (x : α) (xs : List α) : (insertFree k x xs).Perm (x :: xs) := by
  induction xs generalizing k with
  | nil => exact .refl _
  | cons y ys ih =>
    unfold insertFree
    split
    · exact .refl _
    · exact ((ih (k - 1)).cons y).trans (.swap x y ys)

theorem shuffle_perm {α : Type} (idx : Nat) (xs : List α) : (shuffle idx xs).Perm xs := by
  induction xs with
  | nil => exact .refl _
  | cons x xs ih => exact (insertFree_perm _ x _).trans (ih.cons x)

/-- The order of a word's writes is one of their permutations. -/
theorem orderWrites_perm (s : State) (g : Gang) (ws : List RegWrite) : (orderWrites s g ws).Perm ws := by
  unfold orderWrites
  split
  · exact .refl _
  · exact shuffle_perm ..

theorem gangOf_modGang (s : State) (gk k : Nat) (f : Gang → Gang) :
    gangOf (modGang s gk f) k = if k = gk then (gangOf s gk).map f else gangOf s k := by
  simp [gangOf, modGang, tabFind_tabMod]

/-- The one law of a word that only writes registers: from `Issues`, it ends in a next state as `RegWord` says. -/
theorem runWord_regPlan {w : WordSpec} {s : State} {b : Bundle} {g : Gang} {lat : Nat} {ws : List RegWrite}
    {fs : List (Nat × Flags)}
    (hi : Issues s b g w.hdr w.names (w.reads s g) w.attach)
    (he : w.early s g b.lanes = none) (hw : w.wait (wordCtx s b g w.hdr) s = false) (hlat : 0 < lat)
    (hb : w.body (wordCtx s b g w.hdr) s = regPlan s (wordCtx s b g w.hdr) lat ws fs)
    (hs : ∀ x ∈ ws, x.sound ∧ x.lane ∈ b.lanes) :
    ∃ t, runWord w s = .next t ∧ RegWord s t b g w.hdr ws (flagsFor fs) := by
  refine ⟨_, runWord_issues hi he hw, ?_⟩
  rw [hb]
  have hon : guardLanes s b g w.hdr ≠ [] := hi.some_lane
  generalize hc : wordCtx s b g w.hdr = c
  have hcg : c.g = g := by rw [← hc]; rfl
  have hcgk : c.gk = b.gang := by rw [← hc]; rfl
  have hcl : c.lanes = b.lanes := by rw [← hc]; rfl
  have hcpc : c.pc = b.pc := by rw [← hc]; rfl
  have hcc : c.cyc = cycOf s g.core := by rw [← hc]; rfl
  have hco : c.on = guardLanes s b g w.hdr := by rw [← hc]; rfl
  have hne : c.on ≠ [] := by rw [hco]; exact hon
  have hsub : ∀ x ∈ c.on, x ∈ c.lanes := by
    rw [hco, hcl]; intro x hx; exact (List.mem_filter.1 hx).1
  obtain ⟨all, hall⟩ : ∃ all, all = c.on ++ c.lanes.filter fun l => !c.on.contains l := ⟨_, rfl⟩
  obtain ⟨g1, hg1⟩ : ∃ g1, g1 = raiseFlags lat (writeRegs c.cyc c.seq lat c.on g (orderWrites s c.g ws)) fs := ⟨_, rfl⟩
  obtain ⟨p, hp⟩ : ∃ p, p = writeBack s c lat ws fs := ⟨_, rfl⟩
  obtain ⟨G0, hG0⟩ : ∃ G0, G0 = dropOwed c.cyc c.pc (castShadows p c.gk c.g c.seq c.lanes g1) c.lanes := ⟨_, rfl⟩
  obtain ⟨G, hG⟩ : ∃ G, G = raise w.hdr c.seq c.cyc (.cycles lat)
        ((all.map fun l => (l, LaneEnd.next)).foldl (endLane c.cyc w.hdr.stall.toNat c.seq c.seq c.pc) G0) := ⟨_, rfl⟩
  have hst : ∃ s1 : State, finishWord w.hdr c (regPlan s c lat ws fs) =
      { s1 with issue := none, nextId := s1.nextId + 66, free := s1.free + 1 } ∧
      s1 = { s with gangs := s1.gangs } ∧ (∀ k, k ≠ b.gang → gangOf s1 k = gangOf s k) ∧
      gangOf s1 b.gang = some (splitBundle (c.seq + 1) c.lanes
        { G with begun := G.begun || beginsNow c (c.on.map fun l => (l, LaneEnd.next)) }) := by
    unfold finishWord
    simp only [regPlan, allNext, ← List.map_append, ← hall, endTraps_next, leaving_next, someDone_next _ hne, if_true]
    refine ⟨_, rfl, rfl, ?_, ?_⟩
    · intro k hk
      simp [gangOf_modGang, hcgk, hk, writeBack]
    · simp only [gangOf_modGang, hcgk, if_true, writeBack, hi.gang, Option.map_some, hG, hG0, hg1, hp]
  obtain ⟨s1, hf1, hf2, hf3, hf4⟩ := hst
  have hs' : ∀ x ∈ orderWrites s c.g ws, x.sound ∧ x.lane ∈ b.lanes := fun x hx => hs x ((orderWrites_perm ..).mem_iff.1 hx)
  have hr : RegsWrittenIn g g [] (flagsFor []) fun _ => standing := by
    refine ⟨rfl, .inr ⟨fun _ _ => ?_, rfl⟩, fun _ h => h, fun l fb h => ⟨fb, h, ?_, ?_, fun r _ => rfl⟩⟩
    · rintro ⟨_, h, -⟩; cases h
    · simp [flagsFor, standing]
    · simp [flagsFor]
  have h1 := hr.writeRegs c.cyc c.seq lat c.on (orderWrites s c.g ws) (fun x hx => ⟨(hs' x hx).1, hi.fibres _ (hs' x hx).2⟩)
  have h2 : RegsWrittenIn g g1 (orderWrites s c.g ws) (flagsFor fs) fun _ => standing := by
    rw [hg1]; exact h1.raiseFlags lat fs
  have houts : g1.outs = g.outs := by rw [hg1, outs_raiseFlags, outs_writeRegs]
  rw [hf1]
  refine ⟨?_, hf3, _, hf4, ?_, ?_⟩
  · rw [hf2]
  · refine ⟨orderWrites s c.g ws, orderWrites_perm .., ?_⟩
    apply RegsWrittenIn.split
    have h3 := h2.shadows p c.gk c.g c.seq c.lanes
    have e0 : (fun _ => standing) = pcAfter [] [] c.pc := by funext l fb; simp [standing, pcAfter]
    rw [e0] at h3
    have h4 := (h3.drop c.cyc c.lanes).ends c.cyc w.hdr.stall.toNat c.seq c.seq all
    rw [← hG0] at h4
    have h5 := h4.gang (g2 := G) (by rw [hG, raise_frame])
    have h6 := h5.gang (g2 := { G with begun := G.begun || beginsNow c (c.on.map fun l => (l, LaneEnd.next)) }) rfl
    have e1 : pcAfter ([] ++ c.lanes) ([] ++ all) c.pc = goneOn b := by
      funext l fb
      rw [hcpc, hcl, hall, hcl]
      simp only [List.nil_append, pcAfter, goneOn, standing]
      by_cases hm : l ∈ b.lanes
      · by_cases ho : l ∈ c.on <;> simp [hm, ho]
      · have : l ∉ c.on := fun h => hm (hcl ▸ hsub l h)
        simp [hm, this]
    rw [e1] at h6
    exact h6
  · intro n
    refine Eq.trans (b := ctrVal (cycOf s g.core) G n) (ctrVal_congr _ _ (by rw [outs_splitBundle])) ?_
    rw [hG, ← hcc, ctrVal_raise _ _ _ _ _ _ hlat]
    congr 1
    rw [ctrVal_congr _ _ (outs_endNext ..), hG0, ctrVal_drop (((SameOwed.shadows ..).trans (h2.sameOwed houts)))]
    rw [hcc, hcpc, hcl]; rfl

/-! ### Words of one result -/

theorem lowest_mem {s : State} {b : Bundle} {g : Gang} {h : Hdr} (hne : guardLanes s b g h ≠ []) :
    lowest (wordCtx s b g h) ∈ b.lanes := by
  have : (wordCtx s b g h).on = guardLanes s b g h := rfl
  unfold lowest
  rw [this]
  cases hg : guardLanes s b g h with
  | nil => exact absurd hg hne
  | cons l ls =>
    have : l ∈ guardLanes s b g h := by simp [hg]
    exact (List.mem_filter.1 this).1

theorem dstLanes_mem {s : State} {b : Bundle} {g : Gang} {h : Hdr} (hne : guardLanes s b g h ≠ []) (d : Opnd) :
    ∀ l ∈ dstLanes (wordCtx s b g h) d, l ∈ b.lanes := by
  intro l hl
  unfold dstLanes at hl
  split at hl
  · simp at hl; subst hl; exact lowest_mem hne
  · exact (List.mem_filter.1 hl).1

theorem opRef_sound (d : Opnd) (l : Nat) (v : Word) : (oneWrite d l v).sound := by
  unfold oneWrite RegWrite.sound opRef RegRef.names
  cases d.s <;> simp

theorem flagsFor_zero (ls : List Nat) : flagsFor (ls.map fun l => (l, 0#4)) = noFlags := by
  funext l
  unfold flagsFor noFlags
  induction ls with
  | nil => rfl
  | cons a ls ih => simp only [List.map_cons, List.foldl_cons]; split <;> simpa using ih

/-- A word with one result per lane, under `Issues`. -/
theorem laneSpec_run {h : Hdr} {lat : Nat} {d : Opnd} {names : List Nat} {reads : List RegRef}
    {f : State → Ctx → Nat → Word × Flags} {s : State} {b : Bundle} {g : Gang} (hl : 0 < lat)
    (hi : Issues s b g h (opNames d 1 ++ names) (fun _ => reads)) :
    ∃ t, runWord (laneSpec h lat d names reads f) s = .next t ∧
      RegWord s t b g h (oneResult s b g h d fun c l => (f s c l).1)
        (flagsFor ((dstLanes (wordCtx s b g h) d).map fun l => (l, (f s (wordCtx s b g h) l).2))) := by
  refine runWord_regPlan (w := laneSpec h lat d names reads f) (lat := lat) hi rfl rfl hl ?_ ?_
  · simp [laneSpec, oneResult, List.map_map, Function.comp_def]
  · intro x hx
    simp only [oneResult, List.mem_map] at hx
    obtain ⟨l, hl, rfl⟩ := hx
    exact ⟨opRef_sound .., dstLanes_mem hi.some_lane d l hl⟩

theorem binSpec_run {h : Hdr} {d x y : Opnd} {f f' : Word → Word → Word} {s : State} {b : Bundle} {g : Gang}
    (hf : ∀ x y, f x y = f' x y)
    (hi : Issues s b g h (opNames d 1 ++ opNames x 1 ++ opNames y 1) (fun _ => opReads x 1 ++ opReads y 1)) :
    ∃ t, runWord (binSpec h d x y f) s = .next t ∧
      RegWord s t b g h (oneResult s b g h d fun c l => f' (rd s c l x) (rd s c l y)) noFlags := by
  have : f = f' := by funext x y; exact hf x y
  subst this
  have := laneSpec_run (h := h) (lat := 4) (d := d) (names := opNames x 1 ++ opNames y 1) (reads := opReads x 1 ++ opReads y 1)
    (f := fun s c l => (f (rd s c l x) (rd s c l y), 0)) (s := s) (b := b) (g := g) (by decide) (by simpa using hi)
  simpa [binSpec, flagsFor_zero (dstLanes (wordCtx s b g h) d)] using this

theorem triSpec_run {h : Hdr} {d x y : Opnd} {f f' : Word → Word → Word → Word} {s : State} {b : Bundle} {g : Gang}
    (hf : ∀ x y z, f x y z = f' x y z)
    (hi : Issues s b g h (opNames d 1 ++ opNames x 1 ++ opNames y 1) (fun _ => opReads x 1 ++ opReads y 1 ++ opReads d 1)) :
    ∃ t, runWord (triSpec h d x y f) s = .next t ∧
      RegWord s t b g h (oneResult s b g h d fun c l => f' (rd s c l x) (rd s c l y) (rd s c l d)) noFlags := by
  have : f = f' := by funext x y z; exact hf x y z
  subst this
  have := laneSpec_run (h := h) (lat := 4) (d := d) (names := opNames x 1 ++ opNames y 1)
    (reads := opReads x 1 ++ opReads y 1 ++ opReads d 1)
    (f := fun s c l => (f (rd s c l x) (rd s c l y) (rd s c l d), 0)) (s := s) (b := b) (g := g) (by decide) (by simpa using hi)
  simpa [triSpec, flagsFor_zero (dstLanes (wordCtx s b g h) d)] using this

theorem unSpec_run {h : Hdr} {d x : Opnd} {f f' : Word → Word} {s : State} {b : Bundle} {g : Gang}
    (hf : ∀ x, f x = f' x)
    (hi : Issues s b g h (opNames d 1 ++ opNames x 1) (fun _ => opReads x 1)) :
    ∃ t, runWord (unSpec h d x f) s = .next t ∧
      RegWord s t b g h (oneResult s b g h d fun c l => f' (rd s c l x)) noFlags := by
  have : f = f' := by funext x; exact hf x
  subst this
  have := laneSpec_run (h := h) (lat := 4) (d := d) (names := opNames x 1) (reads := opReads x 1)
    (f := fun s c l => (f (rd s c l x), 0)) (s := s) (b := b) (g := g) (by decide) (by simpa using hi)
  simpa [unSpec, flagsFor_zero (dstLanes (wordCtx s b g h) d)] using this

/-- A word that is `binSpec` of a function computes it. -/
theorem computes2_of {mk : Hdr → Opnd → Opnd → Opnd → Instr} (f : Word → Word → Word) {f' : Word → Word → Word}
    (hm : ∀ h d x y s, exec (mk h d x y) s = runWord (binSpec h d x y f) s) (hf : ∀ x y, f x y = f' x y) : Computes2 mk f' :=
  fun s b g h d x y hi => by rw [hm]; exact binSpec_run hf hi

theorem computes1_of {mk : Hdr → Opnd → Opnd → Instr} (f : Word → Word) {f' : Word → Word}
    (hm : ∀ h d x s, exec (mk h d x) s = runWord (unSpec h d x f) s) (hf : ∀ x, f x = f' x) : Computes1 mk f' :=
  fun s b g h d x hi => by rw [hm]; exact unSpec_run hf hi

theorem computes3_of {mk : Hdr → Opnd → Opnd → Opnd → Instr} (f : Word → Word → Word → Word) {f' : Word → Word → Word → Word}
    (hm : ∀ h d x y s, exec (mk h d x y) s = runWord (triSpec h d x y f) s) (hf : ∀ x y z, f x y z = f' x y z) :
    Computes3 mk f' :=
  fun s b g h d x y hi => by rw [hm]; exact triSpec_run hf hi

/-! ### Words that execute as `Executes` says -/

theorem dstLanes_nodup {s : State} {b : Bundle} {g : Gang} {h : Hdr} (hb : b.lanes.Pairwise (· < ·)) (d : Opnd) :
    (dstLanes (wordCtx s b g h) d).Nodup := by
  unfold dstLanes
  split
  · simp
  · exact (hb.imp fun h => Nat.ne_of_lt h).filter _

theorem flagsFor_not_mem (ls : List Nat) (f : Nat → Flags) (l : Nat) (h : l ∉ ls) :
    flagsFor (ls.map fun l => (l, f l)) l = 0 := by
  unfold flagsFor
  generalize (0 : Flags) = z
  induction ls generalizing z with
  | nil => rfl
  | cons a ls ih =>
    simp only [List.mem_cons, not_or] at h
    simp only [List.map_cons, List.foldl_cons, if_neg (fun e : a = l => h.1 e.symm)]
    exact ih h.2 _

/-- The flags of lanes that are listed once. -/
theorem flagsFor_map (ls : List Nat) (f : Nat → Flags) (h : ls.Nodup) :
    flagsFor (ls.map fun l => (l, f l)) = fun l => if l ∈ ls then f l else 0 := by
  funext l
  by_cases hm : l ∈ ls
  · rw [if_pos hm]
    obtain ⟨xs, ys, rfl⟩ := List.append_of_mem hm
    have h1 : l ∉ xs := by
      intro hx
      have := (List.nodup_append.1 h).2.2 l hx l (by simp)
      exact this rfl
    have h2 : l ∉ ys := (List.nodup_cons.1 (List.nodup_append.1 h).2.1).1
    have e1 := flagsFor_not_mem xs f l h1
    have e2 := flagsFor_not_mem ys f l h2
    unfold flagsFor at e1 e2 ⊢
    rw [List.map_append, List.foldl_append, e1]
    simp only [List.map_cons, List.foldl_cons, if_true]
    generalize hz : ((0 : Flags) ||| f l) = z
    have hz' : z = f l := by rw [← hz]; simp
    rw [hz']
    clear hz hz' e1 e2 h hm h1
    generalize f l = v
    induction ys generalizing v with
    | nil => rfl
    | cons a ys ih =>
      simp only [List.mem_cons, not_or] at h2
      simp only [List.map_cons, List.foldl_cons, if_neg (fun e : a = l => h2.1 e.symm)]
      exact ih h2.2 v
  · rw [if_neg hm]; exact flagsFor_not_mem ls f l hm

/-- The one law of words that write registers with a fixed latency. -/
theorem executes_of {i : Instr} {w : WordSpec} {reads : Gang → Nat → List RegRef} {ws : State → Ctx → List RegWrite}
    {fl : State → Ctx → Nat → Flags} (fs : State → Ctx → List (Nat × Flags)) (lat : Ctx → Nat)
    (hm : ∀ s, exec i s = runWord w s) (he : ∀ s g ls, w.early s g ls = none) (hw : ∀ c s, w.wait c s = false)
    (hr : ∀ s g, w.reads s g = reads g) (ha : w.attach = false) (hl : ∀ c, 0 < lat c)
    (hb : ∀ s b g, Issues s b g w.hdr w.names (reads g) → w.body (wordCtx s b g w.hdr) s =
      regPlan s (wordCtx s b g w.hdr) (lat (wordCtx s b g w.hdr)) (ws s (wordCtx s b g w.hdr)) (fs s (wordCtx s b g w.hdr)))
    (hs : ∀ s b g, Issues s b g w.hdr w.names (reads g) →
      ∀ x ∈ ws s (wordCtx s b g w.hdr), x.sound ∧ x.lane ∈ b.lanes)
    (hf : ∀ s b g, Issues s b g w.hdr w.names (reads g) →
      flagsFor (fs s (wordCtx s b g w.hdr)) = fl s (wordCtx s b g w.hdr)) :
    Executes i w.hdr w.names reads ws fl := by
  intro s b g hi
  rw [hm, ← hf s b g hi]
  exact runWord_regPlan (by rw [hr, ha]; exact hi) (he ..) (hw ..) (hl _) (hb s b g hi) (hs s b g hi)

/-- Words of one result. -/
theorem results_of {i : Instr} {h : Hdr} {lat : Nat} {d : Opnd} {names : List Nat} {reads : List RegRef}
    {f f' : State → Ctx → Nat → Word × Flags} (hm : ∀ s, exec i s = runWord (laneSpec h lat d names reads f) s)
    (hl : 0 < lat) (hf : ∀ s c l, f s c l = f' s c l) : Results i h d names reads f' := by
  have : f = f' := by funext s c l; exact hf s c l
  subst this
  intro s b g hi
  have := laneSpec_run (f := f) hl hi
  rw [hm]
  rw [flagsFor_map _ _ (dstLanes_nodup hi.ascending d)] at this
  exact this

/-- A write of one v register in a guard-true lane is sound. -/
theorem on_mem {s : State} {b : Bundle} {g : Gang} {h : Hdr} {l : Nat} (hl : l ∈ (wordCtx s b g h).on) : l ∈ b.lanes :=
  (List.mem_filter.1 hl).1

end Sys2Proof.Machine
end

