-- ==== Sys2Proof/Laws/Ends.lean ====
section
/-! SUPPORT. The one law of the end of an issue: what `finishWord` leaves, whatever the word did before. -/

namespace Sys2Proof.Machine

/-- What one lane's end does to its fibre before traps are taken. -/
def endFibre (cyc stall gid seq : Nat) (pc : DWord) (e : LaneEnd) (fb : Fibre) : Fibre := match e with
  | .next => { issuedFibre cyc stall fb with pc := pc + 8 }
  | .goto t => { issuedFibre cyc stall fb with pc := t }
  | .hold why => { fb with held := some { why, stall, gid, seq } }
  | .trap t => if t.next then issuedFibre cyc stall fb else fb
  | .stay => fb
  | .ended => fb

theorem endLane_find (cyc stall gid seq : Nat) (pc : DWord) (g : Gang) (l : Nat) (e : LaneEnd) (k : Nat) :
    tabFind (endLane cyc stall gid seq pc g (l, e)).fibres k =
      if k = l then (tabFind g.fibres l).map (endFibre cyc stall gid seq pc e) else tabFind g.fibres k := by
  unfold endLane endFibre
  cases e with
  | trap t =>
    simp only
    cases t.next <;> simp [tabFind_tabMod]
    intro hk; rw [hk]
  | stay => simp only; split <;> simp_all
  | ended => simp only; split <;> simp_all
  | _ => simp [tabFind_tabMod]

theorem endLane_frame (cyc stall gid seq : Nat) (pc : DWord) (g : Gang) (x : Nat × LaneEnd) :
    endLane cyc stall gid seq pc g x = { g with fibres := (endLane cyc stall gid seq pc g x).fibres } := by
  obtain ⟨l, e⟩ := x
  unfold endLane
  cases e with
  | trap t => simp only; cases t.next <;> simp [modFibreG]
  | _ => rfl

/-- The ends of distinct lanes, one after another. -/
theorem endLanes (cyc stall gid seq : Nat) (pc : DWord) (xs : List (Nat × LaneEnd)) (g : Gang)
    (hd : (xs.map (·.1)).Nodup) :
    let g' := xs.foldl (endLane cyc stall gid seq pc) g
    g' = { g with fibres := g'.fibres } ∧
    (∀ k, k ∉ xs.map (·.1) → tabFind g'.fibres k = tabFind g.fibres k) ∧
    ∀ x ∈ xs, tabFind g'.fibres x.1 = (tabFind g.fibres x.1).map (endFibre cyc stall gid seq pc x.2) := by
  induction xs generalizing g with
  | nil => exact ⟨rfl, fun _ _ => rfl, fun _ h => nomatch h⟩
  | cons x xs ih =>
    obtain ⟨l, e⟩ := x
    simp only [List.map_cons, List.nodup_cons] at hd
    obtain ⟨h1, h2, h3⟩ := ih (endLane cyc stall gid seq pc g (l, e)) hd.2
    refine ⟨?_, ?_, ?_⟩
    · simp only [List.foldl_cons]
      rw [h1, endLane_frame]
    · intro k hk
      simp only [List.map_cons, List.mem_cons, not_or] at hk
      simp only [List.foldl_cons]
      rw [h2 k hk.2, endLane_find, if_neg hk.1]
    · intro x hx
      simp only [List.foldl_cons]
      rcases List.mem_cons.1 hx with rfl | hx
      · rw [h2 l hd.1, endLane_find, if_pos rfl]
      · rw [h3 x hx, endLane_find, if_neg]
        intro e; exact hd.1 (e ▸ List.mem_map_of_mem hx)

/-- The fibre after its trap has been taken, or noted. -/
def trapFibre (tvec pc : DWord) (later : Option Nat) (e : LaneEnd) (fb : Fibre) : Fibre := match e, later with
  | .trap t, none => enterHandler tvec pc (returnPoint pc t) t fb
  | .trap t, some seq =>
    { fb with late := (fb.late.filter (·.seq ≤ seq)) ++ { seq, pc, info := t, waits := false } :: fb.late.filter (seq < ·.seq) }
  | _, _ => fb

theorem endTraps_noTrap (gk : Nat) (pc : DWord) (later : Option Nat) (s : State) (xs : List (Nat × LaneEnd))
    (h : ∀ x ∈ xs, ∀ t, x.2 ≠ .trap t) : endTraps gk pc later s xs = s := by
  unfold endTraps
  induction xs with
  | nil => rfl
  | cons x xs ih =>
    obtain ⟨l, e⟩ := x
    have ih := ih fun y hy => h y (List.mem_cons_of_mem _ hy)
    cases e with
    | trap t => exact absurd rfl (h (l, .trap t) (by simp) t)
    | _ => exact ih

/-- The trap of one lane. -/
def oneTrap (gk : Nat) (pc : DWord) (later : Option Nat) (s : State) (e : Nat × LaneEnd) : State := match e.2, later with
  | .trap t, none => takeTrap s gk e.1 pc (returnPoint pc t) t
  | .trap t, some seq => addLate s gk e.1 seq pc t
  | _, _ => s

theorem endTraps_fold (gk : Nat) (pc : DWord) (later : Option Nat) (s : State) (xs : List (Nat × LaneEnd)) :
    endTraps gk pc later s xs = xs.foldl (oneTrap gk pc later) s := rfl

/-- The trap of one lane that enters its handler, or whose trap is noted. -/
theorem oneTrap_law (gk : Nat) (pc : DWord) (later : Option Nat) (l : Nat) (e : LaneEnd) (s : State) (g : Gang) (c : Crew)
    (hg : gangOf s gk = some g) (hc : crewOf s (crewOfGang gk) = some c)
    (ht : ∀ t, e = .trap t → later = none → c.tvec ≠ 0 ∧ ∀ fb, tabFind g.fibres l = some fb → fb.handler = false) :
    ∃ g1, oneTrap gk pc later s (l, e) = { s with gangs := (oneTrap gk pc later s (l, e)).gangs } ∧
      (∀ k, k ≠ gk → gangOf (oneTrap gk pc later s (l, e)) k = gangOf s k) ∧
      gangOf (oneTrap gk pc later s (l, e)) gk = some g1 ∧ g1 = { g with fibres := g1.fibres } ∧
      ∀ k, tabFind g1.fibres k =
        if k = l then (tabFind g.fibres l).map (trapFibre c.tvec pc later e) else tabFind g.fibres k := by
  have triv : oneTrap gk pc later s (l, e) = s → ((tabFind g.fibres l).map (trapFibre c.tvec pc later e) = tabFind g.fibres l) →
      ∃ g1, oneTrap gk pc later s (l, e) = { s with gangs := (oneTrap gk pc later s (l, e)).gangs } ∧
      (∀ k, k ≠ gk → gangOf (oneTrap gk pc later s (l, e)) k = gangOf s k) ∧
      gangOf (oneTrap gk pc later s (l, e)) gk = some g1 ∧ g1 = { g with fibres := g1.fibres } ∧
      ∀ k, tabFind g1.fibres k =
        if k = l then (tabFind g.fibres l).map (trapFibre c.tvec pc later e) else tabFind g.fibres k := by
    intro h1 h2
    rw [h1]
    refine ⟨g, rfl, fun _ _ => rfl, hg, rfl, fun k => ?_⟩
    split
    · subst k; exact h2.symm
    · rfl
  have change : ∀ f : Fibre → Fibre, oneTrap gk pc later s (l, e) = modFibre s gk l f → trapFibre c.tvec pc later e = f →
      ∃ g1, oneTrap gk pc later s (l, e) = { s with gangs := (oneTrap gk pc later s (l, e)).gangs } ∧
      (∀ k, k ≠ gk → gangOf (oneTrap gk pc later s (l, e)) k = gangOf s k) ∧
      gangOf (oneTrap gk pc later s (l, e)) gk = some g1 ∧ g1 = { g with fibres := g1.fibres } ∧
      ∀ k, tabFind g1.fibres k =
        if k = l then (tabFind g.fibres l).map (trapFibre c.tvec pc later e) else tabFind g.fibres k := by
    intro f h1 h2
    rw [h1, h2]
    refine ⟨modFibreG g l f, rfl, fun k hk => ?_, ?_, rfl, fun k => ?_⟩
    · simp [modFibre, gangOf_modGang, hk]
    · simp [modFibre, gangOf_modGang, hg]
    · simp only [modFibreG_fibres, tabFind_tabMod]
  cases e with
  | trap t =>
    cases later with
    | some seq => exact change _ rfl rfl
    | none =>
      obtain ⟨hv, hh⟩ := ht t rfl rfl
      cases hf : tabFind g.fibres l with
      | none => rw [hf] at triv; exact triv (by simp [oneTrap, takeTrap, hg, hc, hf]) rfl
      | some fb =>
        rw [hf] at change
        have hno : (fb.handler || decide (c.tvec = 0)) = false := by rw [hh fb hf]; simpa using hv
        exact change (enterHandler c.tvec pc (returnPoint pc t) t) (by simp only [oneTrap, takeTrap, hg, hc, hf, hno, Bool.false_eq_true, if_false]) rfl
  | _ => exact triv rfl (by cases tabFind g.fibres l <;> rfl)

/-- Traps of distinct lanes that all enter their handlers, or are all noted. -/
theorem endTraps_enter (gk : Nat) (pc : DWord) (later : Option Nat) (xs : List (Nat × LaneEnd)) (s : State) (g : Gang) (c : Crew)
    (hg : gangOf s gk = some g) (hc : crewOf s (crewOfGang gk) = some c) (hd : (xs.map (·.1)).Nodup)
    (ht : ∀ x ∈ xs, ∀ t, x.2 = .trap t → later = none →
      c.tvec ≠ 0 ∧ ∀ fb, tabFind g.fibres x.1 = some fb → fb.handler = false) :
    ∃ g', endTraps gk pc later s xs = { s with gangs := (endTraps gk pc later s xs).gangs } ∧
      (∀ k, k ≠ gk → gangOf (endTraps gk pc later s xs) k = gangOf s k) ∧ gangOf (endTraps gk pc later s xs) gk = some g' ∧
      g' = { g with fibres := g'.fibres } ∧
      (∀ k, k ∉ xs.map (·.1) → tabFind g'.fibres k = tabFind g.fibres k) ∧
      ∀ x ∈ xs, tabFind g'.fibres x.1 = (tabFind g.fibres x.1).map (trapFibre c.tvec pc later x.2) := by
  simp only [endTraps_fold]
  induction xs generalizing s g with
  | nil => exact ⟨g, rfl, fun _ _ => rfl, hg, rfl, fun _ _ => rfl, fun _ h => nomatch h⟩
  | cons x xs ih =>
    obtain ⟨l, e⟩ := x
    simp only [List.map_cons, List.nodup_cons] at hd
    obtain ⟨g1, a1, a2, a3, a4, a5⟩ := oneTrap_law gk pc later l e s g c hg hc fun t => ht (l, e) (by simp) t
    generalize hs1 : oneTrap gk pc later s (l, e) = s1 at a1 a2 a3
    have hc1 : crewOf s1 (crewOfGang gk) = some c := by rw [a1]; exact hc
    obtain ⟨g', b1, b2, b3, b4, b5, b6⟩ := ih s1 g1 a3 hc1 hd.2 (by
      intro x hx t hxt hn
      obtain ⟨h1, h2⟩ := ht x (List.mem_cons_of_mem _ hx) t hxt hn
      refine ⟨h1, fun fb hfb => h2 fb ?_⟩
      rw [a5, if_neg] at hfb
      · exact hfb
      · intro e; exact hd.1 (e ▸ List.mem_map_of_mem hx))
    rw [List.foldl_cons, hs1]
    refine ⟨g', ?_, ?_, b3, ?_, ?_, ?_⟩
    · rw [b1, a1]
    · intro k hk; rw [b2 k hk, a2 k hk]
    · rw [b4, a4]
    · intro k hk
      simp only [List.map_cons, List.mem_cons, not_or] at hk
      rw [b5 k hk.2, a5, if_neg hk.1]
    · intro x hx
      rcases List.mem_cons.1 hx with rfl | hx
      · rw [b5 l hd.1, a5, if_pos rfl]
      · rw [b6 x hx, a5, if_neg]
        intro e; exact hd.1 (e ▸ List.mem_map_of_mem hx)

theorem splitBundle_find (fresh : Nat) (ls : List Nat) (g : Gang) (k : Nat) :
    splitBundle fresh ls g = { g with fibres := (splitBundle fresh ls g).fibres } ∧
    ((tabFind g.fibres k = none → tabFind (splitBundle fresh ls g).fibres k = none) ∧
    ∀ fb, tabFind g.fibres k = some fb → ∃ fb', tabFind (splitBundle fresh ls g).fibres k = some fb' ∧
      fb' = { fb with bun := fb'.bun } ∧ (k ∉ ls → fb' = fb)) := by
  unfold splitBundle
  simp only
  split
  · exact ⟨rfl, fun h => h, fun fb h => ⟨fb, h, rfl, fun _ => rfl⟩⟩
  · rename_i hlen
    clear hlen
    generalize (List.filterMap (fun l => Option.map (fun x => x.pc) (tabFind g.fibres l)) ls).eraseDups = pl
    induction ls generalizing g with
    | nil => exact ⟨rfl, fun h => h, fun fb h => ⟨fb, h, rfl, fun _ => rfl⟩⟩
    | cons l ls ih =>
      simp only [List.foldl_cons]
      generalize hg1 : modFibreG g l _ = g1
      obtain ⟨h1, h2, h3⟩ := ih g1
      have hfr : g1 = { g with fibres := g1.fibres } := by rw [← hg1]; rfl
      have hfi : ∀ k, tabFind g1.fibres k = if k = l then (tabFind g.fibres l).map (fun f =>
          if f.bun = 0 then f else { f with bun := fresh + pl.findIdx (· == f.pc) }) else tabFind g.fibres k := by
        intro k; rw [← hg1]; simp [tabFind_tabMod]
      refine ⟨by rw [h1, hfr], ?_, ?_⟩
      · intro hn; apply h2; rw [hfi]
        split
        · subst k; rw [hn]; rfl
        · exact hn
      · intro fb hfb
        by_cases hk : k = l
        · subst hk
          obtain ⟨fb', b1, b2, b3⟩ := h3 (if fb.bun = 0 then fb else { fb with bun := fresh + pl.findIdx (· == fb.pc) })
            (by rw [hfi, if_pos rfl, hfb]; rfl)
          refine ⟨fb', b1, ?_, fun hn => absurd (List.mem_cons_self ..) hn⟩
          rw [b2]; split <;> rfl
        · obtain ⟨fb', b1, b2, b3⟩ := h3 fb (by rw [hfi, if_neg hk]; exact hfb)
          refine ⟨fb', b1, b2, fun hn => b3 fun hm => hn (List.mem_cons_of_mem _ hm)⟩

/-- Shadows are cast in the lanes alone, and change nothing else. -/
theorem castShadows_find (s : State) (gk : Nat) (before : Gang) (seq : Nat) (ls : List Nat) (g : Gang) :
    castShadows s gk before seq ls g = { g with fibres := (castShadows s gk before seq ls g).fibres } ∧
    ∀ k, (tabFind g.fibres k = none → tabFind (castShadows s gk before seq ls g).fibres k = none) ∧
      ∀ fb, tabFind g.fibres k = some fb → ∃ fb', tabFind (castShadows s gk before seq ls g).fibres k = some fb' ∧
        fb' = { fb with shadow := fb'.shadow } ∧ (k ∉ ls → fb' = fb) := by
  unfold castShadows
  induction ls generalizing g with
  | nil => exact ⟨rfl, fun k => ⟨id, fun fb h => ⟨fb, h, rfl, fun _ => rfl⟩⟩⟩
  | cons l ls ih =>
    simp only [List.foldl_cons]
    generalize hg1 : modFibreG g l _ = g1
    obtain ⟨h1, h2⟩ := ih g1
    refine ⟨by rw [h1, ← hg1]; rfl, fun k => ?_⟩
    obtain ⟨h3, h4⟩ := h2 k
    have hfi := tabFind_tabMod g.fibres l k (fun fb => { fb with shadow := newShadows s gk before g seq l fb ++ fb.shadow.filter (shadowLive s) })
    rw [← modFibreG_fibres, hg1] at hfi
    refine ⟨fun hn => h3 ?_, fun fb hfb => ?_⟩
    · rw [hfi]; split
      · subst k; rw [hn]; rfl
      · exact hn
    · by_cases hk : k = l
      · subst hk
        rw [if_pos rfl, hfb] at hfi
        obtain ⟨fb', b1, b2, -⟩ := h4 _ hfi
        exact ⟨fb', b1, by rw [b2], fun hn => absurd (List.mem_cons_self ..) hn⟩
      · rw [if_neg hk] at hfi
        obtain ⟨fb', b1, b2, b3⟩ := h4 fb (hfi.trans hfb)
        exact ⟨fb', b1, b2, fun hn => b3 fun hm => hn (List.mem_cons_of_mem _ hm)⟩

/-- The fibre after the raises of the abandoned words that it leaves behind have ended. -/
def leftBehind (pc : DWord) (ls : List Nat) (k : Nat) (fb : Fibre) : Fibre :=
  { fb with owed := if k ∈ ls then fb.owed.filter (·.1 != pc) else fb.owed }

theorem dropOwed_find (cyc : Nat) (pc : DWord) (ls : List Nat) (g : Gang) :
    (dropOwed cyc pc g ls = { g with fibres := (dropOwed cyc pc g ls).fibres, outs := (dropOwed cyc pc g ls).outs,
                                     zeroAt := (dropOwed cyc pc g ls).zeroAt }) ∧
    ∀ k, tabFind (dropOwed cyc pc g ls).fibres k = (tabFind g.fibres k).map (leftBehind pc ls k) := by
  induction ls generalizing g with
  | nil =>
    refine ⟨rfl, fun k => ?_⟩
    simp only [dropOwed, List.foldl_nil]
    cases tabFind g.fibres k <;> simp [leftBehind]
  | cons l ls ih =>
    rw [dropOwed_cons]
    have one : (dropOwed cyc pc g [l] = { g with
          fibres := (dropOwed cyc pc g [l]).fibres, outs := (dropOwed cyc pc g [l]).outs,
          zeroAt := (dropOwed cyc pc g [l]).zeroAt }) ∧
        ∀ k, tabFind (dropOwed cyc pc g [l]).fibres k = (tabFind g.fibres k).map (leftBehind pc [l] k) := by
      simp only [dropOwed, List.foldl_cons, List.foldl_nil]
      cases hf : tabFind g.fibres l with
      | none =>
        refine ⟨rfl, fun k => ?_⟩
        by_cases hk : k = l
        · subst hk; simp [hf]
        · cases tabFind g.fibres k <;> simp [leftBehind, hk]
      | some fb =>
        simp only
        split
        · rename_i he
          rw [List.isEmpty_iff] at he
          refine ⟨rfl, fun k => ?_⟩
          by_cases hk : k = l
          · subst hk; simp [hf, leftBehind, he]; rw [← he]
          · cases tabFind g.fibres k <;> simp [leftBehind, hk]
        · have e := ctrDones_frame cyc (fb.owed.filter (·.1 == pc)) g
          refine ⟨by unfold modFibreG; rw [e], fun k => ?_⟩
          simp only [modFibreG_fibres, tabFind_tabMod]
          rw [e]
          by_cases hk : k = l
          · subst hk; rw [if_pos rfl, hf]; simp [leftBehind]
          · simp only [hk, if_false]
            cases tabFind g.fibres k <;> simp [leftBehind, hk]
    obtain ⟨h1, h2⟩ := ih (dropOwed cyc pc g [l])
    refine ⟨by rw [h1, one.1], fun k => ?_⟩
    rw [h2, one.2]
    cases tabFind g.fibres k with
    | none => rfl
    | some fb =>
      simp only [Option.map_some, leftBehind, List.mem_cons, List.not_mem_nil, or_false, Option.some.injEq]
      by_cases hk : k = l <;> by_cases hm : k ∈ ls <;> simp [hk, hm, List.filter_filter]

/-- How far a counter rises: not at all for a word that completes at issue, or of which nothing is left to complete. -/
def riseOf : Compl → Nat
  | .issue => 0
  | .cycles n => if 0 < n then 1 else 0
  | .lanes n => if n = 0 then 0 else 1

theorem ctrVal_raiseOf (h : Hdr) (gid cyc : Nat) (k : Compl) (g : Gang) (n : Nat) :
    ctrVal cyc (raise h gid cyc k g) n = ctrVal cyc g n + if setcOf h = some n then riseOf k else 0 := by
  have hfil : ∀ n, ((g.outs.filter fun o => o.left != 0 || decide (cyc < o.due)).filter
      fun o => o.ctr == n && (o.left != 0 || decide (cyc < o.due))) =
      g.outs.filter fun o => o.ctr == n && (o.left != 0 || decide (cyc < o.due)) := by
    intro n
    rw [List.filter_filter]
    apply List.filter_congr
    intro o _
    cases (o.ctr == n) <;> simp
  unfold raise
  cases hs : setcOf h with
  | none => simp
  | some c =>
    cases k with
    | issue => simp only [ctrVal, sweepOuts, hfil, riseOf]; simp
    | cycles m =>
      simp only [ctrVal, sweepOuts, List.filter_append, hfil, List.length_append, riseOf]
      congr 1
      by_cases hc : c = n <;> by_cases hm : 0 < m <;> simp [hc, hm]
    | lanes m =>
      simp only [riseOf]
      by_cases hm : m = 0
      · simp only [hm, if_true, ctrVal, sweepOuts, hfil]; simp
      · simp only [hm, if_false, ctrVal, sweepOuts, List.filter_append, hfil, List.length_append]
        congr 1
        by_cases hc : c = n <;> simp [hc, hm]

/-- Elements of a list that a map tells apart. -/
theorem eq_of_nodup_map {α β : Type} {f : α → β} {xs : List α} (h : (xs.map f).Nodup) {x y : α} (hx : x ∈ xs) (hy : y ∈ xs)
    (he : f x = f y) : x = y := by
  induction xs with
  | nil => cases hx
  | cons a xs ih =>
    simp only [List.map_cons, List.nodup_cons] at h
    rcases List.mem_cons.1 hx with hx | hx <;> rcases List.mem_cons.1 hy with hy | hy
    · rw [hx, hy]
    · exact absurd (hx ▸ he ▸ List.mem_map_of_mem hy) h.1
    · exact absurd (hy ▸ he ▸ List.mem_map_of_mem hx) h.1
    · exact ih h.2 hx hy

theorem allFlags_end (cyc stall gid seq : Nat) (pc : DWord) (e : LaneEnd) (fb : Fibre) :
    allFlags (endFibre cyc stall gid seq pc e fb) = allFlags fb := by
  unfold endFibre
  cases e with
  | trap t =>
    simp only
    cases t.next
    · rfl
    · exact allFlags_issued cyc stall fb
  | next => exact allFlags_issued cyc stall fb
  | goto t => exact allFlags_issued cyc stall fb
  | _ => rfl

theorem allFlags_trap (tvec pc : DWord) (later : Option Nat) (e : LaneEnd) (fb : Fibre) :
    allFlags (trapFibre tvec pc later e fb) = allFlags fb := by
  unfold trapFibre
  split <;> rfl

theorem outs_ends (cyc stall gid seq : Nat) (pc : DWord) (xs : List (Nat × LaneEnd)) (g : Gang) :
    (xs.foldl (endLane cyc stall gid seq pc) g).outs = g.outs :=
  outs_foldl _ (fun g x => by rw [endLane_frame]) xs g

/-- The one law of the end of an issue: from the state after a word's effect, with the gang `g1` in it, the lanes end as
`fate` says. -/
theorem finishWord_ends {h : Hdr} {s u : State} {b : Bundle} {g g1 : Gang} {ends : List (Nat × LaneEnd)} {k : Compl}
    {fate : Nat → LaneEnd} (hb : b.lanes.Pairwise (· < ·)) (hg1 : gangOf u b.gang = some g1)
    (hcrew : (∃ l ∈ guardLanes s b g h, ∃ t, fate l = .trap t) →
      crewOf u (crewOfGang b.gang) = crewOf s (crewOfGang b.gang))
    (hends : ends = (guardLanes s b g h).map fun l => (l, fate l))
    (htrap : ∀ l ∈ guardLanes s b g h, ∀ t, fate l = .trap t → (∃ c, crewOf s (crewOfGang b.gang) = some c ∧ c.tvec ≠ 0) ∧
      ∀ fb, tabFind g1.fibres l = some fb → fb.handler = false)
    (hcyc : cycOf s g1.core = cycOf s g.core) :
    EndsIssue s u (finishWord h (wordCtx s b g h) { st := u, ends, comp := k }) b h g1 (fates s b g h fate)
      (if someDone ends then riseOf k else 0) := by
  generalize hc : wordCtx s b g h = c
  have hcgk : c.gk = b.gang := by rw [← hc]; rfl
  have hcl : c.lanes = b.lanes := by rw [← hc]; rfl
  have hcpc : c.pc = b.pc := by rw [← hc]; rfl
  have hcc : c.cyc = cycOf s g1.core := by rw [hcyc, ← hc]; rfl
  have hco : c.on = guardLanes s b g h := by rw [← hc]; rfl
  have hcs : c.seq = s.nextId := by rw [← hc]; rfl
  have hnd : b.lanes.Nodup := hb.imp fun h => Nat.ne_of_lt h
  have hond : (guardLanes s b g h).Nodup := hnd.filter _
  have hsub : ∀ x ∈ guardLanes s b g h, x ∈ b.lanes := fun x hx => (List.mem_filter.1 hx).1
  obtain ⟨off, hoff⟩ : ∃ off, off = (c.lanes.filter fun l => !c.on.contains l) := ⟨_, rfl⟩
  have hoffm : ∀ l, l ∈ off ↔ l ∈ b.lanes ∧ l ∉ guardLanes s b g h := by
    intro l; rw [hoff, hcl, hco]; simp [List.mem_filter]
  obtain ⟨all, hall⟩ : ∃ all, all = ends ++ off.map fun l => (l, LaneEnd.next) := ⟨_, rfl⟩
  have hmap : all.map (·.1) = guardLanes s b g h ++ off := by
    rw [hall, hends]; simp [List.map_map, Function.comp_def]
  have hallnd : (all.map (·.1)).Nodup := by
    rw [hmap, List.nodup_append]
    refine ⟨hond, ?_, ?_⟩
    · rw [hoff, hcl]; exact hnd.filter _
    · intro a ha x hx e
      subst e
      exact ((hoffm a).1 hx).2 ha
  have hallf : ∀ l ∈ b.lanes, (l, fates s b g h fate l) ∈ all := by
    intro l hl
    rw [hall, hends]
    by_cases ho : l ∈ guardLanes s b g h
    · refine List.mem_append_left _ (List.mem_map.2 ⟨l, ho, ?_⟩)
      simp [fates, ho]
    · simp [fates, ho, (hoffm l).2 ⟨hl, ho⟩]
  -- which lanes leave the word behind
  obtain ⟨left, hleft⟩ : ∃ left, left = leaving c.lanes all := ⟨_, rfl⟩
  have hstay : ∀ l ∈ b.lanes, (all.any fun e => e.1 == l && e.2 == LaneEnd.stay) = (fates s b g h fate l == LaneEnd.stay) := by
    intro l hl
    rw [Bool.eq_iff_iff]
    simp only [List.any_eq_true, Bool.and_eq_true, beq_iff_eq]
    constructor
    · rintro ⟨⟨k, e⟩, hm, rfl, he⟩
      simp only at he ⊢
      have := eq_of_nodup_map hallnd hm (hallf k hl) rfl
      simp only [Prod.mk.injEq, true_and] at this
      rw [← this, he]
    · exact fun he => ⟨_, hallf l hl, rfl, he⟩
  have hleft' : left = b.lanes.filter fun l => fates s b g h fate l != .stay := by
    rw [hleft, hcl]
    unfold leaving
    apply List.filter_congr
    intro l hl
    rw [hstay l hl]
    rfl
  obtain ⟨G0, hG0⟩ : ∃ G0, G0 = dropOwed c.cyc c.pc (castShadows u c.gk c.g c.seq c.lanes g1) left := ⟨_, rfl⟩
  obtain ⟨c1, c2⟩ := castShadows_find u c.gk c.g c.seq c.lanes g1
  obtain ⟨d1, d2⟩ := dropOwed_find c.cyc c.pc left (castShadows u c.gk c.g c.seq c.lanes g1)
  rw [← hG0] at d1 d2
  have hG0f : G0 = { g1 with fibres := G0.fibres, outs := G0.outs, zeroAt := G0.zeroAt } := by rw [d1, c1]
  have hG0n : ∀ l, tabFind g1.fibres l = none → tabFind G0.fibres l = none := by
    intro l hl; rw [d2, (c2 l).1 hl]; rfl
  have hG0s : ∀ l fb, tabFind g1.fibres l = some fb → ∃ f0, tabFind G0.fibres l = some f0 ∧
      f0 = { fb with shadow := f0.shadow, owed := if l ∈ left then fb.owed.filter (·.1 != c.pc) else fb.owed } ∧
      (l ∉ b.lanes → f0 = fb) := by
    intro l fb hfb
    obtain ⟨f0, a1, a2, a3⟩ := (c2 l).2 fb hfb
    refine ⟨leftBehind c.pc left l f0, by rw [d2, a1]; rfl, ?_, ?_⟩
    · rw [a2]; rfl
    · intro hn
      have hnl : l ∉ left := by rw [hleft']; exact fun hm => hn (List.mem_filter.1 hm).1
      rw [a3 (by rw [hcl]; exact hn)]
      simp [leftBehind, hnl]
  obtain ⟨e1, e2, e3⟩ := endLanes c.cyc h.stall.toNat c.seq c.seq c.pc all G0 hallnd
  have houtsG := outs_ends c.cyc h.stall.toNat c.seq c.seq c.pc all G0
  generalize hG : all.foldl (endLane c.cyc h.stall.toNat c.seq c.seq c.pc) G0 = G at e1 e2 e3 houtsG
  obtain ⟨G2, hG2⟩ : ∃ G2 : Gang, G2 = { (if someDone ends then raise h c.seq c.cyc k G else G) with
      begun := (if someDone ends then raise h c.seq c.cyc k G else G).begun || beginsNow c ends } := ⟨_, rfl⟩
  have hG2f : G2 = { G with outs := G2.outs, zeroAt := G2.zeroAt, begun := G2.begun } := by
    rw [hG2]
    split
    · rw [raise_frame]
    · rfl
  have hG2fib : G2.fibres = G.fibres := by rw [hG2f]
  obtain ⟨s1, hs1⟩ : ∃ s1, s1 = modGang u c.gk fun _ => G2 := ⟨_, rfl⟩
  obtain ⟨later, hlater⟩ : ∃ later, later = (if trapsLater s1 ends then some c.seq else none) := ⟨_, rfl⟩
  have hfin : finishWord h c { st := u, ends, comp := k } =
      (fun s2 : State => { s2 with issue := none, nextId := s2.nextId + 66, free := s2.free + 1 })
        (modGang (endTraps c.gk c.pc later s1 ends) c.gk (splitBundle (c.seq + 1) c.lanes)) := by
    unfold finishWord
    simp only
    rw [← hoff, ← hall, ← hleft]
    have : (modGang u c.gk fun g =>
        { (if someDone ends then raise h c.seq c.cyc k (all.foldl (endLane c.cyc h.stall.toNat c.seq c.seq c.pc)
              (dropOwed c.cyc c.pc (castShadows u c.gk c.g c.seq c.lanes g) left))
            else all.foldl (endLane c.cyc h.stall.toNat c.seq c.seq c.pc)
              (dropOwed c.cyc c.pc (castShadows u c.gk c.g c.seq c.lanes g) left)) with
          begun := (if someDone ends then raise h c.seq c.cyc k (all.foldl (endLane c.cyc h.stall.toNat c.seq c.seq c.pc)
              (dropOwed c.cyc c.pc (castShadows u c.gk c.g c.seq c.lanes g) left))
            else all.foldl (endLane c.cyc h.stall.toNat c.seq c.seq c.pc)
              (dropOwed c.cyc c.pc (castShadows u c.gk c.g c.seq c.lanes g) left)).begun || beginsNow c ends }) = s1 := by
      rw [hs1]
      unfold modGang tabMod
      have hx : tabFind u.gangs c.gk = some g1 := by rw [hcgk]; exact hg1
      rw [hx]
      simp only [hG2, ← hG, hG0]
    rw [hlater, ← this]
  have hs1g : gangOf s1 b.gang = some G2 := by rw [hs1, ← hcgk, gangOf_modGang]; simp [hcgk, hg1]
  have hs1f : s1 = { u with gangs := s1.gangs } := by rw [hs1]; rfl
  have hs1o : ∀ k, k ≠ b.gang → gangOf s1 k = gangOf u k := by
    intro k hk; rw [hs1, gangOf_modGang, if_neg (by rw [hcgk]; exact hk)]
  -- traps
  have hendsnd : (ends.map (·.1)).Nodup := by rw [hends]; simpa [List.map_map, Function.comp_def] using hond
  have trapsLaw : ∃ g', endTraps c.gk c.pc later s1 ends = { s1 with gangs := (endTraps c.gk c.pc later s1 ends).gangs } ∧
      (∀ k, k ≠ b.gang → gangOf (endTraps c.gk c.pc later s1 ends) k = gangOf s1 k) ∧
      gangOf (endTraps c.gk c.pc later s1 ends) b.gang = some g' ∧ g' = { G2 with fibres := g'.fibres } ∧
      (∀ k, k ∉ guardLanes s b g h → tabFind g'.fibres k = tabFind G2.fibres k) ∧
      ∀ l ∈ guardLanes s b g h, tabFind g'.fibres l =
        (tabFind G2.fibres l).map (trapFibre (tvecOf s b.gang) b.pc later (fate l)) := by
    rw [hcgk, hcpc]
    by_cases hany : ∃ l ∈ guardLanes s b g h, ∃ t, fate l = .trap t
    case neg =>
      have hnt : ∀ x ∈ ends, ∀ t, x.2 ≠ .trap t := by
        intro x hx t he
        rw [hends] at hx
        obtain ⟨l, hl, rfl⟩ := List.mem_map.1 hx
        exact hany ⟨l, hl, t, he⟩
      have hid : endTraps b.gang b.pc later s1 ends = s1 := endTraps_noTrap _ _ _ _ _ hnt
      rw [hid]
      refine ⟨G2, rfl, fun _ _ => rfl, hs1g, rfl, fun _ _ => rfl, ?_⟩
      intro l hl
      have : ∀ fb, trapFibre (tvecOf s b.gang) b.pc later (fate l) fb = fb := by
        intro fb
        cases hfl : fate l with
        | trap t => exact absurd hfl (hnt (l, fate l) (by rw [hends]; exact List.mem_map_of_mem hl) t)
        | _ => rfl
      cases tabFind G2.fibres l <;> simp [this]
    have hcrew := hcrew hany
    cases hcr : crewOf s (crewOfGang b.gang) with
    | none =>
      obtain ⟨l, hl, t, he⟩ := hany
      obtain ⟨⟨c', hc', -⟩, -⟩ := htrap l hl t he
      rw [hcr] at hc'; cases hc'
    | some cr =>
      have hcs1 : crewOf s1 (crewOfGang b.gang) = some cr := by rw [hs1f, ← hcr, ← hcrew]; rfl
      have htv : tvecOf s b.gang = cr.tvec := by simp [tvecOf, hcr]
      obtain ⟨g', a1, a2, a3, a4, a5, a6⟩ := endTraps_enter b.gang b.pc later ends s1 G2 cr hs1g hcs1 hendsnd (by
        intro x hx t he _
        rw [hends] at hx
        obtain ⟨l, hl, rfl⟩ := List.mem_map.1 hx
        simp only at he ⊢
        obtain ⟨⟨c', hc', hv⟩, hh⟩ := htrap l hl t he
        rw [hcr] at hc'
        obtain rfl : cr = c' := by simpa using hc'
        refine ⟨hv, fun fb hfb => ?_⟩
        rw [hG2fib] at hfb
        have := e3 (l, fates s b g h fate l) (hallf l (hsub l hl))
        simp only [fates, hl, if_true] at this
        rw [this, he] at hfb
        cases hf : tabFind g1.fibres l with
        | none => rw [hG0n l hf] at hfb; cases hfb
        | some f0 =>
          obtain ⟨f1, b1, b2, -⟩ := hG0s l f0 hf
          rw [b1] at hfb
          have h0 := hh f0 hf
          have h1 : f1.handler = false := by rw [b2]; exact h0
          simp only [Option.map_some, Option.some.injEq, endFibre] at hfb
          rw [← hfb]
          split
          · exact h1
          · exact h1)
      refine ⟨g', a1, a2, a3, a4, ?_, ?_⟩
      · intro k hk; apply a5
        rw [hends]; simpa [List.map_map, Function.comp_def] using hk
      · intro l hl
        rw [htv]
        exact a6 (l, fate l) (by rw [hends]; exact List.mem_map_of_mem hl)
  obtain ⟨g3, t1, t2, t3, t4, t5, t6⟩ := trapsLaw
  generalize hT : endTraps c.gk c.pc later s1 ends = T at *
  rw [hfin]
  refine ⟨hg1, ?_, ?_, splitBundle (c.seq + 1) c.lanes g3, later.isSome, ?_, ?_, ?_, ?_⟩
  · simp only [modGang]; rw [t1, hs1f]
  · intro k hk
    have : gangOf (modGang T c.gk (splitBundle (c.seq + 1) c.lanes)) k = gangOf u k := by
      rw [gangOf_modGang, if_neg (by rw [hcgk]; exact hk), t2 k hk, hs1o k hk]
    exact this
  · have : gangOf (modGang T c.gk (splitBundle (c.seq + 1) c.lanes)) b.gang = some (splitBundle (c.seq + 1) c.lanes g3) := by
      rw [gangOf_modGang, if_pos (by rw [hcgk]), hcgk, t3]; rfl
    exact this
  · intro hl
    rw [hlater] at hl
    have htl : trapsLater s1 ends = true := by
      by_cases ht : trapsLater s1 ends = true
      · exact ht
      · rw [if_neg ht] at hl; cases hl
    simp only [trapsLater, Bool.and_eq_true, List.any_eq_true, beq_iff_eq] at htl
    obtain ⟨⟨x, hx, he⟩, -⟩ := htl
    rw [hends] at hx
    obtain ⟨l, hl, rfl⟩ := List.mem_map.1 hx
    exact ⟨l, hsub l hl, by simpa [fates, hl] using he⟩
  · have hsp := splitBundle_find (c.seq + 1) c.lanes g3
    refine ⟨?_, ?_, ?_⟩
    · rw [(hsp 0).1, t4, hG2f, e1, hG0f]
    · intro l hl
      by_cases hm : l ∈ b.lanes
      · have hn : tabFind g1.fibres l = none := by
          rcases hl with hl | hl
          · exact absurd hm hl
          · exact hl
        have hGn : tabFind G.fibres l = none := by
          rw [e3 _ (hallf l hm), hG0n l hn]; rfl
        have : tabFind g3.fibres l = none := by
          by_cases ho : l ∈ guardLanes s b g h
          · rw [t6 l ho, hG2fib, hGn]; rfl
          · rw [t5 l ho, hG2fib, hGn]
        rw [(hsp l).2.1 this, hn]
      · have hno : l ∉ guardLanes s b g h := fun hh => hm (hsub l hh)
        have hno2 : l ∉ all.map (·.1) := by
          rw [hmap]; simp only [List.mem_append, not_or]; exact ⟨hno, fun hx => hm ((hoffm l).1 hx).1⟩
        have : tabFind g3.fibres l = tabFind g1.fibres l := by
          rw [t5 l hno, hG2fib, e2 l hno2]
          cases hf : tabFind g1.fibres l with
          | none => exact hG0n l hf
          | some fb =>
            obtain ⟨f0, b1, -, b3⟩ := hG0s l fb hf
            rw [b1, b3 hm]
        cases hf : tabFind g3.fibres l with
        | none => rw [(hsp l).2.1 hf, ← this, hf]
        | some f0 =>
          obtain ⟨fb', b1, b2, b3⟩ := (hsp l).2.2 f0 hf
          rw [b1, b3 (by rw [hcl]; exact hm), ← this, hf]
    · intro l hl fb hfb
      obtain ⟨f0, b1, b2, -⟩ := hG0s l fb hfb
      have h0 := e3 _ (hallf l hl)
      simp only at h0
      rw [b1] at h0
      obtain ⟨f1, hf1⟩ : ∃ f1, f1 = endFibre c.cyc h.stall.toNat c.seq c.seq c.pc (fates s b g h fate l) f0 := ⟨_, rfl⟩
      rw [Option.map_some, ← hf1] at h0
      obtain ⟨f2, hf2⟩ : ∃ f2, f2 = if l ∈ guardLanes s b g h then trapFibre (tvecOf s b.gang) b.pc later (fate l) f1 else f1 :=
        ⟨_, rfl⟩
      have h1 : tabFind g3.fibres l = some f2 := by
        rw [hf2]
        by_cases ho : l ∈ guardLanes s b g h
        · rw [if_pos ho, t6 l ho, hG2fib, h0]; rfl
        · rw [if_neg ho, t5 l ho, hG2fib, h0]
      obtain ⟨fb', a1, a2, -⟩ := (hsp l).2.2 _ h1
      have hin : l ∈ left ↔ fates s b g h fate l ≠ .stay := by
        rw [hleft']; simp [List.mem_filter, hl]
      have hfl : allFlags f2 = allFlags fb := by
        have hf1a : allFlags f1 = allFlags fb := by
          rw [hf1, allFlags_end, b2]; rfl
        rw [hf2]; split
        · rw [allFlags_trap, hf1a]
        · exact hf1a
      refine ⟨fb', a1, ?_, by rw [a2]; exact hfl⟩
      have hland : f2 = { landed b.pc h.stall.toNat s.nextId (tvecOf s b.gang) later.isSome fb (fates s b g h fate l) with
          owed := if fates s b g h fate l = .stay then fb.owed else fb.owed.filter (·.1 != b.pc), flBase := f2.flBase,
          flq := f2.flq, readyAt := f2.readyAt, bun := f2.bun, sum := f2.sum, haz := f2.haz, shadow := f2.shadow } := by
        have hseq : ∀ q, later = some q → q = s.nextId := by
          intro q hq
          rw [hlater] at hq
          split at hq
          · rw [← hcs]; exact (Option.some.inj hq).symm
          · cases hq
        have how : (if l ∈ left then fb.owed.filter (·.1 != c.pc) else fb.owed) =
            if fates s b g h fate l = .stay then fb.owed else fb.owed.filter (·.1 != b.pc) := by
          rw [hcpc]
          by_cases hs : fates s b g h fate l = .stay
          · rw [if_neg (fun hh => hin.1 hh hs), if_pos hs]
          · rw [if_pos (hin.2 hs), if_neg hs]
        rw [how] at b2
        by_cases ho : l ∈ guardLanes s b g h
        · rw [if_pos ho] at hf2
          have hfa : fates s b g h fate l = fate l := by simp [fates, ho]
          rw [hfa] at hf1 b2 ⊢
          rw [hf2, hf1, b2, hcpc, hcs]
          cases hfl : fate l with
          | trap t =>
            cases hla : later with
            | none =>
              simp only [landed, endFibre, trapFibre, enterHandler, returnPoint]
              cases t.next <;> rfl
            | some q =>
              obtain rfl := hseq q hla
              simp only [landed, endFibre, trapFibre]
              cases t.next <;> rfl
          | _ => cases hla : later <;> rfl
        · rw [if_neg ho] at hf2
          have hfa : fates s b g h fate l = .next := by simp [fates, ho]
          rw [hfa] at hf1 b2 ⊢
          rw [hf2, hf1, b2, hcpc]
          rfl
      rw [a2, hland]
  · intro n
    have hout : (splitBundle (c.seq + 1) c.lanes g3).outs = G2.outs := by rw [outs_splitBundle, t4]
    rw [ctrVal_congr _ _ hout]
    have hG0' : ctrVal (cycOf s g1.core) G n = ctrVal (cycOf s g1.core)
        (replayedIn s b.pc (b.lanes.filter fun l => fates s b g h fate l != .stay) g1) n := by
      rw [ctrVal_congr _ _ houtsG, hG0, hcc, ctrVal_drop (SameOwed.shadows ..), hcpc, hleft']
      rfl
    rw [hG2]
    by_cases hd : someDone ends
    · have : ctrVal (cycOf s g1.core) { (if someDone ends then raise h c.seq c.cyc k G else G) with
          begun := (if someDone ends then raise h c.seq c.cyc k G else G).begun || beginsNow c ends } n =
          ctrVal (cycOf s g1.core) (raise h c.seq c.cyc k G) n := ctrVal_congr _ _ (by simp [hd])
      rw [this, ← hcc, ctrVal_raiseOf, hcc, hG0']; simp [hd]
    · have : ctrVal (cycOf s g1.core) { (if someDone ends then raise h c.seq c.cyc k G else G) with
          begun := (if someDone ends then raise h c.seq c.cyc k G else G).begun || beginsNow c ends } n =
          ctrVal (cycOf s g1.core) G n := ctrVal_congr _ _ (by simp [hd])
      rw [this, hG0']; simp [hd]

/-- The one law of a word's issue: under `Issues`, the body's plan takes effect and the lanes end as it says. -/
theorem runWord_ends {w : WordSpec} {s u : State} {b : Bundle} {g g1 : Gang} {fate : Nat → LaneEnd} {k : Compl}
    (hi : Issues s b g w.hdr w.names (w.reads s g) w.attach)
    (he : w.early s g b.lanes = none) (hw : w.wait (wordCtx s b g w.hdr) s = false)
    (hb : w.body (wordCtx s b g w.hdr) s = { st := u, ends := (guardLanes s b g w.hdr).map fun l => (l, fate l), comp := k })
    (hg1 : gangOf u b.gang = some g1)
    (hcrew : (∃ l ∈ guardLanes s b g w.hdr, ∃ t, fate l = .trap t) →
      crewOf u (crewOfGang b.gang) = crewOf s (crewOfGang b.gang))
    (htrap : ∀ l ∈ guardLanes s b g w.hdr, ∀ t, fate l = .trap t →
      (∃ c, crewOf s (crewOfGang b.gang) = some c ∧ c.tvec ≠ 0) ∧
      ∀ fb, tabFind g1.fibres l = some fb → fb.handler = false)
    (hcore : g1.core = g.core) :
    ∃ t, runWord w s = .next t ∧ EndsIssue s u t b w.hdr g1 (fates s b g w.hdr fate)
      (if someDone ((guardLanes s b g w.hdr).map fun l => (l, fate l)) then riseOf k else 0) := by
  refine ⟨_, runWord_issues hi he hw, ?_⟩
  rw [hb]
  exact finishWord_ends hi.ascending hg1 hcrew rfl htrap (by rw [hcore])

/-- The same for a word whose lanes all go on, stay or are held. -/
theorem runWord_ends_plain {w : WordSpec} {s u : State} {b : Bundle} {g g1 : Gang} {fate : Nat → LaneEnd} {k : Compl}
    (hi : Issues s b g w.hdr w.names (w.reads s g) w.attach)
    (he : w.early s g b.lanes = none) (hw : w.wait (wordCtx s b g w.hdr) s = false)
    (hb : w.body (wordCtx s b g w.hdr) s = { st := u, ends := (guardLanes s b g w.hdr).map fun l => (l, fate l), comp := k })
    (hg1 : gangOf u b.gang = some g1) (hno : ∀ l t, fate l ≠ .trap t) (hcore : g1.core = g.core) :
    ∃ t, runWord w s = .next t ∧ EndsIssue s u t b w.hdr g1 (fates s b g w.hdr fate)
      (if someDone ((guardLanes s b g w.hdr).map fun l => (l, fate l)) then riseOf k else 0) :=
  runWord_ends hi he hw hb hg1 (fun ⟨l, _, t, h⟩ => absurd h (hno l t)) (fun l _ t h => absurd h (hno l t)) hcore

theorem fates_goesOn (s : State) (b : Bundle) (g : Gang) (h : Hdr) : fates s b g h goesOn = goesOn := by
  funext l; simp [fates, goesOn]

end Sys2Proof.Machine
end

