-- ==== Sys2Proof/Laws/State.lean ====
section
/-! SUPPORT. What each update of the state leaves in each of its fields. -/

namespace Sys2Proof.Machine

/-! ### `setGang` -/

@[simp] theorem setGang_time (s : State) (gk : Nat) (g : Gang) : (setGang s gk g).time = s.time := rfl
@[simp] theorem setGang_boot (s : State) (gk : Nat) (g : Gang) : (setGang s gk g).boot = s.boot := rfl
@[simp] theorem setGang_flash (s : State) (gk : Nat) (g : Gang) : (setGang s gk g).flash = s.flash := rfl
@[simp] theorem setGang_dies (s : State) (gk : Nat) (g : Gang) : (setGang s gk g).dies = s.dies := rfl
@[simp] theorem setGang_cores (s : State) (gk : Nat) (g : Gang) : (setGang s gk g).cores = s.cores := rfl
@[simp] theorem setGang_parts (s : State) (gk : Nat) (g : Gang) : (setGang s gk g).parts = s.parts := rfl
@[simp] theorem setGang_peers (s : State) (gk : Nat) (g : Gang) : (setGang s gk g).peers = s.peers := rfl
@[simp] theorem setGang_cfg (s : State) (gk : Nat) (g : Gang) : (setGang s gk g).cfg = s.cfg := rfl
@[simp] theorem setGang_mem (s : State) (gk : Nat) (g : Gang) : (setGang s gk g).mem = s.mem := rfl
@[simp] theorem setGang_hostMem (s : State) (gk : Nat) (g : Gang) : (setGang s gk g).hostMem = s.hostMem := rfl
@[simp] theorem setGang_poison (s : State) (gk : Nat) (g : Gang) : (setGang s gk g).poison = s.poison := rfl
@[simp] theorem setGang_bankPoison (s : State) (gk : Nat) (g : Gang) : (setGang s gk g).bankPoison = s.bankPoison := rfl
@[simp] theorem setGang_frames (s : State) (gk : Nat) (g : Gang) : (setGang s gk g).frames = s.frames := rfl
@[simp] theorem setGang_crcs (s : State) (gk : Nat) (g : Gang) : (setGang s gk g).crcs = s.crcs := rfl
@[simp] theorem setGang_cache (s : State) (gk : Nat) (g : Gang) : (setGang s gk g).cache = s.cache := rfl
@[simp] theorem setGang_accs (s : State) (gk : Nat) (g : Gang) : (setGang s gk g).accs = s.accs := rfl
@[simp] theorem setGang_spad (s : State) (gk : Nat) (g : Gang) : (setGang s gk g).spad = s.spad := rfl
@[simp] theorem setGang_gran (s : State) (gk : Nat) (g : Gang) : (setGang s gk g).gran = s.gran := rfl
@[simp] theorem setGang_bank (s : State) (gk : Nat) (g : Gang) : (setGang s gk g).bank = s.bank := rfl
@[simp] theorem setGang_slots (s : State) (gk : Nat) (g : Gang) : (setGang s gk g).slots = s.slots := rfl
@[simp] theorem setGang_crews (s : State) (gk : Nat) (g : Gang) : (setGang s gk g).crews = s.crews := rfl
@[simp] theorem setGang_gangs (s : State) (gk : Nat) (g : Gang) : (setGang s gk g).gangs = tabPut s.gangs gk g := rfl
@[simp] theorem setGang_engines (s : State) (gk : Nat) (g : Gang) : (setGang s gk g).engines = s.engines := rfl
@[simp] theorem setGang_tiles (s : State) (gk : Nat) (g : Gang) : (setGang s gk g).tiles = s.tiles := rfl
@[simp] theorem setGang_copies (s : State) (gk : Nat) (g : Gang) : (setGang s gk g).copies = s.copies := rfl
@[simp] theorem setGang_convs (s : State) (gk : Nat) (g : Gang) : (setGang s gk g).convs = s.convs := rfl
@[simp] theorem setGang_rend (s : State) (gk : Nat) (g : Gang) : (setGang s gk g).rend = s.rend := rfl
@[simp] theorem setGang_sched (s : State) (gk : Nat) (g : Gang) : (setGang s gk g).sched = s.sched := rfl
@[simp] theorem setGang_funcs (s : State) (gk : Nat) (g : Gang) : (setGang s gk g).funcs = s.funcs := rfl
@[simp] theorem setGang_own (s : State) (gk : Nat) (g : Gang) : (setGang s gk g).own = s.own := rfl
@[simp] theorem setGang_fattr (s : State) (gk : Nat) (g : Gang) : (setGang s gk g).fattr = s.fattr := rfl
@[simp] theorem setGang_hostHoles (s : State) (gk : Nat) (g : Gang) : (setGang s gk g).hostHoles = s.hostHoles := rfl
@[simp] theorem setGang_survey (s : State) (gk : Nat) (g : Gang) : (setGang s gk g).survey = s.survey := rfl
@[simp] theorem setGang_gated (s : State) (gk : Nat) (g : Gang) : (setGang s gk g).gated = s.gated := rfl
@[simp] theorem setGang_outbox (s : State) (gk : Nat) (g : Gang) : (setGang s gk g).outbox = s.outbox := rfl
@[simp] theorem setGang_lostMark (s : State) (gk : Nat) (g : Gang) : (setGang s gk g).lostMark = s.lostMark := rfl
@[simp] theorem setGang_msix (s : State) (gk : Nat) (g : Gang) : (setGang s gk g).msix = s.msix := rfl
@[simp] theorem setGang_aer (s : State) (gk : Nat) (g : Gang) : (setGang s gk g).aer = s.aer := rfl
@[simp] theorem setGang_telemetry (s : State) (gk : Nat) (g : Gang) : (setGang s gk g).telemetry = s.telemetry := rfl
@[simp] theorem setGang_agenda (s : State) (gk : Nat) (g : Gang) : (setGang s gk g).agenda = s.agenda := rfl
@[simp] theorem setGang_issue (s : State) (gk : Nat) (g : Gang) : (setGang s gk g).issue = s.issue := rfl
@[simp] theorem setGang_free (s : State) (gk : Nat) (g : Gang) : (setGang s gk g).free = s.free := rfl
@[simp] theorem setGang_nextId (s : State) (gk : Nat) (g : Gang) : (setGang s gk g).nextId = s.nextId := rfl

/-! ### `modGang` -/

@[simp] theorem modGang_time (s : State) (gk : Nat) (f : Gang → Gang) : (modGang s gk f).time = s.time := rfl
@[simp] theorem modGang_boot (s : State) (gk : Nat) (f : Gang → Gang) : (modGang s gk f).boot = s.boot := rfl
@[simp] theorem modGang_flash (s : State) (gk : Nat) (f : Gang → Gang) : (modGang s gk f).flash = s.flash := rfl
@[simp] theorem modGang_dies (s : State) (gk : Nat) (f : Gang → Gang) : (modGang s gk f).dies = s.dies := rfl
@[simp] theorem modGang_cores (s : State) (gk : Nat) (f : Gang → Gang) : (modGang s gk f).cores = s.cores := rfl
@[simp] theorem modGang_parts (s : State) (gk : Nat) (f : Gang → Gang) : (modGang s gk f).parts = s.parts := rfl
@[simp] theorem modGang_peers (s : State) (gk : Nat) (f : Gang → Gang) : (modGang s gk f).peers = s.peers := rfl
@[simp] theorem modGang_cfg (s : State) (gk : Nat) (f : Gang → Gang) : (modGang s gk f).cfg = s.cfg := rfl
@[simp] theorem modGang_mem (s : State) (gk : Nat) (f : Gang → Gang) : (modGang s gk f).mem = s.mem := rfl
@[simp] theorem modGang_hostMem (s : State) (gk : Nat) (f : Gang → Gang) : (modGang s gk f).hostMem = s.hostMem := rfl
@[simp] theorem modGang_poison (s : State) (gk : Nat) (f : Gang → Gang) : (modGang s gk f).poison = s.poison := rfl
@[simp] theorem modGang_bankPoison (s : State) (gk : Nat) (f : Gang → Gang) : (modGang s gk f).bankPoison = s.bankPoison := rfl
@[simp] theorem modGang_frames (s : State) (gk : Nat) (f : Gang → Gang) : (modGang s gk f).frames = s.frames := rfl
@[simp] theorem modGang_crcs (s : State) (gk : Nat) (f : Gang → Gang) : (modGang s gk f).crcs = s.crcs := rfl
@[simp] theorem modGang_cache (s : State) (gk : Nat) (f : Gang → Gang) : (modGang s gk f).cache = s.cache := rfl
@[simp] theorem modGang_accs (s : State) (gk : Nat) (f : Gang → Gang) : (modGang s gk f).accs = s.accs := rfl
@[simp] theorem modGang_spad (s : State) (gk : Nat) (f : Gang → Gang) : (modGang s gk f).spad = s.spad := rfl
@[simp] theorem modGang_gran (s : State) (gk : Nat) (f : Gang → Gang) : (modGang s gk f).gran = s.gran := rfl
@[simp] theorem modGang_bank (s : State) (gk : Nat) (f : Gang → Gang) : (modGang s gk f).bank = s.bank := rfl
@[simp] theorem modGang_slots (s : State) (gk : Nat) (f : Gang → Gang) : (modGang s gk f).slots = s.slots := rfl
@[simp] theorem modGang_crews (s : State) (gk : Nat) (f : Gang → Gang) : (modGang s gk f).crews = s.crews := rfl
@[simp] theorem modGang_gangs (s : State) (gk : Nat) (f : Gang → Gang) : (modGang s gk f).gangs = tabMod s.gangs gk f := rfl
@[simp] theorem modGang_engines (s : State) (gk : Nat) (f : Gang → Gang) : (modGang s gk f).engines = s.engines := rfl
@[simp] theorem modGang_tiles (s : State) (gk : Nat) (f : Gang → Gang) : (modGang s gk f).tiles = s.tiles := rfl
@[simp] theorem modGang_copies (s : State) (gk : Nat) (f : Gang → Gang) : (modGang s gk f).copies = s.copies := rfl
@[simp] theorem modGang_convs (s : State) (gk : Nat) (f : Gang → Gang) : (modGang s gk f).convs = s.convs := rfl
@[simp] theorem modGang_rend (s : State) (gk : Nat) (f : Gang → Gang) : (modGang s gk f).rend = s.rend := rfl
@[simp] theorem modGang_sched (s : State) (gk : Nat) (f : Gang → Gang) : (modGang s gk f).sched = s.sched := rfl
@[simp] theorem modGang_funcs (s : State) (gk : Nat) (f : Gang → Gang) : (modGang s gk f).funcs = s.funcs := rfl
@[simp] theorem modGang_own (s : State) (gk : Nat) (f : Gang → Gang) : (modGang s gk f).own = s.own := rfl
@[simp] theorem modGang_fattr (s : State) (gk : Nat) (f : Gang → Gang) : (modGang s gk f).fattr = s.fattr := rfl
@[simp] theorem modGang_hostHoles (s : State) (gk : Nat) (f : Gang → Gang) : (modGang s gk f).hostHoles = s.hostHoles := rfl
@[simp] theorem modGang_survey (s : State) (gk : Nat) (f : Gang → Gang) : (modGang s gk f).survey = s.survey := rfl
@[simp] theorem modGang_gated (s : State) (gk : Nat) (f : Gang → Gang) : (modGang s gk f).gated = s.gated := rfl
@[simp] theorem modGang_outbox (s : State) (gk : Nat) (f : Gang → Gang) : (modGang s gk f).outbox = s.outbox := rfl
@[simp] theorem modGang_lostMark (s : State) (gk : Nat) (f : Gang → Gang) : (modGang s gk f).lostMark = s.lostMark := rfl
@[simp] theorem modGang_msix (s : State) (gk : Nat) (f : Gang → Gang) : (modGang s gk f).msix = s.msix := rfl
@[simp] theorem modGang_aer (s : State) (gk : Nat) (f : Gang → Gang) : (modGang s gk f).aer = s.aer := rfl
@[simp] theorem modGang_telemetry (s : State) (gk : Nat) (f : Gang → Gang) : (modGang s gk f).telemetry = s.telemetry := rfl
@[simp] theorem modGang_agenda (s : State) (gk : Nat) (f : Gang → Gang) : (modGang s gk f).agenda = s.agenda := rfl
@[simp] theorem modGang_issue (s : State) (gk : Nat) (f : Gang → Gang) : (modGang s gk f).issue = s.issue := rfl
@[simp] theorem modGang_free (s : State) (gk : Nat) (f : Gang → Gang) : (modGang s gk f).free = s.free := rfl
@[simp] theorem modGang_nextId (s : State) (gk : Nat) (f : Gang → Gang) : (modGang s gk f).nextId = s.nextId := rfl

/-! ### `modCrew` -/

@[simp] theorem modCrew_time (s : State) (ck : Nat) (f : Crew → Crew) : (modCrew s ck f).time = s.time := rfl
@[simp] theorem modCrew_boot (s : State) (ck : Nat) (f : Crew → Crew) : (modCrew s ck f).boot = s.boot := rfl
@[simp] theorem modCrew_flash (s : State) (ck : Nat) (f : Crew → Crew) : (modCrew s ck f).flash = s.flash := rfl
@[simp] theorem modCrew_dies (s : State) (ck : Nat) (f : Crew → Crew) : (modCrew s ck f).dies = s.dies := rfl
@[simp] theorem modCrew_cores (s : State) (ck : Nat) (f : Crew → Crew) : (modCrew s ck f).cores = s.cores := rfl
@[simp] theorem modCrew_parts (s : State) (ck : Nat) (f : Crew → Crew) : (modCrew s ck f).parts = s.parts := rfl
@[simp] theorem modCrew_peers (s : State) (ck : Nat) (f : Crew → Crew) : (modCrew s ck f).peers = s.peers := rfl
@[simp] theorem modCrew_cfg (s : State) (ck : Nat) (f : Crew → Crew) : (modCrew s ck f).cfg = s.cfg := rfl
@[simp] theorem modCrew_mem (s : State) (ck : Nat) (f : Crew → Crew) : (modCrew s ck f).mem = s.mem := rfl
@[simp] theorem modCrew_hostMem (s : State) (ck : Nat) (f : Crew → Crew) : (modCrew s ck f).hostMem = s.hostMem := rfl
@[simp] theorem modCrew_poison (s : State) (ck : Nat) (f : Crew → Crew) : (modCrew s ck f).poison = s.poison := rfl
@[simp] theorem modCrew_bankPoison (s : State) (ck : Nat) (f : Crew → Crew) : (modCrew s ck f).bankPoison = s.bankPoison := rfl
@[simp] theorem modCrew_frames (s : State) (ck : Nat) (f : Crew → Crew) : (modCrew s ck f).frames = s.frames := rfl
@[simp] theorem modCrew_crcs (s : State) (ck : Nat) (f : Crew → Crew) : (modCrew s ck f).crcs = s.crcs := rfl
@[simp] theorem modCrew_cache (s : State) (ck : Nat) (f : Crew → Crew) : (modCrew s ck f).cache = s.cache := rfl
@[simp] theorem modCrew_accs (s : State) (ck : Nat) (f : Crew → Crew) : (modCrew s ck f).accs = s.accs := rfl
@[simp] theorem modCrew_spad (s : State) (ck : Nat) (f : Crew → Crew) : (modCrew s ck f).spad = s.spad := rfl
@[simp] theorem modCrew_gran (s : State) (ck : Nat) (f : Crew → Crew) : (modCrew s ck f).gran = s.gran := rfl
@[simp] theorem modCrew_bank (s : State) (ck : Nat) (f : Crew → Crew) : (modCrew s ck f).bank = s.bank := rfl
@[simp] theorem modCrew_slots (s : State) (ck : Nat) (f : Crew → Crew) : (modCrew s ck f).slots = s.slots := rfl
@[simp] theorem modCrew_crews (s : State) (ck : Nat) (f : Crew → Crew) : (modCrew s ck f).crews = tabMod s.crews ck f := rfl
@[simp] theorem modCrew_gangs (s : State) (ck : Nat) (f : Crew → Crew) : (modCrew s ck f).gangs = s.gangs := rfl
@[simp] theorem modCrew_engines (s : State) (ck : Nat) (f : Crew → Crew) : (modCrew s ck f).engines = s.engines := rfl
@[simp] theorem modCrew_tiles (s : State) (ck : Nat) (f : Crew → Crew) : (modCrew s ck f).tiles = s.tiles := rfl
@[simp] theorem modCrew_copies (s : State) (ck : Nat) (f : Crew → Crew) : (modCrew s ck f).copies = s.copies := rfl
@[simp] theorem modCrew_convs (s : State) (ck : Nat) (f : Crew → Crew) : (modCrew s ck f).convs = s.convs := rfl
@[simp] theorem modCrew_rend (s : State) (ck : Nat) (f : Crew → Crew) : (modCrew s ck f).rend = s.rend := rfl
@[simp] theorem modCrew_sched (s : State) (ck : Nat) (f : Crew → Crew) : (modCrew s ck f).sched = s.sched := rfl
@[simp] theorem modCrew_funcs (s : State) (ck : Nat) (f : Crew → Crew) : (modCrew s ck f).funcs = s.funcs := rfl
@[simp] theorem modCrew_own (s : State) (ck : Nat) (f : Crew → Crew) : (modCrew s ck f).own = s.own := rfl
@[simp] theorem modCrew_fattr (s : State) (ck : Nat) (f : Crew → Crew) : (modCrew s ck f).fattr = s.fattr := rfl
@[simp] theorem modCrew_hostHoles (s : State) (ck : Nat) (f : Crew → Crew) : (modCrew s ck f).hostHoles = s.hostHoles := rfl
@[simp] theorem modCrew_survey (s : State) (ck : Nat) (f : Crew → Crew) : (modCrew s ck f).survey = s.survey := rfl
@[simp] theorem modCrew_gated (s : State) (ck : Nat) (f : Crew → Crew) : (modCrew s ck f).gated = s.gated := rfl
@[simp] theorem modCrew_outbox (s : State) (ck : Nat) (f : Crew → Crew) : (modCrew s ck f).outbox = s.outbox := rfl
@[simp] theorem modCrew_lostMark (s : State) (ck : Nat) (f : Crew → Crew) : (modCrew s ck f).lostMark = s.lostMark := rfl
@[simp] theorem modCrew_msix (s : State) (ck : Nat) (f : Crew → Crew) : (modCrew s ck f).msix = s.msix := rfl
@[simp] theorem modCrew_aer (s : State) (ck : Nat) (f : Crew → Crew) : (modCrew s ck f).aer = s.aer := rfl
@[simp] theorem modCrew_telemetry (s : State) (ck : Nat) (f : Crew → Crew) : (modCrew s ck f).telemetry = s.telemetry := rfl
@[simp] theorem modCrew_agenda (s : State) (ck : Nat) (f : Crew → Crew) : (modCrew s ck f).agenda = s.agenda := rfl
@[simp] theorem modCrew_issue (s : State) (ck : Nat) (f : Crew → Crew) : (modCrew s ck f).issue = s.issue := rfl
@[simp] theorem modCrew_free (s : State) (ck : Nat) (f : Crew → Crew) : (modCrew s ck f).free = s.free := rfl
@[simp] theorem modCrew_nextId (s : State) (ck : Nat) (f : Crew → Crew) : (modCrew s ck f).nextId = s.nextId := rfl

/-! ### `cfgSet` -/

@[simp] theorem cfgSet_time (s : State) (a : Nat) (v : Word) : (cfgSet s a v).time = s.time := rfl
@[simp] theorem cfgSet_boot (s : State) (a : Nat) (v : Word) : (cfgSet s a v).boot = s.boot := rfl
@[simp] theorem cfgSet_flash (s : State) (a : Nat) (v : Word) : (cfgSet s a v).flash = s.flash := rfl
@[simp] theorem cfgSet_dies (s : State) (a : Nat) (v : Word) : (cfgSet s a v).dies = s.dies := rfl
@[simp] theorem cfgSet_cores (s : State) (a : Nat) (v : Word) : (cfgSet s a v).cores = s.cores := rfl
@[simp] theorem cfgSet_parts (s : State) (a : Nat) (v : Word) : (cfgSet s a v).parts = s.parts := rfl
@[simp] theorem cfgSet_peers (s : State) (a : Nat) (v : Word) : (cfgSet s a v).peers = s.peers := rfl
@[simp] theorem cfgSet_cfg (s : State) (a : Nat) (v : Word) : (cfgSet s a v).cfg = if v = cfgReset a then tabDel s.cfg a else tabPut s.cfg a v := rfl
@[simp] theorem cfgSet_mem (s : State) (a : Nat) (v : Word) : (cfgSet s a v).mem = s.mem := rfl
@[simp] theorem cfgSet_hostMem (s : State) (a : Nat) (v : Word) : (cfgSet s a v).hostMem = s.hostMem := rfl
@[simp] theorem cfgSet_poison (s : State) (a : Nat) (v : Word) : (cfgSet s a v).poison = s.poison := rfl
@[simp] theorem cfgSet_bankPoison (s : State) (a : Nat) (v : Word) : (cfgSet s a v).bankPoison = s.bankPoison := rfl
@[simp] theorem cfgSet_frames (s : State) (a : Nat) (v : Word) : (cfgSet s a v).frames = s.frames := rfl
@[simp] theorem cfgSet_crcs (s : State) (a : Nat) (v : Word) : (cfgSet s a v).crcs = s.crcs := rfl
@[simp] theorem cfgSet_cache (s : State) (a : Nat) (v : Word) : (cfgSet s a v).cache = s.cache := rfl
@[simp] theorem cfgSet_accs (s : State) (a : Nat) (v : Word) : (cfgSet s a v).accs = s.accs := rfl
@[simp] theorem cfgSet_spad (s : State) (a : Nat) (v : Word) : (cfgSet s a v).spad = s.spad := rfl
@[simp] theorem cfgSet_gran (s : State) (a : Nat) (v : Word) : (cfgSet s a v).gran = s.gran := rfl
@[simp] theorem cfgSet_bank (s : State) (a : Nat) (v : Word) : (cfgSet s a v).bank = s.bank := rfl
@[simp] theorem cfgSet_slots (s : State) (a : Nat) (v : Word) : (cfgSet s a v).slots = s.slots := rfl
@[simp] theorem cfgSet_crews (s : State) (a : Nat) (v : Word) : (cfgSet s a v).crews = s.crews := rfl
@[simp] theorem cfgSet_gangs (s : State) (a : Nat) (v : Word) : (cfgSet s a v).gangs = s.gangs := rfl
@[simp] theorem cfgSet_engines (s : State) (a : Nat) (v : Word) : (cfgSet s a v).engines = s.engines := rfl
@[simp] theorem cfgSet_tiles (s : State) (a : Nat) (v : Word) : (cfgSet s a v).tiles = s.tiles := rfl
@[simp] theorem cfgSet_copies (s : State) (a : Nat) (v : Word) : (cfgSet s a v).copies = s.copies := rfl
@[simp] theorem cfgSet_convs (s : State) (a : Nat) (v : Word) : (cfgSet s a v).convs = s.convs := rfl
@[simp] theorem cfgSet_rend (s : State) (a : Nat) (v : Word) : (cfgSet s a v).rend = s.rend := rfl
@[simp] theorem cfgSet_sched (s : State) (a : Nat) (v : Word) : (cfgSet s a v).sched = s.sched := rfl
@[simp] theorem cfgSet_funcs (s : State) (a : Nat) (v : Word) : (cfgSet s a v).funcs = s.funcs := rfl
@[simp] theorem cfgSet_own (s : State) (a : Nat) (v : Word) : (cfgSet s a v).own = s.own := rfl
@[simp] theorem cfgSet_fattr (s : State) (a : Nat) (v : Word) : (cfgSet s a v).fattr = s.fattr := rfl
@[simp] theorem cfgSet_hostHoles (s : State) (a : Nat) (v : Word) : (cfgSet s a v).hostHoles = s.hostHoles := rfl
@[simp] theorem cfgSet_survey (s : State) (a : Nat) (v : Word) : (cfgSet s a v).survey = s.survey := rfl
@[simp] theorem cfgSet_gated (s : State) (a : Nat) (v : Word) : (cfgSet s a v).gated = s.gated := rfl
@[simp] theorem cfgSet_outbox (s : State) (a : Nat) (v : Word) : (cfgSet s a v).outbox = s.outbox := rfl
@[simp] theorem cfgSet_lostMark (s : State) (a : Nat) (v : Word) : (cfgSet s a v).lostMark = s.lostMark := rfl
@[simp] theorem cfgSet_msix (s : State) (a : Nat) (v : Word) : (cfgSet s a v).msix = s.msix := rfl
@[simp] theorem cfgSet_aer (s : State) (a : Nat) (v : Word) : (cfgSet s a v).aer = s.aer := rfl
@[simp] theorem cfgSet_telemetry (s : State) (a : Nat) (v : Word) : (cfgSet s a v).telemetry = s.telemetry := rfl
@[simp] theorem cfgSet_agenda (s : State) (a : Nat) (v : Word) : (cfgSet s a v).agenda = s.agenda := rfl
@[simp] theorem cfgSet_issue (s : State) (a : Nat) (v : Word) : (cfgSet s a v).issue = s.issue := rfl
@[simp] theorem cfgSet_free (s : State) (a : Nat) (v : Word) : (cfgSet s a v).free = s.free := rfl
@[simp] theorem cfgSet_nextId (s : State) (a : Nat) (v : Word) : (cfgSet s a v).nextId = s.nextId := rfl

/-! ### `setDir` -/

@[simp] theorem setDir_time (s : State) (l : Nat) (r : DirRec) : (setDir s l r).time = s.time := rfl
@[simp] theorem setDir_boot (s : State) (l : Nat) (r : DirRec) : (setDir s l r).boot = s.boot := rfl
@[simp] theorem setDir_flash (s : State) (l : Nat) (r : DirRec) : (setDir s l r).flash = s.flash := rfl
@[simp] theorem setDir_dies (s : State) (l : Nat) (r : DirRec) : (setDir s l r).dies = s.dies := rfl
@[simp] theorem setDir_cores (s : State) (l : Nat) (r : DirRec) : (setDir s l r).cores = s.cores := rfl
@[simp] theorem setDir_parts (s : State) (l : Nat) (r : DirRec) : (setDir s l r).parts = s.parts := rfl
@[simp] theorem setDir_peers (s : State) (l : Nat) (r : DirRec) : (setDir s l r).peers = s.peers := rfl
@[simp] theorem setDir_cfg (s : State) (l : Nat) (r : DirRec) : (setDir s l r).cfg = s.cfg := rfl
@[simp] theorem setDir_mem (s : State) (l : Nat) (r : DirRec) : (setDir s l r).mem = s.mem := rfl
@[simp] theorem setDir_hostMem (s : State) (l : Nat) (r : DirRec) : (setDir s l r).hostMem = s.hostMem := rfl
@[simp] theorem setDir_poison (s : State) (l : Nat) (r : DirRec) : (setDir s l r).poison = s.poison := rfl
@[simp] theorem setDir_bankPoison (s : State) (l : Nat) (r : DirRec) : (setDir s l r).bankPoison = s.bankPoison := rfl
@[simp] theorem setDir_frames (s : State) (l : Nat) (r : DirRec) : (setDir s l r).frames = s.frames := rfl
@[simp] theorem setDir_crcs (s : State) (l : Nat) (r : DirRec) : (setDir s l r).crcs = s.crcs := rfl
@[simp] theorem setDir_cache (s : State) (l : Nat) (r : DirRec) : (setDir s l r).cache = { s.cache with dir := tabPut s.cache.dir l r } := rfl
@[simp] theorem setDir_accs (s : State) (l : Nat) (r : DirRec) : (setDir s l r).accs = s.accs := rfl
@[simp] theorem setDir_spad (s : State) (l : Nat) (r : DirRec) : (setDir s l r).spad = s.spad := rfl
@[simp] theorem setDir_gran (s : State) (l : Nat) (r : DirRec) : (setDir s l r).gran = s.gran := rfl
@[simp] theorem setDir_bank (s : State) (l : Nat) (r : DirRec) : (setDir s l r).bank = s.bank := rfl
@[simp] theorem setDir_slots (s : State) (l : Nat) (r : DirRec) : (setDir s l r).slots = s.slots := rfl
@[simp] theorem setDir_crews (s : State) (l : Nat) (r : DirRec) : (setDir s l r).crews = s.crews := rfl
@[simp] theorem setDir_gangs (s : State) (l : Nat) (r : DirRec) : (setDir s l r).gangs = s.gangs := rfl
@[simp] theorem setDir_engines (s : State) (l : Nat) (r : DirRec) : (setDir s l r).engines = s.engines := rfl
@[simp] theorem setDir_tiles (s : State) (l : Nat) (r : DirRec) : (setDir s l r).tiles = s.tiles := rfl
@[simp] theorem setDir_copies (s : State) (l : Nat) (r : DirRec) : (setDir s l r).copies = s.copies := rfl
@[simp] theorem setDir_convs (s : State) (l : Nat) (r : DirRec) : (setDir s l r).convs = s.convs := rfl
@[simp] theorem setDir_rend (s : State) (l : Nat) (r : DirRec) : (setDir s l r).rend = s.rend := rfl
@[simp] theorem setDir_sched (s : State) (l : Nat) (r : DirRec) : (setDir s l r).sched = s.sched := rfl
@[simp] theorem setDir_funcs (s : State) (l : Nat) (r : DirRec) : (setDir s l r).funcs = s.funcs := rfl
@[simp] theorem setDir_own (s : State) (l : Nat) (r : DirRec) : (setDir s l r).own = s.own := rfl
@[simp] theorem setDir_fattr (s : State) (l : Nat) (r : DirRec) : (setDir s l r).fattr = s.fattr := rfl
@[simp] theorem setDir_hostHoles (s : State) (l : Nat) (r : DirRec) : (setDir s l r).hostHoles = s.hostHoles := rfl
@[simp] theorem setDir_survey (s : State) (l : Nat) (r : DirRec) : (setDir s l r).survey = s.survey := rfl
@[simp] theorem setDir_gated (s : State) (l : Nat) (r : DirRec) : (setDir s l r).gated = s.gated := rfl
@[simp] theorem setDir_outbox (s : State) (l : Nat) (r : DirRec) : (setDir s l r).outbox = s.outbox := rfl
@[simp] theorem setDir_lostMark (s : State) (l : Nat) (r : DirRec) : (setDir s l r).lostMark = s.lostMark := rfl
@[simp] theorem setDir_msix (s : State) (l : Nat) (r : DirRec) : (setDir s l r).msix = s.msix := rfl
@[simp] theorem setDir_aer (s : State) (l : Nat) (r : DirRec) : (setDir s l r).aer = s.aer := rfl
@[simp] theorem setDir_telemetry (s : State) (l : Nat) (r : DirRec) : (setDir s l r).telemetry = s.telemetry := rfl
@[simp] theorem setDir_agenda (s : State) (l : Nat) (r : DirRec) : (setDir s l r).agenda = s.agenda := rfl
@[simp] theorem setDir_issue (s : State) (l : Nat) (r : DirRec) : (setDir s l r).issue = s.issue := rfl
@[simp] theorem setDir_free (s : State) (l : Nat) (r : DirRec) : (setDir s l r).free = s.free := rfl
@[simp] theorem setDir_nextId (s : State) (l : Nat) (r : DirRec) : (setDir s l r).nextId = s.nextId := rfl

/-! ### `modPart` -/

@[simp] theorem modPart_time (s : State) (p : Nat) (f : Partition → Partition) : (modPart s p f).time = s.time := rfl
@[simp] theorem modPart_boot (s : State) (p : Nat) (f : Partition → Partition) : (modPart s p f).boot = s.boot := rfl
@[simp] theorem modPart_flash (s : State) (p : Nat) (f : Partition → Partition) : (modPart s p f).flash = s.flash := rfl
@[simp] theorem modPart_dies (s : State) (p : Nat) (f : Partition → Partition) : (modPart s p f).dies = s.dies := rfl
@[simp] theorem modPart_cores (s : State) (p : Nat) (f : Partition → Partition) : (modPart s p f).cores = s.cores := rfl
@[simp] theorem modPart_parts (s : State) (p : Nat) (f : Partition → Partition) : (modPart s p f).parts = tabPut s.parts p (f (partOf s p)) := rfl
@[simp] theorem modPart_peers (s : State) (p : Nat) (f : Partition → Partition) : (modPart s p f).peers = s.peers := rfl
@[simp] theorem modPart_cfg (s : State) (p : Nat) (f : Partition → Partition) : (modPart s p f).cfg = s.cfg := rfl
@[simp] theorem modPart_mem (s : State) (p : Nat) (f : Partition → Partition) : (modPart s p f).mem = s.mem := rfl
@[simp] theorem modPart_hostMem (s : State) (p : Nat) (f : Partition → Partition) : (modPart s p f).hostMem = s.hostMem := rfl
@[simp] theorem modPart_poison (s : State) (p : Nat) (f : Partition → Partition) : (modPart s p f).poison = s.poison := rfl
@[simp] theorem modPart_bankPoison (s : State) (p : Nat) (f : Partition → Partition) : (modPart s p f).bankPoison = s.bankPoison := rfl
@[simp] theorem modPart_frames (s : State) (p : Nat) (f : Partition → Partition) : (modPart s p f).frames = s.frames := rfl
@[simp] theorem modPart_crcs (s : State) (p : Nat) (f : Partition → Partition) : (modPart s p f).crcs = s.crcs := rfl
@[simp] theorem modPart_cache (s : State) (p : Nat) (f : Partition → Partition) : (modPart s p f).cache = s.cache := rfl
@[simp] theorem modPart_accs (s : State) (p : Nat) (f : Partition → Partition) : (modPart s p f).accs = s.accs := rfl
@[simp] theorem modPart_spad (s : State) (p : Nat) (f : Partition → Partition) : (modPart s p f).spad = s.spad := rfl
@[simp] theorem modPart_gran (s : State) (p : Nat) (f : Partition → Partition) : (modPart s p f).gran = s.gran := rfl
@[simp] theorem modPart_bank (s : State) (p : Nat) (f : Partition → Partition) : (modPart s p f).bank = s.bank := rfl
@[simp] theorem modPart_slots (s : State) (p : Nat) (f : Partition → Partition) : (modPart s p f).slots = s.slots := rfl
@[simp] theorem modPart_crews (s : State) (p : Nat) (f : Partition → Partition) : (modPart s p f).crews = s.crews := rfl
@[simp] theorem modPart_gangs (s : State) (p : Nat) (f : Partition → Partition) : (modPart s p f).gangs = s.gangs := rfl
@[simp] theorem modPart_engines (s : State) (p : Nat) (f : Partition → Partition) : (modPart s p f).engines = s.engines := rfl
@[simp] theorem modPart_tiles (s : State) (p : Nat) (f : Partition → Partition) : (modPart s p f).tiles = s.tiles := rfl
@[simp] theorem modPart_copies (s : State) (p : Nat) (f : Partition → Partition) : (modPart s p f).copies = s.copies := rfl
@[simp] theorem modPart_convs (s : State) (p : Nat) (f : Partition → Partition) : (modPart s p f).convs = s.convs := rfl
@[simp] theorem modPart_rend (s : State) (p : Nat) (f : Partition → Partition) : (modPart s p f).rend = s.rend := rfl
@[simp] theorem modPart_sched (s : State) (p : Nat) (f : Partition → Partition) : (modPart s p f).sched = s.sched := rfl
@[simp] theorem modPart_funcs (s : State) (p : Nat) (f : Partition → Partition) : (modPart s p f).funcs = s.funcs := rfl
@[simp] theorem modPart_own (s : State) (p : Nat) (f : Partition → Partition) : (modPart s p f).own = s.own := rfl
@[simp] theorem modPart_fattr (s : State) (p : Nat) (f : Partition → Partition) : (modPart s p f).fattr = s.fattr := rfl
@[simp] theorem modPart_hostHoles (s : State) (p : Nat) (f : Partition → Partition) : (modPart s p f).hostHoles = s.hostHoles := rfl
@[simp] theorem modPart_survey (s : State) (p : Nat) (f : Partition → Partition) : (modPart s p f).survey = s.survey := rfl
@[simp] theorem modPart_gated (s : State) (p : Nat) (f : Partition → Partition) : (modPart s p f).gated = s.gated := rfl
@[simp] theorem modPart_outbox (s : State) (p : Nat) (f : Partition → Partition) : (modPart s p f).outbox = s.outbox := rfl
@[simp] theorem modPart_lostMark (s : State) (p : Nat) (f : Partition → Partition) : (modPart s p f).lostMark = s.lostMark := rfl
@[simp] theorem modPart_msix (s : State) (p : Nat) (f : Partition → Partition) : (modPart s p f).msix = s.msix := rfl
@[simp] theorem modPart_aer (s : State) (p : Nat) (f : Partition → Partition) : (modPart s p f).aer = s.aer := rfl
@[simp] theorem modPart_telemetry (s : State) (p : Nat) (f : Partition → Partition) : (modPart s p f).telemetry = s.telemetry := rfl
@[simp] theorem modPart_agenda (s : State) (p : Nat) (f : Partition → Partition) : (modPart s p f).agenda = s.agenda := rfl
@[simp] theorem modPart_issue (s : State) (p : Nat) (f : Partition → Partition) : (modPart s p f).issue = s.issue := rfl
@[simp] theorem modPart_free (s : State) (p : Nat) (f : Partition → Partition) : (modPart s p f).free = s.free := rfl
@[simp] theorem modPart_nextId (s : State) (p : Nat) (f : Partition → Partition) : (modPart s p f).nextId = s.nextId := rfl

/-! ### `modFunc` -/

@[simp] theorem modFunc_time (s : State) (n : Nat) (f : Func → Func) : (modFunc s n f).time = s.time := rfl
@[simp] theorem modFunc_boot (s : State) (n : Nat) (f : Func → Func) : (modFunc s n f).boot = s.boot := rfl
@[simp] theorem modFunc_flash (s : State) (n : Nat) (f : Func → Func) : (modFunc s n f).flash = s.flash := rfl
@[simp] theorem modFunc_dies (s : State) (n : Nat) (f : Func → Func) : (modFunc s n f).dies = s.dies := rfl
@[simp] theorem modFunc_cores (s : State) (n : Nat) (f : Func → Func) : (modFunc s n f).cores = s.cores := rfl
@[simp] theorem modFunc_parts (s : State) (n : Nat) (f : Func → Func) : (modFunc s n f).parts = s.parts := rfl
@[simp] theorem modFunc_peers (s : State) (n : Nat) (f : Func → Func) : (modFunc s n f).peers = s.peers := rfl
@[simp] theorem modFunc_cfg (s : State) (n : Nat) (f : Func → Func) : (modFunc s n f).cfg = s.cfg := rfl
@[simp] theorem modFunc_mem (s : State) (n : Nat) (f : Func → Func) : (modFunc s n f).mem = s.mem := rfl
@[simp] theorem modFunc_hostMem (s : State) (n : Nat) (f : Func → Func) : (modFunc s n f).hostMem = s.hostMem := rfl
@[simp] theorem modFunc_poison (s : State) (n : Nat) (f : Func → Func) : (modFunc s n f).poison = s.poison := rfl
@[simp] theorem modFunc_bankPoison (s : State) (n : Nat) (f : Func → Func) : (modFunc s n f).bankPoison = s.bankPoison := rfl
@[simp] theorem modFunc_frames (s : State) (n : Nat) (f : Func → Func) : (modFunc s n f).frames = s.frames := rfl
@[simp] theorem modFunc_crcs (s : State) (n : Nat) (f : Func → Func) : (modFunc s n f).crcs = s.crcs := rfl
@[simp] theorem modFunc_cache (s : State) (n : Nat) (f : Func → Func) : (modFunc s n f).cache = s.cache := rfl
@[simp] theorem modFunc_accs (s : State) (n : Nat) (f : Func → Func) : (modFunc s n f).accs = s.accs := rfl
@[simp] theorem modFunc_spad (s : State) (n : Nat) (f : Func → Func) : (modFunc s n f).spad = s.spad := rfl
@[simp] theorem modFunc_gran (s : State) (n : Nat) (f : Func → Func) : (modFunc s n f).gran = s.gran := rfl
@[simp] theorem modFunc_bank (s : State) (n : Nat) (f : Func → Func) : (modFunc s n f).bank = s.bank := rfl
@[simp] theorem modFunc_slots (s : State) (n : Nat) (f : Func → Func) : (modFunc s n f).slots = s.slots := rfl
@[simp] theorem modFunc_crews (s : State) (n : Nat) (f : Func → Func) : (modFunc s n f).crews = s.crews := rfl
@[simp] theorem modFunc_gangs (s : State) (n : Nat) (f : Func → Func) : (modFunc s n f).gangs = s.gangs := rfl
@[simp] theorem modFunc_engines (s : State) (n : Nat) (f : Func → Func) : (modFunc s n f).engines = s.engines := rfl
@[simp] theorem modFunc_tiles (s : State) (n : Nat) (f : Func → Func) : (modFunc s n f).tiles = s.tiles := rfl
@[simp] theorem modFunc_copies (s : State) (n : Nat) (f : Func → Func) : (modFunc s n f).copies = s.copies := rfl
@[simp] theorem modFunc_convs (s : State) (n : Nat) (f : Func → Func) : (modFunc s n f).convs = s.convs := rfl
@[simp] theorem modFunc_rend (s : State) (n : Nat) (f : Func → Func) : (modFunc s n f).rend = s.rend := rfl
@[simp] theorem modFunc_sched (s : State) (n : Nat) (f : Func → Func) : (modFunc s n f).sched = s.sched := rfl
@[simp] theorem modFunc_funcs (s : State) (n : Nat) (f : Func → Func) : (modFunc s n f).funcs = tabPut s.funcs n (f (funcOf s n)) := rfl
@[simp] theorem modFunc_own (s : State) (n : Nat) (f : Func → Func) : (modFunc s n f).own = s.own := rfl
@[simp] theorem modFunc_fattr (s : State) (n : Nat) (f : Func → Func) : (modFunc s n f).fattr = s.fattr := rfl
@[simp] theorem modFunc_hostHoles (s : State) (n : Nat) (f : Func → Func) : (modFunc s n f).hostHoles = s.hostHoles := rfl
@[simp] theorem modFunc_survey (s : State) (n : Nat) (f : Func → Func) : (modFunc s n f).survey = s.survey := rfl
@[simp] theorem modFunc_gated (s : State) (n : Nat) (f : Func → Func) : (modFunc s n f).gated = s.gated := rfl
@[simp] theorem modFunc_outbox (s : State) (n : Nat) (f : Func → Func) : (modFunc s n f).outbox = s.outbox := rfl
@[simp] theorem modFunc_lostMark (s : State) (n : Nat) (f : Func → Func) : (modFunc s n f).lostMark = s.lostMark := rfl
@[simp] theorem modFunc_msix (s : State) (n : Nat) (f : Func → Func) : (modFunc s n f).msix = s.msix := rfl
@[simp] theorem modFunc_aer (s : State) (n : Nat) (f : Func → Func) : (modFunc s n f).aer = s.aer := rfl
@[simp] theorem modFunc_telemetry (s : State) (n : Nat) (f : Func → Func) : (modFunc s n f).telemetry = s.telemetry := rfl
@[simp] theorem modFunc_agenda (s : State) (n : Nat) (f : Func → Func) : (modFunc s n f).agenda = s.agenda := rfl
@[simp] theorem modFunc_issue (s : State) (n : Nat) (f : Func → Func) : (modFunc s n f).issue = s.issue := rfl
@[simp] theorem modFunc_free (s : State) (n : Nat) (f : Func → Func) : (modFunc s n f).free = s.free := rfl
@[simp] theorem modFunc_nextId (s : State) (n : Nat) (f : Func → Func) : (modFunc s n f).nextId = s.nextId := rfl

/-! ### `modShift` -/

@[simp] theorem modShift_time (s : State) (n : Nat) (f : Shift → Shift) : (modShift s n f).time = s.time := rfl
@[simp] theorem modShift_boot (s : State) (n : Nat) (f : Shift → Shift) : (modShift s n f).boot = s.boot := rfl
@[simp] theorem modShift_flash (s : State) (n : Nat) (f : Shift → Shift) : (modShift s n f).flash = s.flash := rfl
@[simp] theorem modShift_dies (s : State) (n : Nat) (f : Shift → Shift) : (modShift s n f).dies = s.dies := rfl
@[simp] theorem modShift_cores (s : State) (n : Nat) (f : Shift → Shift) : (modShift s n f).cores = s.cores := rfl
@[simp] theorem modShift_parts (s : State) (n : Nat) (f : Shift → Shift) : (modShift s n f).parts = s.parts := rfl
@[simp] theorem modShift_peers (s : State) (n : Nat) (f : Shift → Shift) : (modShift s n f).peers = s.peers := rfl
@[simp] theorem modShift_cfg (s : State) (n : Nat) (f : Shift → Shift) : (modShift s n f).cfg = s.cfg := rfl
@[simp] theorem modShift_mem (s : State) (n : Nat) (f : Shift → Shift) : (modShift s n f).mem = s.mem := rfl
@[simp] theorem modShift_hostMem (s : State) (n : Nat) (f : Shift → Shift) : (modShift s n f).hostMem = s.hostMem := rfl
@[simp] theorem modShift_poison (s : State) (n : Nat) (f : Shift → Shift) : (modShift s n f).poison = s.poison := rfl
@[simp] theorem modShift_bankPoison (s : State) (n : Nat) (f : Shift → Shift) : (modShift s n f).bankPoison = s.bankPoison := rfl
@[simp] theorem modShift_frames (s : State) (n : Nat) (f : Shift → Shift) : (modShift s n f).frames = s.frames := rfl
@[simp] theorem modShift_crcs (s : State) (n : Nat) (f : Shift → Shift) : (modShift s n f).crcs = s.crcs := rfl
@[simp] theorem modShift_cache (s : State) (n : Nat) (f : Shift → Shift) : (modShift s n f).cache = s.cache := rfl
@[simp] theorem modShift_accs (s : State) (n : Nat) (f : Shift → Shift) : (modShift s n f).accs = s.accs := rfl
@[simp] theorem modShift_spad (s : State) (n : Nat) (f : Shift → Shift) : (modShift s n f).spad = s.spad := rfl
@[simp] theorem modShift_gran (s : State) (n : Nat) (f : Shift → Shift) : (modShift s n f).gran = s.gran := rfl
@[simp] theorem modShift_bank (s : State) (n : Nat) (f : Shift → Shift) : (modShift s n f).bank = s.bank := rfl
@[simp] theorem modShift_slots (s : State) (n : Nat) (f : Shift → Shift) : (modShift s n f).slots = s.slots := rfl
@[simp] theorem modShift_crews (s : State) (n : Nat) (f : Shift → Shift) : (modShift s n f).crews = s.crews := rfl
@[simp] theorem modShift_gangs (s : State) (n : Nat) (f : Shift → Shift) : (modShift s n f).gangs = s.gangs := rfl
@[simp] theorem modShift_engines (s : State) (n : Nat) (f : Shift → Shift) : (modShift s n f).engines = s.engines := rfl
@[simp] theorem modShift_tiles (s : State) (n : Nat) (f : Shift → Shift) : (modShift s n f).tiles = s.tiles := rfl
@[simp] theorem modShift_copies (s : State) (n : Nat) (f : Shift → Shift) : (modShift s n f).copies = s.copies := rfl
@[simp] theorem modShift_convs (s : State) (n : Nat) (f : Shift → Shift) : (modShift s n f).convs = s.convs := rfl
@[simp] theorem modShift_rend (s : State) (n : Nat) (f : Shift → Shift) : (modShift s n f).rend = s.rend := rfl
@[simp] theorem modShift_sched (s : State) (n : Nat) (f : Shift → Shift) : (modShift s n f).sched = { s.sched with shifts := tabMod s.sched.shifts n f } := rfl
@[simp] theorem modShift_funcs (s : State) (n : Nat) (f : Shift → Shift) : (modShift s n f).funcs = s.funcs := rfl
@[simp] theorem modShift_own (s : State) (n : Nat) (f : Shift → Shift) : (modShift s n f).own = s.own := rfl
@[simp] theorem modShift_fattr (s : State) (n : Nat) (f : Shift → Shift) : (modShift s n f).fattr = s.fattr := rfl
@[simp] theorem modShift_hostHoles (s : State) (n : Nat) (f : Shift → Shift) : (modShift s n f).hostHoles = s.hostHoles := rfl
@[simp] theorem modShift_survey (s : State) (n : Nat) (f : Shift → Shift) : (modShift s n f).survey = s.survey := rfl
@[simp] theorem modShift_gated (s : State) (n : Nat) (f : Shift → Shift) : (modShift s n f).gated = s.gated := rfl
@[simp] theorem modShift_outbox (s : State) (n : Nat) (f : Shift → Shift) : (modShift s n f).outbox = s.outbox := rfl
@[simp] theorem modShift_lostMark (s : State) (n : Nat) (f : Shift → Shift) : (modShift s n f).lostMark = s.lostMark := rfl
@[simp] theorem modShift_msix (s : State) (n : Nat) (f : Shift → Shift) : (modShift s n f).msix = s.msix := rfl
@[simp] theorem modShift_aer (s : State) (n : Nat) (f : Shift → Shift) : (modShift s n f).aer = s.aer := rfl
@[simp] theorem modShift_telemetry (s : State) (n : Nat) (f : Shift → Shift) : (modShift s n f).telemetry = s.telemetry := rfl
@[simp] theorem modShift_agenda (s : State) (n : Nat) (f : Shift → Shift) : (modShift s n f).agenda = s.agenda := rfl
@[simp] theorem modShift_issue (s : State) (n : Nat) (f : Shift → Shift) : (modShift s n f).issue = s.issue := rfl
@[simp] theorem modShift_free (s : State) (n : Nat) (f : Shift → Shift) : (modShift s n f).free = s.free := rfl
@[simp] theorem modShift_nextId (s : State) (n : Nat) (f : Shift → Shift) : (modShift s n f).nextId = s.nextId := rfl

/-! ### `modDie` -/

@[simp] theorem modDie_time (s : State) (p : Nat) (f : Die → Die) : (modDie s p f).time = s.time := rfl
@[simp] theorem modDie_boot (s : State) (p : Nat) (f : Die → Die) : (modDie s p f).boot = s.boot := rfl
@[simp] theorem modDie_flash (s : State) (p : Nat) (f : Die → Die) : (modDie s p f).flash = s.flash := rfl
@[simp] theorem modDie_dies (s : State) (p : Nat) (f : Die → Die) : (modDie s p f).dies = tabMod s.dies p f := rfl
@[simp] theorem modDie_cores (s : State) (p : Nat) (f : Die → Die) : (modDie s p f).cores = s.cores := rfl
@[simp] theorem modDie_parts (s : State) (p : Nat) (f : Die → Die) : (modDie s p f).parts = s.parts := rfl
@[simp] theorem modDie_peers (s : State) (p : Nat) (f : Die → Die) : (modDie s p f).peers = s.peers := rfl
@[simp] theorem modDie_cfg (s : State) (p : Nat) (f : Die → Die) : (modDie s p f).cfg = s.cfg := rfl
@[simp] theorem modDie_mem (s : State) (p : Nat) (f : Die → Die) : (modDie s p f).mem = s.mem := rfl
@[simp] theorem modDie_hostMem (s : State) (p : Nat) (f : Die → Die) : (modDie s p f).hostMem = s.hostMem := rfl
@[simp] theorem modDie_poison (s : State) (p : Nat) (f : Die → Die) : (modDie s p f).poison = s.poison := rfl
@[simp] theorem modDie_bankPoison (s : State) (p : Nat) (f : Die → Die) : (modDie s p f).bankPoison = s.bankPoison := rfl
@[simp] theorem modDie_frames (s : State) (p : Nat) (f : Die → Die) : (modDie s p f).frames = s.frames := rfl
@[simp] theorem modDie_crcs (s : State) (p : Nat) (f : Die → Die) : (modDie s p f).crcs = s.crcs := rfl
@[simp] theorem modDie_cache (s : State) (p : Nat) (f : Die → Die) : (modDie s p f).cache = s.cache := rfl
@[simp] theorem modDie_accs (s : State) (p : Nat) (f : Die → Die) : (modDie s p f).accs = s.accs := rfl
@[simp] theorem modDie_spad (s : State) (p : Nat) (f : Die → Die) : (modDie s p f).spad = s.spad := rfl
@[simp] theorem modDie_gran (s : State) (p : Nat) (f : Die → Die) : (modDie s p f).gran = s.gran := rfl
@[simp] theorem modDie_bank (s : State) (p : Nat) (f : Die → Die) : (modDie s p f).bank = s.bank := rfl
@[simp] theorem modDie_slots (s : State) (p : Nat) (f : Die → Die) : (modDie s p f).slots = s.slots := rfl
@[simp] theorem modDie_crews (s : State) (p : Nat) (f : Die → Die) : (modDie s p f).crews = s.crews := rfl
@[simp] theorem modDie_gangs (s : State) (p : Nat) (f : Die → Die) : (modDie s p f).gangs = s.gangs := rfl
@[simp] theorem modDie_engines (s : State) (p : Nat) (f : Die → Die) : (modDie s p f).engines = s.engines := rfl
@[simp] theorem modDie_tiles (s : State) (p : Nat) (f : Die → Die) : (modDie s p f).tiles = s.tiles := rfl
@[simp] theorem modDie_copies (s : State) (p : Nat) (f : Die → Die) : (modDie s p f).copies = s.copies := rfl
@[simp] theorem modDie_convs (s : State) (p : Nat) (f : Die → Die) : (modDie s p f).convs = s.convs := rfl
@[simp] theorem modDie_rend (s : State) (p : Nat) (f : Die → Die) : (modDie s p f).rend = s.rend := rfl
@[simp] theorem modDie_sched (s : State) (p : Nat) (f : Die → Die) : (modDie s p f).sched = s.sched := rfl
@[simp] theorem modDie_funcs (s : State) (p : Nat) (f : Die → Die) : (modDie s p f).funcs = s.funcs := rfl
@[simp] theorem modDie_own (s : State) (p : Nat) (f : Die → Die) : (modDie s p f).own = s.own := rfl
@[simp] theorem modDie_fattr (s : State) (p : Nat) (f : Die → Die) : (modDie s p f).fattr = s.fattr := rfl
@[simp] theorem modDie_hostHoles (s : State) (p : Nat) (f : Die → Die) : (modDie s p f).hostHoles = s.hostHoles := rfl
@[simp] theorem modDie_survey (s : State) (p : Nat) (f : Die → Die) : (modDie s p f).survey = s.survey := rfl
@[simp] theorem modDie_gated (s : State) (p : Nat) (f : Die → Die) : (modDie s p f).gated = s.gated := rfl
@[simp] theorem modDie_outbox (s : State) (p : Nat) (f : Die → Die) : (modDie s p f).outbox = s.outbox := rfl
@[simp] theorem modDie_lostMark (s : State) (p : Nat) (f : Die → Die) : (modDie s p f).lostMark = s.lostMark := rfl
@[simp] theorem modDie_msix (s : State) (p : Nat) (f : Die → Die) : (modDie s p f).msix = s.msix := rfl
@[simp] theorem modDie_aer (s : State) (p : Nat) (f : Die → Die) : (modDie s p f).aer = s.aer := rfl
@[simp] theorem modDie_telemetry (s : State) (p : Nat) (f : Die → Die) : (modDie s p f).telemetry = s.telemetry := rfl
@[simp] theorem modDie_agenda (s : State) (p : Nat) (f : Die → Die) : (modDie s p f).agenda = s.agenda := rfl
@[simp] theorem modDie_issue (s : State) (p : Nat) (f : Die → Die) : (modDie s p f).issue = s.issue := rfl
@[simp] theorem modDie_free (s : State) (p : Nat) (f : Die → Die) : (modDie s p f).free = s.free := rfl
@[simp] theorem modDie_nextId (s : State) (p : Nat) (f : Die → Die) : (modDie s p f).nextId = s.nextId := rfl

/-! ### `modCore` -/

@[simp] theorem modCore_time (s : State) (k : Nat) (f : Core → Core) : (modCore s k f).time = s.time := rfl
@[simp] theorem modCore_boot (s : State) (k : Nat) (f : Core → Core) : (modCore s k f).boot = s.boot := rfl
@[simp] theorem modCore_flash (s : State) (k : Nat) (f : Core → Core) : (modCore s k f).flash = s.flash := rfl
@[simp] theorem modCore_dies (s : State) (k : Nat) (f : Core → Core) : (modCore s k f).dies = s.dies := rfl
@[simp] theorem modCore_cores (s : State) (k : Nat) (f : Core → Core) : (modCore s k f).cores = tabMod s.cores k f := rfl
@[simp] theorem modCore_parts (s : State) (k : Nat) (f : Core → Core) : (modCore s k f).parts = s.parts := rfl
@[simp] theorem modCore_peers (s : State) (k : Nat) (f : Core → Core) : (modCore s k f).peers = s.peers := rfl
@[simp] theorem modCore_cfg (s : State) (k : Nat) (f : Core → Core) : (modCore s k f).cfg = s.cfg := rfl
@[simp] theorem modCore_mem (s : State) (k : Nat) (f : Core → Core) : (modCore s k f).mem = s.mem := rfl
@[simp] theorem modCore_hostMem (s : State) (k : Nat) (f : Core → Core) : (modCore s k f).hostMem = s.hostMem := rfl
@[simp] theorem modCore_poison (s : State) (k : Nat) (f : Core → Core) : (modCore s k f).poison = s.poison := rfl
@[simp] theorem modCore_bankPoison (s : State) (k : Nat) (f : Core → Core) : (modCore s k f).bankPoison = s.bankPoison := rfl
@[simp] theorem modCore_frames (s : State) (k : Nat) (f : Core → Core) : (modCore s k f).frames = s.frames := rfl
@[simp] theorem modCore_crcs (s : State) (k : Nat) (f : Core → Core) : (modCore s k f).crcs = s.crcs := rfl
@[simp] theorem modCore_cache (s : State) (k : Nat) (f : Core → Core) : (modCore s k f).cache = s.cache := rfl
@[simp] theorem modCore_accs (s : State) (k : Nat) (f : Core → Core) : (modCore s k f).accs = s.accs := rfl
@[simp] theorem modCore_spad (s : State) (k : Nat) (f : Core → Core) : (modCore s k f).spad = s.spad := rfl
@[simp] theorem modCore_gran (s : State) (k : Nat) (f : Core → Core) : (modCore s k f).gran = s.gran := rfl
@[simp] theorem modCore_bank (s : State) (k : Nat) (f : Core → Core) : (modCore s k f).bank = s.bank := rfl
@[simp] theorem modCore_slots (s : State) (k : Nat) (f : Core → Core) : (modCore s k f).slots = s.slots := rfl
@[simp] theorem modCore_crews (s : State) (k : Nat) (f : Core → Core) : (modCore s k f).crews = s.crews := rfl
@[simp] theorem modCore_gangs (s : State) (k : Nat) (f : Core → Core) : (modCore s k f).gangs = s.gangs := rfl
@[simp] theorem modCore_engines (s : State) (k : Nat) (f : Core → Core) : (modCore s k f).engines = s.engines := rfl
@[simp] theorem modCore_tiles (s : State) (k : Nat) (f : Core → Core) : (modCore s k f).tiles = s.tiles := rfl
@[simp] theorem modCore_copies (s : State) (k : Nat) (f : Core → Core) : (modCore s k f).copies = s.copies := rfl
@[simp] theorem modCore_convs (s : State) (k : Nat) (f : Core → Core) : (modCore s k f).convs = s.convs := rfl
@[simp] theorem modCore_rend (s : State) (k : Nat) (f : Core → Core) : (modCore s k f).rend = s.rend := rfl
@[simp] theorem modCore_sched (s : State) (k : Nat) (f : Core → Core) : (modCore s k f).sched = s.sched := rfl
@[simp] theorem modCore_funcs (s : State) (k : Nat) (f : Core → Core) : (modCore s k f).funcs = s.funcs := rfl
@[simp] theorem modCore_own (s : State) (k : Nat) (f : Core → Core) : (modCore s k f).own = s.own := rfl
@[simp] theorem modCore_fattr (s : State) (k : Nat) (f : Core → Core) : (modCore s k f).fattr = s.fattr := rfl
@[simp] theorem modCore_hostHoles (s : State) (k : Nat) (f : Core → Core) : (modCore s k f).hostHoles = s.hostHoles := rfl
@[simp] theorem modCore_survey (s : State) (k : Nat) (f : Core → Core) : (modCore s k f).survey = s.survey := rfl
@[simp] theorem modCore_gated (s : State) (k : Nat) (f : Core → Core) : (modCore s k f).gated = s.gated := rfl
@[simp] theorem modCore_outbox (s : State) (k : Nat) (f : Core → Core) : (modCore s k f).outbox = s.outbox := rfl
@[simp] theorem modCore_lostMark (s : State) (k : Nat) (f : Core → Core) : (modCore s k f).lostMark = s.lostMark := rfl
@[simp] theorem modCore_msix (s : State) (k : Nat) (f : Core → Core) : (modCore s k f).msix = s.msix := rfl
@[simp] theorem modCore_aer (s : State) (k : Nat) (f : Core → Core) : (modCore s k f).aer = s.aer := rfl
@[simp] theorem modCore_telemetry (s : State) (k : Nat) (f : Core → Core) : (modCore s k f).telemetry = s.telemetry := rfl
@[simp] theorem modCore_agenda (s : State) (k : Nat) (f : Core → Core) : (modCore s k f).agenda = s.agenda := rfl
@[simp] theorem modCore_issue (s : State) (k : Nat) (f : Core → Core) : (modCore s k f).issue = s.issue := rfl
@[simp] theorem modCore_free (s : State) (k : Nat) (f : Core → Core) : (modCore s k f).free = s.free := rfl
@[simp] theorem modCore_nextId (s : State) (k : Nat) (f : Core → Core) : (modCore s k f).nextId = s.nextId := rfl

/-! ### `modRend` -/

@[simp] theorem modRend_time (s : State) (f : RendSt → RendSt) : (modRend s f).time = s.time := rfl
@[simp] theorem modRend_boot (s : State) (f : RendSt → RendSt) : (modRend s f).boot = s.boot := rfl
@[simp] theorem modRend_flash (s : State) (f : RendSt → RendSt) : (modRend s f).flash = s.flash := rfl
@[simp] theorem modRend_dies (s : State) (f : RendSt → RendSt) : (modRend s f).dies = s.dies := rfl
@[simp] theorem modRend_cores (s : State) (f : RendSt → RendSt) : (modRend s f).cores = s.cores := rfl
@[simp] theorem modRend_parts (s : State) (f : RendSt → RendSt) : (modRend s f).parts = s.parts := rfl
@[simp] theorem modRend_peers (s : State) (f : RendSt → RendSt) : (modRend s f).peers = s.peers := rfl
@[simp] theorem modRend_cfg (s : State) (f : RendSt → RendSt) : (modRend s f).cfg = s.cfg := rfl
@[simp] theorem modRend_mem (s : State) (f : RendSt → RendSt) : (modRend s f).mem = s.mem := rfl
@[simp] theorem modRend_hostMem (s : State) (f : RendSt → RendSt) : (modRend s f).hostMem = s.hostMem := rfl
@[simp] theorem modRend_poison (s : State) (f : RendSt → RendSt) : (modRend s f).poison = s.poison := rfl
@[simp] theorem modRend_bankPoison (s : State) (f : RendSt → RendSt) : (modRend s f).bankPoison = s.bankPoison := rfl
@[simp] theorem modRend_frames (s : State) (f : RendSt → RendSt) : (modRend s f).frames = s.frames := rfl
@[simp] theorem modRend_crcs (s : State) (f : RendSt → RendSt) : (modRend s f).crcs = s.crcs := rfl
@[simp] theorem modRend_cache (s : State) (f : RendSt → RendSt) : (modRend s f).cache = s.cache := rfl
@[simp] theorem modRend_accs (s : State) (f : RendSt → RendSt) : (modRend s f).accs = s.accs := rfl
@[simp] theorem modRend_spad (s : State) (f : RendSt → RendSt) : (modRend s f).spad = s.spad := rfl
@[simp] theorem modRend_gran (s : State) (f : RendSt → RendSt) : (modRend s f).gran = s.gran := rfl
@[simp] theorem modRend_bank (s : State) (f : RendSt → RendSt) : (modRend s f).bank = s.bank := rfl
@[simp] theorem modRend_slots (s : State) (f : RendSt → RendSt) : (modRend s f).slots = s.slots := rfl
@[simp] theorem modRend_crews (s : State) (f : RendSt → RendSt) : (modRend s f).crews = s.crews := rfl
@[simp] theorem modRend_gangs (s : State) (f : RendSt → RendSt) : (modRend s f).gangs = s.gangs := rfl
@[simp] theorem modRend_engines (s : State) (f : RendSt → RendSt) : (modRend s f).engines = s.engines := rfl
@[simp] theorem modRend_tiles (s : State) (f : RendSt → RendSt) : (modRend s f).tiles = s.tiles := rfl
@[simp] theorem modRend_copies (s : State) (f : RendSt → RendSt) : (modRend s f).copies = s.copies := rfl
@[simp] theorem modRend_convs (s : State) (f : RendSt → RendSt) : (modRend s f).convs = s.convs := rfl
@[simp] theorem modRend_rend (s : State) (f : RendSt → RendSt) : (modRend s f).rend = f s.rend := rfl
@[simp] theorem modRend_sched (s : State) (f : RendSt → RendSt) : (modRend s f).sched = s.sched := rfl
@[simp] theorem modRend_funcs (s : State) (f : RendSt → RendSt) : (modRend s f).funcs = s.funcs := rfl
@[simp] theorem modRend_own (s : State) (f : RendSt → RendSt) : (modRend s f).own = s.own := rfl
@[simp] theorem modRend_fattr (s : State) (f : RendSt → RendSt) : (modRend s f).fattr = s.fattr := rfl
@[simp] theorem modRend_hostHoles (s : State) (f : RendSt → RendSt) : (modRend s f).hostHoles = s.hostHoles := rfl
@[simp] theorem modRend_survey (s : State) (f : RendSt → RendSt) : (modRend s f).survey = s.survey := rfl
@[simp] theorem modRend_gated (s : State) (f : RendSt → RendSt) : (modRend s f).gated = s.gated := rfl
@[simp] theorem modRend_outbox (s : State) (f : RendSt → RendSt) : (modRend s f).outbox = s.outbox := rfl
@[simp] theorem modRend_lostMark (s : State) (f : RendSt → RendSt) : (modRend s f).lostMark = s.lostMark := rfl
@[simp] theorem modRend_msix (s : State) (f : RendSt → RendSt) : (modRend s f).msix = s.msix := rfl
@[simp] theorem modRend_aer (s : State) (f : RendSt → RendSt) : (modRend s f).aer = s.aer := rfl
@[simp] theorem modRend_telemetry (s : State) (f : RendSt → RendSt) : (modRend s f).telemetry = s.telemetry := rfl
@[simp] theorem modRend_agenda (s : State) (f : RendSt → RendSt) : (modRend s f).agenda = s.agenda := rfl
@[simp] theorem modRend_issue (s : State) (f : RendSt → RendSt) : (modRend s f).issue = s.issue := rfl
@[simp] theorem modRend_free (s : State) (f : RendSt → RendSt) : (modRend s f).free = s.free := rfl
@[simp] theorem modRend_nextId (s : State) (f : RendSt → RendSt) : (modRend s f).nextId = s.nextId := rfl

/-! ### `spadWrite` -/

@[simp] theorem spadWrite_time (s : State) (k : Nat) (bs : List Byte) : (spadWrite s k bs).time = s.time := rfl
@[simp] theorem spadWrite_boot (s : State) (k : Nat) (bs : List Byte) : (spadWrite s k bs).boot = s.boot := rfl
@[simp] theorem spadWrite_flash (s : State) (k : Nat) (bs : List Byte) : (spadWrite s k bs).flash = s.flash := rfl
@[simp] theorem spadWrite_dies (s : State) (k : Nat) (bs : List Byte) : (spadWrite s k bs).dies = s.dies := rfl
@[simp] theorem spadWrite_cores (s : State) (k : Nat) (bs : List Byte) : (spadWrite s k bs).cores = s.cores := rfl
@[simp] theorem spadWrite_parts (s : State) (k : Nat) (bs : List Byte) : (spadWrite s k bs).parts = s.parts := rfl
@[simp] theorem spadWrite_peers (s : State) (k : Nat) (bs : List Byte) : (spadWrite s k bs).peers = s.peers := rfl
@[simp] theorem spadWrite_cfg (s : State) (k : Nat) (bs : List Byte) : (spadWrite s k bs).cfg = s.cfg := rfl
@[simp] theorem spadWrite_mem (s : State) (k : Nat) (bs : List Byte) : (spadWrite s k bs).mem = s.mem := rfl
@[simp] theorem spadWrite_hostMem (s : State) (k : Nat) (bs : List Byte) : (spadWrite s k bs).hostMem = s.hostMem := rfl
@[simp] theorem spadWrite_poison (s : State) (k : Nat) (bs : List Byte) : (spadWrite s k bs).poison = s.poison := rfl
@[simp] theorem spadWrite_bankPoison (s : State) (k : Nat) (bs : List Byte) : (spadWrite s k bs).bankPoison = s.bankPoison := rfl
@[simp] theorem spadWrite_frames (s : State) (k : Nat) (bs : List Byte) : (spadWrite s k bs).frames = s.frames := rfl
@[simp] theorem spadWrite_crcs (s : State) (k : Nat) (bs : List Byte) : (spadWrite s k bs).crcs = s.crcs := rfl
@[simp] theorem spadWrite_cache (s : State) (k : Nat) (bs : List Byte) : (spadWrite s k bs).cache = s.cache := rfl
@[simp] theorem spadWrite_accs (s : State) (k : Nat) (bs : List Byte) : (spadWrite s k bs).accs = s.accs := rfl
@[simp] theorem spadWrite_spad (s : State) (k : Nat) (bs : List Byte) : (spadWrite s k bs).spad = spPutList 0#8 s.spad k bs := rfl
@[simp] theorem spadWrite_gran (s : State) (k : Nat) (bs : List Byte) : (spadWrite s k bs).gran = s.gran := rfl
@[simp] theorem spadWrite_bank (s : State) (k : Nat) (bs : List Byte) : (spadWrite s k bs).bank = s.bank := rfl
@[simp] theorem spadWrite_slots (s : State) (k : Nat) (bs : List Byte) : (spadWrite s k bs).slots = s.slots := rfl
@[simp] theorem spadWrite_crews (s : State) (k : Nat) (bs : List Byte) : (spadWrite s k bs).crews = s.crews := rfl
@[simp] theorem spadWrite_gangs (s : State) (k : Nat) (bs : List Byte) : (spadWrite s k bs).gangs = s.gangs := rfl
@[simp] theorem spadWrite_engines (s : State) (k : Nat) (bs : List Byte) : (spadWrite s k bs).engines = enginesKeep s k bs.length := rfl
@[simp] theorem spadWrite_tiles (s : State) (k : Nat) (bs : List Byte) : (spadWrite s k bs).tiles = s.tiles := rfl
@[simp] theorem spadWrite_copies (s : State) (k : Nat) (bs : List Byte) : (spadWrite s k bs).copies = s.copies := rfl
@[simp] theorem spadWrite_convs (s : State) (k : Nat) (bs : List Byte) : (spadWrite s k bs).convs = s.convs := rfl
@[simp] theorem spadWrite_rend (s : State) (k : Nat) (bs : List Byte) : (spadWrite s k bs).rend = s.rend := rfl
@[simp] theorem spadWrite_sched (s : State) (k : Nat) (bs : List Byte) : (spadWrite s k bs).sched = s.sched := rfl
@[simp] theorem spadWrite_funcs (s : State) (k : Nat) (bs : List Byte) : (spadWrite s k bs).funcs = s.funcs := rfl
@[simp] theorem spadWrite_own (s : State) (k : Nat) (bs : List Byte) : (spadWrite s k bs).own = s.own := rfl
@[simp] theorem spadWrite_fattr (s : State) (k : Nat) (bs : List Byte) : (spadWrite s k bs).fattr = s.fattr := rfl
@[simp] theorem spadWrite_hostHoles (s : State) (k : Nat) (bs : List Byte) : (spadWrite s k bs).hostHoles = s.hostHoles := rfl
@[simp] theorem spadWrite_survey (s : State) (k : Nat) (bs : List Byte) : (spadWrite s k bs).survey = s.survey := rfl
@[simp] theorem spadWrite_gated (s : State) (k : Nat) (bs : List Byte) : (spadWrite s k bs).gated = s.gated := rfl
@[simp] theorem spadWrite_outbox (s : State) (k : Nat) (bs : List Byte) : (spadWrite s k bs).outbox = s.outbox := rfl
@[simp] theorem spadWrite_lostMark (s : State) (k : Nat) (bs : List Byte) : (spadWrite s k bs).lostMark = s.lostMark := rfl
@[simp] theorem spadWrite_msix (s : State) (k : Nat) (bs : List Byte) : (spadWrite s k bs).msix = s.msix := rfl
@[simp] theorem spadWrite_aer (s : State) (k : Nat) (bs : List Byte) : (spadWrite s k bs).aer = s.aer := rfl
@[simp] theorem spadWrite_telemetry (s : State) (k : Nat) (bs : List Byte) : (spadWrite s k bs).telemetry = s.telemetry := rfl
@[simp] theorem spadWrite_agenda (s : State) (k : Nat) (bs : List Byte) : (spadWrite s k bs).agenda = s.agenda := rfl
@[simp] theorem spadWrite_issue (s : State) (k : Nat) (bs : List Byte) : (spadWrite s k bs).issue = s.issue := rfl
@[simp] theorem spadWrite_free (s : State) (k : Nat) (bs : List Byte) : (spadWrite s k bs).free = s.free := rfl
@[simp] theorem spadWrite_nextId (s : State) (k : Nat) (bs : List Byte) : (spadWrite s k bs).nextId = s.nextId := rfl

/-! ### `setGran` -/

@[simp] theorem setGran_time (s : State) (k : Nat) (x : GranState) : (setGran s k x).time = s.time := rfl
@[simp] theorem setGran_boot (s : State) (k : Nat) (x : GranState) : (setGran s k x).boot = s.boot := rfl
@[simp] theorem setGran_flash (s : State) (k : Nat) (x : GranState) : (setGran s k x).flash = s.flash := rfl
@[simp] theorem setGran_dies (s : State) (k : Nat) (x : GranState) : (setGran s k x).dies = s.dies := rfl
@[simp] theorem setGran_cores (s : State) (k : Nat) (x : GranState) : (setGran s k x).cores = s.cores := rfl
@[simp] theorem setGran_parts (s : State) (k : Nat) (x : GranState) : (setGran s k x).parts = s.parts := rfl
@[simp] theorem setGran_peers (s : State) (k : Nat) (x : GranState) : (setGran s k x).peers = s.peers := rfl
@[simp] theorem setGran_cfg (s : State) (k : Nat) (x : GranState) : (setGran s k x).cfg = s.cfg := rfl
@[simp] theorem setGran_mem (s : State) (k : Nat) (x : GranState) : (setGran s k x).mem = s.mem := rfl
@[simp] theorem setGran_hostMem (s : State) (k : Nat) (x : GranState) : (setGran s k x).hostMem = s.hostMem := rfl
@[simp] theorem setGran_poison (s : State) (k : Nat) (x : GranState) : (setGran s k x).poison = s.poison := rfl
@[simp] theorem setGran_bankPoison (s : State) (k : Nat) (x : GranState) : (setGran s k x).bankPoison = s.bankPoison := rfl
@[simp] theorem setGran_frames (s : State) (k : Nat) (x : GranState) : (setGran s k x).frames = s.frames := rfl
@[simp] theorem setGran_crcs (s : State) (k : Nat) (x : GranState) : (setGran s k x).crcs = s.crcs := rfl
@[simp] theorem setGran_cache (s : State) (k : Nat) (x : GranState) : (setGran s k x).cache = s.cache := rfl
@[simp] theorem setGran_accs (s : State) (k : Nat) (x : GranState) : (setGran s k x).accs = s.accs := rfl
@[simp] theorem setGran_spad (s : State) (k : Nat) (x : GranState) : (setGran s k x).spad = s.spad := rfl
@[simp] theorem setGran_gran (s : State) (k : Nat) (x : GranState) : (setGran s k x).gran = spSet .empty s.gran k x := rfl
@[simp] theorem setGran_bank (s : State) (k : Nat) (x : GranState) : (setGran s k x).bank = s.bank := rfl
@[simp] theorem setGran_slots (s : State) (k : Nat) (x : GranState) : (setGran s k x).slots = s.slots := rfl
@[simp] theorem setGran_crews (s : State) (k : Nat) (x : GranState) : (setGran s k x).crews = s.crews := rfl
@[simp] theorem setGran_gangs (s : State) (k : Nat) (x : GranState) : (setGran s k x).gangs = s.gangs := rfl
@[simp] theorem setGran_engines (s : State) (k : Nat) (x : GranState) : (setGran s k x).engines = s.engines := rfl
@[simp] theorem setGran_tiles (s : State) (k : Nat) (x : GranState) : (setGran s k x).tiles = s.tiles := rfl
@[simp] theorem setGran_copies (s : State) (k : Nat) (x : GranState) : (setGran s k x).copies = s.copies := rfl
@[simp] theorem setGran_convs (s : State) (k : Nat) (x : GranState) : (setGran s k x).convs = s.convs := rfl
@[simp] theorem setGran_rend (s : State) (k : Nat) (x : GranState) : (setGran s k x).rend = s.rend := rfl
@[simp] theorem setGran_sched (s : State) (k : Nat) (x : GranState) : (setGran s k x).sched = s.sched := rfl
@[simp] theorem setGran_funcs (s : State) (k : Nat) (x : GranState) : (setGran s k x).funcs = s.funcs := rfl
@[simp] theorem setGran_own (s : State) (k : Nat) (x : GranState) : (setGran s k x).own = s.own := rfl
@[simp] theorem setGran_fattr (s : State) (k : Nat) (x : GranState) : (setGran s k x).fattr = s.fattr := rfl
@[simp] theorem setGran_hostHoles (s : State) (k : Nat) (x : GranState) : (setGran s k x).hostHoles = s.hostHoles := rfl
@[simp] theorem setGran_survey (s : State) (k : Nat) (x : GranState) : (setGran s k x).survey = s.survey := rfl
@[simp] theorem setGran_gated (s : State) (k : Nat) (x : GranState) : (setGran s k x).gated = s.gated := rfl
@[simp] theorem setGran_outbox (s : State) (k : Nat) (x : GranState) : (setGran s k x).outbox = s.outbox := rfl
@[simp] theorem setGran_lostMark (s : State) (k : Nat) (x : GranState) : (setGran s k x).lostMark = s.lostMark := rfl
@[simp] theorem setGran_msix (s : State) (k : Nat) (x : GranState) : (setGran s k x).msix = s.msix := rfl
@[simp] theorem setGran_aer (s : State) (k : Nat) (x : GranState) : (setGran s k x).aer = s.aer := rfl
@[simp] theorem setGran_telemetry (s : State) (k : Nat) (x : GranState) : (setGran s k x).telemetry = s.telemetry := rfl
@[simp] theorem setGran_agenda (s : State) (k : Nat) (x : GranState) : (setGran s k x).agenda = s.agenda := rfl
@[simp] theorem setGran_issue (s : State) (k : Nat) (x : GranState) : (setGran s k x).issue = s.issue := rfl
@[simp] theorem setGran_free (s : State) (k : Nat) (x : GranState) : (setGran s k x).free = s.free := rfl
@[simp] theorem setGran_nextId (s : State) (k : Nat) (x : GranState) : (setGran s k x).nextId = s.nextId := rfl

/-! ### `report` -/

@[simp] theorem report_time (s : State) (r : Nat) (bs : List Byte) : (report s r bs).time = s.time := rfl
@[simp] theorem report_boot (s : State) (r : Nat) (bs : List Byte) : (report s r bs).boot = s.boot := rfl
@[simp] theorem report_flash (s : State) (r : Nat) (bs : List Byte) : (report s r bs).flash = s.flash := rfl
@[simp] theorem report_dies (s : State) (r : Nat) (bs : List Byte) : (report s r bs).dies = s.dies := rfl
@[simp] theorem report_cores (s : State) (r : Nat) (bs : List Byte) : (report s r bs).cores = s.cores := rfl
@[simp] theorem report_parts (s : State) (r : Nat) (bs : List Byte) : (report s r bs).parts = s.parts := rfl
@[simp] theorem report_peers (s : State) (r : Nat) (bs : List Byte) : (report s r bs).peers = s.peers := rfl
@[simp] theorem report_cfg (s : State) (r : Nat) (bs : List Byte) : (report s r bs).cfg = s.cfg := rfl
@[simp] theorem report_mem (s : State) (r : Nat) (bs : List Byte) : (report s r bs).mem = s.mem := rfl
@[simp] theorem report_hostMem (s : State) (r : Nat) (bs : List Byte) : (report s r bs).hostMem = s.hostMem := rfl
@[simp] theorem report_poison (s : State) (r : Nat) (bs : List Byte) : (report s r bs).poison = s.poison := rfl
@[simp] theorem report_bankPoison (s : State) (r : Nat) (bs : List Byte) : (report s r bs).bankPoison = s.bankPoison := rfl
@[simp] theorem report_frames (s : State) (r : Nat) (bs : List Byte) : (report s r bs).frames = s.frames := rfl
@[simp] theorem report_crcs (s : State) (r : Nat) (bs : List Byte) : (report s r bs).crcs = s.crcs := rfl
@[simp] theorem report_cache (s : State) (r : Nat) (bs : List Byte) : (report s r bs).cache = s.cache := rfl
@[simp] theorem report_accs (s : State) (r : Nat) (bs : List Byte) : (report s r bs).accs = s.accs := rfl
@[simp] theorem report_spad (s : State) (r : Nat) (bs : List Byte) : (report s r bs).spad = s.spad := rfl
@[simp] theorem report_gran (s : State) (r : Nat) (bs : List Byte) : (report s r bs).gran = s.gran := rfl
@[simp] theorem report_bank (s : State) (r : Nat) (bs : List Byte) : (report s r bs).bank = s.bank := rfl
@[simp] theorem report_slots (s : State) (r : Nat) (bs : List Byte) : (report s r bs).slots = s.slots := rfl
@[simp] theorem report_crews (s : State) (r : Nat) (bs : List Byte) : (report s r bs).crews = s.crews := rfl
@[simp] theorem report_gangs (s : State) (r : Nat) (bs : List Byte) : (report s r bs).gangs = s.gangs := rfl
@[simp] theorem report_engines (s : State) (r : Nat) (bs : List Byte) : (report s r bs).engines = s.engines := rfl
@[simp] theorem report_tiles (s : State) (r : Nat) (bs : List Byte) : (report s r bs).tiles = s.tiles := rfl
@[simp] theorem report_copies (s : State) (r : Nat) (bs : List Byte) : (report s r bs).copies = s.copies := rfl
@[simp] theorem report_convs (s : State) (r : Nat) (bs : List Byte) : (report s r bs).convs = s.convs := rfl
@[simp] theorem report_rend (s : State) (r : Nat) (bs : List Byte) : (report s r bs).rend = s.rend := rfl
@[simp] theorem report_sched (s : State) (r : Nat) (bs : List Byte) : (report s r bs).sched = s.sched := rfl
@[simp] theorem report_funcs (s : State) (r : Nat) (bs : List Byte) : (report s r bs).funcs = s.funcs := rfl
@[simp] theorem report_own (s : State) (r : Nat) (bs : List Byte) : (report s r bs).own = s.own := rfl
@[simp] theorem report_fattr (s : State) (r : Nat) (bs : List Byte) : (report s r bs).fattr = s.fattr := rfl
@[simp] theorem report_hostHoles (s : State) (r : Nat) (bs : List Byte) : (report s r bs).hostHoles = s.hostHoles := rfl
@[simp] theorem report_survey (s : State) (r : Nat) (bs : List Byte) : (report s r bs).survey = s.survey := rfl
@[simp] theorem report_gated (s : State) (r : Nat) (bs : List Byte) : (report s r bs).gated = s.gated := rfl
@[simp] theorem report_outbox (s : State) (r : Nat) (bs : List Byte) : (report s r bs).outbox = s.outbox ++ [{ ring := r, bytes := bs }] := rfl
@[simp] theorem report_lostMark (s : State) (r : Nat) (bs : List Byte) : (report s r bs).lostMark = s.lostMark := rfl
@[simp] theorem report_msix (s : State) (r : Nat) (bs : List Byte) : (report s r bs).msix = s.msix := rfl
@[simp] theorem report_aer (s : State) (r : Nat) (bs : List Byte) : (report s r bs).aer = s.aer := rfl
@[simp] theorem report_telemetry (s : State) (r : Nat) (bs : List Byte) : (report s r bs).telemetry = s.telemetry := rfl
@[simp] theorem report_agenda (s : State) (r : Nat) (bs : List Byte) : (report s r bs).agenda = s.agenda := rfl
@[simp] theorem report_issue (s : State) (r : Nat) (bs : List Byte) : (report s r bs).issue = s.issue := rfl
@[simp] theorem report_free (s : State) (r : Nat) (bs : List Byte) : (report s r bs).free = s.free := rfl
@[simp] theorem report_nextId (s : State) (r : Nat) (bs : List Byte) : (report s r bs).nextId = s.nextId := rfl

end Sys2Proof.Machine
end

