-- ==== Sys2Proof/Laws/Memory.lean ====
section
/-! SUPPORT. Laws of the operations over memory: what a read finds after a write, and that every operation keeps memory in its
canonical form. -/

namespace Sys2Proof.Machine

/-! ### What a write leaves alone -/

theorem crcFollow_eq (before after : State) (bs : List Nat) :
    crcFollow before after bs = { after with crcs := (crcFollow before after bs).crcs } := by
  unfold crcFollow
  have : ∀ (s : State), ∃ c, List.foldl (fun s b =>
      { s with crcs := spSet 0#64 s.crcs b (crcKept s b ^^^ crcStored before b ^^^ crcStored after b) }) s bs = { s with crcs := c } := by
    induction bs with
    | nil => exact fun s => ⟨s.crcs, rfl⟩
    | cons b bs ih =>
      intro s
      obtain ⟨c, hc⟩ := ih { s with crcs := spSet 0#64 s.crcs b (crcKept s b ^^^ crcStored before b ^^^ crcStored after b) }
      exact ⟨c, by rw [List.foldl_cons, hc]⟩
  obtain ⟨c, hc⟩ := this after
  rw [hc]

@[simp] theorem crcFollow_mem (before after : State) (bs : List Nat) : (crcFollow before after bs).mem = after.mem := by
  rw [crcFollow_eq]

@[simp] theorem crcFollow_hostMem (before after : State) (bs : List Nat) : (crcFollow before after bs).hostMem = after.hostMem := by
  rw [crcFollow_eq]

@[simp] theorem wakeLines_mem (s : State) (pa n : Nat) : (wakeLines s pa n).mem = s.mem := rfl
@[simp] theorem wakeLines_hostMem (s : State) (pa n : Nat) : (wakeLines s pa n).hostMem = s.hostMem := rfl

@[simp] theorem putBytes_mem (s : State) (pa : Nat) (bs : List Byte) : (putBytes s pa bs).mem = spPutList 0#8 s.mem pa bs := by
  simp [putBytes]

@[simp] theorem putBytes_hostMem (s : State) (pa : Nat) (bs : List Byte) : (putBytes s pa bs).hostMem = s.hostMem := by
  simp [putBytes]

/-- What a write at its home leaves in device memory. -/
theorem homeWrite_mem (s : State) (pa : Nat) (bs : List Byte) : (homeWrite s pa bs).mem = spPutList 0#8 s.mem pa bs := by
  unfold homeWrite
  split
  · simp_all [List.isEmpty_iff, spPutList]
  · simp

@[simp] theorem homeWrite_hostMem (s : State) (pa : Nat) (bs : List Byte) : (homeWrite s pa bs).hostMem = s.hostMem := by
  unfold homeWrite
  split <;> simp

@[simp] theorem hostKeep_mem (s : State) (l : Nat) (bs : List Byte) : (hostKeep s l bs).mem = s.mem := by
  unfold hostKeep; dsimp only; split
  · rfl
  · split <;> rfl

@[simp] theorem hostWrite_mem (s : State) (b : Nat) (bs : List Byte) : (hostWrite s b bs).mem = s.mem := by
  unfold hostWrite; dsimp only; split <;> simp

@[simp] theorem busWrite_mem (s : State) (b : Nat) (bs : List Byte) : (busWrite s b bs).mem = s.mem := by
  unfold busWrite
  generalize bs.zipIdx = xs
  induction xs generalizing s with
  | nil => rfl
  | cons x xs ih => simp [ih]

@[simp] theorem hostFill_mem (s : State) (b : Nat) : (hostFill s b).mem = s.mem := by unfold hostFill; split <;> simp

/-! ### What leaves all memory alone -/

/-- Device memory and host memory. -/
def ram (s : State) : List Host.Cell × List Host.Cell := (s.mem, s.hostMem)

theorem ram_foldl {α : Type} {f : State → α → State} (h : ∀ s x, ram (f s x) = ram s) (xs : List α) (s : State) :
    ram (xs.foldl f s) = ram s := by
  induction xs generalizing s with
  | nil => rfl
  | cons x xs ih => rw [List.foldl_cons, ih, h]

theorem ram_ite {p : Prop} [Decidable p] {a b s : State} (ha : ram a = ram s) (hb : ram b = ram s) :
    ram (if p then a else b) = ram s := by split <;> assumption

@[simp] theorem ram_modCrew (s : State) (k : Nat) (f : Crew → Crew) : ram (modCrew s k f) = ram s := rfl
@[simp] theorem ram_modGang (s : State) (k : Nat) (f : Gang → Gang) : ram (modGang s k f) = ram s := rfl
@[simp] theorem ram_setGang (s : State) (k : Nat) (g : Gang) : ram (setGang s k g) = ram s := rfl
@[simp] theorem ram_modBar (s : State) (c k : Nat) (f : Barrier → Barrier) : ram (modBar s c k f) = ram s := rfl
@[simp] theorem ram_setDir (s : State) (l : Nat) (r : DirRec) : ram (setDir s l r) = ram s := rfl
@[simp] theorem ram_wakeLines (s : State) (pa n : Nat) : ram (wakeLines s pa n) = ram s := rfl

@[simp] theorem ram_releaseLanes (s : State) (k : Nat) (ls : List Nat) : ram (releaseLanes s k ls) = ram s := by
  unfold releaseLanes; split <;> rfl

@[simp] theorem ram_takeTrap (s : State) (k l : Nat) (pc r : DWord) (t : TrapInfo) : ram (takeTrap s k l pc r t) = ram s := by
  unfold takeTrap
  split
  · split
    · rfl
    · split <;> rfl
  · rfl

@[simp] theorem ram_grantArrival (s : State) (a : Arrival) (p : Nat) : ram (grantArrival s a p) = ram s := by
  unfold grantArrival; split <;> simp

@[simp] theorem ram_attachGang (p : Nat) (s : State) (k : Nat) : ram (attachGang p s k) = ram s := by
  unfold attachGang; dsimp only; split <;> simp

@[simp] theorem ram_traceCrew (s : State) (ck kind a : Nat) (b : BitVec 8) (c : Nat) :
    ram (traceCrew s ck kind a b c) = ram s := by
  unfold traceCrew; split
  · rfl
  · dsimp only; split <;> rfl

@[simp] theorem ram_stepStop (s : State) (c k : Nat) : ram (stepStop s c k) = ram s := by
  unfold stepStop; split
  · split <;> rfl
  · rfl

@[simp] theorem ram_barPhases (n : Nat) (s : State) (c k : Nat) : ram (barPhases n s c k) = ram s := by
  induction n generalizing s with
  | zero => rfl
  | succ n ih =>
    unfold barPhases
    split
    · rfl
    · split
      · dsimp only
        have h := fun p => ram_foldl (fun s a => ram_grantArrival s a p)
        refine ram_ite ?_ (ram_ite ?_ ?_)
        · rw [ram_modCrew, h]; simp
        · rw [h]; simp
        · rw [ih, h]; simp
      · rfl

@[simp] theorem ram_flushAttach (s : State) (c : Nat) : ram (flushAttach s c) = ram s := by
  unfold flushAttach
  split
  · rfl
  · dsimp only
    split
    · split <;> simp [ram_foldl (fun s g => ram_attachGang _ s g)]
    · simp [ram_foldl (fun s g => ram_attachGang _ s g)]

@[simp] theorem ram_trapHeld (s : State) (k l : Nat) (t : TrapInfo) : ram (trapHeld s k l t) = ram s := by
  unfold trapHeld
  split
  · rfl
  · split <;> simp

@[simp] theorem ram_barErrHeld (s : State) (c k : Nat) : ram (barErrHeld s c k) = ram s := by
  unfold barErrHeld
  split
  · rfl
  · split
    · rfl
    · exact ram_foldl (fun s x => ram_trapHeld s _ _ _) _ _

@[simp] theorem ram_barCheck (s : State) (c k : Nat) : ram (barCheck s c k) = ram s := by simp [barCheck]

@[simp] theorem ram_dropGang (s : State) (k : Nat) : ram (dropGang s k) = ram s := by
  unfold dropGang
  dsimp only
  rw [ram_foldl]
  · simp
  · intro s x
    split
    · split <;> simp
    · rfl

@[simp] theorem ram_leaveSlots (s : State) (k : Nat) (p : Nat → Bool) : ram (leaveSlots s k p) = ram s := rfl

@[simp] theorem ram_endGang (s : State) (k : Nat) : ram (endGang s k) = ram s := by
  unfold endGang
  split
  · rfl
  · rename_i g _
    have h : ram (if g.attaching then s else dropGang s k) = ram s := ram_ite rfl (by simp)
    exact ram_ite (ram_ite h h) (ram_ite h h)

@[simp] theorem ram_complete (s : State) (k gid n : Nat) : ram (complete s k gid n) = ram s := by
  unfold complete tryEndGang
  split
  · rfl
  · split <;> simp [ctrDoneS]

@[simp] theorem ram_noteSettle (s : State) (c t : Nat) : ram (noteSettle s c t) = ram s := by
  unfold noteSettle; split <;> rfl

@[simp] theorem ram_dropAcqs (s : State) (k q : Nat) (ls : List Nat) : ram (dropAcqs s k q ls) = ram s := rfl

/-- A returned line is in memory already: its operations only take their home times. -/
@[simp] theorem ram_returnLine (s : State) (line : Nat) : ram (returnLine s line) = ram s := by
  unfold returnLine
  dsimp only
  rw [ram_foldl]
  · have h : ∀ u : State, ram u = ram s → ram (if (nearAccs s line).isEmpty then u else wakeLines u (128 * line) 128) = ram s :=
      fun u hu => ram_ite hu hu
    apply h
    split <;> simp
  · rintro s ⟨id, a⟩
    dsimp only
    refine ram_ite ?_ ?_
    · rw [ram_complete, ram_dropAcqs, ram_noteSettle]; rfl
    · rw [ram_dropAcqs, ram_noteSettle]; rfl

@[simp] theorem ram_frameFirst (s : State) (pa : Nat) : ram (frameFirst s pa) = ram s := by
  have hcrc : ∀ (s : State) (f : Nat) (on : Bool), ram (frameCrcs s f on) = ram s := by
    intro s f on
    unfold frameCrcs
    generalize List.range 128 = xs
    exact ram_foldl (f := fun (s : State) i =>
      { s with crcs := spSet 0#64 s.crcs (128 * f + i) (if on then crcStored s (128 * f + i) else 0) }) (fun _ _ => rfl) xs s
  have hdone : ∀ s : State, ram (frameDone s) = ram s := by
    intro s
    unfold frameDone
    split
    · rfl
    · have h : ∀ (u : State) a b, ram { u with fattr := a, frames := b } = ram u := fun _ _ _ => rfl
      dsimp only
      rw [h]
      exact ram_ite rfl (hcrc s _ _)
  unfold frameFirst
  cases s.fattr with
  | none => rfl
  | some x =>
    dsimp only
    split
    · exact hdone s
    · rfl

@[simp] theorem ram_recallFrom (s : State) (c : Option Nat) (line : Nat) : ram (recallFrom s c line) = ram s := by
  unfold recallFrom
  dsimp only
  split
  · simp
  · split <;> simp

@[simp] theorem ram_recallRange (s : State) (pa n : Nat) : ram (recallRange s pa n) = ram s := by
  unfold recallRange
  split
  · rfl
  · exact ram_foldl (fun s _ => ram_recallFrom s _ _) _ _

@[simp] theorem ram_recallWalk (s : State) (p va : Nat) : ram (recallWalk s p va) = ram s := by
  unfold recallWalk
  dsimp only
  exact ram_foldl (fun s _ => ram_recallFrom s _ _) _ s

@[simp] theorem ram_tlbAdd (s : State) (p q : Nat) (x : Xl) : ram (tlbAdd s p q x) = ram s := by
  unfold tlbAdd
  dsimp only
  split
  · rfl
  · have h : ∀ (u : State) (c : CacheSt), ram { u with cache := c } = ram u := fun _ _ => rfl
    rw [h, ram_recallWalk]

@[simp] theorem tlbAdd_mem (s : State) (p q : Nat) (x : Xl) : (tlbAdd s p q x).mem = s.mem := congrArg (·.1) (ram_tlbAdd s p q x)
@[simp] theorem tlbAdd_hostMem (s : State) (p q : Nat) (x : Xl) : (tlbAdd s p q x).hostMem = s.hostMem :=
  congrArg (·.2) (ram_tlbAdd s p q x)

@[simp] theorem advanceTime_mem (n : Nat) (s : State) : (advanceTime n s).mem = s.mem := by unfold advanceTime; split <;> rfl
@[simp] theorem advanceTime_hostMem (n : Nat) (s : State) : (advanceTime n s).hostMem = s.hostMem := by
  unfold advanceTime; split <;> rfl

/-! ### Reading back -/

/-- What was written at a home is read back there. -/
theorem memRead_homeWrite (s : State) (pa : Nat) (bs : List Byte) : memRead (homeWrite s pa bs) pa bs.length = bs := by
  rw [memRead, homeWrite_mem, spRange_spPutList]

/-- A byte outside the bytes written reads as before. -/
theorem memRead_homeWrite_outside (s : State) (pa : Nat) (bs : List Byte) (a : Nat) (h : a < pa ∨ pa + bs.length ≤ a) :
    memRead (homeWrite s pa bs) a 1 = memRead s a 1 := by
  simp [memRead, homeWrite_mem, spRange, spGet_spPutList_outside _ _ _ _ _ h]

/-- A store to a host line that is not cached is read back. -/
theorem hostRead_hostWrite (s : State) (b : Nat) (bs : List Byte) (h : Config.cxlLine (b / 64) = false) :
    hostRead (hostWrite s b bs) b bs.length = bs := by
  simp [hostRead, hostWrite, h, spRange_spPutList]

/-! ### Canonical form -/

/-- A write at its home keeps the canonical form. -/
theorem homeWrite_wf {s : State} (pa : Nat) (bs : List Byte) (h : Memory.wf s.mem = true) :
    Memory.wf (homeWrite s pa bs).mem = true := by
  rw [homeWrite_mem]; exact spWf_spPutList pa bs h

/-- A line that enters the host-line cache, or goes back from it, keeps the canonical form. -/
theorem hostKeep_wf {s : State} (l : Nat) (bs : List Byte) (h : Memory.wf s.hostMem = true) :
    Memory.wf (hostKeep s l bs).hostMem = true := by
  unfold hostKeep
  dsimp only
  split
  · exact h
  · split
    · exact spWf_spPutList _ _ h
    · exact h

/-- A store to a host bus address keeps the canonical form. -/
theorem hostWrite_wf {s : State} (b : Nat) (bs : List Byte) (h : Memory.wf s.hostMem = true) :
    Memory.wf (hostWrite s b bs).hostMem = true := by
  unfold hostWrite
  dsimp only
  split
  · exact hostKeep_wf _ _ h
  · exact spWf_spPutList b bs h

/-- Bytes that a unit of the device writes at host bus addresses keep the canonical form. -/
theorem busWrite_wf {s : State} (b : Nat) (bs : List Byte) (h : Memory.wf s.hostMem = true) :
    Memory.wf (busWrite s b bs).hostMem = true := by
  unfold busWrite
  generalize bs.zipIdx = xs
  induction xs generalizing s with
  | nil => exact h
  | cons x xs ih => exact ih (hostWrite_wf _ _ h)

/-- Scrubbing groups keeps the canonical form. -/
theorem scrubBytes_wf {m : List Host.Cell} (p : Host.Cell → Bool) (h : Memory.wf m = true) : Memory.wf (m.filter p) = true :=
  spWf_filter p h

/-- Placing a word keeps the canonical form. -/
theorem placeBytes_wf {s : State} (pa : Nat) (bs : List Byte) (h : Memory.wf s.mem = true) :
    Memory.wf (placeBytes s pa bs).mem = true := spWf_spPutList pa bs h

theorem reset_wf : Memory.wf State.reset.mem = true ∧ Memory.wf State.reset.hostMem = true := ⟨rfl, rfl⟩

end Sys2Proof.Machine
end

