-- ==== Sys2Proof/Laws/PerInstr.lean ====
section
/-! SUPPORT. Statements made of every instruction: which instructions have a word, and of which kind (R87, R90). -/

namespace Sys2Proof.Laws.WordKind

open Sys2Proof

/-- Bit 63 of an instruction's word says whether it is a pair word. -/
def Statement (i : Instr) : Prop := ∀ w, encode i = some w → (w.getLsbD 63 = true ↔ ∃ stall a b, i = .pairWord stall a b)

theorem full {i : Instr} (h : ∃ hd opc x, encode i = some (fullWord hd opc x)) (hp : ∀ stall a b, i ≠ .pairWord stall a b) :
    Statement i := by
  obtain ⟨hd, opc, x, he⟩ := h
  intro w hw
  obtain rfl : fullWord hd opc x = w := by simpa [he] using hw
  exact ⟨fun h => absurd h (by rw [fullWord_kind]; decide), fun ⟨stall, a, b, h⟩ => absurd h (hp stall a b)⟩

theorem event {i : Instr} (h : encode i = none) : Statement i := by
  intro w hw
  simp [h] at hw

theorem powerOn  : Statement .powerOn := event rfl
theorem failedStart (cause : BitVec 8) (detail : Nat) : Statement (.failedStart cause detail) := event rfl
theorem cfgBootokWrite (v : Word) : Statement (.cfgBootokWrite v) := event rfl
theorem cfgBootctlWrite (v : Word) : Statement (.cfgBootctlWrite v) := event rfl
theorem cfgSlopeWrite (pos : Nat) (v : Word) : Statement (.cfgSlopeWrite pos v) := event rfl
theorem cfgRegisterWrite (addr v : Word) : Statement (.cfgRegisterWrite addr v) := event rfl
theorem startGovernorGrant (pos : Nat) : Statement (.startGovernorGrant pos) := event rfl
theorem canaryWarning (pos core : Nat) : Statement (.canaryWarning pos core) := event rfl
theorem canaryDecay (pos core : Nat) : Statement (.canaryDecay pos core) := event rfl
theorem stackLevelEvaluation (pos temp below : Nat) : Statement (.stackLevelEvaluation pos temp below) := event rfl
theorem dieThermalTrip (pos temp : Nat) : Statement (.dieThermalTrip pos temp) := event rfl
theorem dieReturnToService (pos temp : Nat) : Statement (.dieReturnToService pos temp) := event rfl
theorem powerSampleTick (mw : List (Nat × Nat × Nat)) : Statement (.powerSampleTick mw) := event rfl
theorem linkRetirement (pos side : Nat) : Statement (.linkRetirement pos side) := event rfl
theorem bundleRegroup (pos core slice : Nat) : Statement (.bundleRegroup pos core slice) := event rfl
theorem bundleIssue (pos core slice : Nat) : Statement (.bundleIssue pos core slice) := event rfl
theorem trapEntry (gang lane : Nat) (t : TrapInfo) : Statement (.trapEntry gang lane t) := event rfl
theorem lateTrapDelivery (gang lane : Nat) : Statement (.lateTrapDelivery gang lane) := event rfl
theorem crewHalt (crew : Nat) : Statement (.crewHalt crew) := event rfl
theorem dependenceWordCheck (shift : Nat) : Statement (.dependenceWordCheck shift) := event rfl
theorem startdtReached (shift : Nat) : Statement (.startdtReached shift) := event rfl
theorem deviceQueueTake (part queue : Nat) : Statement (.deviceQueueTake part queue) := event rfl
theorem crewDispatch (shift : Nat) : Statement (.crewDispatch shift) := event rfl
theorem prologueBinding (crew : Nat) : Statement (.prologueBinding crew) := event rfl
theorem gangStart (crew : Nat) : Statement (.gangStart crew) := event rfl
theorem attachingGangStart (crew : Nat) : Statement (.attachingGangStart crew) := event rfl
theorem gangAttach (crew : Nat) : Statement (.gangAttach crew) := event rfl
theorem shrinkRequest (crew n : Nat) : Statement (.shrinkRequest crew n) := event rfl
theorem crewRetirement (crew : Nat) : Statement (.crewRetirement crew) := event rfl
theorem shiftCompletion (shift : Nat) : Statement (.shiftCompletion shift) := event rfl
theorem timeSliceExpiry (pos pair : Nat) : Statement (.timeSliceExpiry pos pair) := event rfl
theorem hotDieMigration (crew : Nat) : Statement (.hotDieMigration crew) := event rfl
theorem tileWaitTimeout (gang : Nat) : Statement (.tileWaitTimeout gang) := event rfl
theorem preemptionHalt (crew : Nat) : Statement (.preemptionHalt crew) := event rfl
theorem contextSave (crew : Nat) : Statement (.contextSave crew) := event rfl
theorem contextRestore (crew pos core : Nat) : Statement (.contextRestore crew pos core) := event rfl
theorem loadDataReturn (acc : Nat) : Statement (.loadDataReturn acc) := event rfl
theorem storeAppliedAtHome (acc : Nat) : Statement (.storeAppliedAtHome acc) := event rfl
theorem readLeaseExpiry (core line : Nat) : Statement (.readLeaseExpiry core line) := event rfl
theorem exclusiveLeaseGrant (core line : Nat) : Statement (.exclusiveLeaseGrant core line) := event rfl
theorem exclusiveLeaseRecall (line : Nat) : Statement (.exclusiveLeaseRecall line) := event rfl
theorem exclusiveLeaseExpiry (line : Nat) : Statement (.exclusiveLeaseExpiry line) := event rfl
theorem monitorWake (mon : Nat) : Statement (.monitorWake mon) := event rfl
theorem monitorTimeout (mon : Nat) : Statement (.monitorTimeout mon) := event rfl
theorem copyPartLand (copy part : Nat) : Statement (.copyPartLand copy part) := event rfl
theorem copyFault (copy part : Nat) : Statement (.copyFault copy part) := event rfl
theorem relayoutTileConversion (pos : Nat) : Statement (.relayoutTileConversion pos) := event rfl
theorem engineOperationRetire (pos core slice : Nat) : Statement (.engineOperationRetire pos core slice) := event rfl
theorem cbTransfer (pos core addr : Nat) (fate : BusFate) : Statement (.cbTransfer pos core addr fate) := event rfl
theorem backfillBegin (pos core : Nat) : Statement (.backfillBegin pos core) := event rfl
theorem backfillUnitMove (pos core : Nat) (lost : List Nat) : Statement (.backfillUnitMove pos core lost) := event rfl
theorem powerGatedWake (r : GateRes) : Statement (.powerGatedWake r) := event rfl
theorem cfgFattrWrite (v : Word) : Statement (.cfgFattrWrite v) := event rfl
theorem cfgXinvcmdWrite (v : Word) : Statement (.cfgXinvcmdWrite v) := event rfl
theorem passOpen (v : Word) : Statement (.passOpen v) := event rfl
theorem passClose (v : Word) : Statement (.passClose v) := event rfl
theorem regionFlushGo (v : Word) : Statement (.regionFlushGo v) := event rfl
theorem claimEntryWrite (word : Nat) (v : Word) : Statement (.claimEntryWrite word v) := event rfl
theorem packetDelivery (pkt pos : Nat) : Statement (.packetDelivery pkt pos) := event rfl
theorem packetRelease (region : Nat) : Statement (.packetRelease region) := event rfl
theorem microTriangleEnqueue (pos queue : Nat) : Statement (.microTriangleEnqueue pos queue) := event rfl
theorem fragmentBlend (x y : Nat) : Statement (.fragmentBlend x y) := event rfl
theorem regionCacheEviction (line : Nat) : Statement (.regionCacheEviction line) := event rfl
theorem tracefCompletion (copy part : Nat) : Statement (.tracefCompletion copy part) := event rfl
theorem sqtailDoorbell (fn : Nat) (v : Word) : Statement (.sqtailDoorbell fn v) := event rfl
theorem queuePairEnable (fn : Nat) : Statement (.queuePairEnable fn) := event rfl
theorem queuePairDisable (fn : Nat) : Statement (.queuePairDisable fn) := event rfl
theorem completionEntryPost (fn : Nat) : Statement (.completionEntryPost fn) := event rfl
theorem inboundWrite (req : Requester) (pa : Nat) (bytes : List (Option Byte)) : Statement (.inboundWrite req pa bytes) := event rfl
theorem inboundRead (req : Requester) (pa n : Nat) : Statement (.inboundRead req pa n) := event rfl
theorem bar2ConfigAccess (write : Bool) (off size : Nat) (v : Word) : Statement (.bar2ConfigAccess write off size v) := event rfl
theorem hostStoreAcknowledge (acc : Nat) : Statement (.hostStoreAcknowledge acc) := event rfl
theorem peerPortFailure (port : Nat) : Statement (.peerPortFailure port) := event rfl
theorem timeFlit (port : Nat) (dt : DWord) : Statement (.timeFlit port dt) := event rfl
theorem ptpMessage (sec : Nat) : Statement (.ptpMessage sec) := event rfl
theorem ownershipWrite (addr v : Word) : Statement (.ownershipWrite addr v) := event rfl
theorem partitionEnable (part : Nat) : Statement (.partitionEnable part) := event rfl
theorem partitionDisable (part : Nat) : Statement (.partitionDisable part) := event rfl
theorem partitionSuspend (part : Nat) : Statement (.partitionSuspend part) := event rfl
theorem partitionResume (part : Nat) : Statement (.partitionResume part) := event rfl
theorem vfMapWrite (vf : Nat) (v : Word) : Statement (.vfMapWrite vf v) := event rfl
theorem policyInstall (part : Nat) : Statement (.policyInstall part) := event rfl
theorem attestationRequest (fn part : Nat) : Statement (.attestationRequest fn part) := event rfl
theorem debugStopCommand (fn : Nat) : Statement (.debugStopCommand fn) := event rfl
theorem debugResumeCommand (fn : Nat) : Statement (.debugResumeCommand fn) := event rfl
theorem debugStepCommand (fn bar : Nat) : Statement (.debugStepCommand fn bar) := event rfl
theorem debugArmCommand (fn : Nat) : Statement (.debugArmCommand fn) := event rfl
theorem debugDisarmCommand (fn : Nat) : Statement (.debugDisarmCommand fn) := event rfl
theorem debugStopRecord (fn : Nat) : Statement (.debugStopRecord fn) := event rfl
theorem waitkRelease (gang k : Nat) : Statement (.waitkRelease gang k) := event rfl
theorem barwaitRelease (gang lane : Nat) : Statement (.barwaitRelease gang lane) := event rfl
theorem bararvCredit (crew bar : Nat) : Statement (.bararvCredit crew bar) := event rfl
theorem ldcFill (crew granule : Nat) : Statement (.ldcFill crew granule) := event rfl
theorem fenceRelease (gang lane : Nat) : Statement (.fenceRelease gang lane) := event rfl
theorem hinvCompletion (gang lane : Nat) : Statement (.hinvCompletion gang lane) := event rfl
theorem detachCompletion (gang : Nat) : Statement (.detachCompletion gang) := event rfl
theorem sleepExpiry (gang lane : Nat) : Statement (.sleepExpiry gang lane) := event rfl
theorem rsTargetRestored (acc : Nat) : Statement (.rsTargetRestored acc) := event rfl
theorem pairWord (stall : BitVec 3) (s0 s1 : Slot) : Statement (.pairWord stall s0 s1) := by
  intro w hw
  obtain rfl := Option.some.inj hw
  refine ⟨fun _ => ⟨_, _, _, rfl⟩, fun _ => ?_⟩
  rw [BitVec.getLsbD_append, BitVec.getLsbD_append, BitVec.getLsbD_append]
  simp
theorem atom (h : Hdr) (op : AtomOp) (d : Reg) (a : Opnd) (sp : Space) (wide : Bool) (ord : Order) : Statement (.atom h op d a sp wide ord) := full ⟨_, _, _, rfl⟩ (fun _ _ _ h => Instr.noConfusion h)
theorem atomcas (h : Hdr) (d : Reg) (a b : Opnd) (sp : Space) (wide : Bool) (ord : Order) : Statement (.atomcas h d a b sp wide ord) := full ⟨_, _, _, rfl⟩ (fun _ _ _ h => Instr.noConfusion h)
theorem attach (h : Hdr) (d : Opnd) : Statement (.attach h d) := full ⟨_, _, _, rfl⟩ (fun _ _ _ h => Instr.noConfusion h)
theorem badd2 (h : Hdr) (m : PMod) (d a b : Opnd) : Statement (.badd2 h m d a b) := full ⟨_, _, _, rfl⟩ (fun _ _ _ h => Instr.noConfusion h)
theorem bmul2 (h : Hdr) (m : PMod) (d a b : Opnd) : Statement (.bmul2 h m d a b) := full ⟨_, _, _, rfl⟩ (fun _ _ _ h => Instr.noConfusion h)
theorem bfma2 (h : Hdr) (m : FmaMod) (d a b : Opnd) : Statement (.bfma2 h m d a b) := full ⟨_, _, _, rfl⟩ (fun _ _ _ h => Instr.noConfusion h)
theorem bararv (h : Hdr) (f : BarForm) (bar : BitVec 5) : Statement (.bararv h f bar) := by
  cases f <;> exact full ⟨_, _, _, rfl⟩ (fun _ _ _ h => Instr.noConfusion h)
theorem barinit (h : Hdr) (a : Opnd) (member : Bool) (bar : BitVec 5) : Statement (.barinit h a member bar) := full ⟨_, _, _, rfl⟩ (fun _ _ _ h => Instr.noConfusion h)
theorem bartst (h : Hdr) (p : BitVec 4) (a : Opnd) (bar : BitVec 5) : Statement (.bartst h p a bar) := full ⟨_, _, _, rfl⟩ (fun _ _ _ h => Instr.noConfusion h)
theorem barwait (h : Hdr) (a : Opnd) (bar : BitVec 5) : Statement (.barwait h a bar) := full ⟨_, _, _, rfl⟩ (fun _ _ _ h => Instr.noConfusion h)
theorem bcast (h : Hdr) (d a : Reg) (b : Opnd) : Statement (.bcast h d a b) := full ⟨_, _, _, rfl⟩ (fun _ _ _ h => Instr.noConfusion h)
theorem bfx (h : Hdr) (signed : Bool) (d a b : Opnd) : Statement (.bfx h signed d a b) := full ⟨_, _, _, rfl⟩ (fun _ _ _ h => Instr.noConfusion h)
theorem bfi (h : Hdr) (d a b : Opnd) : Statement (.bfi h d a b) := full ⟨_, _, _, rfl⟩ (fun _ _ _ h => Instr.noConfusion h)
theorem bkpt (h : Hdr) (code : BitVec 8) : Statement (.bkpt h code) := full ⟨_, _, _, rfl⟩ (fun _ _ _ h => Instr.noConfusion h)
theorem br (h : Hdr) (f : BForm) : Statement (.br h f) := full ⟨_, _, _, rfl⟩ (fun _ _ _ h => Instr.noConfusion h)
theorem brev (h : Hdr) (d a : Opnd) : Statement (.brev h d a) := full ⟨_, _, _, rfl⟩ (fun _ _ _ h => Instr.noConfusion h)
theorem brx (h : Hdr) (a : Opnd) : Statement (.brx h a) := full ⟨_, _, _, rfl⟩ (fun _ _ _ h => Instr.noConfusion h)
theorem call (h : Hdr) (f : BForm) : Statement (.call h f) := full ⟨_, _, _, rfl⟩ (fun _ _ _ h => Instr.noConfusion h)
theorem cbld (h : Hdr) (a : Opnd) (slot : BitVec 8) : Statement (.cbld h a slot) := full ⟨_, _, _, rfl⟩ (fun _ _ _ h => Instr.noConfusion h)
theorem cfgrd (h : Hdr) (d a : Opnd) : Statement (.cfgrd h d a) := full ⟨_, _, _, rfl⟩ (fun _ _ _ h => Instr.noConfusion h)
theorem cfgwr (h : Hdr) (a b : Opnd) : Statement (.cfgwr h a b) := full ⟨_, _, _, rfl⟩ (fun _ _ _ h => Instr.noConfusion h)
theorem clz (h : Hdr) (d a : Opnd) : Statement (.clz h d a) := full ⟨_, _, _, rfl⟩ (fun _ _ _ h => Instr.noConfusion h)
theorem compress (h : Hdr) (d : Reg) (a : Opnd) (p : BitVec 4) : Statement (.compress h d a p) := full ⟨_, _, _, rfl⟩ (fun _ _ _ h => Instr.noConfusion h)
theorem copy (h : Hdr) (k : CopyKind) (d a : Opnd) (b : Reg) (bar : BitVec 5) : Statement (.copy h k d a b bar) := full ⟨_, _, _, rfl⟩ (fun _ _ _ h => Instr.noConfusion h)
theorem copyb (h : Hdr) (d a b : Opnd) (out spSide rel : Bool) (bar : BitVec 5) : Statement (.copyb h d a b out spSide rel bar) := full ⟨_, _, _, rfl⟩ (fun _ _ _ h => Instr.noConfusion h)
theorem copyw (h : Hdr) (k : CopywKind) (d a b : Opnd) (bar : BitVec 5) : Statement (.copyw h k d a b bar) := full ⟨_, _, _, rfl⟩ (fun _ _ _ h => Instr.noConfusion h)
theorem cvt (h : Hdr) (src dst : CvtType) (rm : RM) (ftz : Bool) (d a : Reg) : Statement (.cvt h src dst rm ftz d a) := full ⟨_, _, _, rfl⟩ (fun _ _ _ h => Instr.noConfusion h)
theorem detach (h : Hdr) : Statement (.detach h) := full ⟨_, _, _, rfl⟩ (fun _ _ _ h => Instr.noConfusion h)
theorem elect (h : Hdr) (p : BitVec 4) : Statement (.elect h p) := full ⟨_, _, _, rfl⟩ (fun _ _ _ h => Instr.noConfusion h)
theorem emitf (h : Hdr) (a : Reg) (tgt : BitVec 3) (n : BitVec 3) : Statement (.emitf h a tgt n) := full ⟨_, _, _, rfl⟩ (fun _ _ _ h => Instr.noConfusion h)
theorem emitm (h : Hdr) (a b : Reg) : Statement (.emitm h a b) := full ⟨_, _, _, rfl⟩ (fun _ _ _ h => Instr.noConfusion h)
theorem endFibre (h : Hdr) : Statement (.endFibre h) := full ⟨_, _, _, rfl⟩ (fun _ _ _ h => Instr.noConfusion h)
theorem eret (h : Hdr) : Statement (.eret h) := full ⟨_, _, _, rfl⟩ (fun _ _ _ h => Instr.noConfusion h)
theorem expand (h : Hdr) (d : Reg) (a : Opnd) (p : BitVec 4) : Statement (.expand h d a p) := full ⟨_, _, _, rfl⟩ (fun _ _ _ h => Instr.noConfusion h)
theorem fadd (h : Hdr) (m : FMod) (d a b : Opnd) : Statement (.fadd h m d a b) := full ⟨_, _, _, rfl⟩ (fun _ _ _ h => Instr.noConfusion h)
theorem fmul (h : Hdr) (m : FMod) (d a b : Opnd) : Statement (.fmul h m d a b) := full ⟨_, _, _, rfl⟩ (fun _ _ _ h => Instr.noConfusion h)
theorem fsub (h : Hdr) (m : FMod) (d a b : Opnd) : Statement (.fsub h m d a b) := full ⟨_, _, _, rfl⟩ (fun _ _ _ h => Instr.noConfusion h)
theorem frcp (h : Hdr) (ftz : Bool) (d a : Opnd) : Statement (.frcp h ftz d a) := full ⟨_, _, _, rfl⟩ (fun _ _ _ h => Instr.noConfusion h)
theorem frsq (h : Hdr) (ftz : Bool) (d a : Opnd) : Statement (.frsq h ftz d a) := full ⟨_, _, _, rfl⟩ (fun _ _ _ h => Instr.noConfusion h)
theorem fsqrt (h : Hdr) (ftz : Bool) (d a : Opnd) : Statement (.fsqrt h ftz d a) := full ⟨_, _, _, rfl⟩ (fun _ _ _ h => Instr.noConfusion h)
theorem fex2 (h : Hdr) (ftz : Bool) (d a : Opnd) : Statement (.fex2 h ftz d a) := full ⟨_, _, _, rfl⟩ (fun _ _ _ h => Instr.noConfusion h)
theorem flg2 (h : Hdr) (ftz : Bool) (d a : Opnd) : Statement (.flg2 h ftz d a) := full ⟨_, _, _, rfl⟩ (fun _ _ _ h => Instr.noConfusion h)
theorem fsin (h : Hdr) (ftz : Bool) (d a : Opnd) : Statement (.fsin h ftz d a) := full ⟨_, _, _, rfl⟩ (fun _ _ _ h => Instr.noConfusion h)
theorem fcos (h : Hdr) (ftz : Bool) (d a : Opnd) : Statement (.fcos h ftz d a) := full ⟨_, _, _, rfl⟩ (fun _ _ _ h => Instr.noConfusion h)
theorem fence (h : Hdr) (scope : Scope) : Statement (.fence h scope) := full ⟨_, _, _, rfl⟩ (fun _ _ _ h => Instr.noConfusion h)
theorem ffma (h : Hdr) (m : FmaMod) (d a b : Opnd) : Statement (.ffma h m d a b) := full ⟨_, _, _, rfl⟩ (fun _ _ _ h => Instr.noConfusion h)
theorem fmax (h : Hdr) (m : FMod) (d a b : Opnd) : Statement (.fmax h m d a b) := full ⟨_, _, _, rfl⟩ (fun _ _ _ h => Instr.noConfusion h)
theorem fmin (h : Hdr) (m : FMod) (d a b : Opnd) : Statement (.fmin h m d a b) := full ⟨_, _, _, rfl⟩ (fun _ _ _ h => Instr.noConfusion h)
theorem fork (h : Hdr) (d : Reg) (a : Opnd) (imm : BitVec 17) : Statement (.fork h d a imm) := full ⟨_, _, _, rfl⟩ (fun _ _ _ h => Instr.noConfusion h)
theorem frnd (h : Hdr) (absA negA ftz : Bool) (rm : RM) (d a : Opnd) : Statement (.frnd h absA negA ftz rm d a) := full ⟨_, _, _, rfl⟩ (fun _ _ _ h => Instr.noConfusion h)
theorem fset (h : Hdr) (c : Cond) (d : SetDst) (a b : Opnd) : Statement (.fset h c d a b) := full ⟨_, _, _, rfl⟩ (fun _ _ _ h => Instr.noConfusion h)
theorem hadd2 (h : Hdr) (m : PMod) (d a b : Opnd) : Statement (.hadd2 h m d a b) := full ⟨_, _, _, rfl⟩ (fun _ _ _ h => Instr.noConfusion h)
theorem hfma2 (h : Hdr) (m : FmaMod) (d a b : Opnd) : Statement (.hfma2 h m d a b) := full ⟨_, _, _, rfl⟩ (fun _ _ _ h => Instr.noConfusion h)
theorem hmul2 (h : Hdr) (m : PMod) (d a b : Opnd) : Statement (.hmul2 h m d a b) := full ⟨_, _, _, rfl⟩ (fun _ _ _ h => Instr.noConfusion h)
theorem hinv (h : Hdr) (a : Opnd) : Statement (.hinv h a) := full ⟨_, _, _, rfl⟩ (fun _ _ _ h => Instr.noConfusion h)
theorem hstat (h : Hdr) (acq : Bool) (d a : Opnd) : Statement (.hstat h acq d a) := full ⟨_, _, _, rfl⟩ (fun _ _ _ h => Instr.noConfusion h)
theorem iabs (h : Hdr) (d a : Opnd) : Statement (.iabs h d a) := full ⟨_, _, _, rfl⟩ (fun _ _ _ h => Instr.noConfusion h)
theorem iadd (h : Hdr) (d a b : Opnd) : Statement (.iadd h d a b) := full ⟨_, _, _, rfl⟩ (fun _ _ _ h => Instr.noConfusion h)
theorem iaddi (h : Hdr) (d a : Opnd) (imm : BitVec 17) : Statement (.iaddi h d a imm) := full ⟨_, _, _, rfl⟩ (fun _ _ _ h => Instr.noConfusion h)
theorem isub (h : Hdr) (d a b : Opnd) : Statement (.isub h d a b) := full ⟨_, _, _, rfl⟩ (fun _ _ _ h => Instr.noConfusion h)
theorem iadd64 (h : Hdr) (d a b : Opnd) : Statement (.iadd64 h d a b) := full ⟨_, _, _, rfl⟩ (fun _ _ _ h => Instr.noConfusion h)
theorem iadd64i (h : Hdr) (d a : Opnd) (imm : BitVec 17) : Statement (.iadd64i h d a imm) := full ⟨_, _, _, rfl⟩ (fun _ _ _ h => Instr.noConfusion h)
theorem imad (h : Hdr) (d a b : Opnd) : Statement (.imad h d a b) := full ⟨_, _, _, rfl⟩ (fun _ _ _ h => Instr.noConfusion h)
theorem imul (h : Hdr) (d a b : Opnd) : Statement (.imul h d a b) := full ⟨_, _, _, rfl⟩ (fun _ _ _ h => Instr.noConfusion h)
theorem imulh (h : Hdr) (u : Bool) (d a b : Opnd) : Statement (.imulh h u d a b) := full ⟨_, _, _, rfl⟩ (fun _ _ _ h => Instr.noConfusion h)
theorem imax (h : Hdr) (u : Bool) (d a b : Opnd) : Statement (.imax h u d a b) := full ⟨_, _, _, rfl⟩ (fun _ _ _ h => Instr.noConfusion h)
theorem imin (h : Hdr) (u : Bool) (d a b : Opnd) : Statement (.imin h u d a b) := full ⟨_, _, _, rfl⟩ (fun _ _ _ h => Instr.noConfusion h)
theorem ipa (h : Hdr) (flat : Bool) (c : BitVec 2) (d : Reg) (a : Opnd) : Statement (.ipa h flat c d a) := full ⟨_, _, _, rfl⟩ (fun _ _ _ h => Instr.noConfusion h)
theorem iset (h : Hdr) (c : Cond) (u : Bool) (d : SetDst) (a b : Opnd) : Statement (.iset h c u d a b) := full ⟨_, _, _, rfl⟩ (fun _ _ _ h => Instr.noConfusion h)
theorem iseti (h : Hdr) (c : Cond) (u : Bool) (p : BitVec 4) (a : Opnd) (imm : BitVec 17) : Statement (.iseti h c u p a imm) := full ⟨_, _, _, rfl⟩ (fun _ _ _ h => Instr.noConfusion h)
theorem joinMask (h : Hdr) (k : BitVec 4) : Statement (.joinMask h k) := full ⟨_, _, _, rfl⟩ (fun _ _ _ h => Instr.noConfusion h)
theorem leaveMask (h : Hdr) (k : BitVec 4) : Statement (.leaveMask h k) := full ⟨_, _, _, rfl⟩ (fun _ _ _ h => Instr.noConfusion h)
theorem kmovToScalar (h : Hdr) (hi : Bool) (d : Reg) (k : BitVec 4) : Statement (.kmovToScalar h hi d k) := full ⟨_, _, _, rfl⟩ (fun _ _ _ h => Instr.noConfusion h)
theorem kmovToMask (h : Hdr) (hi : Bool) (a : Reg) (k : BitVec 4) : Statement (.kmovToMask h hi a k) := full ⟨_, _, _, rfl⟩ (fun _ _ _ h => Instr.noConfusion h)
theorem ld (h : Hdr) (d : Reg) (m : MAddr) (ord : Order) : Statement (.ld h d m ord) := full ⟨_, _, _, rfl⟩ (fun _ _ _ h => Instr.noConfusion h)
theorem ldc (h : Hdr) (d : Reg) (m : MAddr) (clr : Bool) : Statement (.ldc h d m clr) := full ⟨_, _, _, rfl⟩ (fun _ _ _ h => Instr.noConfusion h)
theorem ldt (h : Hdr) (d : Reg) (a : Opnd) (col rs : Bool) : Statement (.ldt h d a col rs) := full ⟨_, _, _, rfl⟩ (fun _ _ _ h => Instr.noConfusion h)
theorem matchLanes (h : Hdr) (hi : Bool) (d a : Opnd) : Statement (.matchLanes h hi d a) := full ⟨_, _, _, rfl⟩ (fun _ _ _ h => Instr.noConfusion h)
theorem mma (h : Hdr) (tile : BitVec 4) (reuse : Bool) (a : Reg) (b : Reg) (f : Reg) : Statement (.mma h tile reuse a b f) := full ⟨_, _, _, rfl⟩ (fun _ _ _ h => Instr.noConfusion h)
theorem mmaz (h : Hdr) (tile : BitVec 4) : Statement (.mmaz h tile) := full ⟨_, _, _, rfl⟩ (fun _ _ _ h => Instr.noConfusion h)
theorem mov (h : Hdr) (d a : Opnd) : Statement (.mov h d a) := full ⟨_, _, _, rfl⟩ (fun _ _ _ h => Instr.noConfusion h)
theorem movhi (h : Hdr) (d a : Opnd) (imm : BitVec 16) : Statement (.movhi h d a imm) := full ⟨_, _, _, rfl⟩ (fun _ _ _ h => Instr.noConfusion h)
theorem movi (h : Hdr) (d : Opnd) (imm : BitVec 26) : Statement (.movi h d imm) := full ⟨_, _, _, rfl⟩ (fun _ _ _ h => Instr.noConfusion h)
theorem mwait (h : Hdr) (wide : Bool) (d : Reg) (a b : Opnd) : Statement (.mwait h wide d a b) := full ⟨_, _, _, rfl⟩ (fun _ _ _ h => Instr.noConfusion h)
theorem nop (h : Hdr) : Statement (.nop h) := full ⟨_, _, _, rfl⟩ (fun _ _ _ h => Instr.noConfusion h)
theorem and (h : Hdr) (d a b : Opnd) : Statement (.and h d a b) := full ⟨_, _, _, rfl⟩ (fun _ _ _ h => Instr.noConfusion h)
theorem andi (h : Hdr) (d a : Opnd) (imm : BitVec 17) : Statement (.andi h d a imm) := full ⟨_, _, _, rfl⟩ (fun _ _ _ h => Instr.noConfusion h)
theorem or (h : Hdr) (d a b : Opnd) : Statement (.or h d a b) := full ⟨_, _, _, rfl⟩ (fun _ _ _ h => Instr.noConfusion h)
theorem ori (h : Hdr) (d a : Opnd) (imm : BitVec 17) : Statement (.ori h d a imm) := full ⟨_, _, _, rfl⟩ (fun _ _ _ h => Instr.noConfusion h)
theorem xor (h : Hdr) (d a b : Opnd) : Statement (.xor h d a b) := full ⟨_, _, _, rfl⟩ (fun _ _ _ h => Instr.noConfusion h)
theorem xori (h : Hdr) (d a : Opnd) (imm : BitVec 17) : Statement (.xori h d a imm) := full ⟨_, _, _, rfl⟩ (fun _ _ _ h => Instr.noConfusion h)
theorem not (h : Hdr) (d a : Opnd) : Statement (.not h d a) := full ⟨_, _, _, rfl⟩ (fun _ _ _ h => Instr.noConfusion h)
theorem pack (h : Hdr) (t : CvtType) (s32 hi : Bool) (d a b : Reg) : Statement (.pack h t s32 hi d a b) := full ⟨_, _, _, rfl⟩ (fun _ _ _ h => Instr.noConfusion h)
theorem plop (h : Hdr) (d a b : BitVec 4) (table : BitVec 4) : Statement (.plop h d a b table) := full ⟨_, _, _, rfl⟩ (fun _ _ _ h => Instr.noConfusion h)
theorem pmov (h : Hdr) (d : Opnd) : Statement (.pmov h d) := full ⟨_, _, _, rfl⟩ (fun _ _ _ h => Instr.noConfusion h)
theorem pmovTop (h : Hdr) (a : Opnd) : Statement (.pmovTop h a) := full ⟨_, _, _, rfl⟩ (fun _ _ _ h => Instr.noConfusion h)
theorem popc (h : Hdr) (d a : Opnd) : Statement (.popc h d a) := full ⟨_, _, _, rfl⟩ (fun _ _ _ h => Instr.noConfusion h)
theorem pref (h : Hdr) (llc : Bool) (a : Opnd) (off : BitVec 11) : Statement (.pref h llc a off) := full ⟨_, _, _, rfl⟩ (fun _ _ _ h => Instr.noConfusion h)
theorem qld (h : Hdr) (d : Reg) (a : Opnd) (tile : BitVec 4) (lg : BitVec 2) : Statement (.qld h d a tile lg) := full ⟨_, _, _, rfl⟩ (fun _ _ _ h => Instr.noConfusion h)
theorem qst (h : Hdr) (d : Reg) (a : Opnd) (tile : BitVec 4) (lg : BitVec 2) : Statement (.qst h d a tile lg) := full ⟨_, _, _, rfl⟩ (fun _ _ _ h => Instr.noConfusion h)
theorem qscr (h : Hdr) (d : Reg) (tile : BitVec 4) (f : QFmt) : Statement (.qscr h d tile f) := full ⟨_, _, _, rfl⟩ (fun _ _ _ h => Instr.noConfusion h)
theorem rdsr (h : Hdr) (d : Opnd) (num : BitVec 8) : Statement (.rdsr h d num) := full ⟨_, _, _, rfl⟩ (fun _ _ _ h => Instr.noConfusion h)
theorem rdx (h : Hdr) (d : Reg) (n : BitVec 1) (imm : BitVec 17) : Statement (.rdx h d n imm) := full ⟨_, _, _, rfl⟩ (fun _ _ _ h => Instr.noConfusion h)
theorem wrx (h : Hdr) (n : BitVec 1) (a : Opnd) (imm : BitVec 17) : Statement (.wrx h n a imm) := full ⟨_, _, _, rfl⟩ (fun _ _ _ h => Instr.noConfusion h)
theorem setix (h : Hdr) (n : BitVec 1) (a : Opnd) (imm : BitVec 17) : Statement (.setix h n a imm) := full ⟨_, _, _, rfl⟩ (fun _ _ _ h => Instr.noConfusion h)
theorem red (h : Hdr) (op : AtomOp) (d : Reg) (a : Opnd) (sp : Space) (wide : Bool) (ord : Order) : Statement (.red h op d a sp wide ord) := full ⟨_, _, _, rfl⟩ (fun _ _ _ h => Instr.noConfusion h)
theorem redl (h : Hdr) (op : LaneOp) (d : Opnd) (a : Reg) : Statement (.redl h op d a) := full ⟨_, _, _, rfl⟩ (fun _ _ _ h => Instr.noConfusion h)
theorem scanl (h : Hdr) (op : LaneOp) (excl : Bool) (d a : Reg) : Statement (.scanl h op excl d a) := full ⟨_, _, _, rfl⟩ (fun _ _ _ h => Instr.noConfusion h)
theorem relayout (h : Hdr) (a b : Opnd) (tag : LayoutTag) : Statement (.relayout h a b tag) := full ⟨_, _, _, rfl⟩ (fun _ _ _ h => Instr.noConfusion h)
theorem ret (h : Hdr) : Statement (.ret h) := full ⟨_, _, _, rfl⟩ (fun _ _ _ h => Instr.noConfusion h)
theorem sample (h : Hdr) (f : Filter) (lod : Bool) (d : Reg) (a : Opnd) (b : Reg) : Statement (.sample h f lod d a b) := full ⟨_, _, _, rfl⟩ (fun _ _ _ h => Instr.noConfusion h)
theorem sar (h : Hdr) (d a b : Opnd) : Statement (.sar h d a b) := full ⟨_, _, _, rfl⟩ (fun _ _ _ h => Instr.noConfusion h)
theorem sari (h : Hdr) (d a : Opnd) (imm : BitVec 17) : Statement (.sari h d a imm) := full ⟨_, _, _, rfl⟩ (fun _ _ _ h => Instr.noConfusion h)
theorem shl (h : Hdr) (d a b : Opnd) : Statement (.shl h d a b) := full ⟨_, _, _, rfl⟩ (fun _ _ _ h => Instr.noConfusion h)
theorem shli (h : Hdr) (d a : Opnd) (imm : BitVec 17) : Statement (.shli h d a imm) := full ⟨_, _, _, rfl⟩ (fun _ _ _ h => Instr.noConfusion h)
theorem shr (h : Hdr) (d a b : Opnd) : Statement (.shr h d a b) := full ⟨_, _, _, rfl⟩ (fun _ _ _ h => Instr.noConfusion h)
theorem shri (h : Hdr) (d a : Opnd) (imm : BitVec 17) : Statement (.shri h d a imm) := full ⟨_, _, _, rfl⟩ (fun _ _ _ h => Instr.noConfusion h)
theorem sel (h : Hdr) (d a b : Opnd) (p : BitVec 4) (sense : Bool) : Statement (.sel h d a b p sense) := full ⟨_, _, _, rfl⟩ (fun _ _ _ h => Instr.noConfusion h)
theorem shfl (h : Hdr) (mode : ShflMode) (d a : Reg) (b : Opnd) : Statement (.shfl h mode d a b) := full ⟨_, _, _, rfl⟩ (fun _ _ _ h => Instr.noConfusion h)
theorem sleep (h : Hdr) (a : Opnd) : Statement (.sleep h a) := full ⟨_, _, _, rfl⟩ (fun _ _ _ h => Instr.noConfusion h)
theorem slideup (h : Hdr) (d a : Reg) (b : Opnd) : Statement (.slideup h d a b) := full ⟨_, _, _, rfl⟩ (fun _ _ _ h => Instr.noConfusion h)
theorem slidedn (h : Hdr) (d a : Reg) (b : Opnd) : Statement (.slidedn h d a b) := full ⟨_, _, _, rfl⟩ (fun _ _ _ h => Instr.noConfusion h)
theorem st (h : Hdr) (d : Reg) (m : MAddr) (ord : Order) : Statement (.st h d m ord) := full ⟨_, _, _, rfl⟩ (fun _ _ _ h => Instr.noConfusion h)
theorem stf (h : Hdr) (d : Reg) (m : MAddr) (ord : Order) : Statement (.stf h d m ord) := full ⟨_, _, _, rfl⟩ (fun _ _ _ h => Instr.noConfusion h)
theorem stt (h : Hdr) (d : Reg) (a : Opnd) (col rs : Bool) : Statement (.stt h d a col rs) := full ⟨_, _, _, rfl⟩ (fun _ _ _ h => Instr.noConfusion h)
theorem tld (h : Hdr) (d : Reg) (a b : Opnd) (n : BitVec 3) : Statement (.tld h d a b n) := full ⟨_, _, _, rfl⟩ (fun _ _ _ h => Instr.noConfusion h)
theorem tst (h : Hdr) (d : Reg) (a b : Opnd) (n : BitVec 3) : Statement (.tst h d a b n) := full ⟨_, _, _, rfl⟩ (fun _ _ _ h => Instr.noConfusion h)
theorem trace (h : Hdr) (any : Bool) (d a : Reg) (b : Opnd) : Statement (.trace h any d a b) := full ⟨_, _, _, rfl⟩ (fun _ _ _ h => Instr.noConfusion h)
theorem tracef (h : Hdr) (d : Opnd) (a b : Reg) (bar : BitVec 5) : Statement (.tracef h d a b bar) := full ⟨_, _, _, rfl⟩ (fun _ _ _ h => Instr.noConfusion h)
theorem trap (h : Hdr) (code : BitVec 26) : Statement (.trap h code) := full ⟨_, _, _, rfl⟩ (fun _ _ _ h => Instr.noConfusion h)
theorem vote (h : Hdr) (mode : VoteMode) (hi : Bool) (d : Opnd) (p : BitVec 4) : Statement (.vote h mode hi d p) := full ⟨_, _, _, rfl⟩ (fun _ _ _ h => Instr.noConfusion h)
theorem waitk (h : Hdr) (k : BitVec 4) : Statement (.waitk h k) := full ⟨_, _, _, rfl⟩ (fun _ _ _ h => Instr.noConfusion h)
theorem wrsr (h : Hdr) (a : Opnd) (num : BitVec 8) : Statement (.wrsr h a num) := full ⟨_, _, _, rfl⟩ (fun _ _ _ h => Instr.noConfusion h)
theorem yieldFibre (h : Hdr) : Statement (.yieldFibre h) := full ⟨_, _, _, rfl⟩ (fun _ _ _ h => Instr.noConfusion h)
theorem resourcePowerGating (r : GateRes) : Statement (.resourcePowerGating r) := event rfl
theorem memoryScrub (sector : Nat) : Statement (.memoryScrub sector) := event rfl
theorem cxlCacheSnoop (line : Nat) (k : SnoopKind) : Statement (.cxlCacheSnoop line k) := event rfl
theorem inboundAtomic (port pa : Nat) (op : InboundOp) (wide : Bool) (v : DWord) :
    Statement (.inboundAtomic port pa op wide v) := event rfl
theorem peerPortTrained (port : Nat) : Statement (.peerPortTrained port) := event rfl
theorem timingInputLoss (pps ptp : Bool) : Statement (.timingInputLoss pps ptp) := event rfl
theorem cqheadWrite (fn : Nat) (v : Word) : Statement (.cqheadWrite fn v) := event rfl
theorem functionRegisterWrite (fn off : Nat) (v : Word) : Statement (.functionRegisterWrite fn off v) := event rfl
theorem partitionScrubCompletion (part : Nat) : Statement (.partitionScrubCompletion part) := event rfl
theorem ownershipChangeEffect (addr : Word) : Statement (.ownershipChangeEffect addr) := event rfl
theorem firmwareImageInstall (i : Install) : Statement (.firmwareImageInstall i) := event rfl
theorem bootWatchdogExpiry  : Statement .bootWatchdogExpiry := event rfl
theorem shiftAdmission  : Statement .shiftAdmission := event rfl
theorem passCloseCompletion  : Statement .passCloseCompletion := event rfl
theorem regionFlushCompletion  : Statement .regionFlushCompletion := event rfl
theorem invalidationCompletion  : Statement .invalidationCompletion := event rfl
theorem ppsEdge  : Statement .ppsEdge := event rfl
theorem surveyTick  : Statement .surveyTick := event rfl
theorem frameAttributeChangeDone  : Statement .frameAttributeChangeDone := event rfl

end Sys2Proof.Laws.WordKind
end

