-- ==== Sys2Proof/Tests/Slice0.lean ====
section
/-! SUPPORT. Tests of the model. -/

namespace Sys2Proof.Tests

open Sys2Proof Sys2Proof.Machine

/-- A header without guard, stall or counter. -/
def h : Hdr := { stall := 0, setc := 7, waitm := 0, ge := false, gp := 0, gs := false }

/-- Every word decodes to its instruction. -/
def allDecode (xs : List (DWord × Instr)) : Bool := xs.all fun x => decide ((decode x.1).toOption = some x.2) && x.2.wellFormed

/-- No word is an instruction. -/
def allIllegal (ws : List DWord) : Bool := ws.all fun w => match decode w with
  | .error .illegal => true
  | _ => false

/-- Every pair word breaks a rule of its own. -/
def allBreak (ws : List (DWord × Nat)) : Bool := ws.all fun w => match decode w.1 with
  | .error (.pairRule n) => n == w.2
  | _ => false


/-! ### Smoke test of WellFormed: an ill-formed term for each check -/

/-- No term is an instruction. -/
def allIllFormed (is : List Instr) : Bool := is.all fun i => !i.wellFormed

/-- A slot with M2 set, and slots that meet the four rules of R92 badly. -/
def slotOf (op : PairOp) (d a : Reg) (neg : Bool := false) : Slot := { op, d, a, ge := false, gp := 0, gs := false, neg, abs := false }

/-- R80, R77, R50, Tables WORD-7, EXEC-1: registers, masks, SETC. -/
theorem test_illFormedFields : allIllFormed [.iadd h (sr 64) (vr 0) (vr 0), .iadd h (vr 0) (sr 64) (vr 0), .iadd h (vr 0) (vr 0) (sr 64),
    .nop { h with setc := 6 }, .joinMask h 12, .leaveMask h 15, .waitk h 12, .kmovToScalar h false 64 0, .kmovToMask h false 64 0,
    .kmovToScalar h false 0 12, .kmovToMask h false 0 12, .iadd64 h (vr 1) (vr 0) (vr 0), .iadd64 h (vr 0) (vr 1) (vr 0), .iadd64i h (vr 0) (sr 3) 0,
    .emitm h 64 0, .emitm h 0 64, .brx h (vr 1), .movi h (sr 64) 0, .pmov h (sr 64), .rdsr h (sr 64) 0, .redl h .add (sr 64) 0,
    .vote h .mask false (sr 64) 0] = true := by decide

/-- R88, R322, R329: branches and ATTACH carry no guard; an unconditional branch names no bit. -/
theorem test_illFormedBranches :
    let f : BForm := { greg := 0, gbit := 0, gsense := false, gen := false, off := 0 }
    allIllFormed [.br { h with ge := true } f, .br { h with gp := 1 } f, .call { h with gs := true } f, .attach { h with ge := true } (vr 0),
      .br h { f with greg := 1 }, .call h { f with gbit := 1 }, .br h { f with gsense := true }] = true := by decide

/-- R131, R356, R365 and their entries: comparisons, conversions, packing, votes. -/
theorem test_illFormedValues : allIllFormed [.iset h .ord false (.pred 0) (vr 0) (vr 0), .iset h .eq false (.reg (sr 64)) (vr 0) (vr 0),
    .iseti h .uno false 0 (vr 0) 0, .fset h .eq (.reg (sr 64)) (vr 0) (vr 0), .cvt h .fp32 .e4m3b8 .rz false 0 0, .cvt h .fp32 .s64 .rne false 1 0,
    .cvt h .un64 .fp32 .rne false 0 1, .pack h .fp32 false false 0 0 0, .pack h .s32 false false 0 0 0, .pack h .fp16 false true 0 0 0,
    .vote h .count true (vr 0) 0, .fmin h { absB := false, absA := false, negB := false, negA := false, ftz := false, rm := .rz } (vr 0) (vr 0) (vr 0),
    .fmax h { absB := false, absA := false, negB := false, negA := false, ftz := false, rm := .dyn } (vr 0) (vr 0) (vr 0)] = true := by decide

/-- R92: a slot with M2 outside the F class; two F-class slots; one D; a D that the other slot reads, either way. -/
theorem test_illFormedPairs : allIllFormed [.pairWord 0 (slotOf .iadd 0 1 true) (slotOf .imin 2 3), .pairWord 0 (slotOf .iadd 0 1) (slotOf .imin 2 3 true),
    .pairWord 0 (slotOf .fadd 0 1) (slotOf .hmul2 2 3), .pairWord 0 (slotOf .iadd 0 1) (slotOf .fmul 0 3), .pairWord 0 (slotOf .iadd 0 1) (slotOf .fmul 2 0),
    .pairWord 0 (slotOf .iadd 0 2) (slotOf .fmul 2 3)] = true := by decide

/-- Table WORD-8, R369, R370, R400, R402, R321: spaces, sizes, orders and data registers of memory words. -/
theorem test_illFormedMemory :
    let gl : MAddr := { space := .gl, size := .b64, a := vr 0, off := 0 }
    let sp : MAddr := { space := .sp, size := .b128, a := vr 1, off := 0 }
    allIllFormed [.ld h 0 { gl with a := vr 1 } .rlx, .ld h 1 gl .rlx, .ld h 2 sp .rlx, .ld h 0 gl .rel, .st h 0 gl .acq, .st h 0 gl .ar,
      .ldc h 0 gl false, .ldc h 0 { sp with space := .cb } false, .stf h 0 gl .rlx, .stf h 0 sp .acq, .ld h 0 { sp with a := sr 64 } .rlx,
      .atom h .add 0 (vr 0) .cb false .rlx, .red h .add 0 (vr 0) .cb false .rlx, .atom h .fadd 0 (vr 0) .gl true .rlx, .atom h .add 1 (vr 0) .gl true .rlx,
      .atom h .add 0 (vr 1) .gl false .rlx, .atomcas h 0 (vr 0) (vr 1) .gl true .rlx, .atomcas h 0 (vr 0) (sr 64) .sp false .rlx,
      .mwait h true 1 (vr 0) (vr 0), .mwait h false 0 (vr 1) (vr 0), .pref h false (vr 1) 0, .ldt h 0 (sr 64) false false,
      .stt h 0 (sr 64) false false] = true := by decide

/-- Tables TENS-9, MTX-2, REND-8 and their entries. -/
theorem test_illFormedEngines : allIllFormed [.copy h .gath (vr 1) (vr 0) 0 0, .copy h .mc (vr 1) (vr 0) 0 0, .copy h .plain (sr 64) (vr 0) 0 0,
    .copyw h .glb (vr 0) (vr 1) (vr 0) 0, .copyw h .glbRel (vr 0) (vr 1) (vr 0) 0, .copyb h (vr 0) (vr 1) (vr 0) false false false 0,
    .cbld h (vr 1) 0, .relayout h (vr 0) (vr 1) .row, .tld h 0 (vr 0) (vr 0) 5, .tst h 0 (vr 0) (vr 0) 7, .tld h 0 (vr 0) (sr 61) 3, .copyw h .plain (vr 0) (vr 0) (sr 60) 0, .emitf h 0 0 4, .mma h 0 false 2 0 0, .mma h 0 false 0 64 0,
    .qscr h 64 0 .bf16, .qld h 0 (sr 64) 0 0, .qst h 0 (sr 64) 0 0, .sample h .bilin false 2 (vr 0) 0, .trace h false 2 0 (vr 0),
    .trace h false 0 2 (vr 0), .trace h false 0 0 (vr 1), .tracef h (vr 1) 0 0 0, .tracef h (vr 0) 2 0 0, .tracef h (vr 0) 0 1 0,
    .bararv h (.plain (sr 64) (vr 0)) 0, .bararv h (.plain (vr 0) (sr 64)) 0, .bararv h (.x (vr 0) (sr 64)) 0, .bararv h (.r (sr 64)) 0, .barinit h (sr 64) false 0, .hinv h (sr 64),
    .hstat h false (sr 64) (vr 0), .cfgrd h (vr 0) (sr 64), .cfgwr h (sr 64) (vr 0), .ipa h false 0 0 (sr 64), .sleep h (sr 64)] = true := by decide
/-- Words of the opcode map (Table WORD-13), written out field by field. -/
theorem test_decodeControl : allDecode [
    (0x0E00000000000000, .nop h),
    (0x0E00000E47D00005, .br h { greg := 200, gbit := 31, gsense := false, gen := true, off := 5 }),
    (0x0E00001000300200, .brx h (sr 6)),
    (0x0E000018000FFFFE, .call h { greg := 0, gbit := 0, gsense := false, gen := false, off := 0xFFFFE }),
    (0x0E00002000000000, .ret h),
    (0x0E000028081BFFFF, .fork h 1 (sr 3) 0x1FFFF),
    (0x0E00003000000000, .endFibre h),
    (0x0E0000380000000B, .joinMask h 11),
    (0x0E00004000000003, .leaveMask h 3),
    (0x0E0000480000000A, .waitk h 10),
    (0x0E000051F8000444, .kmovToScalar h true 63 4),
    (0x0E00005000080280, .kmovToMask h false 1 0),
    (0x0E00005878000000, .elect h 15),
    (0x0E00006000000000, .yieldFibre h),
    (0x0E00006803FFFFFF, .trap h 0x3FFFFFF),
    (0x0E00007000000000, .eret h)] = true := by decide

/-- Words of the opcode map (Table WORD-13), written out field by field. -/
theorem test_decodeInteger : allDecode [
    (0x0E00020008A0F100, .iadd h (vr 1) (vr 20) (sr 30)),
    (0x0E00021018A0F100, .isub h (vr 3) (vr 20) (sr 30)),
    (0x0E00021820A0F100, .imul h (vr 4) (vr 20) (sr 30)),
    (0x0E00022830A0F100, .imad h (vr 6) (vr 20) (sr 30)),
    (0x0E00020828350000, .iaddi h (sr 5) (vr 6) 0x10000),
    (0x0E00022020283201, .imulh h true (vr 4) (sr 5) (vr 6)),
    (0x0E00022020283000, .imulh h false (vr 4) (vr 5) (vr 6)),
    (0x0E00023020283201, .imin h true (vr 4) (sr 5) (vr 6)),
    (0x0E00023020283000, .imin h false (vr 4) (vr 5) (vr 6)),
    (0x0E00023820283201, .imax h true (vr 4) (sr 5) (vr 6)),
    (0x0E00023820283000, .imax h false (vr 4) (vr 5) (vr 6)),
    (0x0E00024048400600, .iabs h (sr 9) (sr 8)),
    (0x0E00024860081010, .iset h .eq true (.pred 12) (vr 1) (vr 2)),
    (0x0E000249E808140D, .iset h .ge false (.reg (sr 61)) (vr 1) (vr 2)),
    (0x0E000256684A0007, .iseti h .gt true 13 (sr 9) 7),
    (0x0E0002580810180F, .sel h (vr 1) (vr 2) (vr 3) 15 false),
    (0x0E000267FFF00000, .mov h (vr 255) (vr 254)),
    (0x0E0002683FFFFFFF, .movi h (sr 7) 0x3FFFFFF),
    (0x0E00027060600300, .movhi h (vr 12) (vr 12) 0x300),
    (0x0E00027810203500, .iadd64 h (sr 2) (vr 4) (sr 6)),
    (0x0E0002804051FFF8, .iadd64i h (vr 8) (vr 10) 0x1FFF8),
    (0x0E00028818080002, .rdx h 3 1 2),
    (0x0E000290081A0002, .wrx h 1 (sr 3) 2),
    (0x0E0002980049FFFF, .setix h 0 (vr 9) 0x1FFFF)] = true := by decide

/-- Words of the opcode map (Table WORD-13), written out field by field. -/
theorem test_decodeBits : allDecode [
    (0x0E00040003202900, .and h (vr 0) (vr 100) (sr 5)),
    (0x0E0004080993ABCD, .andi h (vr 1) (sr 50) 0x1ABCD),
    (0x0E00041013202900, .or h (vr 2) (vr 100) (sr 5)),
    (0x0E0004181993ABCD, .ori h (vr 3) (sr 50) 0x1ABCD),
    (0x0E00042023202900, .xor h (vr 4) (vr 100) (sr 5)),
    (0x0E0004282993ABCD, .xori h (vr 5) (sr 50) 0x1ABCD),
    (0x0E00043031900400, .not h (sr 6) (vr 50)),
    (0x0E0004383B202900, .shl h (vr 7) (vr 100) (sr 5)),
    (0x0E0004404193ABCD, .shli h (vr 8) (sr 50) 0x1ABCD),
    (0x0E0004484B202900, .shr h (vr 9) (vr 100) (sr 5)),
    (0x0E0004505193ABCD, .shri h (vr 10) (sr 50) 0x1ABCD),
    (0x0E0004585B202900, .sar h (vr 11) (vr 100) (sr 5)),
    (0x0E0004606193ABCD, .sari h (vr 12) (sr 50) 0x1ABCD),
    (0x0E00046808101801, .bfx h true (vr 1) (vr 2) (vr 3)),
    (0x0E00047008101A00, .bfi h (vr 1) (sr 2) (vr 3)),
    (0x0E00047808100000, .popc h (vr 1) (vr 2)),
    (0x0E00048008100000, .clz h (vr 1) (vr 2)),
    (0x0E00048808100000, .brev h (vr 1) (vr 2)),
    (0x0E00049108000000, .pmov h (vr 33)),
    (0x0E00049001080001, .pmovTop h (vr 33)),
    (0x0E0004980810180E, .plop h 1 2 3 14)] = true := by decide

/-- Words of the opcode map (Table WORD-13), written out field by field. -/
theorem test_decodeFloat : allDecode [
    (0x0E0006000810199C, .fadd h { absB := true, absA := false, negB := false, negA := true, ftz := true, rm := .dyn } (vr 1) (vr 2) (sr 3)),
    (0x0E00060808101951, .fsub h { absB := false, absA := true, negB := false, negA := true, ftz := false, rm := .rz } (vr 1) (vr 2) (sr 3)),
    (0x0E00061008101963, .fmul h { absB := false, absA := true, negB := true, negA := false, ftz := false, rm := .rd } (vr 1) (vr 2) (sr 3)),
    (0x0E00061808101822, .ffma h { negC := true, negP := false, ftz := false, rm := .ru } (vr 1) (vr 2) (vr 3)),
    (0x0E00062008101880, .fmin h { absB := true, absA := false, negB := false, negA := false, ftz := false, rm := .rne } (vr 1) (vr 2) (vr 3)),
    (0x0E00062808101808, .fmax h { absB := false, absA := false, negB := false, negA := false, ftz := true, rm := .rne } (vr 1) (vr 2) (vr 3)),
    (0x0E00063018081006, .fset h .ord (.pred 3) (vr 1) (vr 2)),
    (0x0E00063808100053, .frnd h true true false .rd (vr 1) (vr 2)),
    (0x0E00080008101829, .hadd2 h { negB := true, negA := false, ftz := true, rm := .rz } (vr 1) (vr 2) (vr 3)),
    (0x0E00080808101829, .hmul2 h { negB := true, negA := false, ftz := true, rm := .rz } (vr 1) (vr 2) (vr 3)),
    (0x0E00081808101829, .badd2 h { negB := true, negA := false, ftz := true, rm := .rz } (vr 1) (vr 2) (vr 3)),
    (0x0E00082008101829, .bmul2 h { negB := true, negA := false, ftz := true, rm := .rz } (vr 1) (vr 2) (vr 3)),
    (0x0E00081008101810, .hfma2 h { negC := false, negP := true, ftz := false, rm := .rne } (vr 1) (vr 2) (vr 3)),
    (0x0E00082808101810, .bfma2 h { negC := false, negP := true, ftz := false, rm := .rne } (vr 1) (vr 2) (vr 3)),
    (0x0E00083010285081, .cvt h .fp16 .s64 .ru true 2 5),
    (0x0E0008383828301A, .pack h .un16 true false 7 5 6),
    (0x0E000A0010000200, .frcp h false (vr 2) (sr 0)),
    (0x0E000A0810080208, .frsq h true (vr 2) (sr 1)),
    (0x0E000A1010100200, .fsqrt h false (vr 2) (sr 2)),
    (0x0E000A1810180208, .fex2 h true (vr 2) (sr 3)),
    (0x0E000A2010200200, .flg2 h false (vr 2) (sr 4)),
    (0x0E000A2810280208, .fsin h true (vr 2) (sr 5)),
    (0x0E000A3010300200, .fcos h false (vr 2) (sr 6))] = true := by decide

/-- Words of the opcode map (Table WORD-13), written out field by field. -/
theorem test_decodeLanes : allDecode [
    (0x0E000C0008101903, .shfl h .xor 1 2 (sr 3)),
    (0x0E000C0808101800, .bcast h 1 2 (vr 3)),
    (0x0E000C100810040A, .redl h .fmax (sr 1) 2),
    (0x0E000C1808100013, .scanl h .umin true 1 2),
    (0x0E000C2008100008, .vote h .mask true (vr 1) 2),
    (0x0E000C2008100404, .vote h .count false (sr 1) 2),
    (0x0E000C2808100004, .matchLanes h true (vr 1) (vr 2)),
    (0x0E000C3008101800, .compress h 1 (vr 2) 3),
    (0x0E000C3808101800, .expand h 1 (vr 2) 3),
    (0x0E000C4008101800, .slideup h 1 2 (vr 3)),
    (0x0E000C4808101900, .slidedn h 1 2 (sr 3))] = true := by decide

/-- Words of the opcode map (Table WORD-13), written out field by field. -/
theorem test_decodeMemory : allDecode [
    (0x0E000E00401FFFE1, .ld h 8 { space := .cb, size := .b128, a := (sr 3), off := 0x7FF } .rlx),
    (0x0E000E0040200006, .ld h 8 { space := .gl, size := .b8, a := (vr 4), off := 0 } .ar),
    (0x0E000E084018009C, .st h 8 { space := .rs, size := .b64, a := (vr 3), off := 0 } .rel),
    (0x0E000E1040180048, .ldc h 8 { space := .sp, size := .b16, a := (vr 3), off := 0 } false),
    (0x0E000E1840180294, .stf h 8 { space := .rs, size := .b32, a := (vr 3), off := 2 } .rel),
    (0x0E000E2040180002, .ldt h 8 (vr 3) false true),
    (0x0E000E2840180201, .stt h 8 (sr 3) true false),
    (0x0E000E3040182202, .tld h 8 (sr 3) (vr 4) 2),
    (0x0E000E3840182104, .tst h 8 (vr 3) (sr 4) 4),
    (0x0E000E400837FD00, .pref h true (vr 6) 0x7FD),
    (0x0E000E4800000005, .fence h .sys)] = true := by decide

/-- Words of the opcode map (Table WORD-13), written out field by field. -/
theorem test_decodeOrder : allDecode [
    (0x0E00100020500952, .atom h .xchg 4 (vr 10) .sp false .acq),
    (0x0E00100820503114, .atomcas h 4 (vr 10) (sr 6) .gl true .rel),
    (0x0E0010102050019F, .red h .sub 4 (sr 10) .rs true .ar),
    (0x0E00101820503901, .mwait h true 4 (vr 10) (sr 7)),
    (0x0E0010200038023F, .barinit h (sr 7) true 31),
    (0x0E00102820000401, .bararv h (.plain (sr 4) (vr 0)) 1),
    (0x0E00102820280022, .bararv h (.x (vr 4) (vr 5)) 2),
    (0x0E00102800280243, .bararv h (.r (sr 5)) 3),
    (0x0E00103000280204, .barwait h (sr 5) 4),
    (0x0E00103830280004, .bartst h 6 (vr 5) 4),
    (0x0E00104048000000, .attach h (vr 9)),
    (0x0E00104800000000, .detach h)] = true := by decide

/-- Words of the opcode map (Table WORD-13), written out field by field. -/
theorem test_decodeTensor : allDecode [
    (0x0E001200A0406483, .copy h .mc (sr 20) (vr 8) 12 3),
    (0x0E001208A04063E3, .copyw h .glbRel (vr 20) (sr 8) (sr 12) 3),
    (0x0E001210A04060A1, .copyb h (vr 20) (vr 8) (vr 12) true false true 1),
    (0x0E00121800183001, .relayout h (vr 3) (vr 6) .col),
    (0x0E00122008180001, .hstat h true (vr 1) (vr 3)),
    (0x0E00122800180200, .hinv h (sr 3)),
    (0x0E001230002000FF, .cbld h (vr 4) 255),
    (0x0E00140429002108, .mma h 5 true 32 4 8),
    (0x0E00140838000000, .mmaz h 7),
    (0x0E00141140480032, .qld h 40 (vr 9) 2 3),
    (0x0E00141940480205, .qst h 40 (sr 9) 5 0),
    (0x0E00142020000421, .qscr h 4 1 .bf16)] = true := by decide

/-- Words of the opcode map (Table WORD-13), written out field by field. -/
theorem test_decodeRendering : allDecode [
    (0x0E00160000203300, .emitm h 4 6),
    (0x0E0016080140001A, .emitf h 40 2 3),
    (0x0E00161008100006, .ipa h true 2 1 (vr 2)),
    (0x0E00161840101A06, .sample h .trilin true 8 (sr 2) 3),
    (0x0E00162040801101, .trace h true 8 16 (sr 2)),
    (0x0E0016281080241F, .tracef h (sr 2) 16 4 31)] = true := by decide

/-- Words of the opcode map (Table WORD-13), written out field by field. -/
theorem test_decodeSpecial : allDecode [
    (0x0E00180008000442, .rdsr h (sr 1) 0x42),
    (0x0E00180800080214, .wrsr h (sr 1) 0x14),
    (0x0E00181000200000, .sleep h (vr 4)),
    (0x0E001818000000AB, .bkpt h 0xAB),
    (0x0E00182020300200, .cfgrd h (vr 4) (sr 6)),
    (0x0E00182800304800, .cfgwr h (vr 6) (vr 9))] = true := by decide

/-- Words of the opcode map (Table WORD-13), written out field by field in the entries of the spec. -/
theorem test_decodeWorked : allDecode [
    (0x0E00181800000000, .bkpt h 0),
    (0x0E000A1010280208, .fsqrt h true (vr 2) (sr 5)),
    (0x0E00025508180064, .iseti h .lt true 1 (vr 3) 100),
    (0x0000101820503900, .mwait { h with setc := 0 } false 4 (vr 10) (sr 7)),
    (0x0E00083838283023, .pack h .e4m3b8 false true 7 5 6),
    (0x0E00002000000000, .ret h),
    (0x0E00182801916000, .cfgwr h (vr 50) (vr 44)),
    (0x0E00122800180000, .hinv h (vr 3)),
    (0x0400122028180001, .hstat { h with setc := 2 } true (vr 5) (vr 3)),
    (0x0E00161060100201, .ipa h false 1 12 (sr 2)),
    (0x0E000E4008500000, .pref h true (vr 10) 0),
    (0x0E00142030000425, .qscr h 6 5 .bf16),
    (0x0E000C1828300010, .scanl h .add true 5 6),
    (0x02001618A0406001, .sample { h with setc := 1 } .bilin false 20 (vr 8) 12),
    (0x0E00044010180005, .shli h (vr 2) (vr 3) 5),
    (0x0E000C0028300903, .shfl h .xor 5 6 (sr 1)),
    (0x0E00181000100000, .sleep h (vr 2)),
    (0x0E000E0870500010, .st h 14 { space := .gl, size := .b32, a := vr 10, off := 0 } .rlx),
    (0x0E000E1840200055, .stf h 8 { space := .sp, size := .b32, a := sr 4, off := 0 } .rel),
    (0x00000E3020406001, .tld { h with setc := 0 } 4 (vr 8) (vr 12) 1),
    (0x0E000C2030100000, .vote h .mask false (vr 6) 2),
    (0x0E000C2018080404, .vote h .count false (sr 3) 1),
    (0x0E00180800180242, .wrsr h (sr 3) 0x42),
    (0x0E001210D0E0D880, .copyb h (vr 26) (vr 28) (vr 27) true false false 0),
    (0x0E000009BFFFFFFD, .br h { greg := 55, gbit := 31, gsense := true, gen := true, off := 0xFFFFD })] = true := by decide
/-- Pair words of every code (Tables WORD-9 and WORD-10). -/
theorem test_decodePairs : allDecode [
    (0x800040A020050600, .pairWord 0
      { op := .iadd, d := 1, a := 2, ge := true, gp := 0, gs := false, neg := false, abs := false }
      { op := .fadd, d := 5, a := 6, ge := false, gp := 0, gs := false, neg := false, abs := false }),
    (0x984141804101028C, .pairWord 1
      { op := .fsub, d := 5, a := 6, ge := false, gp := 0, gs := false, neg := true, abs := false }
      { op := .isub, d := 1, a := 2, ge := true, gp := 1, gs := true, neg := false, abs := false }),
    (0xA08040A422050602, .pairWord 2
      { op := .imin, d := 1, a := 2, ge := true, gp := 2, gs := false, neg := false, abs := false }
      { op := .fmul, d := 5, a := 6, ge := false, gp := 0, gs := false, neg := false, abs := true }),
    (0xB8C14180C301029C, .pairWord 3
      { op := .fmin, d := 5, a := 6, ge := false, gp := 0, gs := false, neg := true, abs := true }
      { op := .imax, d := 1, a := 2, ge := true, gp := 3, gs := true, neg := false, abs := false }),
    (0xC10040A824050600, .pairWord 4
      { op := .mov, d := 1, a := 2, ge := true, gp := 4, gs := false, neg := false, abs := false }
      { op := .fmax, d := 5, a := 6, ge := false, gp := 0, gs := false, neg := false, abs := false }),
    (0xD9414180450102AC, .pairWord 5
      { op := .hadd2, d := 5, a := 6, ge := false, gp := 0, gs := false, neg := true, abs := false }
      { op := .and, d := 1, a := 2, ge := true, gp := 5, gs := true, neg := false, abs := false }),
    (0xE18040AC26050602, .pairWord 6
      { op := .or, d := 1, a := 2, ge := true, gp := 6, gs := false, neg := false, abs := false }
      { op := .hmul2, d := 5, a := 6, ge := false, gp := 0, gs := false, neg := false, abs := true }),
    (0xF9C14180C70102BC, .pairWord 7
      { op := .badd2, d := 5, a := 6, ge := false, gp := 0, gs := false, neg := true, abs := true }
      { op := .xor, d := 1, a := 2, ge := true, gp := 7, gs := true, neg := false, abs := false }),
    (0x820040B028050600, .pairWord 0
      { op := .shl, d := 1, a := 2, ge := true, gp := 8, gs := false, neg := false, abs := false }
      { op := .bmul2, d := 5, a := 6, ge := false, gp := 0, gs := false, neg := false, abs := false }),
    (0x98014180490102CC, .pairWord 1
      { op := .fadd, d := 5, a := 6, ge := false, gp := 0, gs := false, neg := true, abs := false }
      { op := .shr, d := 1, a := 2, ge := true, gp := 9, gs := true, neg := false, abs := false }),
    (0xA28040B421050602, .pairWord 2
      { op := .sar, d := 1, a := 2, ge := true, gp := 10, gs := false, neg := false, abs := false }
      { op := .fsub, d := 5, a := 6, ge := false, gp := 0, gs := false, neg := false, abs := true }),
    (0xB8814180CB0102DC, .pairWord 3
      { op := .fmul, d := 5, a := 6, ge := false, gp := 0, gs := false, neg := true, abs := true }
      { op := .not, d := 1, a := 2, ge := true, gp := 11, gs := true, neg := false, abs := false })] = true := by decide

/-- Full words that R89 and R104 call illegal: class 0xD, class 0xE, class 0xF, 0:0F, 1:14, C:06, SETC 6, NOP with MOD, BR with GE, BR with GS, BR with GBIT but no GEN, ATTACH with a guard, JOIN k12, KMOV of an s register 64, KMOV without SD, s64, IABS with B, ISET ORD, ISETI code 6, MOVHI with bit 16, IADD64 of an odd pair, RDX of index 2, FADD with RM 5, FMIN with RM, FFMA with bit 7. -/
theorem test_illegal0 : allIllegal [
    0x0E001A0000000000, 0x0E001C2800000000, 0x0E001FF800000000, 0x0E00007800000000, 0x0E0002A000000000, 0x0E00183000000000,
    0x0C00000000000000, 0x0E00000000000001, 0x0E04000800000000, 0x0E00200800000000, 0x0E00000800400000, 0x0E04104008000000,
    0x0E0000380000000C, 0x0E00005200000400, 0x0E00005008000000, 0x0E00020200000400, 0x0E00024000000800, 0x0E00024800000006,
    0x0E00025300000000, 0x0E00027000010000, 0x0E00027818203000, 0x0E00028800100000, 0x0E00060000000005, 0x0E00062000000001,
    0x0E00061800000080] = true := by decide

/-- Full words that R89 and R104 call illegal: FSET with U, CVT to FP8 with RZ, CVT of type 13, CVT of an odd pair, CVT with SB, PACK of FP32, PACK of S32, PACK.HI of FP16, REDL 11, VOTE mode 5, VOTE.HI with EVERY, SHFL with SA, LD with REL, LD of SIZE 5, LD.128 at v2, LD.GL of an odd pair, ST with ACQ, LDC in GL, LDC in CB, STF with AR, TLD of 6 coordinates, PREF in SP, FENCE 6, ATOM in CB, ATOM of 16 bits. -/
theorem test_illegal1 : allIllegal [
    0x0E00063000000010, 0x0E00083000000830, 0x0E0008300000000D, 0x0E00083000080008, 0x0E00083000000100, 0x0E00083800000000,
    0x0E00083800000007, 0x0E00083800000021, 0x0E000C100000000B, 0x0E000C2000000005, 0x0E000C2000000009, 0x0E000C0000000200,
    0x0E000E0000000014, 0x0E000E0000000028, 0x0E000E0010000020, 0x0E000E0000080010, 0x0E000E0800000012, 0x0E000E1000000010,
    0x0E000E10000000D0, 0x0E000E1800000056, 0x0E000E3000000005, 0x0E000E4000100040, 0x0E000E4800000006, 0x0E001000000000D0,
    0x0E00100000000008] = true := by decide

/-- Full words that R89 and R104 call illegal: ATOM 11, FADD of 64 bits, ATOM with an offset, ATOMCAS in space 3, BARARV 3, BARARV.R with D, BARTST of D bit 4, COPY kind 6, COPY.MC of an odd pair, COPYW kind 1, COPYW.GLB of an odd pair, RELAYOUT 5, CBLD of an odd pair, MMA of A at v2, MMA with B in v, MMA with D bit 4, QSCR format 3, EMITM of v registers, SAMPLE filter 3, SAMPLE into v2, TRACE of a ray at v2, TRACEF with bit 5, RDSR with A, CFGWR with D. -/
theorem test_illegal2 : allIllegal [
    0x0E00100000000B10, 0x0E00100000000A18, 0x0E00100000001010, 0x0E00100800000003, 0x0E00102800000060, 0x0E00102808000040,
    0x0E00103880000000, 0x0E001200000000C0, 0x0E00120008000080, 0x0E00120800000020, 0x0E001208000800C0, 0x0E00121800000005,
    0x0E00123000080000, 0x0E00140000100100, 0x0E00140000000000, 0x0E00140080000100, 0x0E00142000000430, 0x0E00160000000000,
    0x0E00161800000003, 0x0E00161810000000, 0x0E00162000100000, 0x0E00162800000020, 0x0E00180000080000, 0x0E00182808000000] = true := by decide

/-- Pair words that break the rules 1 to 4 of R92. -/
theorem test_pairRules : allBreak [
    (0x8300408000050600, 1),
    (0x8000408029050600, 1),
    (0x8000408040050600, 2),
    (0x8800408028050600, 3),
    (0x8000408000010600, 4),
    (0x8000408000050100, 4),
    (0x8000414000050600, 4)] = true := by decide
/-! ### One step on a small machine -/

/-- A memory die at position 0 and a shading die at position 1. -/
def dies : Tab Die :=
  [(0, { newDie .memory 0 with inService := true, whole := true, chan := 0xFFFFFF, health := 0xFFFFFFFF }),
   (1, { newDie .shading 0 with inService := true, whole := true, health := 0xFF })]

/-- The package of these dies, with one core, which partition 0 owns, and a page table (as for a placed word). -/
def base : State :=
  cfgSet (placedPages (State.fresh dies [(16, newCore .shading)] (resetFlash .s16g2m8) [] [] 0 10)) (cfgAddr 1 0x280) 1

/-- A gang of fibres at the placed word, with v registers `vs` (number, and values by lane) and s registers `ss`. -/
def gang (ls : List Nat) (vs : List (Nat × List Word) := []) (ss : Tab Word := []) : Gang :=
  { placedGang 1280 with
    sregs := ss
    pool := vs.foldl (fun p v => (ls.zip v.2).foldl (fun p x => spSet 0 p (256 * x.1 + v.1) x.2) p) []
    fibres := ls.map fun l => (l, { newFibre placedPc (256 * l) with bun := 1 }) }

/-- A barrier that expects `n` arrivals. -/
def barrier (n : Nat) : Barrier :=
  { phase := 0, expect := n, arrived := 0, bytes := 0, member := false, err := 0, mems := [], waits := [] }

/-- A crew with a handler, 64 KiB of scratchpad, one unit of column bank and two barriers. -/
def crew : Crew :=
  { placedCrew with
    tvec := 0x8000
    spBase := [0]
    spSize := 65536
    cbBase := [0]
    cbSize := 1
    bars := [barrier 1, barrier 2]
    htab := 0x40000 }

/-- The machine in which the whole gang is one bundle that issues. -/
def machine (g : Gang) (c : Crew := crew) : State :=
  { base with crews := [(5, c)], gangs := [(1280, g)], issue := some { gang := 1280, lanes := tabKeys g.fibres, pc := placedPc } }

/-- What one step makes of a word. -/
def after (w : DWord) (s : State) : Option State := match step (s.withFetchWord 64 w.toNat) with
  | .next t => some t
  | _ => none

/-- What an instruction makes of a state. -/
def done (i : Instr) (s : State) : Option State := match exec i s with
  | .next t => some t
  | _ => none

/-- A v register in some lanes. -/
def vAt (t : Option State) (n : Nat) (ls : List Nat) : List Word :=
  ls.filterMap fun l => t.bind fun t => (fibreAt t 1280 l).bind fun fb => (gangOf t 1280).map fun g => regNow g fb (vRef n)

/-- Something of the lowest fibre. -/
def fibAt {α : Type} (t : Option State) (f : Fibre → α) : Option α := t.bind fun t => (fibreAt t 1280 0).map f

/-- v registers of lane 0 hold values; a word writes v register `d`; SR.FFLAGS. -/
def lane0 (w : DWord) (vs : List (Nat × Word)) (d : Nat) : List Word × Option Flags :=
  let t := after w (machine (gang [0] (vs.map fun x => (x.1, [x.2]))))
  (vAt t d [0], fibAt t (·.fflags))

/-- A placed word runs from reset. -/
theorem test_nop_runs : (match step (State.reset.withFetchWord 64 0x0E00000000000000) with
    | .next t => t.issue.isNone
    | _ => false) = true := by decide

/-- Example after R360: `IADDI v3, v3, -1` of 0. -/
theorem test_iaddi : lane0 0x0E0002081819FFFF [] 3 = ([0xFFFFFFFF], some 0) := by decide

/-- Example after R363: IMUL, IMULH and IMULH.U of 0xFFFFFFFF and 2. -/
theorem test_imul : [0x0E00021808081000, 0x0E00022008081000, 0x0E00022008081001].map
    (fun w => (lane0 w [(1, 0xFFFFFFFF), (2, 2)] 1).1) = [[0xFFFFFFFE], [0xFFFFFFFF], [1]] := by decide

/-- Example after R326 and R327: BFX, BFX.S and BFI. -/
theorem test_bfx : [0x0E00046818081000, 0x0E00046818081001, 0x0E00047018081000].map
    (fun w => (lane0 w [(1, 0xDEADBEEF), (2, 0xC08)] 3).1) = [[0xDBE], [0xFFFFFDBE], [0xEEF00]] := by decide

/-- Example after R395: SARI of 0x80000000 by 40. -/
theorem test_sari : lane0 0x0E00046008080028 [(1, 0x80000000)] 1 = ([0xFFFFFFFF], some 0) := by decide

/-- Example after R348: 1.0 - 1.0 is +0 under RZ and -0 under RD. -/
theorem test_fadd : [0x0E00060008101821, 0x0E00060008101823].map
    (fun w => lane0 w [(2, 0x3F800000), (3, 0x3F800000)] 1) = [([0], some 0), ([0x80000000], some 0)] := by decide

/-- Example after R351: FFMA forms 2^-24 exactly. -/
theorem test_ffma : lane0 0x0E00061808101800 [(1, 0xBF801000), (2, 0x3F800800), (3, 0x3F800800)] 1 = ([0x33800000], some 0) := by
  decide

/-- Example after R356: HADD2, with RNE and with RZ; OF is bit 2 of the flags and NX bit 0 (R120). -/
theorem test_hadd2 : [0x0E00080008101800, 0x0E00080008101801].map
    (fun w => lane0 w [(2, 0x7BFF3C00), (3, 0x7BFF0400)] 1) = [([0x7C003C00], some 5), ([0x7BFF3C00], some 5)] := by decide

/-- Table NUM-4: conversions from FP32 to E4M3B8. -/
theorem test_cvt : [0x3F880000, 0x43960000, 0xB9800000, 0x3A800000, 0x80000000, 0xFF800000, 0x7FC00000].map
    (fun x => cvtF .fp32 .e4m3b8 .rne false x) =
    [(0x40, 1), (0x7F, 5), (0, 3), (1, 0), (0, 0), (0xFF, 5), (0x80, 0)] := by decide

/-- Example after R131: PACK, then PACK.HI. -/
theorem test_pack : lane0 0x0E00083838182003 [(3, 0x3F800000), (4, 0x43960000)] 7 = ([0x7F40], some 5) ∧
    lane0 0x0E00083838283023 [(5, 0xBF000000), (6, 0x7FC00000), (7, 0x7F40)] 7 = ([0x80B87F40], some 0) := by decide

/-- Examples after R349: FRSQ of 4.0, FEX2 of -1.0, FLG2 of 8.0, FSIN of 0.5. -/
theorem test_special : [(0x0E000A0808080000, 0x40800000), (0x0E000A1808080000, 0xBF800000), (0x0E000A2008080000, 0x41000000),
    (0x0E000A2808080000, 0x3F000000)].map (fun x => lane0 x.1 [(1, x.2)] 1) =
    [([0x3F000000], some 0), ([0x3F000000], some 0), ([0x40400000], some 0), ([0x3F800000], some 0)] := by decide

/-- Example after R337: COMPRESS of lanes 0 to 7, with p2 in lanes 1, 4 and 5; EXPAND after it. -/
def pickers : Gang :=
  let g := gang [0, 1, 2, 3, 4, 5, 6, 7] [(9, [0, 10, 20, 30, 40, 50, 60, 70]), (3, [7, 7, 7, 7, 7, 7, 7, 7])]
  { g with fibres := g.fibres.map fun x => (x.1, { x.2 with preds := if x.1 = 1 ∨ x.1 = 4 ∨ x.1 = 5 then 4 else 0 }) }

theorem test_compress : vAt (after 0x0E000C3018481000 (machine pickers)) 3 [0, 1, 2, 3, 7] = [10, 40, 50, 7, 7] := by decide

theorem test_expand : vAt (after 0x0E000C3818481000 (machine pickers)) 3 [0, 1, 4, 5, 6] = [7, 0, 10, 20, 7] := by decide

/-- Example after R390: the scans of 3, 1, 4 and 1; and REDL.FADD in lane order. -/
theorem test_scanl : [0x0E000C1828300010, 0x0E000C1828300000].map
    (fun w => vAt (after w (machine (gang [0, 1, 2, 3] [(6, [3, 1, 4, 1])]))) 5 [0, 1, 2, 3]) = [[0, 3, 4, 8], [3, 4, 8, 9]] := by
  decide

theorem test_redl : vAt (after 0x0E000C1028300008 (machine (gang [0, 1, 2] [(6, [0x3F800000, 0x4B800000, 0x3F800000])]))) 5 [0, 1, 2] =
    [0x4B800000, 0x4B800000, 0x4B800000] := by decide

/-- Example after R372: MATCH of 7, 9, 7 and 7. -/
theorem test_match : vAt (after 0x0E000C2828300000 (machine (gang [0, 1, 2, 3] [(6, [7, 9, 7, 7])]))) 5 [0, 1, 2, 3] = [13, 2, 13, 13] := by
  decide

/-- Example after R399: SLIDEUP by 1 over lanes 0, 2, 3 and 5. -/
theorem test_slideup : vAt (after 0x0E000C4028303900 (machine (gang [0, 2, 3, 5] [(6, [10, 20, 30, 40])] [(7, 1)]))) 5 [0, 2, 3, 5] =
    [0, 10, 20, 30] := by decide

/-- Example after R397: SHFL.XOR exchanges neighbours. -/
theorem test_shfl : vAt (after 0x0E000C0028300903 (machine (gang [0, 1, 2, 3] [(6, [4, 5, 6, 7])] [(1, 1)]))) 5 [0, 1, 2, 3] = [5, 4, 7, 6] := by
  decide

/-- Example after R408: the modes of VOTE over lanes 0 to 7 with the predicate in lanes 1, 2 and 6. -/
theorem test_vote : [0, 1, 2, 3, 4].map (fun m =>
    let g := gang [0, 1, 2, 3, 4, 5, 6, 7]
    let g := { g with fibres := g.fibres.map fun x => (x.1, { x.2 with preds := if x.1 = 1 ∨ x.1 = 2 ∨ x.1 = 6 then 2 else 0 }) }
    vAt (after (0x0E000C2018080000 + m) (machine g)) 3 [5]) = [[0x46], [0], [1], [0], [3]] := by decide

/-- Example after R79: with WSIZE 16 and ix0 = 3, RDX v4, v[ix0-1] reads v2; with ix0 = 0 it traps with cause 0x05. -/
def indexed (ix : Word) : Option State :=
  let g := gang [0] [(2, [42])]
  after 0x0E0002882001FFFF (machine { g with wsize := 16, fibres := tabMod g.fibres 0 fun f => { f with ix0 := ix } })

theorem test_rdx : vAt (indexed 3) 4 [0] = [42] ∧
    fibAt (indexed 0) (fun f => (f.tcause, f.tinfo, f.pc, f.retpc, f.handler)) = some (5, 0xFFFFFFFF, 0x8000, 0x10000, true) := by decide

/-- R94: BR to three words back, where bit 12 of v7 is 0. -/
theorem test_br : fibAt (after 0x0E0000083B3FFFFD (machine (gang [0] [(7, [0xFFFFEFFF])]))) (·.pc) = some 0xFFE8 ∧
    fibAt (after 0x0E0000083B3FFFFD (machine (gang [0] [(7, [0x1000])]))) (·.pc) = some 0x10008 := by decide

/-- R329, R332: CALL writes the link pair; RET to an address that is not a multiple of 8 traps with cause 0x08. -/
theorem test_call : vAt (after 0x0E00001800000005 (machine (gang [0]))) 254 [0] = [0x10008] ∧
    fibAt (after 0x0E00002000000000 (machine (gang [0] [(254, [0x8004])]))) (fun f => (f.tcause, f.taddr)) = some (8, 0x8004) := by decide

/-- R407 and its example: TRAP 42 enters the handler and returns to the next word; ERET outside a handler traps with cause 0x01. -/
theorem test_trap : fibAt (after 0x0E0000680000002A (machine (gang [0]))) (fun f => (f.tcause, f.tinfo, f.tpc, f.pc, f.retpc)) =
      some (0x13, 42, 0x10000, 0x8000, 0x10008) ∧
    fibAt (after 0x0E00007000000000 (machine (gang [0]))) (fun f => (f.tcause, f.pc)) = some (1, 0x8000) := by decide

/-- R89, R92: a word that is no instruction traps with cause 0x01, a pair word against the rules with 0x04. -/
theorem test_decode_traps : fibAt (after 0x0E001A0000000000 (machine (gang [0]))) (·.tcause) = some 1 ∧
    fibAt (after 0x9001014022040901 (machine (gang [0]))) (·.tcause) = some 4 := by decide

/-- R281, R282: with CR.TVEC = 0 the crew halts, and the fibre stays. -/
theorem test_no_handler :
    let t := after 0x0E0000680000002A (machine (gang [0]) { crew with tvec := 0 })
    (t.bind fun t => (crewOf t 5).map (·.phase)) = some .halting ∧ fibAt t (·.pc) = some 0x10000 := by decide

/-- The example after R92: `IADD v4, v5 || FMUL v8, -v9`: 3 + 4, and 2.0 × -3.0. -/
theorem test_pair :
    let t := after 0x9001014022080901 (machine (gang [0] [(4, [3]), (5, [4]), (8, [0x40000000]), (9, [0x40400000])]))
    vAt t 4 [0] = [7] ∧ vAt t 8 [0] = [0xC0C00000] := by decide

set_option maxRecDepth 4000 in
/-- Example after R353: FORK at the lowest free slot, with window base 8 (into v3: v9 lies outside a window of 8). -/
theorem test_fork :
    let g := gang [0, 1, 2, 3, 4] [(2, [8, 8, 8, 8, 8])]
    let g := { g with gw := 8, wsize := 8, fibres := g.fibres.map fun x => (x.1, { x.2 with wbase := 8 * x.1 }), pool := [(2, 8)] }
    let s := machine g
    let t := done (.fork h 3 (vr 2) 12) { s with issue := some { gang := 1280, lanes := [0], pc := placedPc } }
    vAt t 3 [0] = [5] ∧ ((t.bind fun t => fibreAt t 1280 5).map fun f => (f.pc, f.wbase)) = some (0x10060, 8) := by
  decide

/-- R47, R341: JOIN and LEAVE; ELECT names the lowest lane. -/
theorem test_masks : (((after 0x0E0000380000000B (machine (gang [0, 3]))).bind fun t => gangOf t 1280).map fun g => maskOf g 11) = some 9 ∧
    (after 0x0E00005810000000 (machine (gang [2, 3]))).bind (fun t => (fibreAt t 1280 2).map (·.preds)) = some 4 := by decide

/-- R48: WAITK holds the member; a fibre that is none goes on. -/
theorem test_waitk :
    let s := { gang [0, 1] with kmasks := [(5, 1)] }
    let t := after 0x0E00004800000005 (machine s)
    fibAt t (·.held.isSome) = some true ∧ (t.bind fun t => (fibreAt t 1280 1).map fun f => (f.pc, f.held.isSome)) = some (0x10008, false) := by
  decide

/-- R141: LD.SP.128 at an address that is not a multiple of 16 traps with 0x08, and past the allocation with 0x0C. -/
theorem test_ld_checks : [0x8, 0x10000].map (fun a =>
    fibAt (after 0x0E000E0040200060 (machine (gang [0] [(4, [a])]))) fun f => (f.tcause, f.taddr)) =
    [some (0x08, 8), some (0x0C, 0x10000)] := by decide

/-- Example after R369: LD.GL.8 issues an access, and its data lands zero-extended. -/
theorem test_ld :
    let s := machine (gang [0] [(10, [0x20000])])
    let t := done (.ld { h with setc := 0 } 4 { space := .gl, size := .b8, a := vr 10, off := 0 } .rlx)
      { s with mem := spSet 0#8 s.mem 0x20000 0xF0#8 }
    let u := t.bind (done (.loadDataReturn 11))
    (t.map fun t => t.accs.map (·.1)) = some [11] ∧ vAt u 4 [0] = [0xF0] ∧
      ((t.bind fun t => gangOf t 1280).map fun g => ctrVal 0 g 0) = some 1 ∧ ((u.bind fun t => gangOf t 1280).map fun g => ctrVal 0 g 0) = some 0 := by
  decide

/-- The figure after Table PKG-2: the flagship's dies and base tiles draw at most 13,740 W of the module's 15 kW. -/
theorem test_limits : mixLimit .s16g2m8 = 13740000 ∧ mixLimit .s16g2m8 ≤ moduleRating := by decide

/-- Table OUT-1: CXL.mem is in the capability lists, ATS is not. -/
theorem test_link : linkHas .cxlMem = true ∧ linkHas .ats = false := by decide

/-- R400, R169: a store changes scratchpad at issue, and global memory when it is applied at its home. -/
theorem test_st : (after 0x0E000E0840200051 (machine (gang [0] [(8, [0x12345678])] [(4, 0x40)]))).map
      (fun t => spadRead t (spadKey 5 0 0x40) 4) = some [0x78, 0x56, 0x34, 0x12] ∧
    (let s := machine (gang [0])
     let c := ctxOf s { gang := 1280, lanes := [0], pc := placedPc } (gang [0])
     let a := newAcc c { lane := 0, space := .gl, va := 0x20000, pa := 0x20000, size := 4, xl := none, saved := false }
       (.store [0x78, 0x56, 0x34, 0x12]) true false
     let s := { s with accs := [(11, { a with st := .pending })] }
     (done (.storeAppliedAtHome 11) s).map fun t => (memRead s 0x20000 4, memRead t 0x20000 4)) =
      some ([0, 0, 0, 0], [0x78, 0x56, 0x34, 0x12]) := by decide

/-- Examples after R183 and R321: ADD gives each lane the value before its own; compare-and-swap in lane order. -/
theorem test_rmw : rmwRun (.op .add) 32 10 [(0, 1, 0), (1, 2, 0), (3, 4, 0)] = (17, [(0, 10), (1, 11), (3, 13)]) ∧
    rmwRun .cas 32 5 [(0, 6, 5), (1, 7, 5), (2, 9, 6), (3, 1, 9)] = (1, [(0, 5), (1, 6), (2, 6), (3, 9)]) := by decide

/-- R402, R146: STF fills the granule, and LDC.CLR takes its bytes and empties it. -/
theorem test_granules :
    let s := machine (gang [0] [(8, [0xABCD])] [(4, 0x40)])
    let t := after 0x0E000E1840200051 s
    let g := spadKey 5 0 0x40 / 16
    (t.map fun t => (granOf t g, spadRead t (spadKey 5 0 0x40) 4)) = some (.full, [0xCD, 0xAB, 0, 0]) ∧
    (after 0x0E000E1040200063 { s with gran := [(g, .full)] }).map (fun t => granOf t g) = some .empty := by decide

/-- R83, R410: a privileged WRSR traps with cause 0x02 outside a service crew. -/
theorem test_wrsr : fibAt (after 0x0E00180800180240 (machine (gang [0]))) (fun f => (f.tcause, f.tinfo)) = some (2, 0x40) := by decide

/-- The example after R335: CFG.TILEID of a position: 0x165 for the shading die at position 12, revisions 2 and 1. -/
theorem test_tileid :
    let s := { base with dies := [(12, { newDie .shading 0 with dieRev := 2, baseRev := 1 })] }
    (cfgRead s 0x30000000).2 = 0x00020165 ∧ (cfgRead s 0x0C000000).2 = 0 := by decide

set_option maxRecDepth 8000 in
/-- R153: the CRC of "123456789". -/
theorem test_crc : crcOf [0x31, 0x32, 0x33, 0x34, 0x35, 0x36, 0x37, 0x38, 0x39] = 0x6C40DF5F0B497347 := by decide

/-- The example after R166: the walk of partition 3 for 0x123456789ABC. -/
def walked (k : AccessKind) : Option Nat × Option (BitVec 8) :=
  let s := cfgSet (cfgSet base 0x240 0) 0x244 1
  let s := { s with cfg := s.cfg, frames := [] }
  let s := cfgSet s (cfgAddr 0 0x2A4) 0x80000003
  let put := fun (s : State) (a : Nat) (v : Nat) => placeBytes s a (bytesOfNat 8 v)
  let s := put (put (put (put s 0x100000018 0x800000001) 0x800012340 0x800100001) 0x800100158 0x800100201) 0x800100278 0x900680017
  match translate s 1 3 false k 0x123456789ABC 0 with
  | .ok x => (some x.pa, none)
  | .error t => (none, some t.cause)

theorem test_walk : walked .read = (some 0x900689ABC, none) := by decide

theorem test_walk_fetch : walked .fetch = (none, some 0x0A) := by decide

/-- The example after R138: 2^24 + 1 + 2^-30 in one block rounds to 2^24. -/
theorem test_block_sum :
    let xs : List FV := [.fin false 1 12, .fin false 1 0, .fin false 1 (-15)]
    blockSum 0 xs xs none = 0x4B800000 := by decide

/-! ### Witnesses: the hypotheses of each statement are met

Each theorem takes a statement as a hypothesis and applies it to a state and operands written out here, so its proof shows that they
meet the statement's hypotheses together. -/

/-- The instruction ends in a next state. -/
def Runs (s : State) (i : Instr) : Prop := ∃ t, exec i s = .next t

theorem runs1 {s : State} {i : Instr} {P : State → Prop} (x : ∃ t, exec i s = .next t ∧ P t) : Runs s i :=
  let ⟨t, ht, _⟩ := x
  ⟨t, ht⟩

theorem runs2 {s : State} {i : Instr} {α : Sort _} {P : State → α → Prop} (x : ∃ t u, exec i s = .next t ∧ P t u) : Runs s i :=
  let ⟨t, _, ht, _⟩ := x
  ⟨t, ht⟩

theorem runs3 {s : State} {i : Instr} {α β : Sort _} {P : State → α → β → Prop} (x : ∃ t u v, exec i s = .next t ∧ P t u v) :
    Runs s i :=
  let ⟨t, _, _, ht, _⟩ := x
  ⟨t, ht⟩

theorem runs4 {s : State} {i : Instr} {α β γ : Sort _} {P : State → α → β → γ → Prop}
    (x : ∃ t u v w, exec i s = .next t ∧ P t u v w) : Runs s i :=
  let ⟨t, _, _, _, ht, _⟩ := x
  ⟨t, ht⟩

/-- The conditions of `Issues` that can be computed, with CR.CHKSTALL clear. -/
def issuesB (s : State) (b : Bundle) (g : Gang) (h : Hdr) (attach : Bool) : Bool :=
  decide (s.issue = some b) && decide (gangOf s b.gang = some g) && decide (b.lanes.Pairwise (· < ·)) &&
  b.lanes.all (fun l => decide (l < g.gw)) && decide (g.gw ≤ 64) && b.lanes.all (fun l => (tabFind g.fibres l).isSome) &&
  decide (guardLanes s b g h ≠ []) && waitmMet (cycOf s g.core) (replaying s b g) h.waitm &&
  (match setcOf h with
    | some n => decide (ctrVal (cycOf s g.core) (replaying s b g) n < 63)
    | none => true) &&
  (guardLanes s b g h).all (fun l => decide (firstTrap g attach l = none)) &&
  b.lanes.all fun l => match tabFind g.fibres l with
    | some fb => !fb.chk
    | none => true

theorem issues_of {s : State} {b : Bundle} {g : Gang} {h : Hdr} {attach : Bool} (hb : issuesB s b g h attach = true)
    (names : List Nat) (hn : overWindow g.wsize names = none) (reads : Nat → List RegRef) : Issues s b g h names reads attach := by
  simp only [issuesB, Bool.and_eq_true, decide_eq_true_eq, List.all_eq_true] at hb
  obtain ⟨⟨⟨⟨⟨⟨⟨⟨⟨⟨h1, h2⟩, h3⟩, h4⟩, h5⟩, h6⟩, h7⟩, h8⟩, h9⟩, h10⟩, h11⟩ := hb
  have hs : ∀ rs, ∀ l ∈ b.lanes, scoreCheck s b.gang g rs l = none := by
    intro rs l hl
    have := h11 l hl
    unfold scoreCheck
    split
    · rfl
    · rename_i fb hf; rw [hf] at this; simp only at this; rw [if_pos this]
  refine ⟨h1, h2, h3, h4, h5, h6, h7, hn, h8, ?_, h10, hs _, fun l hl => hs _ l (List.mem_filter.1 hl).1⟩
  intro n hs'
  rw [hs'] at h9
  exact of_decide_eq_true h9

/-- The address of a check that passes. -/
def okAddr (x : Except TrapInfo LaneAddr) : LaneAddr := match x with
  | .ok a => a
  | .error _ => { lane := 0, space := .gl, va := 0, pa := 0, size := 0, xl := none, saved := false }

/-- Does a check pass? -/
def passes {ε α : Type} (x : Except ε α) : Bool := match x with
  | .ok _ => true
  | .error _ => false

theorem okAddr_of {x : Except TrapInfo LaneAddr} (hx : passes x = true) : x = .ok (okAddr x) := by
  cases x with
  | ok a => rfl
  | error t => exact absurd hx (by simp [passes])

theorem reaches_of {s : State} {b : Bundle} {g : Gang} {h : Hdr} {m : Space} {k : AccessKind} {n : Nat} {va : Nat → DWord}
    (hb : ((guardLanes s b g h).all fun l => passes (checkSpace s (wordCtx s b g h) m k n (va l) l)) = true) :
    Reaches s b g h m k n va fun l => okAddr (checkSpace s (wordCtx s b g h) m k n (va l) l) :=
  fun l hl => okAddr_of (List.all_eq_true.1 hb l hl)

/-- The bytes of a lane's registers. -/
def dataOf (s : State) (g : Gang) (d : Reg) (n l : Nat) : List Byte :=
  (List.range n).map fun i => (readV s g l (d.toNat + i / 4)).extractLsb' (8 * (i % 4)) 8

theorem storeData_of (s : State) (g : Gang) (d : Reg) (n l : Nat) : StoreData s g d n l (dataOf s g d n l) := by
  refine ⟨by simp [dataOf], fun i hi => ?_⟩
  simp [dataOf, hi]

/-- A gang of two fibres: v2 small numbers, v4 scratchpad offsets, v10 global addresses, v20 a comparison value. -/
def twoG : Gang := gang [0, 1] [(2, [0, 1]), (4, [0x40, 0x80]), (10, [0x20000, 0x20080])] [(4, 0x40)]

/-- Its bundle. -/
def twoB : Bundle := { gang := 1280, lanes := [0, 1], pc := placedPc }

/-- The machine in which it issues. -/
def two : State := machine twoG

theorem two_issues {h : Hdr} (names : List Nat) (hn : overWindow 256 names = none) (reads : Nat → List RegRef)
    (hb : issuesB two twoB twoG h false = true) : Issues two twoB twoG h names reads := issues_of hb names hn reads

theorem h_issues : issuesB two twoB twoG h false = true := by decide

/-- The same for a word without guard and counter. -/
theorem plain (names : List Nat) (hn : overWindow 256 names = none) (reads : Nat → List RegRef) :
    Issues two twoB twoG h names reads := two_issues names hn reads h_issues

/-- A property of every fibre of the gang. -/
theorem fibres_of {g : Gang} {P : Fibre → Prop} (hp : ∀ x ∈ g.fibres, P x.2) (l : Nat) (fb : Fibre)
    (hf : tabFind g.fibres l = some fb) : P fb := hp (l, fb) (tabFind_mem hf)

theorem two_handles : handles two twoB twoG :=
  ⟨⟨crew, rfl, by decide⟩, fun l _ fb hf => fibres_of (P := fun f => f.handler = false) (by decide) l fb hf⟩

theorem noAcquire_of {g : Gang} (hp : ∀ x ∈ g.fibres, x.2.acqs = []) (ls : List Nat) : NoAcquire g ls :=
  fun l _ fb hf => fibres_of (P := fun f => f.acqs = []) hp l fb hf

theorem noNear_of {s : State} (ha : s.accs = []) (gk : Nat) (ls : List Nat) : NoNear s gk ls := by
  intro x hx; rw [ha] at hx; cases hx

theorem noOverlap_of {s : State} (ha : s.accs = []) (gk : Nat) (ls : List Nat) (addr : Nat → LaneAddr) :
    NoOverlap s gk ls addr := by
  intro l _ x hx; rw [ha] at hx; cases hx

theorem noQueued_of {s : State} (ha : s.accs = []) (gk : Nat) (ls : List Nat) : NoQueued s gk ls := by
  intro x hx; rw [ha] at hx; cases hx

theorem noRecall_of {s : State} (hf : s.fattr = none) (hd : s.cache.dir = []) : NoRecall s := by
  refine ⟨hf, fun line => ?_⟩
  unfold dirOf
  rw [hd]
  rfl

theorem lineFree_of {s : State} (ha : s.accs = []) (gk core : Nat) (ls : List Nat) (addr : Nat → LaneAddr) :
    LineFree s gk core ls addr := by
  intro l _ _
  unfold relPending ownWalks
  rw [ha]
  exact ⟨rfl, rfl⟩

/-- Global, scratchpad and bank operands of the two lanes. -/
def glAt : MAddr := { space := .gl, size := .b32, a := vr 10, off := 0 }
def spAt : MAddr := { space := .sp, size := .b32, a := vr 4, off := 0 }
def cbAt : MAddr := { space := .cb, size := .b32, a := vr 4, off := 0 }

theorem witness_IntegerWords (o : Obligations.IntegerWords) :
    Runs two (.iadd h (vr 5) (vr 6) (vr 7)) ∧ Runs two (.iaddi h (vr 5) (vr 6) 1) ∧ Runs two (.movi h (sr 5) 1) ∧
    Runs two (.imad h (vr 5) (vr 6) (vr 7)) ∧ Runs two (.bfi h (vr 5) (vr 6) (vr 7)) ∧ Runs two (.iadd64 h (vr 6) (vr 8) (vr 10)) :=
  ⟨runs1 (o.1.1 two twoB twoG h (vr 5) (vr 6) (vr 7) (plain _ (by decide) _)),
   runs1 (o.2.1.1 1 two twoB twoG h (vr 5) (vr 6) (plain _ (by decide) _)),
   runs1 (o.2.1.2.2.2.2.2.2.2.2.2.2.2 two twoB twoG h (sr 5) 1 (plain _ (by decide) _)),
   runs1 (o.1.2.2.2.2.2.1 two twoB twoG h (vr 5) (vr 6) (vr 7) (plain _ (by decide) _)),
   (let ⟨_, x, _⟩ := o.2.2.1.2.2.2.2.2.2.2
    runs1 (x two twoB twoG h (vr 5) (vr 6) (vr 7) (plain _ (by decide) _))),
   runs1 (o.2.2.2.1 h (vr 6) (vr 8) (vr 10) two twoB twoG (plain _ (by decide) _))⟩

theorem witness_PredicateWords (o : Obligations.PredicateWords) :
    Runs two (.iset h .lt true (.reg (vr 5)) (vr 6) (vr 7)) ∧ Runs two (.sel h (vr 5) (vr 6) (vr 7) 3 true) ∧
    Runs two (.plop h 1 2 3 6) ∧ Runs two (.rdx h 5 1 255) ∧ Runs two (.wrx h 1 (vr 6) 255) :=
  ⟨(let ⟨_, _, x, _⟩ := o.1.1
    runs1 (x h .lt true (vr 5) (vr 6) (vr 7) rfl two twoB twoG (plain _ (by decide) _))),
   runs1 (o.1.2.1 h (vr 5) (vr 6) (vr 7) 3 true two twoB twoG (plain _ (by decide) _)),
   runs1 (o.1.2.2.1 h 1 2 3 6 two twoB twoG (plain _ (by decide) _)),
   runs1 (o.2.2.1 h 5 1 255 two twoB twoG (plain _ (by decide) _) (by decide)),
   runs2 (o.2.2.2 h 1 (vr 6) 255 two twoB twoG (plain _ (by decide) _) (by decide))⟩

theorem witness_FloatWords (o : Obligations.FloatWords) (m : FMod) (p : PMod) :
    Runs two (.fadd h m (vr 5) (vr 6) (vr 7)) ∧ Runs two (.hadd2 h p (vr 5) (vr 6) (vr 7)) ∧
    Runs two (.cvt h .s64 .un64 .rd true 8 6) ∧ Runs two (.pack h .e4m3b8 true true 5 6 7) ∧ Runs two (.fsin h true (vr 5) (sr 63)) :=
  ⟨runs1 ((o.1.1 h m (vr 5) (vr 6) (vr 7)).1 two twoB twoG (plain _ (by decide) _)),
   runs1 ((o.2.1.1 h p (vr 5) (vr 6) (vr 7)).1 two twoB twoG (plain _ (by decide) _)),
   runs1 (o.2.2.1 h .s64 .un64 .rd true 8 6 two twoB twoG (plain _ (by decide) _)),
   runs1 (o.2.2.2.1 h .e4m3b8 true true 5 6 7 two twoB twoG (plain _ (by decide) _)),
   runs1 ((o.2.2.2.2 h true (vr 5) (sr 63)).2.2.2.2.2.1 two twoB twoG (plain _ (by decide) _))⟩

theorem witness_LaneWords (o : Obligations.LaneWords) :
    Runs two (.shfl h .xor 5 6 (vr 2)) ∧ Runs two (.slidedn h 5 6 (sr 4)) ∧ Runs two (.redl h .add (vr 5) 6) ∧
    Runs two (.vote h .mask true (vr 5) 15) :=
  ⟨runs1 (o.1.1 h .xor 5 6 (vr 2) two twoB twoG (plain _ (by decide) _)),
   runs1 ((o.1.2.2.2 h 5 6 (sr 4)).2 two twoB twoG (plain _ (by decide) _)),
   runs1 (o.2.1 h .add (vr 5) 6 two twoB twoG (plain _ (by decide) _)),
   (let ⟨_, x, _⟩ := o.2.2.2.1 h .mask true (vr 5) 15
    runs1 (x two twoB twoG (plain _ (by decide) _)))⟩

/-- A branch on bit 31 of v2. -/
def onBit : BForm := { greg := 2, gbit := 31, gsense := true, gen := true, off := 0x80000 }

theorem witness_BranchWords (o : Obligations.BranchWords) :
    Runs two (.nop h) ∧ Runs two (.br h onBit) ∧ Runs two (.call h onBit) ∧ Runs two (.brx h (vr 10)) ∧ Runs two (.brx h (vr 2)) :=
  ⟨runs1 ((o.1 two twoB twoG h).1 (plain _ (by decide) _)).1,
   runs1 (((o.1 two twoB twoG h).2 onBit (fun l => if onBit.gen = false ∨
      ((readV two twoG l onBit.greg.toNat).getLsbD onBit.gbit.toNat ^^ onBit.gsense) = true
      then .goto (BitVec.ofInt 64 (twoB.pc.toInt + 8 * onBit.off.toInt)) else .next) (fun _ hl => if_pos hl) (fun _ hl => if_neg hl)).1
      (plain _ (by decide) _)),
   runs2 (((o.1 two twoB twoG h).2 onBit (fun l => if onBit.gen = false ∨
      ((readV two twoG l onBit.greg.toNat).getLsbD onBit.gbit.toNat ^^ onBit.gsense) = true
      then .goto (BitVec.ofInt 64 (twoB.pc.toInt + 8 * onBit.off.toInt)) else .next) (fun _ hl => if_pos hl) (fun _ hl => if_neg hl)).2
      (plain _ (by decide) _)),
   runs1 ((o.2 two twoB twoG h (.brx h (vr 10)) _ _ (fun l => rd64 two (wordCtx two twoB twoG h) l (vr 10))
      (.inr ⟨vr 10, rfl, rfl, rfl, fun _ => rfl⟩) (plain _ (by decide) _)).1 (by decide)),
   runs1 ((o.2 two twoB twoG h (.brx h (vr 2)) _ _ (fun l => rd64 two (wordCtx two twoB twoG h) l (vr 2))
      (.inr ⟨vr 2, rfl, rfl, rfl, fun _ => rfl⟩) (plain _ (by decide) _)).2 ⟨1, by decide, by decide⟩ two_handles)⟩

/-- Two fibres in their handler, and a crew with a breakpoint armed. -/
def caughtG : Gang := { twoG with fibres := twoG.fibres.map fun x => (x.1, { x.2 with handler := true, retpc := 0x10008 }) }
def caught : State := machine caughtG { crew with armed := true }

theorem caught_issues (reads : Nat → List RegRef) : Issues caught twoB caughtG h [] reads :=
  issues_of (by decide) _ (by decide) _

theorem witness_TrapWords (o : Obligations.TrapWords) : Runs two (.trap h 42) ∧ Runs two (.bkpt h 7) ∧ Runs two (.eret h) ∧
    Runs caught (.eret h) ∧ Runs caught (.bkpt h 7) ∧
    ∃ c', crewOf (takeTrap caught 1280 1 0 0 { cause := 0x13, addr := 0, info := 0, next := true }) 5 = some c' :=
  ⟨runs1 (((o.1 two twoB twoG h (plain _ (by decide) _)).1 two_handles).1 42),
   runs1 (((o.1 two twoB twoG h (plain _ (by decide) _)).1 two_handles).2.1 7 (fun c hc => by
      obtain rfl : crew = c := Option.some.inj hc; rfl)),
   runs1 ((o.1 two twoB twoG h (plain _ (by decide) _)).1 two_handles).2.2,
   runs3 ((o.1 caught twoB caughtG h (caught_issues _)).2.1 fun l _ fb hf =>
      fibres_of (P := fun f => f.handler = true) (by decide) l fb hf),
   runs2 ((o.1 caught twoB caughtG h (caught_issues _)).2.2 7 { crew with armed := true } rfl rfl rfl rfl),
   ⟨_, (o.2 caught 1280 1 caughtG { crew with armed := true } _ 0 0
      { cause := 0x13, addr := 0, info := 0, next := true } rfl rfl rfl rfl rfl (.inl rfl)).2.2⟩⟩

/-- v6 holds a window base that lies outside the pool. -/
def farG : Gang := gang [0] [(6, [0xFFFFFFFF])]
def far : State := machine farG
def farB : Bundle := { gang := 1280, lanes := [0], pc := placedPc }

theorem far_issues (names : List Nat) (hn : overWindow 256 names = none) (reads : Nat → List RegRef) : Issues far farB farG h names reads :=
  issues_of (by decide) _ hn _

theorem far_handles : handles far farB farG :=
  ⟨⟨crew, rfl, by decide⟩, fun l _ fb hf => fibres_of (P := fun f => f.handler = false) (by decide) l fb hf⟩

theorem witness_FibreWords (o : Obligations.FibreWords) :
    Runs two (.fork h 5 (vr 6) 12) ∧ Runs far (.fork h 5 (vr 6) 0x1FFFF) ∧ Runs two (.endFibre h) :=
  ⟨runs4 ((o.1 two twoB twoG h 5 (vr 6) 12 (plain _ (by decide) _)).1 (by decide)),
   runs1 ((o.1 far farB farG h 5 (vr 6) 0x1FFFF (far_issues _ (by decide) _)).2 (by decide) far_handles),
   runs1 (o.2 two twoB twoG h (plain _ (by decide) _))⟩

theorem witness_MaskWords (o : Obligations.MaskWords) : Runs two (.joinMask h 11) ∧ Runs two (.waitk h 11) ∧
    Runs two (.elect h 15) ∧ Runs two (.kmovToMask h true 4 11) :=
  ⟨runs3 ((o.1 two twoB twoG h (plain _ (by decide) _)).1 11).1,
   runs1 ((o.1 two twoB twoG h (plain _ (by decide) _)).1 11).2.2.1,
   runs1 ((o.1 two twoB twoG h (plain _ (by decide) _)).2 15),
   runs3 (o.2 two twoB twoG h true 4 11 (plain _ (by decide) _) (by decide))⟩

/-- A slot of a pair word, in every lane. -/
def slot (op : PairOp) (d a : Reg) : Slot := { op, d, a, ge := false, gp := 0, gs := false, neg := false, abs := false }

theorem witness_PairWords (o : Obligations.PairWords) : Runs two (.pairWord 0 (slot .iadd 4 5) (slot .fmul 8 9)) :=
  runs1 (o.1 two twoB twoG 0 (slot .iadd 4 5) (slot .fmul 8 9) (issues_of (by decide) _ (by decide) _) (by decide))

theorem witness_AddressChecks (o : Obligations.AddressChecks) :
    let c := wordCtx two twoB twoG h
    checkSpace two c .sp .read 16 0xFFF8 0 = .error { cause := 0x08, addr := 0xFFF8, info := 0, next := false } ∧
    checkSpace two c .sp .read 16 0x10000 0 = .error { cause := 0x0C, addr := 0x10000, info := 0, next := false } ∧
    (∃ a, checkSpace two c .sp .read 16 0xFFF0 0 = .ok a) ∧
    checkSpace two c .cb .read 4 0x800 0 = .error { cause := 0x0D, addr := 0x800, info := 0, next := false } ∧
    (∃ a, checkSpace two c .cb .read 4 0x7FC 0 = .ok a) ∧
    checkSpace two c .rs .read 4 0xFFFFFFFC 0 = .error { cause := 0x0C, addr := 0xFFFFFFFC, info := 0, next := false } ∧
    (∃ a, checkSpace two c .rs .read 4 0x8000000 0 = .ok a) ∧
    checkSpace two c .gl .read 4 0x800000000000 0 = .error { cause := 0x09, addr := 0x800000000000, info := 3, next := false } := by
  have x := fun n va => o.2 two (wordCtx two twoB twoG h) .read n va 0
  exact ⟨(x 16 0xFFF8).1 .sp (by decide), ((x 16 0x10000).2 (by decide)).1 (by decide),
    (let ⟨a, ha, _⟩ := ((x 16 0xFFF0).2 (by decide)).2.1 (by decide); ⟨a, ha⟩),
    ((x 4 0x800).2 (by decide)).2.2.1 (by decide),
    (let ⟨a, ha, _⟩ := ((x 4 0x7FC).2 (by decide)).2.2.2.2.1 (by decide) (by decide); ⟨a, ha⟩),
    ((x 4 0xFFFFFFFC).2 (by decide)).2.2.2.2.2.1 (by decide),
    (let ⟨a, ha, _⟩ := ((x 4 0x8000000).2 (by decide)).2.2.2.2.2.2.1 (spadKey 5 0 0) false (by decide); ⟨a, ha⟩),
    ((x 4 0x800000000000).2 (by decide)).2.2.2.2.2.2.2 (by decide)⟩

/-- The tables of the example after R166, for partition 3. -/
def walkS : State :=
  let s := cfgSet (cfgSet (cfgSet base 0x240 0) 0x244 1) (cfgAddr 0 0x2A4) 0x80000003
  let put := fun (s : State) (a : Nat) (v : Nat) => placeBytes s a (bytesOfNat 8 v)
  put (put (put (put s 0x100000018 0x800000001) 0x800012340 0x800100001) 0x800100158 0x800100201) 0x800100278 0x900680017

/-- A table entry that a walk reads. -/
def entryIs (s : State) (a : Nat) (v : DWord) : Bool := match readEntry s a with
  | .ok e => decide (e = v)
  | .error _ => false

theorem entry_of {s : State} {a : Nat} {v : DWord} (hb : entryIs s a v = true) : readEntry s a = .ok v := by
  unfold entryIs at hb
  split at hb
  · rename_i e he; rw [he, of_decide_eq_true hb]
  · cases hb

theorem witness_TranslationRule (o : Obligations.TranslationRule) :
    (∃ x, translate base 1 0 false .read 0x12345678 0 = .ok x) ∧
    (∃ x, translate walkS 1 3 false .read 0x123456789ABC 0 = .ok x) ∧
    (∃ t, translate walkS 1 3 false .fetch 0x123456789ABC 0 = .error t) ∧
    ∃ t, translate walkS 1 3 false .read 0x7FFFFFFFFFFF 0 = .error t := by
  refine ⟨?_, ?_, ?_, ?_⟩
  · have a := (o base 1 0 false .read 0x12345678 0 (by decide) (by decide) 0x2001 (entry_of (by decide))).2 (by decide) (by decide) 0xF
      (entry_of (by decide))
    exact ⟨_, ((((a.2.1 (by decide) (by decide)).2 (by decide)).2 (by decide)).2.2 (by decide) (by decide))⟩
  · have a := (o walkS 1 3 false .read 0x123456789ABC 0 (by decide) (by decide) 0x800000001 (entry_of (by decide))).2 (by decide)
      (by decide) 0x800100001 (entry_of (by decide))
    have b := (a.2.2 (by decide) (by decide) 0x800100201 (entry_of (by decide))).2.2 (by decide) (by decide) 0x900680017
      (entry_of (by decide))
    exact ⟨_, (((b.2 (by decide) (by decide)).2 (by decide)).2 (by decide)).2.2 (by decide) (by decide)⟩
  · have a := (o walkS 1 3 false .fetch 0x123456789ABC 0 (by decide) (by decide) 0x800000001 (entry_of (by decide))).2 (by decide)
      (by decide) 0x800100001 (entry_of (by decide))
    have b := (a.2.2 (by decide) (by decide) 0x800100201 (entry_of (by decide))).2.2 (by decide) (by decide) 0x900680017
      (entry_of (by decide))
    exact ⟨_, (((b.2 (by decide) (by decide)).2 (by decide)).2 (by decide)).1 (by decide)⟩
  · have a := (o walkS 1 3 false .read 0x7FFFFFFFFFFF 0 (by decide) (by decide) 0x800000001 (entry_of (by decide))).2 (by decide)
      (by decide) 0 (entry_of (by decide))
    exact ⟨_, a.1 (by decide)⟩

theorem witness_LoadWords (o : Obligations.LoadWords) :
    Runs two (.ld h 5 glAt .acq) ∧ Runs two (.ld h 5 cbAt .ar) ∧ Runs two (.ldt h 5 (sr 4) true false) :=
  ⟨runs3 ((o two twoB twoG h _ (noAcquire_of (by decide) _)).1 5 glAt .acq (plain _ (by decide) _) (by decide) (fun x => nomatch x)
      (fun _ => noRecall_of rfl rfl) (reaches_of (by decide))),
   runs3 ((o two twoB twoG h _ (noAcquire_of (by decide) _)).1 5 cbAt .ar (plain _ (by decide) _) (by decide)
      (fun _ => noNear_of rfl _ _) (fun x => nomatch x) (reaches_of (by decide))),
   runs2 ((o two twoB twoG h _ (noAcquire_of (by decide) _)).2 5 (sr 4) true false (plain _ (by decide) _)
      (fun l hl => okAddr_of (List.all_eq_true.1 (show ((guardLanes two twoB twoG h).all fun l =>
        passes (lineReq two (wordCtx two twoB twoG h) (sr 4) true false l)) = true by decide) l hl)))⟩

/-- The lanes' granules are FULL. -/
def fullS : State := { two with gran := [(spadKey 5 0 0x40 / 16, .full), (spadKey 5 0 0x80 / 16, .full)] }

theorem full_issues (names : List Nat) (hn : overWindow 256 names = none) (reads : Nat → List RegRef) :
    Issues fullS twoB twoG h names reads := issues_of (by decide) _ hn _

theorem witness_CheckedLoadWord (o : Obligations.CheckedLoadWord) : Runs fullS (.ldc h 8 spAt true) ∧ Runs two (.ldc h 8 spAt false) :=
  ⟨runs2 ((o fullS twoB twoG h _ 8 spAt true (noAcquire_of (by decide) _) (noOverlap_of rfl _ _ _) rfl (full_issues _ (by decide) _)
      (reaches_of (by decide)) (by decide) (by decide)).1 (by decide)),
   runs2 ((o two twoB twoG h _ 8 spAt false (noAcquire_of (by decide) _) (noOverlap_of rfl _ _ _) rfl (plain _ (by decide) _)
      (reaches_of (by decide)) (by decide) (by decide)).2 (by decide))⟩

theorem witness_StoreWords (o : Obligations.StoreWords) :
    Runs two (.st h 5 spAt .rlx) ∧ Runs two (.st h 5 cbAt .rlx) ∧ Runs two (.st h 5 glAt .rel) ∧ Runs two (.stf h 5 spAt .rlx) :=
  ⟨runs2 (((o two twoB twoG h _ _ 5 spAt (noAcquire_of (by decide) _) (noOverlap_of rfl _ _ _) (noQueued_of rfl _ _)
      (fun l _ => storeData_of two twoG 5 4 l)).1 (plain _ (by decide) _) (reaches_of (by decide))).1 (.inl rfl)),
   runs2 (((o two twoB twoG h _ _ 5 cbAt (noAcquire_of (by decide) _) (noOverlap_of rfl _ _ _) (noQueued_of rfl _ _)
      (fun l _ => storeData_of two twoG 5 4 l)).1 (plain _ (by decide) _) (reaches_of (by decide))).2.1 rfl (by decide) (by decide)),
   runs3 (((o two twoB twoG h _ _ 5 glAt (noAcquire_of (by decide) _) (noOverlap_of rfl _ _ _) (noQueued_of rfl _ _)
      (fun l _ => storeData_of two twoG 5 4 l)).1 (plain _ (by decide) _) (reaches_of (by decide))).2.2 true (.inl ⟨rfl, noRecall_of rfl rfl, fun x => nomatch x⟩)
      (fun _ => noNear_of rfl _ _)),
   runs2 ((o two twoB twoG h _ _ 5 spAt (noAcquire_of (by decide) _) (noOverlap_of rfl _ _ _) (noQueued_of rfl _ _)
      (fun l _ => storeData_of two twoG 5 4 l)).2 (plain _ (by decide) _) (reaches_of (by decide)) rfl (fun x => nomatch x) (by decide))⟩

theorem witness_LineStoreWords (o : Obligations.LineStoreWords) : Runs two (.stt h 5 (sr 4) true false) :=
  runs2 (o.1 two twoB twoG h _ _ 5 (sr 4) true false (noAcquire_of (by decide) _) (noOverlap_of rfl _ _ _) (noQueued_of rfl _ _)
    (fun l _ => storeData_of two twoG 5 4 l) (plain _ (by decide) _)
    (fun l hl => okAddr_of (List.all_eq_true.1 (show ((guardLanes two twoB twoG h).all fun l =>
      passes (lineReq two (wordCtx two twoB twoG h) (sr 4) true false l)) = true by decide) l hl)) (fun x => nomatch x))

theorem witness_AtomicWords (o : Obligations.AtomicWords) :
    Runs two (.atom h .umax 6 (vr 10) .gl true .ar) ∧ Runs two (.red h .fadd 6 (vr 10) .gl false .rlx) ∧
    Runs two (.atomcas h 6 (vr 10) (vr 8) .gl false .acq) ∧ Runs two (.red h .add 6 (vr 4) .sp false .rlx) ∧
    Runs two (.atom h .xchg 6 (vr 4) .sp true .rlx) ∧ rmwOp (.op .sub) 32 0 0xFFFFFFFF 0 = 1 :=
  ⟨runs3 (o.1 two twoB twoG h _ 6 (vr 10) true .ar (noAcquire_of (by decide) _) (fun _ => noNear_of rfl _ _) (noRecall_of rfl rfl) (reaches_of (by decide)) _ _ _
      (fun _ => 0) _ _ (.inl ⟨.umax, rfl, rfl, rfl, rfl, rfl, fun _ => rfl⟩) (plain _ (by decide) _)),
   runs3 (o.1 two twoB twoG h _ 6 (vr 10) false .rlx (noAcquire_of (by decide) _) (fun _ => noNear_of rfl _ _) (noRecall_of rfl rfl) (reaches_of (by decide)) _ _ _
      (fun _ => 0) _ _ (.inr (.inl ⟨.fadd, rfl, rfl, rfl, rfl, rfl, fun _ => rfl⟩)) (plain _ (by decide) _)),
   runs3 (o.1 two twoB twoG h _ 6 (vr 10) false .acq (noAcquire_of (by decide) _) (fun _ => noNear_of rfl _ _) (noRecall_of rfl rfl) (reaches_of (by decide)) _ _ _
      (fun l => (rd two (wordCtx two twoB twoG h) l (vr 8)).toNat) _ _ (.inr (.inr ⟨vr 8, rfl, rfl, rfl, rfl, rfl, fun _ => rfl⟩))
      (plain _ (by decide) _)),
   runs2 (o.2.2 two twoB twoG h _ .add 6 (vr 4) false (noAcquire_of (by decide) _) (noOverlap_of rfl _ _ _) (noQueued_of rfl _ _)
      (reaches_of (by decide)) (plain _ (by decide) _)).1,
   runs2 (o.2.2 two twoB twoG h _ .xchg 6 (vr 4) true (noAcquire_of (by decide) _) (noOverlap_of rfl _ _ _) (noQueued_of rfl _ _)
      (reaches_of (by decide)) (plain _ (by decide) _)).2,
   (by
     have x := (o.2.1.2 32 0 0xFFFFFFFF (by decide) (by decide) (by decide)).2.1
     decide)⟩

/-- A fate for each lane. -/
theorem some_fate {α : Sort _} {D : Nat → Prop} {x y : Nat → α} {P : (Nat → α) → Prop}
    (hp : ∀ f, (∀ l, D l → f l = x l) → (∀ l, ¬ D l → f l = y l) → P f) : ∃ f, P f := by
  classical
  exact ⟨fun l => if D l then x l else y l, hp _ (fun _ hl => if_pos hl) (fun _ hl => if_neg hl)⟩

theorem witness_MonitorWord (o : Obligations.MonitorWord) :
    Runs two (.mwait h false 5 (vr 10) (vr 6)) ∧ Runs two (.mwait h true 6 (vr 10) (sr 4)) := by
  constructor
  · obtain ⟨f, r⟩ := some_fate (o two twoB twoG h _ 5 (vr 10) (vr 6) false (noAcquire_of (by decide) _) (noOverlap_of rfl _ _ _)
      (plain _ (by decide) _) (reaches_of (by decide)) (noRecall_of rfl rfl) (lineFree_of rfl _ _ _ _) (by decide))
    exact runs4 r
  · obtain ⟨f, r⟩ := some_fate (o two twoB twoG h _ 6 (vr 10) (sr 4) true (noAcquire_of (by decide) _) (noOverlap_of rfl _ _ _)
      (plain _ (by decide) _) (reaches_of (by decide)) (noRecall_of rfl rfl) (lineFree_of rfl _ _ _ _) (by decide))
    exact runs4 r

theorem witness_FenceWords (o : Obligations.FenceWords) : Runs two (.fence h .sys) ∧ Runs two (.pref h true (vr 10) 0x7FF) :=
  ⟨runs2 ((o two twoB twoG h).1 .sys (plain _ (by decide) _) (noNear_of rfl _ _)),
   runs3 ((o two twoB twoG h).2 true (vr 10) 0x7FF (plain _ (by decide) _) (noRecall_of rfl rfl))⟩

/-- v4 is misaligned in lane 1, and v10 beyond the address space. -/
def badG : Gang := gang [0, 1] [(4, [0x40, 0x41]), (11, [0, 0x8000])]
def bad : State := machine badG

theorem bad_issues (names : List Nat) (hn : overWindow 256 names = none) (reads : Nat → List RegRef) : Issues bad twoB badG h names reads :=
  issues_of (by decide) _ hn _

theorem bad_handles : handles bad twoB badG :=
  ⟨⟨crew, rfl, by decide⟩, fun l _ fb hf => fibres_of (P := fun f => f.handler = false) (by decide) l fb hf⟩

theorem witness_AccessTraps (o : Obligations.AccessTraps) :
    Runs bad (.ld h 5 spAt .rlx) ∧ Runs bad (.st h 5 spAt .rlx) ∧ Runs bad (.atom h .add 5 (vr 10) .gl false .rlx) :=
  ⟨runs1 (((o bad twoB badG h 5 _ (noAcquire_of (by decide) _) bad_handles (noRecall_of rfl rfl)).1 spAt (by decide)).1 (bad_issues _ (by decide) _)
      ⟨fun _ => rfl, 1, by decide, by decide⟩),
   runs1 (((o bad twoB badG h 5 _ (noAcquire_of (by decide) _) bad_handles (noRecall_of rfl rfl)).1 spAt (by decide)).2 (bad_issues _ (by decide) _)
      ⟨fun _ => rfl, 1, by decide, by decide⟩ (fun _ _ _ _ => ⟨noOverlap_of rfl _ _ _, lineFree_of rfl _ _ _ _⟩)),
   runs1 ((o bad twoB badG h 5 _ (noAcquire_of (by decide) _) bad_handles (noRecall_of rfl rfl)).2 .add (vr 10) false (bad_issues _ (by decide) _)
      ⟨fun _ => rfl, 1, by decide, by decide⟩).1⟩

/-! #### Barriers, copies, descriptors, engines -/

/-- A machine of one fibre, whose crew is `c`, with v12 an RS address of its own scratchpad and v13 a pair's upper half. -/
def oneG : Gang := gang [0] [(12, [0x8000000])]
def oneB : Bundle := { gang := 1280, lanes := [0], pc := placedPc }
def one (c : Crew := crew) : State := machine oneG c

theorem one_issues {c : Crew} (hb : issuesB (one c) oneB oneG h false = true) (names : List Nat) (hn : overWindow 256 names = none)
    (reads : Nat → List RegRef) : Issues (one c) oneB oneG h names reads := issues_of hb _ hn _

theorem one_handles {c : Crew} (hc : crewOf (one c) 5 = some c) (ht : c.tvec ≠ 0) : handles (one c) oneB oneG :=
  ⟨⟨c, hc, ht⟩, fun l _ fb hf => fibres_of (P := fun f => f.handler = false) (by decide) l fb hf⟩

/-- A crew with a member-counted barrier 0 without members, and barrier 1 in error. -/
def odd : Crew := { crew with bars := [{ barrier 0 with member := true }, { barrier 1 with err := 2 }] }

theorem witness_ArrivalWords (o : Obligations.ArrivalWords) : Runs (one) (.bararv h (.plain (vr 5) (vr 0)) 1) ∧
    Runs (one odd) (.bararv h (.plain (vr 5) (vr 0)) 0) ∧ Runs (one) (.bararv h (.x (vr 5) (vr 12)) 1) ∧ Runs (one) (.bararv h (.r (vr 12)) 1) :=
  ⟨runs2 (((o one oneB oneG h 1 (noNear_of rfl _ _)).1 (vr 5) (vr 0) (barrier 2) (one_issues (by decide) _ (by decide) _) rfl).1
      (fun x => nomatch x)),
   runs2 (((o (one odd) oneB oneG h 0 (noNear_of rfl _ _)).1 (vr 5) (vr 0) { barrier 0 with member := true }
      (one_issues (by decide) _ (by decide) _) rfl).2 (fun x => let ⟨_, hm, _⟩ := x rfl; nomatch hm) (one_handles rfl (by decide))),
   runs2 ((o one oneB oneG h 1 (noNear_of rfl _ _)).2.1 (vr 5) (vr 12) (barrier 2) (one_issues (by decide) _ (by decide) _) rfl
      (fun x => nomatch x)),
   runs2 ((o one oneB oneG h 1 (noNear_of rfl _ _)).2.2 (vr 12) (spadKey 5 0 0) false (barrier 2) (one_issues (by decide) _ (by decide) _)
      (by decide) rfl rfl)⟩

theorem witness_BarrierWords (o : Obligations.BarrierWords) : Runs one (.barinit h (vr 6) true 1) ∧ Runs one (.barinit h (vr 6) false 2) ∧
    Runs one (.barwait h (vr 6) 1) ∧ Runs one (.bartst h 15 (vr 6) 1) ∧ Runs (one odd) (.barwait h (vr 6) 1) := by
  refine ⟨?_, ?_, ?_, ?_, ?_⟩
  · exact runs2 ((o.1 one oneB oneG h (vr 6) true 1 crew (one_issues (by decide) _ (by decide) _) rfl).1 (by decide) rfl)
  · exact runs2 ((o.1 one oneB oneG h (vr 6) false 2 crew (one_issues (by decide) _ (by decide) _) rfl).2 (by decide)
      (one_handles rfl (by decide)))
  · obtain ⟨f, r⟩ := some_fate ((o.2 one oneB oneG h (vr 6) 1 (barrier 2) (one_issues (by decide) _ (by decide) _) rfl).1 (.inl rfl)).1
    exact runs2 r
  · obtain ⟨f, r⟩ := some_fate (((o.2 one oneB oneG h (vr 6) 1 (barrier 2) (one_issues (by decide) _ (by decide) _) rfl).1
      (.inl rfl)).2 15)
    exact runs1 r
  · obtain ⟨ti, _, _, _, x⟩ := (o.2 (one odd) oneB oneG h (vr 6) 1 { barrier 1 with err := 2 } (one_issues (by decide) _ (by decide) _)
      rfl).2 (by decide) ⟨0, by decide, by decide⟩ (one_handles rfl (by decide))
    obtain ⟨f, r⟩ := some_fate x
    exact runs1 r.1

/-- An attaching gang of an elastic crew, and a gang that is held at its DETACH. -/
def elastic : Crew := { crew with gangMax := 2 }
def freshG : Gang := { oneG with attaching := true, begun := false }
def fresh : State := machine freshG elastic
def leaveG : Gang :=
  { oneG with fibres := oneG.fibres.map fun x => (x.1, { x.2 with held := some { why := .detach, stall := 0, gid := 3, seq := 3 } }) }
def leaving : State := { machine leaveG with issue := none }

theorem witness_MembershipWords (o : Obligations.MembershipWords) :
    Runs fresh (.attach h (vr 5)) ∧ Runs one (.attach h (vr 5)) ∧ Runs one (.detach h) ∧ Runs leaving (.detachCompletion 1280) :=
  ⟨runs1 (((o fresh oneB freshG h (vr 5)).1 (issues_of (by decide) _ (by decide) _)).1 ⟨⟨elastic, rfl, by decide⟩, rfl, rfl⟩),
   runs1 (((o one oneB oneG h (vr 5)).1 (issues_of (by decide) _ (by decide) _)).2 (fun x => nomatch x.2.1)
      (one_handles rfl (by decide))),
   runs1 ((o one oneB oneG h (vr 5)).2.1 (one_issues (by decide) _ (by decide) _)),
   runs1 ((o leaving oneB leaveG h (vr 5)).2.2 ⟨0, _, _, rfl, rfl, rfl⟩ rfl (by decide) (by decide))⟩

/-- A ROW handle of 8 × 8 FP32 elements at 0x50000, whose box is one granule, and its descriptor. -/
def descBytes : List Byte :=
  bytesOfNat 8 0x50000 ++ bytesOfNat 8 0 ++ bytesOfNat 4 8 ++ bytesOfNat 4 8 ++ bytesOfNat 4 1 ++ bytesOfNat 4 1 ++ bytesOfNat 4 1 ++
    [3, 0, 0, 0, 0, 5, 0, 0, 0, 0, 0, 0] ++ bytesOfNat 8 0x60000 ++ bytesOfNat 8 0

def desc : Desc :=
  { base := 0x50000, newBase := 0, dims := [8, 8, 1, 1, 1], box := [3, 0, 0, 0, 0], fmt := 5, tag := 0, newTag := 0, tile := 0,
    state := 0, flags := 0, errCause := 0, bmap := 0x60000, cbook := 0 }

/-- The translation of the descriptor's address. -/
def descXl : Xl := { pa := 0x40000, page := 0, size := 0x80000000, leaf := 0xF, svc := false }

/-- A fibre with handle 0, coordinates from v20 on, v40 a byte count, v44 a global address, v50 a coordinate of 8. -/
def tensG : Gang := gang [0] [(40, [32]), (44, [0x20000]), (50, [8])]
def tens : State := placeBytes (machine tensG) 0x40000 descBytes

theorem tens_issues (names : List Nat) (hn : overWindow 256 names = none) (reads : Nat → List RegRef) :
    Issues tens oneB tensG h names reads := issues_of (by decide) _ hn _

/-- A check gives a value. -/
def gives {α : Type} [DecidableEq α] (x : Except TrapInfo α) (v : α) : Bool := match x with
  | .ok y => decide (y = v)
  | .error _ => false

theorem gives_of {α : Type} [DecidableEq α] {x : Except TrapInfo α} {v : α} (hb : gives x v = true) : x = .ok v := by
  unfold gives at hb
  split at hb
  · rename_i y hy; rw [of_decide_eq_true hb]
  · cases hb

set_option maxRecDepth 16000 in
theorem witness_CopyWord (o : Obligations.CopyWord) : Runs tens (.copy h .plain (vr 4) (vr 6) 20 1) :=
  runs1 (o tens oneB tensG h .plain (vr 4) (vr 6) 20 1 (tens_issues _ (by decide) _) (noAcquire_of (by decide) _)
    (fun x => nomatch x) (fun x => nomatch x) (noRecall_of rfl rfl) (by decide) (fun p hp => nomatch hp) (by decide) _
    ⟨_, ⟨desc, 0x40000, descXl, none, [(spadKey 5 0 0, none)], gives_of (by decide), by decide, by decide, rfl⟩, rfl⟩)

set_option maxRecDepth 16000 in
theorem witness_CopyOutWords (o : Obligations.CopyOutWords) : Runs tens (.copyw h .rel (vr 4) (vr 6) (vr 20) 1) ∧
    Runs tens (.copyw h .glb (vr 4) (vr 44) (vr 40) 1) ∧ Runs tens (.copyb h (vr 4) (vr 44) (vr 40) true false false 1) ∧
    Runs tens (.copyb h (vr 4) (vr 6) (vr 40) false true false 1) :=
  ⟨runs1 ((o tens oneB tensG h (vr 4) (vr 6) (vr 20) 1 true (noAcquire_of (by decide) _) (fun _ => noNear_of rfl _ _) (by decide)
      (fun p hp => nomatch hp) (by decide)).1 (tens_issues _ (by decide) _) (noRecall_of rfl rfl) _
      ⟨_, ⟨desc, 0x40000, descXl, gives_of (by decide), by decide, by decide, by decide, rfl⟩, rfl⟩),
   runs1 ((o tens oneB tensG h (vr 4) (vr 44) (vr 40) 1 false (noAcquire_of (by decide) _) (fun x => nomatch x) (by decide)
      (fun p hp => nomatch hp) (by decide)).2.1 (tens_issues _ (by decide) _) _
      ⟨_, ⟨by decide, by decide, by decide, by decide, rfl⟩, rfl⟩),
   runs1 ((o tens oneB tensG h (vr 4) (vr 44) (vr 40) 1 false (noAcquire_of (by decide) _) (fun x => nomatch x) (by decide)
      (fun p hp => nomatch hp) (by decide)).2.2 true false (by decide) (tens_issues _ (by decide) _) _
      ⟨_, ⟨by decide, by decide, by decide, by decide, by decide, by decide, rfl⟩, rfl⟩),
   runs1 ((o tens oneB tensG h (vr 4) (vr 6) (vr 40) 1 false (noAcquire_of (by decide) _) (fun x => nomatch x) (by decide)
      (fun p hp => nomatch hp) (by decide)).2.2 false true (by decide) (tens_issues _ (by decide) _) _
      ⟨_, ⟨by decide, by decide, by decide, by decide, by decide, by decide, rfl⟩, rfl⟩)⟩

set_option maxRecDepth 16000 in
theorem witness_HandleChecks (o : Obligations.HandleChecks) :
    let c := wordCtx tens oneB tensG h
    handleFor tens c 0 0 .read (fun _ => true) = .ok (desc, 0x40000, descXl) ∧
    handleFor tens c 0 0 .read (fun _ => false) = .error { cause := 0x12, addr := 0, info := 0x40000, next := false } ∧
    (∃ la, elemReq tens c .read (vr 6) (vr 20) 2 0 =
      .ok { lane := 0, handle := 0, desc, daddr := 0x40000, xl := descXl, coords := [0, 0, 0, 0, 0], nib := 0, addr := la }) ∧
    elemReq tens c .read (vr 6) (vr 50) 2 0 = .error { cause := 0x12, addr := 0, info := 0x30000, next := false } := by
  have a := o.1 tens (wordCtx tens oneB tensG h) 0 0 .read (fun _ => true) desc 0x40000 descXl (by decide) (gives_of (by decide))
  have b := o.1 tens (wordCtx tens oneB tensG h) 0 0 .read (fun _ => false) desc 0x40000 descXl (by decide) (gives_of (by decide))
  have e := o.2.2.1 tens (wordCtx tens oneB tensG h) .read (vr 6) (vr 20) 2 0 desc 0x40000 descXl (gives_of (by decide))
  have f := o.2.2.1 tens (wordCtx tens oneB tensG h) .read (vr 6) (vr 50) 2 0 desc 0x40000 descXl (gives_of (by decide))
  exact ⟨a.2.2.2 (by decide) (by decide) rfl, b.2.2.1 (by decide) (by decide) rfl,
    ⟨_, e.2 (by decide) (by decide) _ (okAddr_of (by decide))⟩, f.1 0 (by decide) (by decide) (by decide)⟩

/-- The element of the handle at the origin. -/
def atOrigin (k : AccessKind) : ElemReq :=
  { lane := 0, handle := 0, desc, daddr := 0x40000, xl := descXl, coords := [0, 0, 0, 0, 0], nib := 0,
    addr := okAddr (checkGL tens 16 crew k 4 0x50000 0 3) }

set_option maxRecDepth 16000 in
theorem witness_ElementWords (o : Obligations.ElementWords) :
    Runs tens (.tld h 5 (vr 6) (vr 20) 1) ∧ Runs tens (.tst h 5 (vr 6) (vr 20) 4) ∧ Runs tens (.hstat h true (vr 5) (vr 6)) :=
  ⟨runs2 (((o tens oneB tensG h (vr 6) (noAcquire_of (by decide) _) (noRecall_of rfl rfl)).1 5 (vr 20) 1 (fun _ => atOrigin .read)).1 (tens_issues _ (by decide) _)
      (fun l hl => by
        obtain rfl : l = 0 := by simpa [oneB] using (List.mem_filter.1 hl).1
        exact gives_of (by decide))),
   runs2 (((o tens oneB tensG h (vr 6) (noAcquire_of (by decide) _) (noRecall_of rfl rfl)).1 5 (vr 20) 4 (fun _ => atOrigin .write)).2 (tens_issues _ (by decide) _)
      (fun l hl => by
        obtain rfl : l = 0 := by simpa [oneB] using (List.mem_filter.1 hl).1
        exact gives_of (by decide)) (noOverlap_of rfl _ _ _) (lineFree_of rfl _ _ _ _)),
   runs3 ((o tens oneB tensG h (vr 6) (noAcquire_of (by decide) _) (noRecall_of rfl rfl)).2 (vr 5) true
      (fun l => okAddr (checkGL tens 16 (crewD tens 1280) .read 64 ((crewD tens 1280).htab + 64 * BitVec.ofNat 64
        ((rd tens (wordCtx tens oneB tensG h) l (vr 6)).toNat % 65536)) l (xlIdx tens l)))
      (tens_issues _ (by decide) _) (fun l hl => by
        obtain rfl : l = 0 := by simpa [oneB] using (List.mem_filter.1 hl).1
        exact okAddr_of (by decide)))⟩

set_option maxRecDepth 16000 in
theorem witness_DescriptorWords (o : Obligations.DescriptorWords) :
    Runs tens (.hinv h (vr 6)) ∧ Runs tens (.cbld h (vr 44) 255) ∧ Runs { tens with poison := [0x1000] } (.cbld h (vr 44) 0) ∧
    Runs tens (.relayout h (vr 6) (vr 44) .col) := by
  refine ⟨?_, ?_, ?_, ?_⟩
  · exact runs1 ((o.1 tens oneB tensG h (vr 6)).1 (tens_issues _ (by decide) _) (noNear_of rfl _ _))
  · exact runs2 (((o.1 tens oneB tensG h (vr 44)).2 255 (okAddr (checkGL tens 16 crew .read 32 0x20000 0 (xlIdx tens 0)))
      (tens_issues _ (by decide) _) (noAcquire_of (by decide) _) (by decide) (okAddr_of (by decide)) (noOverlap_of rfl _ _ _)
      (lineFree_of rfl _ _ _ _) (by decide)).2 (by decide) (by decide) (noRecall_of rfl rfl))
  · exact runs1 (((o.1 { tens with poison := [0x1000] } oneB tensG h (vr 44)).2 0
      (okAddr (checkGL { tens with poison := [0x1000] } 16 crew .read 32 0x20000 0 (xlIdx tens 0)))
      (issues_of (by decide) _ (by decide) _) (noAcquire_of (by decide) _) (by decide) (okAddr_of (by decide)) (noOverlap_of rfl _ _ _)
      (lineFree_of rfl _ _ _ _) (by decide)).1 (by decide) ⟨⟨crew, rfl, by decide⟩, fun l _ fb hf => fibres_of (P := fun f => f.handler = false) (by decide) l fb hf⟩)
  · exact runs1 (o.2 tens oneB tensG h (vr 6) (vr 44) .col _ tensG (tens_issues _ (by decide) _) (noAcquire_of (by decide) _) (by decide)
      ⟨_, ⟨desc, 0x40000, descXl, _, gives_of (by decide), rfl, rfl, by decide, rfl, rfl⟩, rfl⟩ rfl rfl)

/-- A fresh engine takes an operation. -/
theorem room_of {s : State} {g : Gang} {t : BitVec 4}
    (hb : (engOf s (8 * g.core + g.slice)).queue.length < 16 ∧
      (16 * g.group + t.toNat ∈ (engOf s (8 * g.core + g.slice)).mapped ∨ (engOf s (8 * g.core + g.slice)).mapped.length < 16)) :
    EngineRoom s g t := hb

set_option maxRecDepth 16000 in
/-- BF16 × BF16 with 16-bit scales off. -/
theorem witness_EngineWords (o : Obligations.EngineWords) :
    Runs (machine (gang [0, 1] [(8, [0x22, 0x22])] [(4, 128)])) (.mma h 15 true 32 4 8) ∧ Runs two (.mmaz h 0) ∧
    Runs two (.qld h 40 (vr 6) 15 3) ∧ Runs two (.qst h 40 (vr 6) 15 0) ∧ Runs two (.qscr h 5 0 .bf16) :=
  ⟨runs4 (o.1 (machine (gang [0, 1] [(8, [0x22, 0x22])] [(4, 128)])) twoB (gang [0, 1] [(8, [0x22, 0x22])] [(4, 128)]) h 15 true 32 4 8
      0x22 (issues_of (by decide) _ (by decide) _) (by decide) (noAcquire_of (by decide) _) (room_of (by decide)) (by decide) (by decide)
      (by decide) (by decide) (by decide) _ (fun x hx => nomatch hx) (fun _ => rfl)),
   runs2 ((o.2 two twoB twoG h 0 (by decide) (noAcquire_of (by decide) _) (room_of (by decide))).1 (plain _ (by decide) _)),
   runs2 (((o.2 two twoB twoG h 15 (by decide) (noAcquire_of (by decide) _) (room_of (by decide))).2.1 40 (vr 6) 3 (by decide) (by decide)).1
      (plain _ (by decide) _)),
   runs2 (((o.2 two twoB twoG h 15 (by decide) (noAcquire_of (by decide) _) (room_of (by decide))).2.1 40 (vr 6) 0 (by decide) (by decide)).2
      (plain _ (by decide) _)),
   runs2 ((o.2 two twoB twoG h 0 (by decide) (noAcquire_of (by decide) _) (room_of (by decide))).2.2 5 .bf16 (plain _ (by decide) _) (by decide)
      (by decide))⟩

/-- An engine whose oldest operation is `op`. -/
def engS (op : EngOp) : State :=
  { two with engines := [(128, { (engOf two 128) with queue := [{ gang := 1280, gw := 32, lanes := [0, 1], gid := 3, seq := 3, pc := 0, op }] })] }

theorem witness_EngineRetires (o : Obligations.EngineRetires) : Runs (engS (.mmaz 20480)) (.engineOperationRetire 1 0 0) ∧
    Runs (engS (.qst 20480 0 1 [(0, [1, 2]), (1, [3, 4])])) (.engineOperationRetire 1 0 0) ∧
    Runs (engS (.qscr .bf16 20480 (spadKey 5 0 0))) (.engineOperationRetire 1 0 0) :=
  ⟨runs1 (o (engS (.mmaz 20480)) 1 0 0 _ [] twoG rfl rfl (by decide) (by decide) (by decide)),
   runs1 (o (engS (.qst 20480 0 1 [(0, [1, 2]), (1, [3, 4])])) 1 0 0 _ [] twoG rfl rfl (by decide) (by decide) (by decide)),
   runs1 (o (engS (.qscr .bf16 20480 (spadKey 5 0 0))) 1 0 0 _ [] twoG rfl rfl (by decide) (by decide) (by decide))⟩

/-! #### Rendering, special registers, configuration -/

/-- A check that passes gives some value. -/
theorem ok_of {ε α : Type} {x : Except ε α} (hx : passes x = true) : ∃ v, x = .ok v := by
  cases x with
  | ok a => exact ⟨a, rfl⟩
  | error t => exact absurd hx (by simp [passes])

/-- The lane of a bundle of one fibre. -/
theorem lane_of {s : State} {g : Gang} {h : Hdr} {l : Nat} (hl : l ∈ guardLanes s oneB g h) : l = 0 := by
  simpa [oneB] using (List.mem_filter.1 hl).1

/-- The table of `tens` with an 8 × 8 texture in ZTILE. -/
def texture : State := placeBytes tens 0x40000 (((descBytes.set 42 3).set 44 2).set 56 9)

set_option maxRecDepth 16000 in
theorem witness_TextureAndRayWords (o : Obligations.TextureAndRayWords) :
    Runs two (.trace h true 40 8 (vr 20)) ∧ Runs two (.tracef h (vr 20) 8 30 1) ∧ Runs texture (.sample h .bilin true 40 (vr 6) 20) :=
  ⟨runs2 ((o two twoB twoG h (by decide) (noAcquire_of (by decide) _)).2.1 true 40 8 (vr 20) (plain _ (by decide) _) (by decide)),
   runs2 ((o two twoB twoG h (by decide) (noAcquire_of (by decide) _)).2.2 (vr 20) 8 30 1 (plain _ (by decide) _) (by decide) (by decide)),
   (let ⟨r, hr⟩ := ok_of (x := sampleReq texture (wordCtx texture oneB tensG h) .bilin true (vr 6) 20 0) (by decide)
    runs2 ((o texture oneB tensG h (by decide) (noAcquire_of (by decide) _)).1 .bilin true 40 (vr 6) 20 (fun _ => r)
      (issues_of (by decide) _ (by decide) _) (fun l hl => by obtain rfl := lane_of hl; exact hr) (noRecall_of rfl rfl)))⟩

/-- A geometry die at position 2, a pass of partition 0 with 16 sequence numbers, and a packet of 3 vertices without triangles whose
region 0 the raster unit 0 of die 1 owns. -/
def geoG : Gang := { gang [0] [] [(4, 0x100), (5, 7)] with core := 32 }
def geo : State :=
  let s := machine geoG { crew with pos := 2, core := 32 }
  let s := cfgSet (cfgSet (cfgSet (cfgSet s 0x1000 0) 0x1008 5) 0x100C 21) 0x2000 1
  { s with
    dies := tabPut s.dies 2 { newDie .geometry 0 with inService := true, health := 0xFFFF }
    cores := tabPut s.cores 32 (newCore .geometry)
    rend := { s.rend with passOpen := true, geo := [2] }
    spad := spSet 0#8 (spSet 0#8 [] (spadKey 5 0 0x100) 3) (spadKey 5 0 0x108) 1 }

/-- A pixel gang of one quad. -/
def pixG : Gang := { gang [0] with pixel := [{ pkt := 0, off := 0, m := 0, region := 0, x := 4, y := 6, cover := 5 }] }
def pix : State := cfgSet (machine pixG) 0x104C 0x100

set_option maxRecDepth 8000 in
theorem witness_PacketAndPixelWords (o : Obligations.PacketAndPixelWords) :
    Runs geo (.emitm h 4 5) ∧ Runs geo (.emitm h 5 4) ∧ Runs pix (.ipa h true 0 5 (vr 6)) ∧ Runs pix (.emitf h 40 0 2) := by
  refine ⟨?_, ?_, ?_, ?_⟩
  · obtain ⟨⟨off, p⟩, hx⟩ := ok_of (x := emitmReq geo (wordCtx geo oneB geoG h) 4 5) (by decide)
    exact runs2 (((o geo oneB geoG h).1 4 5 (by decide) (noAcquire_of (by decide) _) (noQueued_of rfl _ _)
      (issues_of (by decide) _ (by decide) _)).1 off p hx (fun r _ => (by decide : (0 : Nat) < 4096)))
  · exact runs1 (((o geo oneB geoG h).1 5 4 (by decide) (noAcquire_of (by decide) _) (noQueued_of rfl _ _)
      (issues_of (by decide) _ (by decide) _)).2 { cause := 0x08, addr := 7, info := 0, next := false } (by rfl)
      ⟨⟨{ crew with pos := 2, core := 32 }, rfl, by decide⟩, fun l _ fb hf => fibres_of (P := fun f => f.handler = false) (by decide) l fb hf⟩)
  · exact runs1 (((o pix oneB pixG h).2 (by decide)).1 true 0 5 (vr 6) (issues_of (by decide) _ (by decide) _))
  · exact runs2 (((o pix oneB pixG h).2 (by decide)).2 40 0 2 (by decide) (issues_of (by decide) _ (by decide) _))

/-- A service crew. -/
def service : Crew := { crew with svc := true }

theorem witness_SpecialWords (o : Obligations.SpecialWords) :
    Runs two (.rdsr h (vr 5) 0x0C) ∧ Runs two (.wrsr h (vr 2) 0x42) ∧ Runs (one service) (.wrsr h (vr 5) 0x40) ∧
    Runs (one service) (.wrsr h (vr 5) 0x49) ∧ Runs two (.wrsr h (vr 2) 0x40) ∧ Runs (one service) (.wrsr h (vr 5) 0xFF) ∧
    Runs two (.sleep h (vr 2)) := by
  have a := fun x n => (o two twoB twoG h).2.1 x n
  have b := fun x n => (o (one service) oneB oneG h).2.1 x n
  refine ⟨?_, ?_, ?_, ?_, ?_, ?_, ?_⟩
  · exact runs4 ((o two twoB twoG h).1 (vr 5) 0x0C (plain _ (by decide) _)).2
  · exact runs3 ((a (vr 2) 0x42 (plain _ (by decide) _)).2.1 rfl)
  · exact runs3 (((b (vr 5) 0x40 (one_issues (by decide) _ (by decide) _)).2.2.2.1 rfl).1 rfl)
  · exact runs3 (((b (vr 5) 0x49 (one_issues (by decide) _ (by decide) _)).2.2.2.1 rfl).2.2.2.2.2.2 (.inl rfl) (by decide))
  · exact runs1 ((a (vr 2) 0x40 (plain _ (by decide) _)).2.2.2.2 (by decide) (.inl rfl) two_handles)
  · exact runs1 ((b (vr 5) 0xFF (one_issues (by decide) _ (by decide) _)).2.2.2.2 (by decide) (.inr (by decide))
      (one_handles rfl (by decide)))
  · exact runs1 ((o two twoB twoG h).2.2 (vr 2) (plain _ (by decide) _))

/-- A service crew one of whose fibres names a configuration register, another an address that is not a multiple of 4. -/
def cfgG : Gang := gang [0] [(4, [0x384]), (5, [0x388]), (6, [0x385])]
def cfgS : State := machine cfgG service

theorem cfg_issues (names : List Nat) (hn : overWindow 256 names = none) (reads : Nat → List RegRef) :
    Issues cfgS oneB cfgG h names reads := issues_of (by decide) _ hn _

theorem witness_ConfigurationWords (o : Obligations.ConfigurationWords) :
    Runs (one) (.cfgrd h (vr 5) (vr 6)) ∧ Runs cfgS (.cfgwr h (vr 6) (vr 7)) ∧ Runs cfgS (.cfgrd h (vr 8) (vr 4)) ∧
    Runs cfgS (.cfgrd h (sr 8) (vr 5)) ∧ Runs cfgS (.cfgwr h (vr 4) (vr 8)) := by
  refine ⟨?_, ?_, ?_, ?_, ?_⟩
  · exact runs1 (((o one oneB oneG h (vr 6)).1 (vr 5) (one_issues (by decide) _ (by decide) _)).1 rfl (one_handles rfl (by decide)))
  · exact runs1 ((((o cfgS oneB cfgG h (vr 6)).2 (vr 7) (cfg_issues _ (by decide) _)).2 rfl (by decide)).1 ⟨0, by decide, by decide⟩
      ⟨⟨service, rfl, by decide⟩, fun l _ fb hf => fibres_of (P := fun f => f.handler = false) (by decide) l fb hf⟩)
  · exact runs2 ((((o cfgS oneB cfgG h (vr 4)).1 (vr 8) (cfg_issues _ (by decide) _)).2 rfl).2 (by decide))
  · exact runs2 ((((o cfgS oneB cfgG h (vr 5)).1 (sr 8) (cfg_issues _ (by decide) _)).2 rfl).2 (by decide))
  · exact runs1 ((((o cfgS oneB cfgG h (vr 4)).2 (vr 8) (cfg_issues _ (by decide) _)).2 rfl (by decide)).2 (by decide) (fun _ => false)
      (cfgWrite 0x384 0 [(1280, 0, cfgS.nextId)] cfgS).1 cfgG ⟨_, ⟨by decide, rfl⟩, rfl⟩ (by decide) rfl)

/-- A CFGRD of the lane, of the address in v5, that is still to be performed. -/
def cfgAcc : Acc :=
  newAcc (wordCtx cfgS oneB cfgG h) { lane := 0, space := .gl, va := 0, pa := 0, size := 4, xl := none, saved := false } (.cfgrd (vr 8) 0x388) true false
def readS' : State := { cfgS with accs := [(9, { cfgAcc with seq := 8 })] }

set_option maxRecDepth 8000 in
theorem witness_ConfigurationEvents (o : Obligations.ConfigurationEvents) :
    Runs readS' (.loadDataReturn 9) ∧ Runs base (.cfgRegisterWrite 0x240 0xFFF) ∧ Runs base (.bar2ConfigAccess true 0x240 4 7) ∧
    Runs base (.cfgRegisterWrite 0x7C000000 1) ∧ Runs base (.bar2ConfigAccess false 0x388 4 0) ∧ Runs base (.bar2ConfigAccess true 0 8 0) ∧
    Runs base (.functionRegisterWrite 192 0x08 9) ∧ Runs { base with funcs := [(0, { (funcOf base 0) with en := true })] }
      (.functionRegisterWrite 0 0x08 9) := by
  refine ⟨?_, ?_, ?_, ?_, ?_, ?_, ?_, ?_⟩
  · exact runs1 (o.1 readS' 9 0 { cfgAcc with seq := 8 } cfgG _ (vr 8) 0x388 rfl rfl rfl rfl (by decide) rfl rfl (by decide) (by decide)
      (by decide) (by decide) (by decide))
  · exact runs1 ((o.2.1 base 0x240 0xFFF).1 0xFFFFFE00 (by decide) (by decide) (by decide) (by decide) (by decide)).1
  · exact runs1 (((o.2.1 base 0x240 7).1 0xFFFFFE00 (by decide) (by decide) (by decide) (by decide) (by decide)).2 true rfl)
  · exact runs1 ((o.2.1 base 0x7C000000 1).2 (.inl (by decide))).1
  · exact runs1 (o.2.2.1 base 0 (by decide) rfl)
  · exact runs1 (o.2.2.2.1 base 0 8 0 (by decide))
  · exact runs1 (((o.2.2.2.2 base 192 9 (by decide)).1 (by decide)).2.2.1)
  · exact runs1 ((o.2.2.2.2 { base with funcs := [(0, { (funcOf base 0) with en := true })] } 0 9 (by decide)).2.1 (by decide) 0x08 (by decide))

/-! #### Events of the package -/

/-- A service record: one crew of one gang of 16 fibres with windows of 16 registers, whose entry is 0x10000. -/
def serviceRecord : List Byte :=
  bytesOfNat 8 0x10000 ++ bytesOfNat 8 0 ++ bytesOfNat 8 0x8000 ++ bytesOfNat 8 0x40000 ++ bytesOfNat 4 1 ++ bytesOfNat 4 1 ++ bytesOfNat 4 1 ++
    [1, 1, 0, 2] ++ bytesOfNat 2 16 ++ List.replicate 206 0

/-- The small package before its start, with some flash. -/
def cold (f : FlashSt) : State := State.fresh dies [(16, newCore .shading)] f [] [] 0 10

/-- Its flash: a manifest of its dies, and one image, which holds the service record. -/
def smallFlash : FlashSt :=
  { resetFlash .s16g2m8 with
    manifest := { mixManifest .s16g2m8 with kinds := [(0, kindBits .memory), (1, kindBits .shading)] }
    images := [{ body := serviceRecord, sig := [] }] }

/-- The package in its start, and in refuge mode. -/
def starting : State := { base with boot := { base.boot with started := true, ok := false, refuge := false }, flash := smallFlash }
def refuge : State := { base with boot := { base.boot with started := true, refuge := true } }

/-- Whichever way the images and the manifest verify (R310: `Config.verify` is uninterpreted), the start goes on as a statement says. -/
theorem verified (o : Obligations.StartEvents) {s : State} (h0 : s.boot.started = false) (h1 : s.flash.fails < 3)
    (k : imagesOk s.flash = true → manifestOk s.flash = true → Runs s .powerOn) : Runs s .powerOn := by
  cases hi : imagesOk s.flash with
  | false => exact runs1 (((o s).1 h0 h1).1 hi)
  | true =>
    cases hm : manifestOk s.flash with
    | false => exact runs1 (((o s).1 h0 h1).2.1 hi hm)
    | true => exact k hi hm

/-- The small package with one image that holds no record, and with a link that never trains. -/
def noRecord : FlashSt := { smallFlash with images := [] }
def noLink : FlashSt := { smallFlash with manifest := { smallFlash.manifest with links := [(1, 1)] } }

/-- It begins its start. -/
def coldBegun (f : FlashSt) : State := { cold f with boot := { (cold f).boot with started := true } }

set_option maxRecDepth 16000 in
theorem witness_StartEvents (o : Obligations.StartEvents) :
    Runs (cold smallFlash) .powerOn ∧ Runs (cold noRecord) .powerOn ∧ Runs (cold noLink) .powerOn ∧
    Runs (cold { smallFlash with fails := 3 }) .powerOn ∧ Runs starting .powerOn ∧
    Runs { starting with time := { starting.time with now := 20000000004 } } .bootWatchdogExpiry ∧
    Runs starting (.failedStart 9 4) ∧ Runs starting (.failedStart 0x0A 4) ∧
    Runs { starting with flash := { starting.flash with manifest := { starting.flash.manifest with kinds := [] } } } (.failedStart 3 1) ∧
    Runs starting (.cfgBootokWrite 1) ∧
    Runs { starting with flash := { starting.flash with manifest := { starting.flash.manifest with kinds := [] } } } (.cfgBootokWrite 1) ∧
    Runs refuge (.cfgBootctlWrite 1) ∧ Runs refuge (.firmwareImageInstall (.images [])) ∧
    Runs refuge (.firmwareImageInstall (.manifest smallFlash.manifest)) := by
  refine ⟨?_, ?_, ?_, ?_, ?_, ?_, ?_, ?_, ?_, ?_, ?_, ?_, ?_, ?_⟩
  · refine verified o rfl (by decide) fun hi hm => ?_
    have h : (match startService (bringUp (coldBegun smallFlash)) with
      | .ok _ => true
      | .error _ => false) = true := by decide
    have x := (((((o (cold smallFlash)).1 rfl (by decide)).2.2 hi hm).2.2 (by decide) (by decide)).2 (by decide)).2
    change ∀ t, startService (bringUp (coldBegun smallFlash)) = .ok t → _ at x
    generalize startService (bringUp (coldBegun smallFlash)) = r at h x
    cases r with
    | ok t => exact ⟨t, x t rfl⟩
    | error _ => simp at h
  · exact verified o rfl (by decide) fun hi hm =>
      runs1 ((((((o (cold noRecord)).1 rfl (by decide)).2.2 hi hm).2.2 (by decide) (by decide)).2 (by decide)).1 2 (by rfl))
  · exact verified o rfl (by decide) fun hi hm => runs1 ((((o (cold noLink)).1 rfl (by decide)).2.2 hi hm).1 (1, 1) (by decide))
  · exact runs1 ((o (cold { smallFlash with fails := 3 })).2.1 rfl (by decide))
  · exact runs1 ((o starting).2.2.1 rfl)
  · exact runs1 ((o { starting with time := { starting.time with now := 20000000004 } }).2.2.2.1 ⟨rfl, rfl, rfl⟩ (by decide))
  · exact runs1 (((o starting).2.2.2.2.1 ⟨rfl, rfl, rfl⟩ 4).1 9 (.inr (.inl rfl)))
  · exact runs1 (((o starting).2.2.2.2.1 ⟨rfl, rfl, rfl⟩ 4).2.1 0x0A (.inr (by decide)))
  · exact runs1 ((o { starting with flash := { starting.flash with manifest := { starting.flash.manifest with kinds := [] } } }).2.2.2.2.2.1
      ⟨rfl, rfl, rfl⟩ 1 _ rfl (.inl (by decide)))
  · exact runs1 (((o starting).2.2.2.2.2.2.1 1 rfl rfl (by decide)).1 (.inr (by decide)))
  · exact runs1 (((o { starting with flash := { starting.flash with manifest := { starting.flash.manifest with kinds := [] } } }).2.2.2.2.2.2.1 1
      rfl rfl (by decide)).2 0 _ rfl (by decide) (fun q hq => absurd hq (Nat.not_lt_zero q)) rfl (.inl (by decide)))
  · exact runs1 (((o refuge).2.2.2.2.2.2.2 rfl).1 1 (by decide))
  · exact runs1 (((o refuge).2.2.2.2.2.2.2 rfl).2.1 [])
  · exact runs1 (((o refuge).2.2.2.2.2.2.2 rfl).2.2 smallFlash.manifest)

/-- A die at position 1 that differs from the small package's. -/
def with1 (f : Die → Die) (s : State := base) : State := { s with dies := tabMod s.dies 1 f }
def die1 : Die := { newDie .shading 0 with inService := true, whole := true, health := 0xFF }
def core1 : Core := newCore .shading

set_option maxRecDepth 8000 in
theorem witness_DieEvents (o : Obligations.DieEvents) :
    Runs base (.cfgSlopeWrite 1 0xFFFF) ∧ Runs base (.canaryWarning 1 0) ∧
    Runs { base with cores := [(16, { core1 with canary := 4 })], time := { base.time with now := 10000004 } } (.canaryDecay 1 0) ∧
    Runs base (.stackLevelEvaluation 1 90 0) ∧ Runs starting (.dieThermalTrip 1 105) ∧
    Runs { base with boot := { base.boot with ok := true } } (.dieThermalTrip 1 105) ∧
    Runs (with1 fun d => { d with tripped := true, inService := false }) (.dieReturnToService 1 84) ∧ Runs base (.powerSampleTick []) ∧
    Runs (with1 fun d => { d with govReq := [(0, 128)], govB := 4000 }) (.startGovernorGrant 1) ∧ Runs base (.memoryScrub 7) ∧
    Runs base (.powerGatedWake (.llcWay 0 3)) ∧ Runs base (.resourcePowerGating (.llcWay 0 3)) ∧ Runs base (.resourcePowerGating (.spTile 16 3)) ∧
    Runs base (.resourcePowerGating (.l1Way 16 3)) ∧ Runs base (.resourcePowerGating (.regSram 16)) ∧
    Runs base (.resourcePowerGating (.accTiles 16 2)) := by
  have a := o base 1 die1 rfl
  refine ⟨?_, ?_, ?_, ?_, ?_, ?_, ?_, ?_, ?_, ?_, ?_, ?_, ?_, ?_, ?_, ?_⟩
  · exact runs1 (a.1 0xFFFF)
  · exact runs1 (a.2.1 0 core1 rfl).1
  · exact runs1 (((o { base with cores := [(16, { core1 with canary := 4 })], time := { base.time with now := 10000004 } } 1 die1 rfl).2.1
      0 { core1 with canary := 4 } rfl).2 (by decide) (by decide))
  · exact runs1 (a.2.2.1 90 0 (by decide) (.inl rfl))
  · exact runs1 (((o starting 1 die1 rfl).2.2.2.1 105 rfl rfl (by decide)).1 rfl rfl rfl)
  · exact runs1 (((o { base with boot := { base.boot with ok := true } } 1 die1 rfl).2.2.2.1 105 rfl rfl (by decide)).2 (.inr (.inl rfl))
      (by decide) (fun x hx => nomatch hx))
  · exact runs1 ((o (with1 fun d => { d with tripped := true, inService := false }) 1 { die1 with tripped := true, inService := false } rfl).2.2.2.2.1
      84 rfl rfl (by decide) (by decide))
  · exact runs1 (a.2.2.2.2.2.2.1 [] (by decide) (fun r hr => nomatch hr))
  · exact runs1 ((o (with1 fun d => { d with govReq := [(0, 128)], govB := 4000 }) 1 { die1 with govReq := [(0, 128)], govB := 4000 } rfl).2.2.2.2.2.2.2.1
      0 128 [] rfl (by decide))
  · exact runs1 (a.2.2.2.2.2.2.2.2.1 7 (0, 0) (by decide) (by decide))
  · exact runs1 (a.2.2.2.2.2.2.2.2.2 (.llcWay 0 3)).1
  · exact runs1 (((a.2.2.2.2.2.2.2.2.2 (.llcWay 0 3)).2 (by decide)).1 0 3 rfl)
  · exact runs1 (((a.2.2.2.2.2.2.2.2.2 (.spTile 16 3)).2 (by decide)).2.1 16 3 rfl (by decide))
  · exact runs1 (((a.2.2.2.2.2.2.2.2.2 (.l1Way 16 3)).2 (by decide)).2.2.2.2 16 3 rfl)
  · exact runs1 (((a.2.2.2.2.2.2.2.2.2 (.regSram 16)).2 (by decide)).2.2.1 16 rfl (by decide))
  · exact runs1 (((a.2.2.2.2.2.2.2.2.2 (.accTiles 16 2)).2 (by decide)).2.2.2.1 16 2 rfl (by decide))

/-- The small package with a link between its dies, and a second way from one to the other. -/
def ringDies : Tab Die :=
  [(0, { newDie .memory 0x14 with inService := true }), (1, { newDie .shading 0x50 with inService := true }),
   (7, { newDie .memory 0x05 with inService := true }), (8, { newDie .shading 0x41 with inService := true })]

set_option maxRecDepth 8000 in
theorem witness_linkRetirement (o : Obligations.DieEvents) : Runs { base with dies := ringDies } (.linkRetirement 1 3) :=
  runs1 ((o { base with dies := ringDies } 1 _ rfl).2.2.2.2.2.1 3 0 _ (by decide) (by decide) rfl (by decide) (by decide))

set_option maxRecDepth 8000 in
theorem witness_BankEvents (o : Obligations.BankEvents) :
    Runs base (.cbTransfer 1 0 0x800 { fails := 0, beat := 0, cell := none, deep := [] }) ∧ Runs base (.cbTransfer 1 0 0x800 { fails := 4, beat := 63, cell := none, deep := [] }) ∧
    Runs base (.cbTransfer 1 0 0x800 { fails := 5, beat := 63, cell := none, deep := [] }) ∧
    Runs { base with cores := [(16, { core1 with fill := .vacate, foldAt := 6 })], time := { base.time with now := 10 } } (.backfillBegin 1 0) ∧
    Runs { base with cores := [(16, { core1 with fill := .backfill, mapBuses := 0x7FFF, wmark := 15 })] } (.backfillUnitMove 1 0 []) ∧
    Runs { base with cores := [(16, { core1 with fill := .backfill, mapBuses := 0x7FFF, wmark := 15 * 131072 - 1 })] } (.backfillUnitMove 1 0 []) := by
  have a := o base 1 0 die1 core1 rfl rfl
  refine ⟨?_, ?_, ?_, ?_, ?_, ?_⟩
  · exact runs1 ((a.1 0x800 { fails := 0, beat := 0, cell := none, deep := [] } rfl (by decide) rfl).1 (by decide) (.inl rfl))
  · exact runs1 ((a.1 0x800 { fails := 4, beat := 63, cell := none, deep := [] } rfl (by decide) rfl).2.1 (by decide) (by decide) (by decide) (by decide))
  · exact runs1 ((a.1 0x800 { fails := 5, beat := 63, cell := none, deep := [] } rfl (by decide) rfl).2.2 (by decide) (by decide) (by decide))
  · exact runs1 ((o { base with cores := [(16, { core1 with fill := .vacate, foldAt := 6 })], time := { base.time with now := 10 } } 1 0 die1 _ rfl rfl).2.1
      rfl (by decide))
  · exact runs1 (((o { base with cores := [(16, { core1 with fill := .backfill, mapBuses := 0x7FFF, wmark := 15 })] } 1 0 die1 _ rfl rfl).2.2 rfl).1
      ⟨by decide, by decide⟩)
  · exact runs1 (((o { base with cores := [(16, { core1 with fill := .backfill, mapBuses := 0x7FFF, wmark := 15 * 131072 - 1 })] } 1 0 die1 _ rfl
      rfl).2.2 rfl).2 (by decide) (by decide) rfl)

/-! #### Partitions, attributes and the outside -/

/-- The small package in which LLC 0 of die 0 serves partition 0, which is or is not enabled. -/
def parted (p : Partition → Partition) : State := modPart (cfgSet base (cfgAddr 0 0x280) 0x80000000) 0 p

set_option maxRecDepth 16000 in
theorem witness_PartitionEvents (o : Obligations.PartitionEvents) :
    Runs base (.ownershipWrite 0x04000284 0xFF000003) ∧ Runs base (.ownershipWrite 0x280 0x80000000) ∧
    Runs (parted fun x => { x with enabled := true }) (.ownershipWrite 0x280 0) ∧
    Runs { base with own := [(0x280, { val := 0x80000001, waits := [] })], time := { base.time with now := 4 } } (.ownershipChangeEffect 0x280) ∧
    Runs (parted id) (.partitionEnable 0) ∧ Runs { (parted fun x => { x with scrub := true }) with time := { base.time with now := 4 } } (.partitionScrubCompletion 0) ∧
    Runs base (.partitionDisable 23) ∧ Runs two (.partitionSuspend 0) ∧ Runs two (.partitionResume 0) ∧ Runs two (.policyInstall 5) ∧
    Runs base (.vfMapWrite 191 0xFFFFFFFF) ∧
    Runs ((List.range 8).foldl (fun s v => cfgSet s (0x6000 + 4 * v) 0x80000003) base) (.vfMapWrite 9 0x80000003) ∧
    Runs base (.attestationRequest 0 3) ∧ Runs (cfgSet base 0x6004 0x80000003) (.attestationRequest 2 0) := by
  refine ⟨?_, ?_, ?_, ?_, ?_, ?_, ?_, ?_, ?_, ?_, ?_, ?_, ?_, ?_⟩
  · exact runs1 ((o.1 base 0x04000284 0xFF000003 .pair (by decide)).1 ⟨by decide, by decide⟩ (by decide) (by decide))
  · exact runs1 ((o.1 base 0x280 0x80000000 .llc (by decide)).2.1 ⟨by decide, by decide⟩ (by decide) rfl)
  · exact runs1 ((o.1 (parted fun x => { x with enabled := true }) 0x280 0 .llc (by decide)).2.2 ⟨by decide, by decide⟩ (by decide))
  · exact runs1 ((o.2.1 { base with own := [(0x280, { val := 0x80000001, waits := [] })], time := { base.time with now := 4 } } 0x280 _ rfl rfl (by decide)).1 (by decide))
  · exact runs1 ((o.2.2.1 (parted id) 0 (by decide)).1 (by decide) (by decide) (by decide) (by decide))
  · exact runs1 ((o.2.2.1 { (parted fun x => { x with scrub := true }) with time := { base.time with now := 4 } } 0 (by decide)).2.1 (by decide) (by decide))
  · exact runs1 ((o.2.2.1 base 23 (by decide)).2.2.1 (by decide))
  · exact runs1 (o.2.2.1 two 0 (by decide)).2.2.2.2.1
  · exact runs1 (o.2.2.1 two 0 (by decide)).2.2.2.1
  · exact runs1 (((o.2.2.1 two 5 (by decide)).2.2.2.2.2 two []).2 (by decide))
  · exact runs1 ((o.2.2.2 base 191 0xFFFFFFFF (by decide)).1 (.inr (by decide)))
  · exact runs1 ((o.2.2.2 ((List.range 8).foldl (fun s v => cfgSet s (0x6000 + 4 * v) 0x80000003) base) 9 0x80000003 (by decide)).2.1 (by decide)
      (by decide))
  · exact runs1 ((o.2.2.2 base 0 0 (by decide)).2.2.1 3)
  · exact runs1 ((o.2.2.2 (cfgSet base 0x6004 0x80000003) 1 0 (by decide)).2.2.2 3 0 (by decide))

set_option maxRecDepth 8000 in
theorem witness_AttributeEvents (o : Obligations.AttributeEvents) :
    Runs base (.cfgFattrWrite 3) ∧ Runs { base with fattr := some (0, { packed := true, chk := false }) } .frameAttributeChangeDone ∧
    Runs base (.cfgXinvcmdWrite 0x85) ∧ Runs { base with cache := { base.cache with inv := some (0x85, [], []) } } .invalidationCompletion :=
  ⟨runs1 ((o base).1 3 rfl (by decide) (by decide)),
   runs1 ((o { base with fattr := some (0, { packed := true, chk := false }) }).2.1 0 { packed := true, chk := false } rfl),
   runs1 ((o base).2.2.1 0x85 rfl),
   runs1 ((o { base with cache := { base.cache with inv := some (0x85, [], []) } }).2.2.2 0x85 [] [] rfl (fun a ha => nomatch ha)
      (fun e he => nomatch he))⟩

/-- Peer port 2 is trained and a time source, and reaches the first 2 GiB of device memory by inbound window 0. -/
def ported : State :=
  let s := { base with peers := [(2, { (peerOf base 2) with state := 2 })] }
  cfgSet (cfgSet (cfgSet s 0x540 0x20000000) 0xB04 1) 0xB0C 0x80000200

set_option maxRecDepth 8000 in
theorem witness_HostEvents (o : Obligations.HostEvents) :
    Runs base (.sqtailDoorbell 3 17) ∧ Runs base (.queuePairEnable 192) ∧ Runs base (.queuePairDisable 0) ∧ Runs base (.cqheadWrite 0 0xFFFFFFFF) ∧
    Runs { base with funcs := [(3, { (funcOf base 3) with comps := [{ slot := 0, shiftId := 7, status := 1, dt := 0, written := false }], cqLogn := 4 })] }
      (.completionEntryPost 3) ∧
    Runs { base with hostHoles := [0], funcs := [(3, { (funcOf base 3) with comps := [{ slot := 4096, shiftId := 7, status := 1, dt := 0, written := false }], cqLogn := 4 })] }
      (.completionEntryPost 3) ∧
    Runs base (.inboundWrite (.pcie 1) 0x7FF [some 1, none, some 2]) ∧ Runs base (.inboundRead .cxlMem 0 64) ∧ Runs base (.inboundWrite (.pcie 0) 0x400000000000 [some 1]) ∧
    Runs base (.inboundRead (.peer 3) 0 4) ∧ Runs base (.cxlCacheSnoop 5 .recall) ∧
    Runs base (.peerPortTrained 11) ∧ Runs base (.peerPortFailure 0) ∧ Runs ported (.timeFlit 2 2000) ∧ Runs ported (.inboundAtomic 2 0x7FFFFFFC (.op .add) false 3) ∧ Runs ported (.inboundAtomic 2 0x7FFFFFF8 (.cas 7) true 3) ∧
    Runs base (.ptpMessage 9) ∧ Runs { base with time := { base.time with ptpSec := some 9 } } .ppsEdge ∧
    Runs { base with time := { base.time with now := 2000000000, ppsAt := some 0 } } (.timingInputLoss true false) ∧
    Runs { base with time := { base.time with now := 2000000000, ptpAt := some 0 } } (.timingInputLoss false true) ∧
    readingOf base 16 ≤ readingOf (advanceTime 9 base) 16 := by
  refine ⟨?_, ?_, ?_, ?_, ?_, ?_, ?_, ?_, ?_, ?_, ?_, ?_, ?_, ?_, ?_, ?_, ?_, ?_, ?_, ?_, ?_⟩
  · exact runs1 (o.1 base 3 17).1
  · exact runs1 (o.1 base 192 17).2.1
  · exact runs1 (o.1 base 0 17).2.2.1
  · exact runs1 (o.1 base 0 0xFFFFFFFF).2.2.2.1
  · exact runs1 ((((o.1 { base with funcs := [(3, { (funcOf base 3) with comps := [{ slot := 0, shiftId := 7, status := 1, dt := 0, written := false }], cqLogn := 4 })] }
      3 0).2.2.2.2 { slot := 0, shiftId := 7, status := 1, dt := 0, written := false } [] rfl rfl (by decide) rfl (by decide)).2 (by decide)).2.2
      (by decide) (by decide))
  · exact runs1 ((((o.1 { base with hostHoles := [0], funcs := [(3, { (funcOf base 3) with comps := [{ slot := 4096, shiftId := 7, status := 1, dt := 0, written := false }], cqLogn := 4 })] }
      3 0).2.2.2.2 { slot := 4096, shiftId := 7, status := 1, dt := 0, written := false } [] rfl rfl (by decide) rfl (by decide)).2 (by decide)).2.1
      (by decide) (by decide))
  · exact runs1 ((o.2.1 base (.pcie 1) 0x7FF [some 1, none, some 2] (noRecall_of rfl rfl)).1 (by decide) (fun ⟨_, x⟩ => nomatch x) (by decide))
  · exact runs1 ((o.2.1 base .cxlMem 0 (List.replicate 64 none) (noRecall_of rfl rfl)).2.1 (by decide) (fun ⟨_, x⟩ => nomatch x))
  · exact runs1 ((o.2.1 base (.pcie 0) 0x400000000000 [some 1] (noRecall_of rfl rfl)).2.2.1 (by decide) 0 rfl)
  · exact runs1 ((o.2.1 base (.peer 3) 0 [none, none, none, none] (noRecall_of rfl rfl)).2.2.2.1 3 rfl _ (.inr ⟨rfl, .inl (by decide)⟩))
  · exact runs1 (o.2.2.1 base 5 .recall)
  · exact runs1 ((o.2.2.2.1 base 11 (by decide)).1 (by decide))
  · exact runs1 ((o.2.2.2.1 base 0 (by decide)).2.1 (by decide) rfl rfl)
  · exact runs1 ((o.2.2.2.1 ported 2 (by decide)).2.2 2000 (by decide) (by decide) (by decide))
  · exact runs1 ((o.2.1 ported (.peer 2) 0x7FFFFFFC [none, none, none, none] (noRecall_of rfl rfl)).2.2.2.2 2 (.op .add) false 3 rfl (by decide) (by decide) (by decide))
  · exact runs1 ((o.2.1 ported (.peer 2) 0x7FFFFFF8 (List.replicate 8 none) (noRecall_of rfl rfl)).2.2.2.2 2 (.cas 7) true 3 rfl (by decide) (by decide)
      (by decide))
  · exact runs1 ((o.2.2.2.2 base).1 9)
  · exact runs1 ((o.2.2.2.2 { base with time := { base.time with ptpSec := some 9 } }).2.1 9 rfl)
  · exact runs1 (((o.2.2.2.2 { base with time := { base.time with now := 2000000000, ppsAt := some 0 } }).2.2.2 0 (by decide)).1 rfl)
  · exact runs1 (((o.2.2.2.2 { base with time := { base.time with now := 2000000000, ptpAt := some 0 } }).2.2.2 0 (by decide)).2 rfl)
  · exact ((o.2.2.2.2 base).2.2.1 9 16 (newCore .shading) rfl (by decide)).2.1

/-! #### The scheduler, halts and debug sessions -/

/-- A shift of the record's one crew, and the package with partition 0 enabled. -/
def oneShift : Shift :=
  { record := serviceRecord, src := .host 0 0, part := 0, st := .admitted, depMet := true, depPa := 0xFFFFFFFFFFFF, depWake := false,
    dtMet := true, next := 0, retired := 0, settle := 0, acks := [] }
def enabled : State := parted fun x => { x with enabled := true }
def withShift (f : Shift → Shift) : State := { enabled with sched := { enabled.sched with shifts := [(7, f oneShift)] } }

/-- The queue of virtual function 0, of partition 0, holds one record of 256 bytes, at host address 0. -/
def queued (rec' : List Byte) : State :=
  { (cfgSet enabled 0x6000 0x80000000) with
    funcs := [(1, { (funcOf base 0) with en := true, sqTail := 1, sqLogn := 4 })]
    hostMem := spPutList 0#8 [] 0 rec' }

/-- A queue of the device's own: its descriptor at 0x50000, whose records lie at 0x60000. -/
def devQueue (desc : List Byte) : State :=
  let s := cfgSet (cfgSet enabled (partOff 0 + 0x14) 0x50000) (partOff 0 + 0x1C) 1
  placeBytes s 0x50000 desc

set_option maxRecDepth 16000 in
theorem witness_AdmissionEvents (o : Obligations.AdmissionEvents) :
    Runs (queued serviceRecord) .shiftAdmission ∧ Runs { (queued serviceRecord) with hostHoles := [0] } .shiftAdmission ∧
    Runs (withShift fun h => { h with depWake := true, depMet := false }) (.dependenceWordCheck 7) ∧
    Runs (withShift fun h => { h with depWake := true, depMet := false, record := h.record.set 101 0x80 }) (.dependenceWordCheck 7) ∧
    Runs { (withShift id) with time := { base.time with now := 4 } } (.startdtReached 7) ∧
    Runs { (withShift fun h => { h with retired := 1 }) with time := { base.time with now := 4 } } (.shiftCompletion 7) ∧
    Runs (devQueue (bytesOfNat 8 0x60000 ++ [3])) (.deviceQueueTake 0 0) ∧ Runs (devQueue (bytesOfNat 8 0x60001 ++ [16])) (.deviceQueueTake 0 0) ∧
    Runs (devQueue (bytesOfNat 8 0x100000000 ++ [4])) (.deviceQueueTake 0 0) := by
  refine ⟨?_, ?_, ?_, ?_, ?_, ?_, ?_, ?_, ?_⟩
  · exact runs1 (o.1 (queued serviceRecord) (by decide))
  · exact runs1 (o.1 { (queued serviceRecord) with hostHoles := [0] } (by decide))
  · obtain ⟨⟨s1, x, bs⟩, hx⟩ := ok_of (x := engRead (withShift fun h => { h with depWake := true, depMet := false }) (schedAgent 0 true) 0 4) (by decide)
    exact runs1 (((o.2.1 (withShift fun h => { h with depWake := true, depMet := false }) 7 _ rfl).1 rfl rfl rfl).1 s1 x bs hx)
  · exact runs1 (((o.2.1 (withShift fun h => { h with depWake := true, depMet := false, record := h.record.set 101 0x80 }) 7 _ rfl).1 rfl rfl rfl).2
      _ (by rfl))
  · exact runs1 ((o.2.1 { (withShift id) with time := { base.time with now := 4 } } 7 oneShift rfl).2.1 (by decide))
  · exact runs1 ((o.2.1 { (withShift fun h => { h with retired := 1 }) with time := { base.time with now := 4 } } 7 { oneShift with retired := 1 } rfl).2.2
      (by decide) (by decide) (by decide) (by decide))
  · exact runs1 (((o.2.2 (devQueue (bytesOfNat 8 0x60000 ++ [3])) 0 0 (by decide) (.inl (by decide)) (by decide) (by decide)).2 (by decide) (by decide)
      (by decide)).1 (.inl (by decide)))
  · exact runs1 ((((o.2.2 (devQueue (bytesOfNat 8 0x60001 ++ [16])) 0 0 (by decide) (.inl (by decide)) (by decide) (by decide)).2 (by decide) (by decide)
      (by decide)).2 (by decide)
      (by decide)).1 (by decide))
  · exact runs1 (((((o.2.2 (devQueue (bytesOfNat 8 0x100000000 ++ [4])) 0 0 (by decide) (.inl (by decide)) (by decide) (by decide)).2 (by decide) (by decide)
      (by decide)).2 (by decide)
      (by decide)).2 (by decide)).1 _ (by rfl))

/-- Crew 5 of the small package, without gangs, in some phase; the level of its die. -/
def crewS (f : Crew → Crew) (level : Nat := 0) : State :=
  { (with1 (fun d => { d with level }) (withShift id)) with crews := [(5, f { crew with shift := 7, cbSize := 0, cbBase := [], phase := .running })] }

/-- Crew 5 holds every accumulator tile of an engine, where saved crew 9 has waited 100 µs to be restored. -/
def shortTiles : State :=
  { (crewS id) with
    crews := (crewS id).crews ++ [(9, { crew with phase := .saved })]
    engines := [(130, { (engOf base 130) with
      tileWait := [{ gang := 9 * 256, tile := 0, pc := none, since := 0 }], mapped := (List.range 16).map (5 * 4096 + ·) })]
    time := { base.time with now := 100000 } }

set_option maxRecDepth 16000 in
theorem witness_CrewEvents (o : Obligations.CrewEvents) :
    Runs { (crewS id) with sched := { (crewS id).sched with owner := [(8, (0, 0))] }, time := { base.time with now := 4 } } (.timeSliceExpiry 1 0) ∧
    Runs (crewS id 8) (.hotDieMigration 5) ∧ Runs (crewS (fun c => { c with phase := .prologue 2 }) 8) (.hotDieMigration 5) ∧
    Runs (crewS fun c => { c with phase := .prologue 3 }) (.prologueBinding 5) ∧
    Runs (crewS fun c => { c with phase := .prologue 4 }) (.gangStart 5) ∧
    Runs (crewS fun c => { c with phase := .prologue 4, wasStopped := true }) (.gangStart 5) ∧
    Runs { (crewS fun c => { c with gangMax := 2 }) with gangs := [(1280, oneG)] } (.attachingGangStart 5) ∧
    Runs (crewS fun c => { c with gangMax := 2, crewN := 2 }) (.shrinkRequest 5 1) ∧ Runs (crewS id) (.crewRetirement 5) ∧
    Runs (withShift id) (.crewDispatch 7) ∧
    Runs shortTiles (.tileWaitTimeout (9 * 256)) := by
  refine ⟨?_, ?_, ?_, ?_, ?_, ?_, ?_, ?_, ?_, ?_, ?_⟩
  · exact runs1 ((o.1 { (crewS id) with sched := { (crewS id).sched with owner := [(8, (0, 0))] }, time := { base.time with now := 4 } } 1 0 0 0
      (by decide) (by decide) (by decide)).1 (by decide))
  · exact runs1 (((o.2.1 (crewS id 8) 5 _ rfl).1 (by decide) rfl rfl).1 rfl rfl (by decide))
  · exact runs1 (((o.2.1 (crewS (fun c => { c with phase := .prologue 2 }) 8) 5 _ rfl).1 (by decide) rfl rfl).2 rfl)
  · exact runs1 (((o.2.1 (crewS fun c => { c with phase := .prologue 3 }) 5 _ rfl).2.2.1 3 (by decide) rfl (by decide) rfl).1 (by decide))
  · exact runs1 (((o.2.1 (crewS fun c => { c with phase := .prologue 4 }) 5 _ rfl).2.2.2.1 rfl rfl (by decide) (by decide) (by decide)).1 rfl)
  · exact runs1 (((o.2.1 (crewS fun c => { c with phase := .prologue 4, wasStopped := true }) 5 _ rfl).2.2.2.1 rfl rfl (by decide) (by decide) (by decide)).2 rfl)
  · exact runs1 ((o.2.1 { (crewS fun c => { c with gangMax := 2 }) with gangs := [(1280, oneG)] } 5 _ rfl).2.2.2.2.1 1 16 1 (by decide) rfl rfl
      (by decide) (by decide) (by decide) (by decide) (by decide) (by decide) rfl)
  · exact runs1 ((o.2.1 (crewS fun c => { c with gangMax := 2, crewN := 2 }) 5 _ rfl).2.2.2.2.2.1 1)
  · exact runs1 ((o.2.1 (crewS id) 5 _ rfl).2.2.2.2.2.2 (by decide))
  · exact runs1 ((o.2.2.1 (withShift id) 7 oneShift rfl).1 16 (by decide) (by decide) (by decide) (by decide))
  · exact runs1 (o.2.2.2 shortTiles (9 * 256) 130 5 _ _ (by rfl) (by decide) rfl rfl rfl rfl)

/-- A device-side queue with a service record at its head, and the bytes of its descriptor. -/
def queueS : State := placeBytes (devQueue (bytesOfNat 8 0x60000 ++ [4])) 0x60000 serviceRecord
def queueTry : State := { queueS with free := queueS.free + 1, sched := { queueS.sched with queueErr := tabDel queueS.sched.queueErr (0 * 16 + 0) } }
def queueBytes : List Byte := bytesOfNat 8 0x60000 ++ 4 :: List.replicate 23 0

set_option maxRecDepth 16000 in
/-- A device-side queue whose record is admitted. -/
theorem witness_deviceQueue (o : Obligations.AdmissionEvents) :
    Runs queueS (.deviceQueueTake 0 0) := by
  obtain ⟨⟨s1, x, bs⟩, hx⟩ := ok_of (x := engRead queueTry (schedAgent 0 false) 0x60000 256) (by decide)
  have hs : (match engRead queueTry (schedAgent 0 false) 0x60000 256 with
    | .ok (t, _, r) => decide (field r 112 4 = 0) && admits t 0 && decide (rejectCode t 0 ((recOf r).part == 0) r = none) &&
        decide ((recOf r).depOp = 0)
    | .error _ => false) = true := by decide
  have hn : (match engRead queueTry (schedAgent 0 false) 0x60000 256 with
    | .ok (t, _, _) => decide (t.fattr = none) && decide (t.cache.dir = [])
    | .error _ => false) = true := by decide
  rw [hx] at hs hn
  simp only [Bool.and_eq_true, decide_eq_true_eq] at hs hn
  have hq : (decide (hasHome queueS (queueDesc queueS 0 0) = true) && decide (addrLost queueS (queueDesc queueS 0 0) = false) &&
      decide (readsPoison queueS (queueDesc queueS 0 0) 32 = false)) = true := by decide
  have hd : spRange 0#8 queueS.mem (queueDesc queueS 0 0) 32 = queueBytes := by decide
  simp only [Bool.and_eq_true, decide_eq_true_eq] at hq
  have a := (o.2.2 queueS 0 0 (by decide) (.inl (by decide)) (by decide) (by decide)).2 hq.1.1 hq.1.2 hq.2
  rw [hd] at a
  have b := ((a.2 (by decide) (by decide)).2 (by decide)).2 s1 x bs hx (noRecall_of hn.1 hn.2) (by decide)
  exact runs1 (b (hs.1.1.1.trans (by decide)) hs.1.1.2 hs.1.2 hs.2)

/-- A fibre with a condition found late; a crew without handler; a crew in some state of a halt. -/
def lateOf : LateTrap := { seq := 3, pc := 0xFFF8, info := { cause := 0x0F, addr := 0, info := 0, next := false }, waits := false }
def lateG : Gang := { oneG with fibres := oneG.fibres.map fun x => (x.1, { x.2 with late := [lateOf] }) }
def heldG (why : HoldWhy) (g : Gang := oneG) : Gang :=
  { g with fibres := g.fibres.map fun x => (x.1, { x.2 with held := some { why, stall := 2, gid := 3, seq := 3 } }) }
def noHandler : Crew := { crew with tvec := 0 }
def trapInfo : TrapInfo := { cause := 0x08, addr := 7, info := 0, next := false }
def haltS (p : CrewPhase) (w : HaltWhy) (c : Crew := crew) : State := { (machine oneG { c with phase := p, halt := [w] }) with issue := none }

/-- A saved crew of one gang, which had slice 0 of its core. -/
def savedTwo : State :=
  { two with crews := [(5, { crew with phase := .saved, cbSize := 0, cbBase := [], started := true, sets := [(0, 1280)] })] }

/-- The one gang of `one`, and its fibre. -/
theorem one_gang {s : State} (hs : s.gangs = [(1280, oneG)]) {gk : Nat} {g : Gang} (hg : gangOf s gk = some g) : gk = 1280 ∧ g = oneG := by
  unfold gangOf at hg
  rw [hs] at hg
  simpa using tabFind_mem hg

theorem one_distinct {s : State} (hs : s.gangs = [(1280, oneG)]) :
    (tabKeys s.gangs).Nodup ∧ ∀ gk g, gangOf s gk = some g → crewOfGang gk = 5 → (tabKeys g.fibres).Nodup := by
  refine ⟨by rw [hs]; decide, fun gk g hg _ => ?_⟩
  obtain ⟨-, rfl⟩ := one_gang hs hg
  decide

theorem one_late {s : State} (hs : s.gangs = [(1280, oneG)]) :
    ∀ gk g, gangOf s gk = some g → crewOfGang gk = 5 → ∀ l fb, tabFind g.fibres l = some fb → fb.late = [] := by
  intro gk g hg _ l fb hf
  obtain ⟨-, rfl⟩ := one_gang hs hg
  exact fibres_of (P := fun f => f.late = []) (by decide) l fb hf

set_option maxRecDepth 8000 in
theorem witness_HaltEvents (o : Obligations.HaltEvents) :
    Runs (one) (.trapEntry 1280 0 trapInfo) ∧ Runs (one noHandler) (.trapEntry 1280 0 trapInfo) ∧
    Runs (machine (heldG .detach)) (.trapEntry 1280 0 trapInfo) ∧ Runs (machine lateG) (.lateTrapDelivery 1280 0) ∧
    Runs (machine lateG noHandler) (.lateTrapDelivery 1280 0) ∧
    Runs (haltS .halting (.trap 0 0 trapInfo 0 true)) (.crewHalt 5) ∧
    Runs (haltS .halting (.trap 0 0 trapInfo 0 true) { crew with armed := true }) (.crewHalt 5) ∧
    Runs (haltS .ending (.trap 0 0 trapInfo 0 true)) (.crewHalt 5) ∧ Runs (haltS .ending (.prologue 3 0 0 9)) (.crewHalt 5) ∧
    Runs (haltS .ending (.lost 0x0E)) (.crewHalt 5) ∧ Runs (haltS .halting .preempt) (.preemptionHalt 5) ∧
    Runs (haltS .halting (.debug 0 0 1 0)) (.preemptionHalt 5) ∧ Runs (haltS .halted .preempt) (.contextSave 5) ∧
    Runs savedTwo (.contextRestore 5 1 0) := by
  refine ⟨?_, ?_, ?_, ?_, ?_, ?_, ?_, ?_, ?_, ?_, ?_, ?_, ?_, ?_⟩
  · exact runs1 (((o.1 one 1280 0 oneG _ crew trapInfo rfl rfl rfl).1 rfl).1 rfl (by decide))
  · exact runs1 (((o.1 (one noHandler) 1280 0 oneG _ noHandler trapInfo rfl rfl rfl).1 rfl).2.1 (.inr rfl) rfl rfl)
  · exact runs1 ((o.1 (machine (heldG .detach)) 1280 0 (heldG .detach) _ crew trapInfo rfl rfl rfl).2 _ rfl rfl (by decide))
  · exact runs1 ((((o.1 (machine lateG) 1280 0 lateG _ crew trapInfo rfl rfl rfl).1 rfl).2.2.1 lateOf [] (by decide)).1 rfl (by decide) (.inl rfl))
  · exact runs1 ((((o.1 (machine lateG noHandler) 1280 0 lateG _ noHandler trapInfo rfl rfl rfl).1 rfl).2.2.1 lateOf [] (by decide)).2 (.inr rfl) rfl rfl)
  · exact runs1 (((o.2 (haltS .halting (.trap 0 0 trapInfo 0 true)) 5 _ rfl).1 _ rfl (by decide) rfl).1 (.inr (.inl rfl))
      (one_distinct rfl))
  · exact runs1 (((o.2 (haltS .halting (.trap 0 0 trapInfo 0 true) { crew with armed := true }) 5 _ rfl).1 _ rfl (by decide) rfl).2 rfl rfl rfl)
  · exact runs1 (((o.2 (haltS .ending (.trap 0 0 trapInfo 0 true)) 5 _ rfl).2.1 rfl (by decide)).1 0 0 trapInfo 0 true rfl)
  · exact runs1 (((o.2 (haltS .ending (.prologue 3 0 0 9)) 5 _ rfl).2.1 rfl (by decide)).2.1 3 0 0 9 rfl)
  · exact runs1 (((o.2 (haltS .ending (.lost 0x0E)) 5 _ rfl).2.1 rfl (by decide)).2.2 0x0E rfl)
  · exact runs1 (((o.2 (haltS .halting .preempt) 5 _ rfl).2.2.1 rfl (by decide) (one_distinct rfl) (one_late rfl)).1 rfl)
  · exact runs1 (((o.2 (haltS .halting (.debug 0 0 1 0)) 5 _ rfl).2.2.1 rfl (by decide) (one_distinct rfl) (one_late rfl)).2 0 0 1 0 rfl)
  · exact runs1 ((o.2 (haltS .halted .preempt) 5 _ rfl).2.2.2.1 rfl (by decide) (noRecall_of rfl rfl))
  · exact runs1 ((o.2 savedTwo 5 _ rfl).2.2.2.2 1 0 [(0, 1280, 0)] (by decide) (fun x hx => nomatch hx) (by decide) rfl (by decide) (by decide) (by decide) (by decide) (by decide) (by decide) (by decide)
      (by decide) (by decide))

/-- A debug session of virtual function 0 over crew 5, whose partition the function names. -/
def sessionS (c : Crew) : State :=
  { (cfgSet (one c) 0x6000 0x80000000) with funcs := [(1, funcOf base 1)] }

set_option maxRecDepth 8000 in
theorem witness_DebugEvents (o : Obligations.DebugEvents) :
    Runs base (.debugStopCommand 3) ∧ Runs (one) (.debugArmCommand 0) ∧ Runs (sessionS crew) (.debugStopCommand 1) ∧
    Runs (sessionS { crew with started := false }) (.debugStopCommand 1) ∧ Runs (sessionS { crew with phase := .stopped }) (.debugStopCommand 1) ∧
    Runs (sessionS crew) (.debugResumeCommand 1) ∧ Runs (sessionS { crew with phase := .stopped }) (.debugResumeCommand 1) ∧
    Runs (sessionS { crew with phase := .stopped }) (.debugStepCommand 1 31) ∧ Runs (sessionS { crew with phase := .stopped }) (.debugStepCommand 1 1) ∧
    Runs (sessionS crew) (.debugArmCommand 1) ∧ Runs (sessionS crew) (.debugDisarmCommand 1) ∧
    Runs { (one) with funcs := [(1, { (funcOf base 1) with dbg := { (funcOf base 1).dbg with stop := some (5, 1, 0) } })] } (.debugStopRecord 1) := by
  refine ⟨?_, ?_, ?_, ?_, ?_, ?_, ?_, ?_, ?_, ?_, ?_, ?_⟩
  · exact runs1 (((o base 3).1 (by decide)).2.2.1 (by decide))
  · exact runs1 (((o one 0).2.1 5 crew (by decide) (by decide)).2 _ (by simp))
  · exact runs1 (((o (sessionS crew) 1).2.2.1 5 crew (by decide) rfl (by decide)).1 (by decide) rfl rfl rfl)
  · exact runs1 (((o (sessionS { crew with started := false }) 1).2.2.1 5 _ (by rfl) rfl (by decide)).2.1 (by decide) (.inl rfl))
  · exact runs1 (((o (sessionS { crew with phase := .stopped }) 1).2.2.1 5 _ (by rfl) rfl (by decide)).2.2.1 (.inl rfl))
  · exact runs1 ((((o (sessionS crew) 1).2.2.1 5 crew (by decide) rfl (by decide)).2.2.2.1 (by decide)).1)
  · exact runs1 (((o (sessionS { crew with phase := .stopped }) 1).2.2.1 5 _ (by rfl) rfl (by decide)).2.2.2.2.1 (.inl rfl)).1
  · exact runs1 (((((o (sessionS { crew with phase := .stopped }) 1).2.2.1 5 _ (by rfl) rfl (by decide)).2.2.2.2.1 (.inl rfl)).2 31).1 rfl)
  · exact runs1 (((((o (sessionS { crew with phase := .stopped }) 1).2.2.1 5 _ (by rfl) rfl (by decide)).2.2.2.2.1 (.inl rfl)).2 1).2 _ rfl)
  · exact runs1 ((o (sessionS crew) 1).2.2.1 5 crew (by decide) rfl (by decide)).2.2.2.2.2.1
  · exact runs1 ((o (sessionS crew) 1).2.2.1 5 crew (by decide) rfl (by decide)).2.2.2.2.2.2
  · exact runs1 ((o { (one) with funcs := [(1, { (funcOf base 1) with dbg := { (funcOf base 1).dbg with stop := some (5, 1, 0) } })] } 1).2.2.2
      5 1 0 crew rfl rfl)

/-! #### Accesses, leases, releases -/

/-- Access 11 of the fibre of `one`, a word of issue number 2. -/
def acc (op : AccOp) (space : Space) (pa size : Nat) (st : AccSt := .pending) : Acc :=
  { gang := 1280, crew := 5, core := 16, lanes := [0], gid := 2, seq := 2, pc := placedPc, op, space, va := BitVec.ofNat 64 pa, pa, size,
    atHome := true, window := false, rel := false, st }
def accS (a : Acc) (s : State := one) : State := { s with accs := [(11, a)], issue := none }

/-- A line of device memory held by a core, and one that none holds. -/
def lineHeld (core : Nat) (s : State) : State := { s with cache := { s.cache with dir := [(0x400, { emax := 0, holder := some (core, 2048), was := [] })] } }

set_option maxRecDepth 8000 in
theorem witness_AccessEvents (o : Obligations.AccessEvents) :
    Runs (accS (acc (.load 4 false) .sp (spadKey 5 0 0x40) 8)) (.loadDataReturn 11) ∧
    Runs { (accS (acc (.load 4 false) .gl 0x20000 8)) with dies := tabMod dies 0 fun d => { d with isolated := true } } (.loadDataReturn 11) ∧
    Runs (accS (acc (.load 252 false) .gl 0x20000 16)) (.loadDataReturn 11) ∧
    Runs (accS (acc (.store [1, 2]) .gl 0x2007F 2)) (.storeAppliedAtHome 11) ∧
    Runs (lineHeld 16 (accS (acc (.store [1, 2]) .gl 0x20000 2))) (.storeAppliedAtHome 11) ∧
    Runs { (accS (acc (.store [1, 2]) .gl 0x20000 2)) with poison := [0x1000] } (.storeAppliedAtHome 11) ∧
    Runs (accS (acc (.rmw (.op .add) [(0, 1, 0)] (some 4) false) .gl 0x20000 4)) (.storeAppliedAtHome 11) ∧
    Runs (accS (acc (.rmw (.op .add) [(0, 1, 0)] (some 4) false) .gl 0x20000 4)) (.loadDataReturn 11) := by
  refine ⟨?_, ?_, ?_, ?_, ?_, ?_, ?_, ?_⟩
  · have a := (o (accS (acc (.load 4 false) .sp (spadKey 5 0 0x40) 8)) 11 _ rfl rfl (by decide) rfl (by decide) (by decide)).1 4 false 0 rfl rfl
    exact runs1 ((a.1 _ _ oneG _ (a.2.2.1 rfl) rfl rfl).1 (by decide) (by decide))
  · have a := (o { (accS (acc (.load 4 false) .gl 0x20000 8)) with dies := tabMod dies 0 fun d => { d with isolated := true } } 11 _ rfl rfl (by decide) rfl (by decide) (by decide)).1 4 false 0 rfl rfl
    exact runs1 (a.2.1 _ oneG _ (a.2.2.2.2.2.1 rfl (by decide) (by decide) (by decide)) rfl rfl)
  · have a := (o (accS (acc (.load 252 false) .gl 0x20000 16)) 11 _ rfl rfl (by decide) rfl (by decide) (by decide)).1 252 false 0 rfl rfl
    obtain ⟨s1, hm, x⟩ := (a.2.2.2.2.2.2 rfl ⟨by decide, by decide, by decide⟩).2 rfl (by decide) rfl
    rw [if_neg (by decide)] at x
    have hg : (match readAcc (accS (acc (.load 252 false) .gl 0x20000 16)) 11 (acc (.load 252 false) .gl 0x20000 16) with
      | .bytes t _ => decide (gangOf t 1280 = some oneG) && !landsLater t 1280 [0] 2 (accDest (acc (.load 252 false) .gl 0x20000 16))
      | _ => false) = true := by decide
    rw [x] at hg
    simp only [Bool.and_eq_true, decide_eq_true_eq, Bool.not_eq_true'] at hg
    exact runs1 ((a.1 _ _ oneG _ x hg.1 rfl).1 hg.2 (by decide))
  · exact runs1 ((((o (accS (acc (.store [1, 2]) .gl 0x2007F 2)) 11 _ rfl rfl (by decide) rfl (by decide) (by decide)).2.1 [1, 2] rfl rfl rfl).1
      ⟨⟨by decide, by decide, by decide⟩, by decide⟩ (by decide)).1 rfl)
  · exact runs1 ((((o (lineHeld 16 (accS (acc (.store [1, 2]) .gl 0x20000 2))) 11 _ rfl rfl (by decide) rfl (by decide) (by decide)).2.1 [1, 2] rfl rfl
      rfl).1 ⟨⟨by decide, by decide, by decide⟩, by decide⟩ (by decide)).2 (by decide))
  · exact runs1 (((o { (accS (acc (.store [1, 2]) .gl 0x20000 2)) with poison := [0x1000] } 11 _ rfl rfl (by decide) rfl (by decide) (by decide)).2.1
      [1, 2] rfl rfl rfl).2.1 ⟨⟨by decide, by decide, by decide⟩, by decide⟩ (by decide))
  · exact runs1 ((o (accS (acc (.rmw (.op .add) [(0, 1, 0)] (some 4) false) .gl 0x20000 4)) 11 _ rfl rfl (by decide) rfl (by decide) (by decide)).2.2
      (.op .add) [(0, 1, 0)] (some 4) false rfl rfl (by decide) ⟨⟨by decide, by decide, by decide⟩, by decide⟩ (by decide) rfl _ (.inl rfl))
  · exact runs1 ((o (accS (acc (.rmw (.op .add) [(0, 1, 0)] (some 4) false) .gl 0x20000 4)) 11 _ rfl rfl (by decide) rfl (by decide) (by decide)).2.2
      (.op .add) [(0, 1, 0)] (some 4) false rfl rfl (by decide) ⟨⟨by decide, by decide, by decide⟩, by decide⟩ (by decide) rfl _ (.inr ⟨rfl, by decide⟩))

/-- The fibre of `one` waits in MWAIT on a word, with registers from `d` on. -/
def monitorOf (d : Nat) (va : DWord) (woken : Bool) (upto : Option Nat) : Monitor :=
  { gang := 1280, lane := 0, d, wide := true, va, pa := 0x20000, armed := 0, upto, woken, seq := 3 }
def monS (m : Monitor) : State :=
  { (machine (heldG (.mwait 4))) with cache := { base.cache with mons := [(4, m)] }, issue := none, time := { base.time with now := 9 } }

/-- A waiting LDC on a granule in some state. -/
def granS (st : GranState) : State :=
  { (accS (acc (.ldc 4 true) .sp (spadKey 5 0 0x40) 16) (machine (heldG (.ldc 11)))) with gran := [(spadKey 5 0 0x40 / 16, st)] }

/-- A pending store to the first byte of the scratchpad of `one`, by the RS address of it. -/
def rsStore : Acc := { (acc (.store [1]) .rs (spadKey 5 0 0) 1) with va := 0x8000000 }

set_option maxRecDepth 8000 in
theorem witness_LeaseEvents (o : Obligations.LeaseEvents) :
    Runs base (.readLeaseExpiry 16 9) ∧
    Runs { (accS (acc (.rmw (.op .add) [] none false) .gl 0x20000 4)) with time := { base.time with now := 4 } } (.exclusiveLeaseGrant 16 0x400) ∧
    Runs (lineHeld 16 base) (.exclusiveLeaseRecall 0x400) ∧
    Runs { (lineHeld 16 base) with time := { base.time with now := 2048 } } (.exclusiveLeaseExpiry 0x400) ∧
    Runs (monS (monitorOf 254 0x20000 true none)) (.monitorWake 4) ∧ Runs (monS (monitorOf 4 0x20000 false (some 5))) (.monitorTimeout 4) ∧
    Runs (monS (monitorOf 4 0x800000000000 true none)) (.monitorWake 4) ∧
    Runs (granS .full) (.ldcFill 5 (spadKey 5 0 0x40 / 16)) ∧ Runs (granS .failed) (.ldcFill 5 (spadKey 5 0 0x40 / 16)) ∧
    Runs (granS .empty) (.ldcFill 5 (spadKey 5 0 0x40 / 16)) ∧
    Runs (accS rsStore { (one) with crews := [(5, { crew with phase := .saved })] }) (.rsTargetRestored 11) ∧
    Runs (accS rsStore) (.rsTargetRestored 11) ∧ Runs (accS { rsStore with pa := spadKey 6 0 0 }) (.rsTargetRestored 11) ∧
    Runs (accS (acc (.ldc 4 true) .rs (spadKey 6 0 0x40) 16) (machine (heldG (.ldc 11)))) (.rsTargetRestored 11) ∧
    Runs (accS (acc (.store [1]) .gl 0x800000000000 1 .forwarded)) (.hostStoreAcknowledge 11) := by
  refine ⟨?_, ?_, ?_, ?_, ?_, ?_, ?_, ?_, ?_, ?_, ?_, ?_, ?_, ?_, ?_⟩
  · exact runs1 (o.1 base 16 9)
  · exact runs1 (o.2.1 { (accS (acc (.rmw (.op .add) [] none false) .gl 0x20000 4)) with time := { base.time with now := 4 } } 16 0x400 (by decide) rfl
      (by decide) (by decide))
  · exact runs1 (o.2.2.1 (lineHeld 16 base) 0x400 _ rfl (by decide) (by decide) (.inl rfl))
  · exact runs1 (o.2.2.1 { (lineHeld 16 base) with time := { base.time with now := 2048 } } 0x400 _ rfl (by decide) (by decide)
      (.inr ⟨rfl, 16, 2048, rfl, by decide⟩))
  · exact runs1 (((o.2.2.2.1 (monS (monitorOf 254 0x20000 true none)) 4 _ (heldG (.mwait 4)) _ _ rfl rfl rfl rfl rfl).1 _ (okAddr_of (by decide)) (by decide)
      (by decide) (by decide) (by decide) (by decide)).1 rfl)
  · exact runs1 (((o.2.2.2.1 (monS (monitorOf 4 0x20000 false (some 5))) 4 _ (heldG (.mwait 4)) _ _ rfl rfl rfl rfl rfl).1 _ (okAddr_of (by decide))
      (by decide) (by decide) (by decide) (by decide) (by decide)).2 5 rfl (by decide))
  · exact runs1 (((o.2.2.2.1 (monS (monitorOf 4 0x800000000000 true none)) 4 _ (heldG (.mwait 4)) _ _ rfl rfl rfl rfl rfl).2.1 _ (by rfl) rfl
      (by decide)).1 rfl)
  · exact runs1 ((o.2.2.2.2.1 (granS .full) (spadKey 5 0 0x40 / 16) 11 0 4 true _ (heldG (.ldc 11)) _ _ (by rfl) rfl rfl rfl rfl rfl (by decide)).1
      (by decide) (by decide))
  · exact runs1 ((o.2.2.2.2.1 (granS .failed) (spadKey 5 0 0x40 / 16) 11 0 4 true _ (heldG (.ldc 11)) _ _ (by rfl) rfl rfl rfl rfl rfl (by decide)).2.1
      (by decide) rfl (by decide))
  · exact runs1 ((o.2.2.2.2.1 (granS .empty) (spadKey 5 0 0x40 / 16) 11 0 4 true _ (heldG (.ldc 11)) _ _ (by rfl) rfl rfl rfl rfl rfl (by decide)).2.2
      (by decide))
  · exact runs1 (((o.2.2.2.2.2 (accS rsStore { (one) with crews := [(5, { crew with phase := .saved })] }) 11 _ rfl).1 rfl rfl).2.1 (by decide)
      (fun _ _ x => nomatch x))
  · exact runs1 (((o.2.2.2.2.2 (accS rsStore) 11 _ rfl).1 rfl rfl).2.1 (by decide) (fun _ _ x => nomatch x))
  · exact runs1 (((o.2.2.2.2.2 (accS { rsStore with pa := spadKey 6 0 0 }) 11 _ rfl).1 rfl rfl).2.2.2.1 (by decide) (fun _ _ x => nomatch x) 0 _ oneG _
      rfl rfl rfl)
  · exact runs1 (((o.2.2.2.2.2 (accS (acc (.ldc 4 true) .rs (spadKey 6 0 0x40) 16) (machine (heldG (.ldc 11)))) 11 _ rfl).1 rfl rfl).2.2.2.2 (by decide)
      4 true 0 (heldG (.ldc 11)) _ _ rfl rfl rfl rfl rfl rfl (by decide))
  · exact runs1 ((o.2.2.2.2.2 (accS (acc (.store [1]) .gl 0x800000000000 1 .forwarded)) 11 _ rfl).2 rfl)

/-- The fibre of `one` is held; time has come to 9. -/
def holdS (why : HoldWhy) (c : Crew := crew) : State := { (machine (heldG why) c) with issue := none, time := { base.time with now := 9 } }

/-- An arrival at barrier 1. -/
def arrivalOf : Arrival :=
  { gang := 1280, lanes := [0], dst := some (vr 4), bytes := none, credited := none, seq := 3, remote := none, there := true }
def arriveS (b : Barrier) : State := holdS .bararv { crew with bars := [barrier 1, { b with waits := [arrivalOf] }] }

/-- The fibre of `one` is held at the ATTACH of a phase that has begun. -/
def attachG : Gang := { (heldG (.attach (vr 5))) with attaching := true }
def attachS : State := { (machine attachG { elastic with attachDue := some (7, [1280]) }) with issue := none }

theorem held_is {why : HoldWhy} {P : Held → Prop} (hp : P { why, stall := 2, gid := 3, seq := 3 }) {l : Nat} {w : Held}
    (hw : ∃ fb, tabFind (heldG why).fibres l = some fb ∧ fb.held = some w) : P w := by
  obtain ⟨fb, hf, hh⟩ := hw
  have := tabFind_mem hf
  simp only [heldG, oneG, gang, List.map_cons, List.map_nil, List.mem_singleton, Prod.mk.injEq] at this
  rw [this.2] at hh
  exact Option.some.inj hh ▸ hp

set_option maxRecDepth 8000 in
theorem witness_ReleaseEvents (o : Obligations.ReleaseEvents) :
    Runs (holdS (.fence .dev)) (.fenceRelease 1280 0) ∧ Runs (holdS (.sleep 9)) (.sleepExpiry 1280 0) ∧ Runs (holdS (.sleep 10)) (.sleepExpiry 1280 0) ∧
    Runs (holdS (.waitk 3)) (.waitkRelease 1280 3) ∧ Runs (holdS (.barwait 1 0) { crew with bars := [barrier 1, { barrier 2 with phase := 1 }] })
      (.barwaitRelease 1280 0) ∧
    Runs (holdS (.barwait 1 0) { crew with bars := [barrier 1, { barrier 2 with err := 1 }] }) (.barwaitRelease 1280 0) ∧
    Runs (holdS (.barwait 1 0)) (.barwaitRelease 1280 0) ∧ Runs (arriveS (barrier 1)) (.bararvCredit 5 1) ∧
    Runs (arriveS { barrier 1 with bytes := 2 ^ 39 - 1 }) (.bararvCredit 5 1) ∧ Runs (arriveS { barrier 1 with arrived := 1 }) (.bararvCredit 5 1) ∧
    Runs (arriveS { barrier 1 with member := true, mems := [{ gang := 1280, f := 0, arrived := [], dropped := none }] }) (.bararvCredit 5 1) ∧
    Runs attachS (.gangAttach 5) := by
  refine ⟨?_, ?_, ?_, ?_, ?_, ?_, ?_, ?_, ?_, ?_, ?_, ?_⟩
  · exact runs1 (((o.1 (holdS (.fence .dev)) 1280 (heldG (.fence .dev)) rfl).1 0 _ .dev ⟨_, rfl, rfl⟩ rfl).1 (by decide))
  · exact runs1 (((o.1 (holdS (.sleep 9)) 1280 (heldG (.sleep 9)) rfl).2.1 0 _ 9 ⟨_, rfl, rfl⟩ rfl).1 (by decide))
  · exact runs1 (((o.1 (holdS (.sleep 10)) 1280 (heldG (.sleep 10)) rfl).2.1 0 _ 10 ⟨_, rfl, rfl⟩ rfl).2 (by decide))
  · exact runs1 (((o.1 (holdS (.waitk 3)) 1280 (heldG (.waitk 3)) rfl).2.2.1 (by decide) 3).1 (fun l _ hm => absurd hm
      (by simp [inMask, show maskOf (heldG (.waitk 3)) 3 = 0 from by decide])))
  · exact runs1 (((o.1 (holdS (.barwait 1 0) { crew with bars := [barrier 1, { barrier 2 with phase := 1 }] }) 1280 (heldG (.barwait 1 0)) rfl).2.2.2
      0 _ 1 0 _ _ rfl rfl rfl rfl).1 (by decide))
  · exact runs1 (((o.1 (holdS (.barwait 1 0) { crew with bars := [barrier 1, { barrier 2 with err := 1 }] }) 1280 (heldG (.barwait 1 0)) rfl).2.2.2
      0 _ 1 0 _ _ rfl rfl rfl rfl).2.1 (by decide) (by decide) rfl (by decide))
  · exact runs1 (((o.1 (holdS (.barwait 1 0)) 1280 (heldG (.barwait 1 0)) rfl).2.2.2 0 _ 1 0 _ _ rfl rfl rfl rfl).2.2 (by decide) (by decide))
  · exact runs1 (((o.2.1 (arriveS (barrier 1)) 5 1 _ _ arrivalOf rfl rfl rfl rfl rfl rfl (by decide) (by decide)).1 rfl (by decide)).1 (by decide)
      (by decide) (by decide))
  · exact runs1 (((o.2.1 (arriveS { barrier 1 with bytes := 2 ^ 39 - 1 }) 5 1 _ _ arrivalOf rfl rfl rfl rfl rfl rfl (by decide) (by decide)).1 rfl
      (by decide)).2 (.inr (.inl (by decide))))
  · exact runs1 ((o.2.1 (arriveS { barrier 1 with arrived := 1 }) 5 1 _ _ arrivalOf rfl rfl rfl rfl rfl rfl (by decide) (by decide)).2.1 rfl (by decide))
  · exact runs1 (((o.2.1 (arriveS { barrier 1 with member := true, mems := [{ gang := 1280, f := 0, arrived := [], dropped := none }] }) 5 1 _ _
      arrivalOf rfl rfl rfl rfl rfl rfl (by decide) (by decide)).2.2 _ rfl (by rfl)).2.1 (by decide) (by decide) (by decide) (by decide)
      (by decide))
  · exact runs1 (o.2.2 attachS 5 7 [1280] _ _ rfl rfl rfl (by decide) (by decide) (by decide) (by decide))

/-! #### Engine threads, conversions, the render pass -/

/-- Thread 20 of the crew of `one`, with one part. -/
def copyOf (op : CopyOp) (part : PartSt := .todo) (bar : Option Nat := some 1) : Copy :=
  { gang := 1280, lane := 0, crew := 5, core := 16, part := 0, gid := 2, seq := 2, bar, rel := false, op, parts := [(0, part)], unread := 1 }
def copyS (cp : Copy) (s : State := one) : State := { s with copies := [(20, cp)], issue := none, time := { base.time with now := 9 } }
def desc1 : Desc := { desc with box := [0, 0, 0, 0, 0] }
def boxOp : CopyOp := .box 0 0x40000 desc1 [0, 0, 0, 0, 0] false none [(spadKey 5 0 0, none)] true none

/-- Die 1 converts a handle from ROW to ZTILE; its tile 0 is or is not locked. -/
def convOf (locked : Bool) : Conv :=
  { pos := 1, part := 0, addr := 0x40000, handle := 0, desc := { desc with tag := 0, newTag := 3, tile := 2, newBase := 0x70000, state := 1 }, tile := 0,
    locked, settle := some 5, svc := false }
def convS (locked : Bool) (now : Nat) : State := { tens with convs := [(4, convOf locked)], issue := none, time := { base.time with now } }

/-- The same with elements that no page maps. -/
def farConv : State := { (convS false 9) with convs := [(4, { (convOf false) with desc := { (convOf false).desc with base := 0x800000000000 } })] }

/-- A locked tile whose writes to a window have not been acknowledged. -/
def farSettle : State := { (convS true 9) with convs := [(4, { (convOf true) with settle := none })] }

/-- A translation through a cached entry that agrees with the walk. -/
theorem translate_hit {s : State} {pos part : Nat} {svc : Bool} {k : AccessKind} {va : DWord} (idx : Nat) {e : TlbEntry} {x : Xl}
    (hv : va.toNat < 140737488355328) (h1 : tlbHits s pos part svc va.toNat = [e]) (hw : freshWalk s part svc k va = .ok x)
    (hp : windowFault s part (e.pa va.toNat) = none) (hl : leafFault s k e.leaf (e.pa va.toNat) = none)
    (hx : x = { pa := e.pa va.toNat, page := e.page, size := e.size, leaf := e.leaf, svc := e.svc }) :
    translate s pos part svc k va idx = .ok x := by
  unfold Machine.translate
  rw [if_neg (by omega), h1]
  dsimp only
  split
  · exact hw
  · rename_i y hy
    obtain rfl : e = y := by
      generalize Config.freeNat idx _ = n at hy
      rcases n with _ | n
      · simpa using hy
      · simp at hy
    rw [hp]
    dsimp only
    rw [hl, hx]

theorem engXl_of {s : State} {g : Agent} {k : AccessKind} {va : DWord} {x : Xl} (ht : translate s g.pos g.part g.svc k va (engIdx s) = .ok x)
    (hl : addrLost s x.pa = false) : engXl s g k va = .ok ({ tlbAdd s g.pos g.part x with free := s.free + 1 }, x) := by
  unfold engXl
  rw [ht]
  dsimp only
  rw [hl]
  rfl

theorem engWrite_of {s s1 : State} {g : Agent} {va : DWord} {x : Xl} (bs : List Byte) (hx : engXl s g .write va = .ok (s1, x))
    (hb : (!isHost x.pa && !isPeer x.pa && !partlyPoison s1 x.pa bs.length) = true) : ∃ r, engWrite s g va bs = .ok r := by
  simp only [Bool.and_eq_true, Bool.not_eq_true'] at hb
  unfold engWrite
  rw [hx]
  dsimp only
  rw [hb.1.1, hb.1.2, hb.2]
  exact ⟨_, rfl⟩

/-- The translation of the bitmap's address. -/
def bitXl : Xl := { descXl with pa := 0x60000 }
def bitS : State := { tlbAdd (convS true 9) 1 0 bitXl with free := (convS true 9).free + 1 }

set_option maxRecDepth 16000 in
theorem setTile_ok : ∃ s1, setTileBit (convS true 9) (convOf true) = .ok s1 := by
  have a : engXl (convS true 9) (convAgent (convOf true)) .write (BitVec.ofNat 64 ((convOf true).desc.bmap + (convOf true).tile / 8)) =
      .ok (bitS, bitXl) := engXl_of (gives_of (by decide)) (by decide)
  have b : engXl bitS (convAgent (convOf true)) .write (BitVec.ofNat 64 ((convOf true).desc.bmap + (convOf true).tile / 8)) = .ok (_, bitXl) :=
    engXl_of (translate_hit _ (by decide) (e := { pos := 1, part := 0, page := 0, size := 0x80000000, leaf := 0xF, svc := false }) (by decide)
      (gives_of (by decide)) (by decide) (by decide) (by decide)) (by decide)
  obtain ⟨r, hr⟩ := engWrite_of [((anyRead bitS 0x60000 1).headD 0) ||| (1#8 <<< ((convOf true).tile % 8))] b (by decide)
  refine ⟨r.1, ?_⟩
  unfold setTileBit
  dsimp only
  rw [a]
  dsimp only
  rw [show bitXl.pa = 0x60000 from rfl, hr]

set_option maxRecDepth 16000 in
theorem witness_ThreadEvents (o : Obligations.ThreadEvents) :
    Runs (copyS (copyOf (.bankSp true 0 (spadKey 5 0 0)))) (.copyPartLand 20 0) ∧
    Runs (copyS (copyOf (.bankSp false 0 (spadKey 5 0 0)))) (.copyPartLand 20 0) ∧
    Runs (copyS (copyOf boxOp) tens) (.copyPartLand 20 0) ∧ Runs (copyS (copyOf (.glbOut 0x20000 (spadKey 5 0 0)))) (.copyPartLand 20 0) ∧
    Runs (copyS (copyOf (.bankGl true 0 0x20000))) (.copyPartLand 20 0) ∧
    Runs (copyS (copyOf (.ray [] 0 0 [] [] 0 (some 0)) (.applied 5))) (.copyPartLand 20 0) ∧ Runs (copyS (copyOf (.ray [] 0 0 [] [] 0 (some 0)) (.applied 5))) (.tracefCompletion 20 0) ∧
    Runs (copyS (copyOf (.glbOut 0x800000000000 (spadKey 5 0 0)))) (.copyFault 20 0) ∧
    Runs (holdS (.hinv 0 none 0)) (.hinvCompletion 1280 0) ∧ Runs (holdS (.hinv 0 none 9)) (.hinvCompletion 1280 0) ∧
    Runs farConv (.relayoutTileConversion 1) ∧ Runs (convS true 9) (.relayoutTileConversion 1) ∧ Runs (convS true 4) (.relayoutTileConversion 1) ∧
    Runs (copyS (copyOf (.glbOut 0x20000 (spadKey 5 0 0)) .forwarded)) (.copyPartLand 20 0) ∧ Runs farSettle (.relayoutTileConversion 1) := by
  refine ⟨?_, ?_, ?_, ?_, ?_, ?_, ?_, ?_, ?_, ?_, ?_, ?_, ?_, ?_, ?_⟩
  · exact runs1 (((o.1 (copyS (copyOf (.bankSp true 0 (spadKey 5 0 0)))) 20 0 _ crew rfl rfl rfl (by decide)).1 rfl (by decide) (by decide)).1 0
      (spadKey 5 0 0) rfl (by decide) (by decide) (by decide))
  · exact runs1 (((o.1 (copyS (copyOf (.bankSp false 0 (spadKey 5 0 0)))) 20 0 _ crew rfl rfl rfl (by decide)).1 rfl (by decide) (by decide)).2.1 0
      (spadKey 5 0 0) rfl (by decide) (by decide))
  · obtain ⟨⟨s1, bs⟩, hv⟩ := ok_of (x := granBytes (copyS (copyOf boxOp) tens) (copyOf boxOp) 0x40000 desc1 [0, 0, 0, 0, 0] false none none 0)
      (by decide)
    have hs : (match granBytes (copyS (copyOf boxOp) tens) (copyOf boxOp) 0x40000 desc1 [0, 0, 0, 0, 0] false none none 0 with
      | .ok (_, b) => decide (b.length = 16)
      | .error _ => false) = true := by decide
    rw [hv] at hs
    exact runs1 (((o.1 (copyS (copyOf boxOp) tens) 20 0 _ crew rfl rfl rfl (by decide)).1 rfl (by decide) (by decide)).2.2.1 0 0x40000 desc1
      [0, 0, 0, 0, 0] false none [(spadKey 5 0 0, none)] true none (spadKey 5 0 0) none s1 bs rfl rfl (by decide) (by decide) hv (of_decide_eq_true hs)).1
  · obtain ⟨⟨s1, τ⟩, hv⟩ := ok_of (x := engWrite (copyS (copyOf (.glbOut 0x20000 (spadKey 5 0 0))))
      (agentOf (copyS (copyOf (.glbOut 0x20000 (spadKey 5 0 0)))) (copyOf (.glbOut 0x20000 (spadKey 5 0 0)))) (0x20000 + BitVec.ofNat 64 (16 * 0))
      (spRange 0#8 [] (spadKey 5 0 0 + 16 * 0) 16)) (by decide)
    exact runs1 (((o.1 (copyS (copyOf (.glbOut 0x20000 (spadKey 5 0 0)))) 20 0 _ crew rfl rfl rfl (by decide)).1 rfl (by decide) (by decide)).2.2.2.1
      0x20000 (spadKey 5 0 0) s1 τ rfl hv)
  · obtain ⟨s1, τ, hv⟩ : ∃ s1 τ, anyPartNow (copyS (copyOf (.bankGl true 0 0x20000))) (copyOf (.bankGl true 0 0x20000)) 0 = .applied s1 τ := by
      have hs : (match anyPartNow (copyS (copyOf (.bankGl true 0 0x20000))) (copyOf (.bankGl true 0 0x20000)) 0 with
        | .applied _ _ => true
        | _ => false) = true := by decide
      generalize anyPartNow (copyS (copyOf (.bankGl true 0 0x20000))) (copyOf (.bankGl true 0 0x20000)) 0 = r at hs
      cases r <;> simp at hs ⊢
    exact runs1 (((o.1 (copyS (copyOf (.bankGl true 0 0x20000))) 20 0 _ crew rfl rfl rfl (by decide)).1 rfl (by decide) (by decide)).2.2.2.2.1 s1 τ hv).1
  · exact runs1 ((o.1 (copyS (copyOf (.ray [] 0 0 [] [] 0 (some 0)) (.applied 5))) 20 0 _ crew rfl rfl rfl (by decide)).2.1 5 rfl (by decide)).1
  · exact runs1 (((o.1 (copyS (copyOf (.ray [] 0 0 [] [] 0 (some 0)) (.applied 5))) 20 0 _ crew rfl rfl rfl (by decide)).2.1 5 rfl (by decide)).2 [] 0 0 [] [] 0 (some 0) rfl)
  · exact runs1 ((o.1 (copyS (copyOf (.glbOut 0x800000000000 (spadKey 5 0 0)))) 20 0 _ crew rfl rfl rfl (by decide)).2.2.2 _ _ rfl (by rfl)
      (fun _ x => nomatch x))
  · exact runs1 ((o.2.1 (holdS (.hinv 0 none 0)) 1280 0 0 0 none _ _ _ rfl rfl rfl rfl).1 rfl (by decide))
  · exact runs1 ((o.2.1 (holdS (.hinv 0 none 9)) 1280 0 0 9 none _ _ _ rfl rfl rfl rfl).2 (by decide) (by decide))
  · exact runs1 (((o.2.2 farConv 1 4 _ (by rfl) (by decide) (by decide)).1 rfl).2 _ _ (by rfl))
  · obtain ⟨s1, hs⟩ := setTile_ok
    exact runs1 (((o.2.2 (convS true 9) 1 4 (convOf true) (by rfl) (by decide) (by decide)).2.1 rfl ⟨5, rfl, by decide⟩ s1 hs).1 (by decide))
  · exact runs1 ((o.2.2 (convS true 4) 1 4 (convOf true) (by rfl) (by decide) (by decide)).2.2.1 rfl ⟨5, rfl, by decide⟩)
  · exact runs1 ((o.1 (copyS (copyOf (.glbOut 0x20000 (spadKey 5 0 0)) .forwarded)) 20 0 _ crew rfl rfl rfl (by decide)).2.2.1 rfl).1
  · exact runs1 ((o.2.2 farSettle 1 4 _ (by rfl) (by decide) (by decide)).2.2.2 rfl rfl)

/-- A pass of 16 × 16 pixels of partition 0, with a geometry die, whose region 0 the raster unit 0 of die 1 owns; the numbers below 1
have been emitted. -/
def passS (f : RendSt → RendSt) : State :=
  let s := cfgSet (cfgSet (cfgSet (cfgSet (cfgSet base 0x1004 0x100010) 0x100C 16) 0x2000 1) 0x1024 0x60000) 0x104C 0x100
  let s := cfgSet (placeBytes s 0x60000 serviceRecord) (cfgAddr 2 0x280) 1
  { s with
    dies := tabPut s.dies 2 { newDie .geometry 0 with inService := true, health := 0xFFFF }
    rend := f { s.rend with passOpen := true, geo := [2], marks := [(0, 1, [])] } }

/-- A packet whose one triangle covers pixels (0, 0) to (2, 2) and more, and one without triangles. -/
def packetOf (tris : List (Nat × Nat × Nat)) (todo : List Nat := []) : Packet :=
  { off := 0, pos := 2, gang := 0, lanes := [0], seq := 3, svc := false, nattr := 0, abase := 0,
    verts := [{ x := 0, y := 0, z := 0, aref := 0 }, { x := 0, y := 1024, z := 0, aref := 0 }, { x := 1024, y := 0, z := 0, aref := 0 }],
    tris, attrs := none, todo }
def windowS (p : Packet) (vis : Bool := false) : State :=
  cfgSet (passS fun r => { r with pkts := [(3, p)], wins := [(0, [3])] }) 0x1000 (if vis then 0x20000000 else 0)

/-- A fragment of a pixel of region 0. -/
def fragOf (f : Fragment → Fragment) : State := passS fun r =>
  { r with frags := [f { off := 0, m := 0, region := 0, gang := 1280, lane := 0, seq := 4, x := 1, y := 2, tgt := 0, val := [0, 0, 0, 0] }] }

/-- An entry on its way to a queue. -/
def entryOf' : MicroTri := { pos := 1, queue := 0, region := 0, bytes := List.replicate 64 1, slot := none }
def microS (lg : Word) : State :=
  let s := cfgSet (cfgSet (passS fun r => { r with micro := [entryOf'] }) (cfgAddr 1 0x1104) lg) (cfgAddr 1 0x1100) 0x8000000
  { s with crews := [(5, crew)] }

/-- The last of a close: every number has been emitted. -/
def closeS (ended : Bool) : State := passS fun r => { r with closing := true, ended, marks := [(0, (16, []))] }

/-- No pass is open. -/
def noPass : State := passS fun r => { r with passOpen := false }

/-- The pixel shift record that a pass reads is acceptable. -/
def goodRecord (x : Except EngFault (State × Xl × List Byte)) : Bool := match x with
  | .ok (t, _, bs) => decide (∀ z ∈ pixelRejections t bs, z.2 = false)
  | .error _ => false

theorem goodRecord_of {x : Except EngFault (State × Xl × List Byte)} {P : Prop} (key : ∀ s1 y bs, x = .ok (s1, y, bs) →
    (∀ z ∈ pixelRejections s1 bs, z.2 = false) → P) (hb : goodRecord x = true) : P := by
  cases x with
  | error _ => simp [goodRecord] at hb
  | ok r => exact key r.1 r.2.1 r.2.2 rfl (of_decide_eq_true hb)

/-- A record that no page maps, and a record of zeros. -/
def farRecord : State := cfgSet noPass 0x1028 0x4000
def badRecord : State := cfgSet noPass 0x1024 0x70000

/-- The pass registers once PASSCTL has been written. -/
def opening (s : State) (v : Word) : State :=
  cfgSet { s with rend := { s.rend with qerr := s.rend.qerr && !v.getLsbD 19, verr := s.rend.verr && !v.getLsbD 18 } } 0x1000 (v &&& 0x3F00001F)

theorem opens_of (o : Obligations.RenderEvents) (s : State) (v : Word) (hp : s.rend.passOpen = false)
    (hg : (tabKeys (opening s v).dies).filter (dieServes (opening s v) .geometry (passPart (opening s v))) ≠ [])
    (hw : 1 ≤ passWidth (opening s v) ∧ passWidth (opening s v) ≤ 16384 ∧ 1 ≤ passHeight (opening s v) ∧ passHeight (opening s v) ≤ 16384)
    (hr : goodRecord (engRead (opening s v) (passAgent (opening s v) 0) (pixRecord (opening s v)) 256) = true) : Runs s (.passOpen v) :=
  goodRecord_of (fun s1 x bs hv hs => runs1 ((((o.2.1 s v).2 hp).2.2 s1 x bs hv).2.2 hs hg hw)) hr

/-- The state once the record of zeros has been read, and the translation used. -/
def badXl : Xl := { descXl with pa := 0x70000 }
def badRead : State :=
  let s := opening badRecord 0x80000000
  recallRange { tlbAdd s 0 0 badXl with free := s.free + 1 } 0x70000 256

set_option maxRecDepth 16000 in
theorem badRead_ok : engRead (opening badRecord 0x80000000) (passAgent (opening badRecord 0x80000000) 0) (pixRecord (opening badRecord 0x80000000)) 256 =
    .ok (badRead, badXl, List.replicate 256 0) := by
  have a : engXl (opening badRecord 0x80000000) (passAgent (opening badRecord 0x80000000) 0) .read (pixRecord (opening badRecord 0x80000000)) =
      .ok ({ tlbAdd (opening badRecord 0x80000000) 0 0 badXl with free := (opening badRecord 0x80000000).free + 1 }, badXl) :=
    engXl_of (gives_of (by decide)) (by decide)
  have b : memRead badRead 0x70000 256 = List.replicate 256 0 := by decide
  unfold engRead
  rw [a]
  dsimp only
  rw [if_neg (by decide), if_neg (by decide), if_neg (by decide), ← b]
  rfl

set_option maxRecDepth 16000 in
theorem badStatus_ok : ∃ s2 τ, engWrite badRead (passAgent badRead 0) (pixRecord badRead + 55) [BitVec.ofNat 8 (0x80 + 2)] = .ok (s2, τ) := by
  have b : engXl badRead (passAgent badRead 0) .write (pixRecord badRead + 55) = .ok (_, { badXl with pa := 0x70037 }) :=
    engXl_of (translate_hit _ (by decide) (e := { pos := 0, part := 0, page := 0, size := 0x80000000, leaf := 0xF, svc := false }) (by decide)
      (gives_of (by decide)) (by decide) (by decide) (by decide)) (by decide)
  obtain ⟨r, hr⟩ := engWrite_of [BitVec.ofNat 8 (0x80 + 2)] b (by decide)
  exact ⟨r.1, r.2, hr⟩

set_option maxRecDepth 16000 in
theorem witness_passOpen (o : Obligations.RenderEvents) : Runs noPass (.passOpen 0x80000000) ∧
    Runs { noPass with dies := dies } (.passOpen 0x80000000) ∧ Runs farRecord (.passOpen 0x80000000) ∧
    Runs badRecord (.passOpen 0x80000000) := by
  refine ⟨opens_of o noPass 0x80000000 rfl (by decide) (by decide) (by decide), ?_, ?_, ?_⟩
  · exact goodRecord_of (x := engRead (opening { noPass with dies := dies } 0x80000000) (passAgent (opening { noPass with dies := dies } 0x80000000) 0)
      (pixRecord (opening { noPass with dies := dies } 0x80000000)) 256)
      (fun s1 x bs hv hs => runs1 ((((o.2.1 { noPass with dies := dies } 0x80000000).2 rfl).2.2 s1 x bs hv).2.1 hs (.inl (by decide)))) (by decide)
  · exact runs1 (((o.2.1 farRecord 0x80000000).2 rfl).2.1 _ (by rfl))
  · obtain ⟨s2, τ, hw⟩ := badStatus_ok
    exact runs1 ((((o.2.1 badRecord 0x80000000).2 rfl).2.2 _ _ _ badRead_ok).1 2 s2 τ (by decide) hw)

/-- No entry has been written to a queue. -/
theorem taken_of {s : State} (hb : (s.rend.micro.all fun e => e.slot.isNone) = true) : takenEntries s = s := by
  have hm : (takenEntries s).rend.micro = s.rend.micro := List.filter_eq_self.2 fun e he => by
    have := List.all_eq_true.1 hb e he
    cases hs : e.slot with
    | none => rfl
    | some k => rw [hs] at this; cases this
  show { s with rend := { s.rend with micro := (takenEntries s).rend.micro } } = s
  rw [hm]

set_option maxRecDepth 16000 in
theorem witness_RenderEvents (o : Obligations.RenderEvents) :
    Runs base (.claimEntryWrite 2047 5) ∧ Runs (passS id) (.claimEntryWrite 0 5) ∧
    Runs (passS fun r => { r with held := [(0, (1, true))] }) (.claimEntryWrite 0 5) ∧
    Runs (passS id) (.passOpen 0x80000000) ∧ Runs (passS id) (.passClose 0x40000000) ∧ Runs (passS fun r => { r with passOpen := false }) (.passClose 0) ∧
    Runs (passS fun r => { r with pkts := [(3, packetOf [] [0, 1])] }) (.packetDelivery 3 1) ∧
    Runs (windowS { (packetOf []) with off := 1 }) (.packetRelease 0) ∧ Runs (windowS (packetOf [])) (.packetRelease 0) ∧
    Runs (windowS (packetOf [(0, 1, 2)])) (.packetRelease 0) ∧ Runs (windowS (packetOf [(0, 1, 2)]) true) (.packetRelease 0) ∧
    Runs (microS 0) (.microTriangleEnqueue 1 0) ∧ Runs (microS 12) (.microTriangleEnqueue 1 0) ∧
    Runs { (fragOf id) with gangs := [(1280, oneG)] } (.fragmentBlend 1 2) ∧ Runs (fragOf fun f => { f with tgt := 7 }) (.fragmentBlend 1 2) ∧
    Runs (fragOf id) (.fragmentBlend 1 2) ∧ Runs (passS fun r => { r with rcache := [(0x20000, 7), (0x20001, 8)] }) (.regionCacheEviction 0x400) ∧
    Runs base (.regionFlushGo 0) ∧ Runs (passS id) (.regionFlushGo 0x80000FFF) ∧
    Runs (passS fun r => { r with flushing := true, flushRegion := 3, held := [(3, (1, false))] }) .regionFlushCompletion ∧
    Runs (closeS false) .passCloseCompletion ∧ Runs (closeS true) .passCloseCompletion := by
  obtain ⟨claims, opens, delivery, release, micro, blend, evict, flush, flushed, closes⟩ := o
  refine ⟨?_, ?_, ?_, ?_, ?_, ?_, ?_, ?_, ?_, ?_, ?_, ?_, ?_, ?_, ?_, ?_, ?_, ?_, ?_, ?_, ?_, ?_⟩
  · exact runs1 ((claims base 2047 5 (by decide)).1 rfl)
  · exact runs1 ((claims (passS id) 0 5 (by decide)).2.1 rfl (fun _ _ _ x => nomatch x))
  · exact runs1 ((claims (passS fun r => { r with held := [(0, (1, true))] }) 0 5 (by decide)).2.2 1 rfl rfl rfl)
  · exact runs1 ((opens (passS id) 0x80000000).1 rfl).1
  · exact runs1 ((opens (passS id) 0x40000000).1 rfl).2
  · exact runs1 ((opens (passS fun r => { r with passOpen := false }) 0).2 rfl).1
  · exact runs1 (delivery (passS fun r => { r with pkts := [(3, packetOf [] [0, 1])] }) 3 _ rfl (.inl rfl) (by decide) 1)
  · exact runs1 ((release (windowS { (packetOf []) with off := 1 }) 0 3 _ rfl).1 (.inl (by decide)))
  · exact runs1 (((release (windowS (packetOf [])) 0 3 _ rfl).2 (by decide) (by decide)).1 (.inr rfl))
  · exact runs1 ((((release (windowS (packetOf [(0, 1, 2)])) 0 3 _ rfl).2 (by decide) (by decide)).2 1 0 (0, 1, 2) _ (by decide) rfl
      (by rfl)).2.2 (by decide) (by decide))
  · exact runs1 ((((release (windowS (packetOf [(0, 1, 2)]) true) 0 3 _ rfl).2 (by decide) (by decide)).2 1 0 (0, 1, 2) _ (by decide) rfl
      (by rfl)).1 (by decide) (by decide))
  · exact runs1 ((micro (microS 0) 1 0 entryOf' (taken_of (by decide)) (by decide) (by decide)).1 (by decide))
  · exact runs1 (((micro (microS 12) 1 0 entryOf' (taken_of (by decide)) (by decide) (by decide)).2 12 (spadKey 5 0 0) (by decide) (by decide)).2 (by decide) (by decide)
      (by decide) (by decide))
  · exact runs1 ((blend { (fragOf id) with gangs := [(1280, oneG)] } 1 2 _ rfl).1 (.inl (by decide)))
  · exact runs1 (((blend (fragOf fun f => { f with tgt := 7 }) 1 2 _ rfl).2 (by decide) (by decide)).1 (.inr (by decide)))
  · obtain ⟨g, hg⟩ : ∃ g, targetOf (fragOf id) 0 = some g := ⟨_, rfl⟩
    obtain ⟨⟨s1, x⟩, hv⟩ := ok_of (x := engXl { (fragOf id) with rend := { (fragOf id).rend with frags := [] } }
      (passAgent { (fragOf id) with rend := { (fragOf id).rend with frags := [] } } 1) .write (pixelAddr g 1 2)) (by
        obtain rfl := Option.some.inj hg; decide)
    have hs : (match engXl { (fragOf id) with rend := { (fragOf id).rend with frags := [] } }
        (passAgent { (fragOf id) with rend := { (fragOf id).rend with frags := [] } } 1) .write (pixelAddr g 1 2) with
      | .ok (t, y) => decide (isPeer y.pa = false) && decide (readsPoison t y.pa (pixelBytes g.fmt) = false)
      | .error _ => false) = true := by obtain rfl := Option.some.inj hg; decide
    rw [hv] at hs
    simp only [Bool.and_eq_true, decide_eq_true_eq] at hs
    exact runs1 (((blend (fragOf id) 1 2 _ rfl).2 (by decide) (by decide)).2 1 0 g s1 x (by decide) hg hv hs.1 hs.2)
  · exact runs1 (evict (passS fun r => { r with rcache := [(0x20000, 7), (0x20001, 8)] }) 0x400 (by decide) (by decide))
  · exact runs1 ((flush base 0).1 (.inl rfl))
  · exact runs1 ((flush (passS id) 0x80000FFF).2 rfl rfl)
  · exact runs1 (flushed (passS fun r => { r with flushing := true, flushRegion := 3, held := [(3, (1, false))] }) 1 false (taken_of (by decide)) rfl rfl (by decide)
      (by decide) (by decide) (by decide))
  · exact runs1 ((closes (closeS false) (taken_of (by decide)) rfl rfl (by decide) (by decide) (by decide) (by decide)).1 rfl)
  · exact runs1 ((closes (closeS true) (taken_of (by decide)) rfl rfl (by decide) (by decide) (by decide) (by decide)).2 rfl (by decide))

/-! #### Bundles, rounding, encodings, steps -/

/-- The fibre of `one` between two words. -/
def idle : State := { (one) with issue := none }

set_option maxRecDepth 8000 in
theorem witness_IssueEvents (o : Obligations.IssueEvents) :
    Runs idle (.bundleRegroup 1 0 0) ∧ Runs idle (.bundleIssue 1 0 0) ∧ Runs idle .surveyTick :=
  ⟨runs1 (o.1 idle 1 0 0 1280 oneG (by decide) rfl (by decide) (by decide) (by decide) (by decide)),
   runs1 (o.2.1 idle 1 0 0 0 core1 rfl (by decide) (by decide)), runs1 (o.2.2 idle)⟩

/-- The least subnormal of FP32 lies within range, and 2^128 beyond it; a NaN, a zero and ∞ have codes. -/
theorem witness_RoundingRule (o : Obligations.RoundingRule) :
    (finiteCode fmtFP32 (roundFin fmtFP32 .ru false false 1 (-149)).1) ∧
    roundFin fmtE4M3 .rne false true 1 128 = (fmtE4M3.big true, flagOF ||| flagNX) ∧
    fmtFP16.ofValue .rd false (fmtFP16.value 0xFC00) = (0xFC00, 0) := by
  refine ⟨?_, ?_, ?_⟩
  · exact ((o.1 fmtFP32 .ru false 1 (-149) (-149) (.inl ⟨by decide, by decide⟩) (by decide) (by decide) (by decide)).1 (by decide)).1
  · exact (o.1 fmtE4M3 .rne true 1 128 (-10) (.inr ⟨by decide, rfl⟩) (by decide) (by decide) (by decide)).2 (by decide)
  · exact o.2.1 fmtFP16 (by decide) .rd false 0xFC00 (by decide) (by decide) (fun x => nomatch x)

theorem witness_ExactRule (o : Obligations.ExactRule) :
    (addV .rd (.fin false 1 3) (.fin true 1 3)).2 = 0 ∧ (mulV (.fin true 3 1) (.fin true 0 2)).1.neg = false ∧
    addV .rne .nan (.inf true) = (.nan, 0) ∧ fmaV .rne (.inf true) (.fin false 0 0) (.fin false 1 0) = (.nan, flagNV) ∧
    minmaxF fmtFP32 false 0x80000000 0 = 0x80000000 ∧ minmaxF fmtFP32 true 0x7FC00000 0 = 0 ∧ compareF .ord 0 0x80000000 = true := by
  refine ⟨?_, ?_, ?_, ?_, ?_, ?_, ?_⟩
  · exact (o.1.1 .rd (.fin false 1 3) (.fin true 1 3) 3 (Int.le_refl 3) (Int.le_refl 3)).1
  · exact (o.1.2.1 (.fin true 3 1) (.fin true 0 2) 1 2 (Int.le_refl 1) (Int.le_refl 2)).2.2.2
  · exact (o.1.2.2.1 .rne .nan (.inf true) .nan (.inl rfl)).1
  · rw [o.1.2.2.2.2 .rne (.inf true) (.fin false 0 0) (.fin false 1 0) (by decide) (by decide) (by decide),
      (((o.1.2.2.2.1 .rne true .nan 1 0 (by decide)).2.2.2 false).1)]
    rfl
  · exact (((o.2.1 fmtFP32 (by decide) 0x80000000 0 (-149) (by decide) (by decide) (by decide)).2.2.2.1 true 0 (-149) false 0 (-149) (by decide)
      (by decide)).2.2 rfl rfl rfl rfl).1
  · exact ((o.2.1 fmtFP32 (by decide) 0x7FC00000 0 (-149) (by decide) (by decide) (by decide)).2.1 (by decide) (by decide)).2
  · exact ((o.2.2 0 0x80000000 (-149) (by decide) (by decide) (by decide)).2.1 (by decide) (by decide)).1

/-- `IADDI s63, v255, -1` to its word and back; a word of class 0xF; and a pair word whose D is no multiple of 4. -/
theorem witness_WordsRoundTrip (o : Obligations.WordsRoundTrip) :
    (∀ w, encode (.iaddi h (sr 63) (vr 255) 0x1FFFF) = some w → decode w = .ok (.iaddi h (sr 63) (vr 255) 0x1FFFF)) ∧
    (encode (.iaddi h (sr 63) (vr 255) 0x1FFFF)).isSome ∧ (Instr.nop h).wellFormed = true ∧ decode 0x0E001FFFFFFFFFFF = .error .illegal := by
  refine ⟨fun w hw => o.1 _ w (by decide) hw, by decide, (o.2.1 (.nop h) 0x0E00000000000000 (by rfl)).1, ?_⟩
  exact (o.2.2.2 0x0E001FFFFFFFFFFF).2.2 (by decide) (.inl (by decide))

/-- The translation of the placed word. -/
def placedXl : Xl := { descXl with pa := 0x10000 }
def nopS : State := one.withFetchWord 64 0x0E00000000000000
def badS : State := one.withFetchWord 64 0x0E001A0000000000

set_option maxRecDepth 8000 in
theorem witness_StepRuns (o : Obligations.StepRuns) : (∃ t, step nopS = .next t) ∧ (∃ t, step badS = .next t) ∧
    step base = exec (nextMove base).1 (nextMove base).2 := by
  refine ⟨?_, ?_, o.2 base rfl⟩
  · have a := (o.1 nopS oneB oneG placedXl rfl rfl (by decide) (gives_of (by decide)) (by decide) (by decide) (by decide) (by decide)
      (noRecall_of rfl rfl) (by decide) (by decide)).2.1
    obtain ⟨v, hv, -⟩ := a (.nop h) _ (by rfl) (by rfl)
    exact ⟨v, hv⟩
  · have a := (o.1 badS oneB oneG placedXl rfl rfl (by decide) (gives_of (by decide)) (by decide) (by decide) (by decide) (by decide)
      (noRecall_of rfl rfl) (by decide) (by decide)).2.2
    obtain ⟨v, hv, -⟩ := a .illegal (by rfl) (one_handles rfl (by decide)) (by decide) (by decide) (by decide)
    exact ⟨v, hv⟩

theorem witness_StepAnswers (o : Obligations.StepAnswers) : (∃ t, step one = .next t) ∧ ∃ t, step State.reset = .next t :=
  ⟨let ⟨t, ht, _⟩ := o one (fun b hb => by obtain rfl : oneB = b := Option.some.inj hb; rfl)
   ⟨t, ht⟩,
   let ⟨t, ht, _⟩ := o State.reset (fun b hb => nomatch hb)
   ⟨t, ht⟩⟩

theorem witness_StepKeepsMemory (o : Obligations.StepKeepsMemory) (a : Obligations.StepAnswers) :
    ∃ t, step one = .next t ∧ Memory.wf t.mem = true :=
  let ⟨t, ht⟩ := (witness_StepAnswers a).1
  ⟨t, ht, (o one t (by decide) (by decide) ht).1⟩

/-- A fibre whose v5 was written 3 units ago, with latency 4. -/
def youngFb : Fibre := { newFibre placedPc 0 with sum := 10, chk := true, haz := [{ reg := vRef 5, old := 1, due := 11 }] }
def youngG : Gang := { oneG with fibres := [(0, youngFb)] }

theorem witness_EarlyReads (o : Obligations.EarlyReads) :
    readReg (one) youngG 0 (vRef 6) = regNow youngG youngFb (vRef 6) ∧ youngOwn youngFb (vRef 5) ≠ [] ∧
    (∃ t, scoreCheck (one) 1280 youngG [vRef 5] 0 = some t) ∧ scoreCheck (one) 1280 youngG [vRef 6] 0 = none ∧
    ∃ fb, tabFind (writeReg 0 3 4 [0] youngG { lane := 0, reg := vRef 255, val := 9 }).fibres 0 = some fb := by
  refine ⟨?_, by decide, ?_, ?_, ?_⟩
  · exact (o.1 one youngG 0 youngFb (vRef 6) rfl).2 (by decide) (by decide) (by decide)
  · exact ⟨_, (o.2.2.2 one 1280 youngG 0 youngFb (vRef 5) rfl).trans (if_pos ⟨rfl, .inl (by decide)⟩)⟩
  · exact (o.2.2.2 one 1280 youngG 0 youngFb (vRef 6) rfl).trans (if_neg (by decide))
  · obtain ⟨fb, hf, -⟩ := o.2.1 0 3 4 [0] youngG { lane := 0, reg := vRef 255, val := 9 } youngFb rfl trivial (fun x => nomatch x)
    exact ⟨fb, hf⟩

theorem witness_HomeWrites (o : Obligations.HomeWrites) : memRead (homeWrite base 0x7F [1, 0, 2]) 0x7F 3 = [1, 0, 2] :=
  (o base 0x7F [1, 0, 2] (by decide)).1

end Sys2Proof.Tests
end

section
/-! The write at a home: bytes, poison, CRCs, monitors and dependence words. -/

namespace Sys2Proof.Proofs

open Sys2Proof Sys2Proof.Machine

/-! ### The fields that `homeWrite` leaves -/

theorem homeWrite_eq (s : State) (pa : Nat) {bs : List Byte} (h : bs ≠ []) :
    homeWrite s pa bs = wakeLines (putBytes s pa bs) pa bs.length := by
  simp [homeWrite, h]

/-- The bytes and the poison change, the CRCs follow, and nothing else does. -/
theorem putBytes_frame (s : State) (pa : Nat) (bs : List Byte) :
    putBytes s pa bs =
      { s with mem := spPutList 0#8 s.mem pa bs, poison := s.poison.filter fun sec => !covers pa bs.length sec,
               crcs := (putBytes s pa bs).crcs } := by
  unfold putBytes
  exact crcFollow_eq ..

theorem covers_iff (pa n sec : Nat) : covers pa n sec = true ↔ pa ≤ 32 * sec ∧ 32 * sec + 32 ≤ pa + n := by
  simp [covers]

theorem mem_homeWrite_poison (s : State) (pa : Nat) {bs : List Byte} (h : bs ≠ []) (sec : Nat) :
    sec ∈ (homeWrite s pa bs).poison ↔ sec ∈ s.poison ∧ ¬ (pa ≤ 32 * sec ∧ 32 * sec + 32 ≤ pa + bs.length) := by
  have hp : (homeWrite s pa bs).poison = s.poison.filter fun sec => !covers pa bs.length sec := by
    rw [homeWrite_eq s pa h, wakeLines, putBytes_frame]
  rw [hp, List.mem_filter, ← covers_iff, Bool.not_eq_true', Bool.not_eq_true]

theorem homeWrite_frame (s : State) (pa : Nat) {bs : List Byte} (h : bs ≠ []) :
    homeWrite s pa bs =
      { s with mem := (homeWrite s pa bs).mem, poison := (homeWrite s pa bs).poison, crcs := (homeWrite s pa bs).crcs,
               cache := { s.cache with mons := (homeWrite s pa bs).cache.mons },
               sched := { s.sched with shifts := (homeWrite s pa bs).sched.shifts } } := by
  rw [homeWrite_eq s pa h, wakeLines, putBytes_frame]

theorem homeWrite_mons (s : State) (pa : Nat) {bs : List Byte} (h : bs ≠ []) (k : Nat) :
    tabFind (homeWrite s pa bs).cache.mons k = (tabFind s.cache.mons k).map fun m =>
      if pa / 128 ≤ m.pa / 128 ∧ m.pa / 128 ≤ (pa + bs.length - 1) / 128 then { m with woken := true } else m := by
  rw [homeWrite_eq s pa h, wakeLines, putBytes_frame]
  simp [tabFind_tabMap]

theorem homeWrite_shifts (s : State) (pa : Nat) {bs : List Byte} (h : bs ≠ []) (k : Nat) :
    tabFind (homeWrite s pa bs).sched.shifts k = (tabFind s.sched.shifts k).map fun x =>
      { x with depWake := x.depWake ||
          decide (pa / 128 ≤ x.depPa / 128 ∧ x.depPa / 128 ≤ (pa + bs.length - 1) / 128) } := by
  rw [homeWrite_eq s pa h, wakeLines, putBytes_frame]
  dsimp only
  rw [tabFind_tabMap]
  congr 1
  funext x
  by_cases hm : pa / 128 ≤ x.depPa / 128 ∧ x.depPa / 128 ≤ (pa + bs.length - 1) / 128 <;> simp [hm]

/-! ### The CRCs follow the bytes -/

/-- Each block followed takes what its bytes' CRC changed by, and the others stand. -/
theorem crcKept_crcFollow (before after : State) (bs : List Nat) (hd : bs.Nodup) (blk : Nat) :
    crcKept (crcFollow before after bs) blk =
      if blk ∈ bs then crcKept after blk ^^^ crcStored before blk ^^^ crcStored after blk else crcKept after blk := by
  have go : ∀ u : State, crcKept (bs.foldl (fun s b =>
      { s with crcs := spSet 0#64 s.crcs b (crcKept s b ^^^ crcStored before b ^^^ crcStored after b) }) u) blk =
      if blk ∈ bs then crcKept u blk ^^^ crcStored before blk ^^^ crcStored after blk else crcKept u blk := by
    induction bs with
    | nil => intro u; rfl
    | cons b bs ih =>
      obtain ⟨hb, hd⟩ := List.nodup_cons.1 hd
      intro u
      rw [List.foldl_cons, ih hd]
      by_cases he : blk = b
      · subst he; simp [hb, crcKept]
      · simp [he, crcKept, spGet_spSet_other]
  exact go after

theorem chkBlocks_nodup (s : State) (pa n : Nat) : (chkBlocks s pa n).Nodup :=
  List.Pairwise.filter _ (List.Pairwise.map _ (fun _ _ hne he => hne (Nat.add_left_cancel he)) List.nodup_range)

theorem mem_chkBlocks {s : State} {pa n blk : Nat} (hn : 0 < n) (hc : (frameOf s (4096 * blk)).chk = true) :
    blk ∈ chkBlocks s pa n ↔ pa / 4096 ≤ blk ∧ blk ≤ (pa + n - 1) / 4096 := by
  simp only [chkBlocks, List.mem_filter, List.mem_map, List.mem_range, hc, and_true]
  constructor
  · rintro ⟨i, hi, rfl⟩; omega
  · intro h; exact ⟨blk - pa / 4096, by omega, by omega⟩

/-- Bytes that lie apart from those written read as before. -/
theorem memRead_homeWrite_apart (s : State) (pa : Nat) (bs : List Byte) (a n : Nat)
    (h : a + n ≤ pa ∨ pa + bs.length ≤ a) : memRead (homeWrite s pa bs) a n = memRead s a n := by
  simp only [memRead, homeWrite_mem, spRange]
  refine List.map_congr_left fun i hi => spGet_spPutList_outside _ _ _ _ _ ?_
  have := List.mem_range.1 hi
  omega

theorem crcStored_congr {s t : State} (h : t.mem = s.mem) (blk : Nat) : crcStored t blk = crcStored s blk := by
  simp only [crcStored, memRead, h]

theorem crcKept_homeWrite (s : State) (pa : Nat) {bs : List Byte} (h : bs ≠ []) (blk : Nat) :
    crcKept (homeWrite s pa bs) blk = if blk ∈ chkBlocks s pa bs.length then
      crcKept s blk ^^^ crcStored s blk ^^^ crcStored (homeWrite s pa bs) blk else crcKept s blk := by
  have hstored : crcStored (homeWrite s pa bs) blk = crcStored { s with mem := spPutList 0#8 s.mem pa bs } blk :=
    crcStored_congr (homeWrite_mem s pa bs) blk
  rw [hstored, homeWrite_eq s pa h]
  exact crcKept_crcFollow s _ _ (chkBlocks_nodup s pa bs.length) blk

/-- A block of a CHK frame keeps the difference of its kept CRC and that of its bytes (R153). -/
theorem crc_mismatch_homeWrite (s : State) (pa : Nat) {bs : List Byte} (h : bs ≠ []) (blk : Nat)
    (hc : (frameOf s (4096 * blk)).chk = true) :
    crcKept (homeWrite s pa bs) blk ^^^ crcStored (homeWrite s pa bs) blk = crcKept s blk ^^^ crcStored s blk := by
  have hlen : 0 < bs.length := List.length_pos_iff.2 h
  rw [crcKept_homeWrite s pa h]
  by_cases hm : blk ∈ chkBlocks s pa bs.length
  · rw [if_pos hm, BitVec.xor_assoc, BitVec.xor_self, BitVec.xor_zero]
  · rw [if_neg hm]
    rw [mem_chkBlocks hlen hc] at hm
    have happart : memRead (homeWrite s pa bs) (4096 * blk) 4096 = memRead s (4096 * blk) 4096 :=
      memRead_homeWrite_apart s pa bs _ _ (by omega)
    rw [crcStored, crcStored, happart]

/-! ### The obligation -/

/-- Settles O60: the bytes by the laws of `homeWrite`, the CRCs because a followed block takes the change of its bytes' CRC and
the bytes of every other block stand. -/
theorem homeWrites : Obligations.HomeWrites := by
  intro s pa bs h
  exact ⟨memRead_homeWrite s pa bs, memRead_homeWrite_outside s pa bs, homeWrite_wf pa bs, mem_homeWrite_poison s pa h,
    crc_mismatch_homeWrite s pa h, homeWrite_mons s pa h, homeWrite_frame s pa h, homeWrite_shifts s pa h⟩

end Sys2Proof.Proofs
end

section
/-! A step: the fetch of a word that no cache holds, its count, and the trap of a word that is no instruction. -/

namespace Sys2Proof.Proofs

open Sys2Proof Sys2Proof.Machine

/-! ### Nothing to recall -/

theorem recallFrom_of_noRecall {s : State} (h : NoRecall s) (c : Option Nat) (line : Nat) : recallFrom s c line = s := by
  have hf : frameFirst s (128 * line) = s := by simp [frameFirst, h.1]
  simp [recallFrom, hf, h.2 line]

theorem recallWalk_of_noRecall {s : State} (h : NoRecall s) (part va : Nat) : recallWalk s part va = s := by
  have hall : ∀ addrs : List Nat, addrs.foldl (fun s a => recallFrom s none (a / 128)) s = s := by
    intro addrs
    induction addrs with
    | nil => rfl
    | cons a addrs ih => rw [List.foldl_cons, recallFrom_of_noRecall h, ih]
  exact hall _

/-- Noting a translation changes the TLB alone. -/
theorem tlbAdd_of_noRecall {s : State} (h : NoRecall s) (pos part : Nat) (x : Xl) :
    tlbAdd s pos part x = { s with cache := { s.cache with tlb := (tlbAdd s pos part x).cache.tlb } } := by
  unfold tlbAdd
  dsimp only
  split
  · rfl
  · rw [recallWalk_of_noRecall h]

theorem noRecall_withTlb {s : State} (h : NoRecall s) (tlb : List TlbEntry) :
    NoRecall { s with cache := { s.cache with tlb } } := ⟨h.1, h.2⟩

/-! ### The fetch at the home -/

/-- R166: a word of device memory that no cache may hold is read at its home, once the translation is noted. -/
theorem fetchWord_atHome {s : State} {gk : Nat} {g : Gang} {cr : Crew} {pc : DWord} {x : Xl} (hpc : pc.toNat % 8 = 0)
    (hx : translate s (g.core / 16) cr.part cr.svc .fetch pc (xlIdx s 64) = .ok x) (hhost : isHost x.pa = false)
    (hpeer : isPeer x.pa = false) (hlost : addrLost s x.pa = false) (hleaf : x.leaf.getLsbD 4 = false) (hr : NoRecall s)
    (hpoison : readsPoison s x.pa 8 = false) (hwait : fetchWaits s g.core (x.pa / 128) s.nextId = false) :
    fetchWord s gk g cr pc = .word (tlbAdd s (g.core / 16) cr.part x) (wordOfBytes (memRead s x.pa 8)) := by
  simp only [fetchWord, hx, hpc, ne_eq, not_true_eq_false, if_false]
  have ht := tlbAdd_of_noRecall hr (g.core / 16) cr.part x
  generalize tlbAdd s (g.core / 16) cr.part x = t at ht
  have hrt : NoRecall t := ht ▸ noRecall_withTlb hr _
  have hlost' : addrLost t x.pa = false := by rw [ht]; exact hlost
  have hwait' : fetchWaits t g.core (x.pa / 128) t.nextId = false := by rw [ht]; exact hwait
  have hpoison' : readsPoison t x.pa 8 = false := by rw [ht]; exact hpoison
  have hmem : memRead t x.pa 8 = memRead s x.pa 8 := by rw [ht]; rfl
  have hrecall : (if holderOf t (x.pa / 128) = some g.core then t else recallFrom t none (x.pa / 128)) = t := by
    rw [recallFrom_of_noRecall hrt, ite_self]
  simp only [fetchAt, hhost, hpeer, hlost', hleaf, hwait', hrecall, hpoison', hmem, Bool.not_false, Bool.or_true,
    Bool.false_eq_true, if_false, if_true]

/-! ### The survey -/

theorem countCrew_frame (s : State) (ck core ctr n : Nat) :
    countCrew s ck core ctr n = { s with survey := (countCrew s ck core ctr n).survey } := by
  unfold countCrew
  split
  · rfl
  · split <;> rfl

/-- Counting a word changes the survey alone. -/
theorem countWord_frame (b : Bundle) (i : Instr) (s t : State) :
    countWord b i s t = { t with survey := (countWord b i s t).survey } := by
  unfold countWord
  split
  · rename_i g _
    generalize wordCounts i b.lanes.length = xs
    induction xs generalizing t with
    | nil => rfl
    | cons x xs ih => rw [List.foldl_cons, ih, countCrew_frame]
  · rfl

/-! ### A word that is no instruction -/

/-- The header under which a word that cannot be decoded traps: no guard, no counter. -/
def bareHdr : Hdr := { stall := 0, setc := 7, waitm := 0, ge := false, gp := 0, gs := false }

theorem leaving_traps (ls on : List Nat) (t : TrapInfo) : leaving ls (on.map fun l => (l, LaneEnd.trap t)) = ls := by
  simp [leaving]

/-- A trap that returns to its own word leaves the fibre as it is, until it is taken. -/
theorem endLane_trap_stays (cyc stall gid seq : Nat) (pc : DWord) {t : TrapInfo} (ht : t.next = false) (ls : List Nat) (g : Gang) :
    (ls.map fun l => (l, LaneEnd.trap t)).foldl (endLane cyc stall gid seq pc) g = g := by
  induction ls with
  | nil => rfl
  | cons l ls ih => simpa [endLane, ht] using ih

/-- What a bundle's gang has been through before its traps are taken: shadows and abandoned raises. -/
def settledGang (s : State) (b : Bundle) (g : Gang) : Gang :=
  dropOwed (cycOf s g.core) b.pc (castShadows s b.gang g s.nextId b.lanes g) b.lanes

theorem settledGang_frame (s : State) (b : Bundle) (g : Gang) :
    settledGang s b g = { g with fibres := (settledGang s b g).fibres, outs := (settledGang s b g).outs,
                                 zeroAt := (settledGang s b g).zeroAt } := by
  have hdrop := (dropOwed_find (cycOf s g.core) b.pc b.lanes (castShadows s b.gang g s.nextId b.lanes g)).1
  have hcast := (castShadows_find s b.gang g s.nextId b.lanes g).1
  unfold settledGang
  generalize castShadows s b.gang g s.nextId b.lanes g = gc at *
  rw [hdrop, hcast]

theorem settledGang_none {s : State} {b : Bundle} {g : Gang} {l : Nat} (h : tabFind g.fibres l = none) :
    tabFind (settledGang s b g).fibres l = none := by
  rw [settledGang, (dropOwed_find ..).2, ((castShadows_find s b.gang g s.nextId b.lanes g).2 l).1 h]
  rfl

theorem settledGang_some {s : State} {b : Bundle} {g : Gang} {l : Nat} {fb : Fibre} (h : tabFind g.fibres l = some fb) :
    ∃ fb', tabFind (settledGang s b g).fibres l = some fb' ∧ (l ∉ b.lanes → fb' = fb) ∧
      fb' = { fb with shadow := fb'.shadow, owed := if l ∈ b.lanes then fb.owed.filter (·.1 != b.pc) else fb.owed } := by
  obtain ⟨f1, h1, hf1, hsame⟩ := ((castShadows_find s b.gang g s.nextId b.lanes g).2 l).2 fb h
  refine ⟨leftBehind b.pc b.lanes l f1, by rw [settledGang, (dropOwed_find ..).2, h1]; rfl, fun hl => ?_, ?_⟩
  · rw [hsame hl]; simp [leftBehind, hl]
  · rw [hf1]; rfl

theorem modGang_congr {s : State} {gk : Nat} {g : Gang} {f f' : Gang → Gang} (hg : gangOf s gk = some g) (h : f g = f' g) :
    modGang s gk f = modGang s gk f' := by
  unfold gangOf at hg
  simp only [modGang, tabMod, hg, h]

/-- The end of an issue at which every lane traps at its own word. -/
theorem trapAllLanes_eq {s : State} {b : Bundle} {g : Gang} {ti : TrapInfo} (hg : gangOf s b.gang = some g) (hne : b.lanes ≠ [])
    (hti : ti.next = false) :
    trapAllLanes (ctxOf s b g) ti s =
      (fun u : State => { u with issue := none, nextId := u.nextId + 66, free := u.free + 1 })
        (modGang (endTraps b.gang b.pc none (modGang s b.gang fun _ => settledGang s b g)
          (b.lanes.map fun l => (l, LaneEnd.trap ti))) b.gang (splitBundle (s.nextId + 1) b.lanes)) := by
  have hoff : (b.lanes.filter fun l => !b.lanes.contains l) = [] := by simp
  have hdone : someDone (b.lanes.map fun l => (l, LaneEnd.trap ti)) = false := by simp [someDone]
  have hbegin : beginsNow { ctxOf s b g with on := b.lanes } (b.lanes.map fun l => (l, LaneEnd.trap ti)) = false := by
    simp [beginsNow, hdone, hne]
  have hlater : ∀ u : State, trapsLater u (b.lanes.map fun l => (l, LaneEnd.trap ti)) = false := fun u => by simp [trapsLater]
  unfold trapAllLanes finishWord
  simp only [ctxOf] at hbegin ⊢
  simp only [hoff, List.map_nil, List.append_nil, leaving_traps, endLane_trap_stays _ _ _ _ _ hti, hdone, hbegin, hlater,
    Bool.false_eq_true, if_false, Bool.or_false]
  rw [modGang_congr (f' := fun _ => settledGang s b g) hg]
  rfl

/-- R89, R93: a trap at decode is taken in every fibre of the bundle, whatever the guard. -/
theorem trapAllLanes_ends {s : State} {b : Bundle} {g : Gang} {ti : TrapInfo} (hg : gangOf s b.gang = some g)
    (hnd : b.lanes.Nodup) (hne : b.lanes ≠ []) (hh : handles s b g) (hti : ti.next = false) :
    EndsIssue s s (trapAllLanes (ctxOf s b g) ti s) b bareHdr g (fun _ => .trap ti) 0 := by
  obtain ⟨⟨c, hc, htv⟩, hhandler⟩ := hh
  have htvec : tvecOf s b.gang = c.tvec := by simp [tvecOf, hc]
  rw [trapAllLanes_eq hg hne hti]
  generalize hs1 : (modGang s b.gang fun _ => settledGang s b g) = s1
  have hs1f : s1 = { s with gangs := s1.gangs } := by rw [← hs1]; rfl
  have hs1g : ∀ k, gangOf s1 k = if k = b.gang then some (settledGang s b g) else gangOf s k := by
    intro k; rw [← hs1, gangOf_modGang, hg]; rfl
  have hfst : (b.lanes.map fun l => (l, LaneEnd.trap ti)).map (·.1) = b.lanes := by simp [Function.comp_def]
  obtain ⟨g2, hT, hTother, hTg, hg2, hg2off, hg2on⟩ := endTraps_enter b.gang b.pc none
    (b.lanes.map fun l => (l, LaneEnd.trap ti)) s1 (settledGang s b g) c (by rw [hs1g, if_pos rfl])
    (by rw [hs1f]; exact hc) (by rw [hfst]; exact hnd) (by
      simp only [List.mem_map]
      rintro _ ⟨l, hl, rfl⟩ t - -
      refine ⟨htv, fun fb hfb => ?_⟩
      cases hf : tabFind g.fibres l with
      | none => rw [settledGang_none hf] at hfb; cases hfb
      | some f0 =>
        obtain ⟨f1, h1, -, hf1⟩ := settledGang_some (s := s) (b := b) hf
        obtain rfl : f1 = fb := Option.some.inj (h1.symm.trans hfb)
        rw [hf1]
        exact hhandler l hl f0 hf)
  rw [hfst] at hg2off
  generalize hu : endTraps b.gang b.pc none s1 (b.lanes.map fun l => (l, LaneEnd.trap ti)) = u at *
  have hsplit := splitBundle_find (s.nextId + 1) b.lanes g2
  refine ⟨hg, ?_, fun k hk => ?_, splitBundle (s.nextId + 1) b.lanes g2, false, ?_, nofun, ⟨?_, ?_, ?_⟩, ?_⟩
  · simp only [modGang]
    rw [hT, hs1f]
  · have := gangOf_modGang u b.gang k (splitBundle (s.nextId + 1) b.lanes)
    rw [if_neg hk, hTother k hk, hs1g, if_neg hk] at this
    exact this
  · have := gangOf_modGang u b.gang b.gang (splitBundle (s.nextId + 1) b.lanes)
    rw [if_pos rfl, hTg] at this
    exact this
  · rw [(hsplit 0).1, hg2, settledGang_frame]
  · intro l hl
    cases hf : tabFind g.fibres l with
    | none =>
      refine (hsplit l).2.1 ?_
      by_cases hm : l ∈ b.lanes
      · rw [hg2on (l, .trap ti) (List.mem_map_of_mem hm), settledGang_none hf]; rfl
      · rw [hg2off l hm, settledGang_none hf]
    | some fb =>
      have hm : l ∉ b.lanes := hl.resolve_right (by simp [hf])
      obtain ⟨f1, h1, hsame, -⟩ := settledGang_some (s := s) (b := b) hf
      obtain ⟨f2, h2, -, hsame2⟩ := (hsplit l).2.2 f1 ((hg2off l hm).trans h1)
      rw [h2, hsame2 hm, hsame hm]
  · intro l hl fb hf
    obtain ⟨f1, h1, -, hf1⟩ := settledGang_some (s := s) (b := b) hf
    have h2 := hg2on (l, .trap ti) (List.mem_map_of_mem hl)
    rw [h1] at h2
    obtain ⟨f3, h3, hf3, -⟩ := (hsplit l).2.2 _ h2
    rw [if_pos hl] at hf1
    refine ⟨f3, h3, ?_, ?_⟩
    · rw [hf3, hf1, htvec]
      simp [landed, trapFibre, enterHandler, returnPoint, hti]
    · rw [hf3, hf1]; rfl
  · intro n
    have houts : (splitBundle (s.nextId + 1) b.lanes g2).outs = (settledGang s b g).outs := by rw [outs_splitBundle, hg2]
    have hall : (b.lanes.filter fun _ => LaneEnd.trap ti != LaneEnd.stay) = b.lanes := by simp
    have hctr : setcOf bareHdr = none := by decide
    rw [ctrVal_congr _ _ houts, hctr, replayedIn, hall, settledGang, ctrVal_drop (SameOwed.shadows ..)]
    simp

/-! ### The obligation -/

/-- Settles O55: the fetch gives the eight bytes at the home, and what they decode to says whether a meaning runs and is counted,
or every fibre traps. -/
theorem stepRuns : Obligations.StepRuns := by
  refine ⟨?_, fun s hs => by rw [step, hs]⟩
  intro s b g x hi hg hpc cr t w hx hhost hpeer hlost hleaf hr hpoison hwait
  have ht : t = { s with cache := { s.cache with tlb := t.cache.tlb } } := tlbAdd_of_noRecall hr ..
  have hgt : gangOf t b.gang = some g := by rw [ht]; exact hg
  have hfetch : issueOf s b = decodeFor b g t w := by
    rw [issueOf, hg]
    dsimp only
    rw [fetchWord_atHome hpc hx hhost hpeer hlost hleaf hr hpoison hwait]
  refine ⟨ht, fun i u hdec hexec => ?_, fun e hdec hh hnd hne _ => ?_⟩
  · have hstep : step s = afterIssue b i t (exec i t) := by
      simp only [step, hi, hfetch, decodeFor, hdec, hgt, Option.isSome_some, if_true]
    refine ⟨_, by rw [hstep, hexec, afterIssue], ?_, fun h => by rw [if_pos h]⟩
    split
    · rfl
    · exact countWord_frame ..
  · have hstep : step s = .next (trapAllLanes (ctxOf t b g) (decodeTrapOf e) t) := by
      simp only [step, hi, hfetch, decodeFor, hdec, issueTrap]
    have hht : handles t b g := by rw [ht]; exact hh
    refine ⟨_, hstep, ?_⟩
    cases e with
    | illegal => exact trapAllLanes_ends hgt hnd hne hht rfl
    | pairRule n => exact trapAllLanes_ends hgt hnd hne hht rfl

end Sys2Proof.Proofs
end

section
/-! The configuration space: plain registers of position 0, what a write leaves alone, BAR2, a function's queue pair, and the
read of a CFGRD. -/

namespace Sys2Proof.Proofs

open Sys2Proof Sys2Proof.Machine

/-! ### Configuration words and functions -/

theorem cfgGet_cfgSet (s : State) (a : Nat) (v : Word) (b : Nat) :
    cfgGet (cfgSet s a v) b = if b = a then v else cfgGet s b := by
  unfold cfgGet
  rw [cfgSet_cfg]
  by_cases hb : b = a
  · subst hb
    split <;> simp_all
  · rw [if_neg hb]
    split
    · rw [tabFind_tabDel_other _ _ _ hb]
    · rw [tabFind_tabPut_other _ _ _ _ hb]

theorem cfgChanged_cfgSet (s : State) (a : Nat) (v : Word) : CfgChanged s (cfgSet s a v) a v :=
  ⟨rfl, cfgGet_cfgSet s a v⟩

theorem funcChanged_modFunc (s : State) (fn : Nat) (f : Func → Func) : FuncChanged s (modFunc s fn f) fn f := by
  refine ⟨rfl, fun k => ?_⟩
  unfold funcOf
  rw [modFunc_funcs, tabFind_tabPut]
  split <;> rfl

/-! ### Plain registers of position 0 -/

/-- Where the plain registers below the claim table lie: translation, rings, management, and the peer windows. -/
def plainZone (off : Nat) : Prop :=
  off % 4 = 0 ∧ (0x240 ≤ off ∧ off < 0x258 ∧ off ≠ 0x24C ∨ 0x300 ≤ off ∧ off < 0x380 ∨ off = 0x384 ∨ off = 0x390 ∨
    0x700 ≤ off ∧ off < 0xF00)

theorem plainMask_zone {off : Nat} {m : Word} (h : plainMask off = some m) (hlt : off < 0x4000) : plainZone off := by
  refine Classical.byContradiction fun hz => ?_
  have hnone : plainMask off = none := by
    unfold plainZone at hz
    by_cases h4 : off % 4 = 0
    · simp only [plainMask, Bool.and_eq_true, decide_eq_true_eq]
      simp (disch := omega) only [if_neg]
    · simp [plainMask, h4]
  rw [hnone] at h
  cases h

theorem passMask_of_zone {off : Nat} (hz : plainZone off) : passMask off = none := by
  unfold plainZone at hz
  simp only [passMask, Bool.and_eq_true, Bool.or_eq_true, decide_eq_true_eq]
  simp (disch := omega) only [if_neg]

theorem zeroRead_plain {off : Nat} {m : Word} (h : plainMask off = some m) (hlt : off < 0x4000) (s : State) :
    zeroRead s off = some (cfgGet s off) := by
  have hz := plainMask_zone h hlt
  have hp := passMask_of_zone hz
  unfold plainZone at hz
  simp only [zeroRead, Bool.and_eq_true, Bool.or_eq_true, decide_eq_true_eq, h, hp, Option.isSome_some]
  simp (disch := omega) only [if_neg]
  simp

theorem zeroWrite_plain {off : Nat} {m : Word} (h : plainMask off = some m) (hm : m ≠ 0) (hlt : off < 0x4000) (v : Word)
    (s : State) : zeroWrite off v s = cfgSet s off (v &&& m) := by
  have hz := plainMask_zone h hlt
  have hp := passMask_of_zone hz
  unfold plainZone at hz
  simp only [zeroWrite, Bool.and_eq_true, decide_eq_true_eq, h, hp]
  simp (disch := omega) only [if_neg]

/-- The ownership registers lie from 0x280 to 0x2AB of a window (Table OUT-3). -/
theorem ownKind_outside (s : State) {addr : Nat} (h : addr % 67108864 < 0x280 ∨ 0x2AC ≤ addr % 67108864) :
    ownKind s addr = none := by
  have hpairs : ∀ k : DieKind, (if k = .shading then 16 else if (k = .geometry || k = .memory) = true then 32 else 0) ≤ 32 := by
    intro k
    cases k <;> decide
  have hk := hpairs (kindAt s (addr / 67108864))
  simp only [ownKind, Bool.and_eq_true, decide_eq_true_eq]
  split
  · rfl
  · rw [if_neg (by omega), if_neg (by omega)]

/-! ### The space as a whole -/

theorem windowThere_zero {s : State} (h : (tabFind s.dies 0).isSome) : windowThere s 0 = true := by
  simp [windowThere, h]

/-- A read at position 0 of a register of position 0 alone. -/
theorem cfgRead_zero {s : State} {off : Nat} {w : Word} (hd : (tabFind s.dies 0).isSome) (hlt : off < 0x4000)
    (h4 : off % 4 = 0) (hw : zeroRead s off = some w) :
    cfgRead s off = if off = 0x388 then
      ({ s with time := { s.time with thi := some (BitVec.ofNat 32 (s.time.now / 4294967296)) } }, w) else (s, w) := by
  obtain ⟨d, hd'⟩ := Option.isSome_iff_exists.1 hd
  have hpos : off / 67108864 = 0 := by omega
  have hoff : off % 67108864 = off := by omega
  simp [cfgRead, hpos, hoff, hd', windowThere_zero hd, h4, hw]

/-- A write at position 0 to a register of position 0 alone. -/
theorem cfgWrite_zero {s : State} {off : Nat} (hd : (tabFind s.dies 0).isSome) (hlt : off < 0x4000) (h4 : off % 4 = 0)
    (ho : ownKind s off = none) (hw : (zeroRead s off).isSome) (v : Word) (waits : List (Nat × Nat × Nat)) :
    cfgWrite off v waits s = (zeroWrite off v s, false) := by
  obtain ⟨d, hd'⟩ := Option.isSome_iff_exists.1 hd
  have hpos : off / 67108864 = 0 := by omega
  have hoff : off % 67108864 = off := by omega
  simp [cfgWrite, hpos, hoff, hd', windowThere_zero hd, h4, ho, hw]

/-- Below CFG.CANARY no register is position 0's alone. -/
theorem zeroRead_low (s : State) {off : Nat} (h : off < 0xC0) : zeroRead s off = none := by
  have hplain : plainMask off = none := by
    cases hm : plainMask off with
    | none => rfl
    | some m =>
      have hz := plainMask_zone hm (by omega)
      unfold plainZone at hz
      omega
  have hpass : passMask off = none := by
    simp only [passMask, Bool.and_eq_true, Bool.or_eq_true, decide_eq_true_eq]
    simp (disch := omega) only [if_neg, ite_self]
  simp only [zeroRead, Bool.and_eq_true, Bool.or_eq_true, decide_eq_true_eq, hplain, hpass, Option.isSome_none]
  simp (disch := omega) only [if_neg]
  simp

/-- Below CFG.CANARY a die has one register that software writes, CFG.SLOPE. -/
theorem dieWrite_low (pos : Nat) {off : Nat} (h20 : off ≠ 0x20) (hlt : off < 0xC0) (d : Die) (v : Word) (s : State) :
    dieWrite pos off d v s = s := by
  have hcanary : regIndex 0xC0 (coresOf d.kind) off = none := by
    simp only [regIndex, Bool.and_eq_true, decide_eq_true_eq]
    rw [if_neg (by omega)]
  simp only [dieWrite, if_neg h20, hcanary, Bool.and_eq_true, Bool.or_eq_true, decide_eq_true_eq]
  rw [if_neg (by omega)]

/-- R4, R15: a write to an absent position, to a misaligned address or to a read-only register of a die changes nothing. -/
theorem cfgWrite_nothing {s : State} {addr : Nat} (v : Word) (waits : List (Nat × Nat × Nat))
    (h : tabFind s.dies (addr / 67108864) = none ∨ addr % 67108864 % 4 ≠ 0 ∨
      addr % 67108864 ≠ 0x20 ∧ addr % 67108864 < 0xC0) :
    (cfgWrite addr v waits s).1 = s := by
  cases hd : tabFind s.dies (addr / 67108864) with
  | none => simp [cfgWrite, hd]
  | some d =>
    simp only [cfgWrite, hd]
    split
    · rfl
    · rename_i hin
      simp only [Bool.or_eq_true, decide_eq_true_eq, not_or] at hin
      obtain ⟨h20, hlt⟩ := (h.resolve_left (by simp [hd])).resolve_left hin.2
      rw [ownKind_outside s (.inl (by omega)), zeroRead_low s hlt, dieWrite_low _ h20 hlt]
      simp

/-- A read changes nothing but the latched half of device time. -/
theorem cfgRead_frame (s : State) (addr : Nat) : (cfgRead s addr).1 = { s with time := (cfgRead s addr).1.time } := by
  unfold cfgRead
  dsimp only
  split
  · rfl
  · split
    · rfl
    · split
      · split
        · split <;> rfl
        · rfl
      · rfl

/-- R84: a read of TLO latches THI. -/
theorem cfgRead_tlo {s : State} (hd : (tabFind s.dies 0).isSome) :
    (cfgRead s 0x388).1 = { s with time := { s.time with thi := some (BitVec.ofNat 32 (s.time.now / 2 ^ 32)) } } := by
  rw [cfgRead_zero (w := BitVec.ofNat 32 s.time.now) hd (by decide) (by decide) (by simp [zeroRead])]
  rfl

theorem cfgRead_thi {s : State} (hd : (tabFind s.dies 0).isSome) {v : Word} (h : s.time.thi = some v) :
    (cfgRead s 0x38C).2 = v := by
  rw [cfgRead_zero (w := v) hd (by decide) (by decide) (by simp [zeroRead, h])]
  rfl

/-! ### Writes from software and from BAR2 -/

/-- What a configuration write leads to, CFG_REGISTER_WRITE leads to, and so does a 32-bit write through BAR2 (R296). -/
theorem leads_cfgWrite {s : State} {addr v : Word} {P : State → Prop} (h : P (cfgWrite addr.toNat v [] s).1) :
    Leads s (.cfgRegisterWrite addr v) P ∧
    ∀ write, (write = true → Leads s (.bar2ConfigAccess write addr.toNat 4 v) fun t =>
      addr.toNat < 2 ^ 31 → addr.toNat % 2 ^ 26 % 4 = 0 → P t) := by
  refine ⟨⟨_, rfl, h⟩, ?_⟩
  rintro _ rfl
  by_cases h4 : addr.toNat % 4 = 0
  · refine ⟨if 2147483648 ≤ addr.toNat then s else (cfgWrite addr.toNat v [] s).1, ?_, fun hlt _ => ?_⟩
    · show execBar2ConfigAccess true addr.toNat 4 v s = _
      simp [execBar2ConfigAccess, h4]
    · rw [if_neg (by omega)]
      exact h
  · refine ⟨{ s with aer := s.aer + 1 }, ?_, fun _ hoff => absurd hoff (by omega)⟩
    show execBar2ConfigAccess true addr.toNat 4 v s = _
    simp [execBar2ConfigAccess, h4]

/-- R15: a plain register of position 0 keeps the bits that software may write, and they read back. -/
theorem cfgWrite_plain {s : State} {off : Nat} {m : Word} (v : Word) (hm : plainMask off = some m) (hm0 : m ≠ 0)
    (hlt : off < 0x4000) (hd : (tabFind s.dies 0).isSome) :
    CfgChanged s (cfgWrite off v [] s).1 off (v &&& m) ∧ (cfgRead (cfgWrite off v [] s).1 off).2 = v &&& m := by
  have hz := plainMask_zone hm hlt
  have hown : ownKind s off = none := ownKind_outside s (by unfold plainZone at hz; omega)
  rw [cfgWrite_zero hd hlt hz.1 hown (by rw [zeroRead_plain hm hlt]; rfl), zeroWrite_plain hm hm0 hlt]
  refine ⟨cfgChanged_cfgSet s off (v &&& m), ?_⟩
  have hread := cfgRead_zero (s := cfgSet s off (v &&& m)) hd hlt hz.1 (zeroRead_plain hm hlt _)
  rw [hread, if_neg (by unfold plainZone at hz; omega), cfgGet_cfgSet, if_pos rfl]

/-! ### A function's queue pair -/

theorem exec_functionRegisterWrite {fn off : Nat} (hfn : fn ≤ 192) (h4 : off % 4 = 0) (hlt : off < 0x1000) (v : Word) (s : State) :
    exec (.functionRegisterWrite fn off v) s = .next (queueWrite fn off v s) := by
  show execFunctionRegisterWrite fn off v s = _
  have hin : ¬ (192 < fn || decide (off % 4 ≠ 0)) = true := by simp [h4]; omega
  rw [execFunctionRegisterWrite, if_neg hin, if_pos hlt]

/-- A write to a queue register changes the function as its row of Table OUT-2 says. -/
theorem leads_queueWrite {s : State} {fn off : Nat} {v : Word} {f : Func → Func} (hfn : fn ≤ 192) (h4 : off % 4 = 0)
    (hlt : off < 0x1000) (h : queueWrite fn off v s = modFunc s fn f) :
    Leads s (.functionRegisterWrite fn off v) fun t => FuncChanged s t fn f :=
  ⟨_, exec_functionRegisterWrite hfn h4 hlt v s, h ▸ funcChanged_modFunc s fn f⟩

/-- R298: base and size fields stand while EN is 1. -/
theorem queueWrite_enabled {s : State} {fn : Nat} (hen : (funcOf s fn).en = true) (v : Word) {off : Nat}
    (h : off ∈ [0x00, 0x04, 0x08, 0x14, 0x18, 0x1C]) : queueWrite fn off v s = s := by
  simp only [List.mem_cons, List.not_mem_nil, or_false] at h
  rcases h with rfl | rfl | rfl | rfl | rfl | rfl <;> simp [queueWrite, hen]

/-! ### The read of a CFGRD -/

theorem tabFind_filter_of_none {α : Type} {t : Tab α} {k : Nat} (h : tabFind t k = none) (p : Nat × α → Bool) :
    tabFind (t.filter p) k = none := by
  induction t with
  | nil => rfl
  | cons x t ih =>
    obtain ⟨k', v⟩ := x
    have hk : k ≠ k' := by rintro rfl; simp [tabFind] at h
    rw [tabFind, if_neg hk] at h
    rw [List.filter_cons]
    split
    · rw [tabFind, if_neg hk]
      exact ih h
    · exact ih h

/-- Changing fibres one after another changes fibres alone, and none of them leaves its slot. -/
theorem foldl_modFibreG (F : Nat → Fibre → Fibre) (ls : List Nat) (g : Gang) :
    ls.foldl (fun g l => modFibreG g l (F l)) g = { g with fibres := (ls.foldl (fun g l => modFibreG g l (F l)) g).fibres } ∧
    ∀ k, (tabFind (ls.foldl (fun g l => modFibreG g l (F l)) g).fibres k).isSome = (tabFind g.fibres k).isSome := by
  induction ls generalizing g with
  | nil => exact ⟨rfl, fun _ => rfl⟩
  | cons l ls ih =>
    obtain ⟨hframe, hslots⟩ := ih (modFibreG g l (F l))
    refine ⟨by rw [List.foldl_cons, hframe]; rfl, fun k => ?_⟩
    rw [List.foldl_cons, hslots, modFibreG_fibres, tabFind_tabMod]
    split
    · subst k; simp
    · rfl

/-- A gang that has a fibre goes on when an issue completes. -/
theorem complete_of_fibre {s : State} {gk l : Nat} {g : Gang} (hg : gangOf s gk = some g) (hl : (tabFind g.fibres l).isSome)
    (gid n : Nat) : complete s gk gid n = ctrDoneS s gk gid n := by
  have hg' : gangOf (ctrDoneS s gk gid n) gk = some (ctrDone (cycOf s g.core) g gid n) := by
    rw [ctrDoneS, gangOf_modGang, if_pos rfl, hg]; rfl
  have hfib : (ctrDone (cycOf s g.core) g gid n).fibres.isEmpty = false := by
    show g.fibres.isEmpty = false
    cases hf : g.fibres with
    | nil => simp [hf] at hl
    | cons _ _ => rfl
  simp [complete, tryEndGang, hg', hfib]

/-- An access that is over leaves the memory system; its gang's registers stand. -/
theorem finishAcc_of_fibre {s : State} {l : Nat} {g : Gang} (id n : Nat) {a : Acc} (hg : gangOf s a.gang = some g)
    (hl : (tabFind g.fibres l).isSome) :
    finishAcc s id a n = { s with gangs := (finishAcc s id a n).gangs, accs := tabDel s.accs id } ∧
    (∀ k, k ≠ a.gang → gangOf (finishAcc s id a n) k = gangOf s k) ∧
    ∃ g', gangOf (finishAcc s id a n) a.gang = some g' ∧ g'.pool = g.pool ∧ g'.sregs = g.sregs := by
  obtain ⟨hframe, hslots⟩ := foldl_modFibreG (fun _ f => { f with acqs := f.acqs.filter (· != a.seq) }) a.lanes g
  generalize hs1 : dropAcqs { s with accs := tabDel s.accs id } a.gang a.seq a.lanes = s1
  have hg1 : ∀ k, gangOf s1 k = if k = a.gang then
      some (a.lanes.foldl (fun g l => modFibreG g l fun f => { f with acqs := f.acqs.filter (· != a.seq) }) g)
      else gangOf s k := by
    intro k
    rw [← hs1, dropAcqs, gangOf_modGang]
    simp only [gangOf] at hg ⊢
    rw [hg]
    rfl
  have hfin : finishAcc s id a n = ctrDoneS s1 a.gang a.gid n := by
    rw [finishAcc, hs1, complete_of_fibre (by rw [hg1, if_pos rfl]) ((hslots l).trans hl)]
  rw [hfin]
  refine ⟨by rw [ctrDoneS, ← hs1]; rfl, fun k hk => ?_, ?_⟩
  · rw [ctrDoneS, gangOf_modGang, if_neg hk, hg1, if_neg hk]
  · rw [ctrDoneS, gangOf_modGang, if_pos rfl, hg1, if_pos rfl]
    refine ⟨_, rfl, ?_⟩
    rw [hframe]
    exact ⟨rfl, rfl⟩

/-- R99: data that no later word has overwritten lands in its register. -/
theorem landReg_lands {g : Gang} {l seq : Nat} {fb : Fibre} {d : Opnd} (v : Word) (hf : tabFind g.fibres l = some fb)
    (hle : (if d.s then spGet 0 g.swseq d.n.toNat else spGet 0 fb.wseq d.n.toNat) ≤ seq) :
    regNow (landReg seq g (oneWrite d l v)) fb (opRef d) = v ∧
    (tabFind (landReg seq g (oneWrite d l v)).fibres l).isSome := by
  cases hs : d.s with
  | true =>
    rw [hs, if_pos rfl] at hle
    simp [landReg, oneWrite, opRef, hs, hf, hle, storeReg, noteWrite, regNow]
  | false =>
    rw [hs, if_neg (by decide)] at hle
    simp [landReg, oneWrite, opRef, hs, hf, hle, storeReg, noteWrite, regNow, modFibreG]

/-- An event about a pending CFGRD performs it: it waits for no change of a frame, since it reads no memory. -/
theorem exec_loadDataReturn_cfgrd {s : State} {id : Nat} {a : Acc} {d : Opnd} {addr : Word} (ha : tabFind s.accs id = some a)
    (hop : a.op = .cfgrd d addr) (hst : a.st = .pending) (haway : crewAway s a.crew = false) :
    exec (.loadDataReturn id) s = .next (purgeAccs (returnCfgrd s id a d addr)) := by
  have hframe : atFrame a = false := by simp [atFrame, hop]
  show execLoadDataReturn id s = _
  simp only [execLoadDataReturn, accEvent, ha, hop, hst, haway, Bool.false_and, Bool.false_eq_true, if_false, performAcc, hframe]

/-- R334: the read of one lane is performed where no lower lane of its word and no earlier access of its fibre to the position
stands before it. -/
theorem returnCfgrd_performs {s : State} {id l : Nat} {a : Acc} {d : Opnd} {addr : Word} (hlanes : a.lanes = [l])
    (hlower : ∀ x ∈ s.accs, x.1 < id → x.2.gang = a.gang → x.2.seq = a.seq → accWaits x.2 = false)
    (hreads : readsCfg s a.gang l id (cfgPos addr) = false) (hwrites : writesCfg s a.gang l a.seq (cfgPos addr) = false)
    (hlands : landsLater s a.gang [l] a.seq (accDest a) = false) :
    returnCfgrd s id a d addr =
      finishAcc (landOpnd (cfgRead s addr.toNat).1 a.gang l a.seq d (cfgRead s addr.toNat).2) id a 1 := by
  unfold returnCfgrd
  dsimp only
  rw [if_neg, hlanes]
  · rfl
  · simp only [hlanes, List.any_cons, List.any_nil, hreads, hwrites, hlands, Bool.or_false, Bool.not_eq_true, List.any_eq_false,
      Bool.and_eq_true, decide_eq_true_eq, beq_iff_eq]
    rintro x hx ⟨⟨⟨hk, hgang⟩, hseq⟩, hwaits⟩
    rw [hlower x hx hk hgang hseq] at hwaits
    cases hwaits

/-- The register's value at this instant lands in D, and the access is over. -/
theorem finishAcc_landOpnd {s : State} {l : Nat} {g : Gang} {fb : Fibre} {d : Opnd} (v : Word) (id n : Nat) {a : Acc}
    (hg : gangOf s a.gang = some g) (hf : tabFind g.fibres l = some fb)
    (hle : (if d.s then spGet 0 g.swseq d.n.toNat else spGet 0 fb.wseq d.n.toNat) ≤ a.seq) :
    let u := finishAcc (landOpnd s a.gang l a.seq d v) id a n
    u = { s with gangs := u.gangs, accs := tabDel s.accs id } ∧ (∀ k, k ≠ a.gang → gangOf u k = gangOf s k) ∧
    ∃ g', gangOf u a.gang = some g' ∧ regNow g' fb (opRef d) = v := by
  obtain ⟨hval, hslot⟩ := landReg_lands v hf hle
  have hland : ∀ k, gangOf (landOpnd s a.gang l a.seq d v) k =
      if k = a.gang then some (landReg a.seq g (oneWrite d l v)) else gangOf s k := by
    intro k
    rw [landOpnd, gangOf_modGang, hg]
    rfl
  obtain ⟨hu, hother, g', hg', hpool, hsregs⟩ := finishAcc_of_fibre id n ((hland a.gang).trans (if_pos rfl)) hslot
  refine ⟨hu, fun k hk => by rw [hother k hk, hland, if_neg hk], g', hg', ?_⟩
  rw [regNow_pool hpool hsregs rfl rfl rfl rfl, hval]

/-- What a CFGRD that is performed leaves: the value in D, no access, and nothing else changed but a latch of device time. -/
theorem cfgrd_lands {s : State} {id l : Nat} {a : Acc} {g : Gang} {fb : Fibre} {d : Opnd} {addr : Word}
    (hg : gangOf s a.gang = some g) (hf : tabFind g.fibres l = some fb)
    (hle : (if d.s then spGet 0 g.swseq d.n.toNat else spGet 0 fb.wseq d.n.toNat) ≤ a.seq) :
    let t := purgeAccs (finishAcc (landOpnd (cfgRead s addr.toNat).1 a.gang l a.seq d (cfgRead s addr.toNat).2) id a 1)
    t = { s with gangs := t.gangs, accs := t.accs, time := (cfgRead s addr.toNat).1.time } ∧ tabFind t.accs id = none ∧
    (∀ k, k ≠ a.gang → gangOf t k = gangOf s k) ∧
    ∃ g', gangOf t a.gang = some g' ∧ regNow g' fb (opRef d) = (cfgRead s addr.toNat).2 := by
  have hr := cfgRead_frame s addr.toNat
  generalize (cfgRead s addr.toNat).1 = r at *
  have hgangs : ∀ k, gangOf r k = gangOf s k := fun k => by rw [hr]; rfl
  obtain ⟨hu, hother, hgang⟩ := finishAcc_landOpnd (s := r) (cfgRead s addr.toNat).2 id 1 ((hgangs a.gang).trans hg) hf hle
  generalize finishAcc (landOpnd r a.gang l a.seq d (cfgRead s addr.toNat).2) id a 1 = u at *
  refine ⟨?_, ?_, fun k hk => (hother k hk).trans (hgangs k), hgang⟩
  · simp only [purgeAccs]
    rw [hu, hr]
  · refine tabFind_filter_of_none ?_ _
    rw [hu]
    exact tabFind_tabDel_same ..

/-! ### The obligation -/

/-- Settles O34: the laws of plain registers and of `cfgWrite_nothing` for both ways into the space, the latch of THI, the queue
registers row by row, and the read of a CFGRD. -/
theorem configurationEvents : Obligations.ConfigurationEvents := by
  refine ⟨?_, ?_, ?_, ?_, ?_⟩
  · intro s id l a g fb d addr ha hop hst hlanes haway hg hf hlower hreads hwrites hlands hle
    refine ⟨_, exec_loadDataReturn_cfgrd ha hop hst haway, ?_⟩
    rw [returnCfgrd_performs hlanes hlower hreads hwrites hlands]
    exact cfgrd_lands hg hf hle
  · intro s addr v pos off writes
    refine ⟨fun m hpos hm hm0 hlt hd => leads_cfgWrite ?_, fun h => leads_cfgWrite ?_⟩
    · have haddr : addr.toNat = off := by simp only [pos, off] at *; omega
      rw [haddr]
      obtain ⟨hchanged, hread⟩ := cfgWrite_plain v hm hm0 hlt hd
      exact ⟨hchanged, fun _ => hread⟩
    · refine cfgWrite_nothing v [] ?_
      simp only [List.mem_cons, List.not_mem_nil, or_false] at h
      rcases h with h | h | h | h
      · exact .inl h
      · exact .inr (.inl h)
      · exact .inr (.inr (by simp only [off] at h; omega))
      · exact .inr (.inr (by simp only [off] at h; omega))
  · intro s v hd _
    refine ⟨_, rfl, ?_⟩
    show (cfgRead s 0x388).1 = _ ∧ (cfgRead (cfgRead s 0x388).1 0x38C).2 = _
    rw [cfgRead_tlo hd]
    refine ⟨rfl, cfgRead_thi ?_ rfl⟩
    exact hd
  · intro s off size v hsize
    refine ⟨_, ?_, rfl⟩
    show execBar2ConfigAccess true off size v s = _
    simp [execBar2ConfigAccess, hsize]
  · intro s fn v hfn reg
    refine ⟨fun hen => ?_, fun hen off hoff => ?_, ?_, ?_⟩
    · have hbase : ∀ f, (if (funcOf s fn).en = true then s else modFunc s fn f) = modFunc s fn f := fun f => by simp [hen]
      exact ⟨leads_queueWrite hfn rfl (by decide) (hbase _), leads_queueWrite hfn rfl (by decide) (hbase _),
        leads_queueWrite hfn rfl (by decide) (hbase _), leads_queueWrite hfn rfl (by decide) (hbase _),
        leads_queueWrite hfn rfl (by decide) (hbase _), leads_queueWrite hfn rfl (by decide) (hbase _)⟩
    · refine ⟨_, exec_functionRegisterWrite hfn ?_ ?_ v s, queueWrite_enabled hen v hoff⟩ <;> revert off <;> decide
    · exact leads_queueWrite hfn rfl (by decide) rfl
    · rintro off (rfl | rfl)
      · exact exec_functionRegisterWrite hfn rfl (by decide) v s
      · rw [exec_functionRegisterWrite hfn rfl (by decide)]
        show Host.Outcome.next (if v.getLsbD 31 then queueOn fn s else queueOff fn s) = _
        split <;> rfl

end Sys2Proof.Proofs
end
